-- ==== Sys2Proof/Word.lean ====
section
/-! DEFINITION. The words of Beybry and the sparse maps that hold its storage. -/

namespace Sys2Proof

/-- One byte (R5). -/
abbrev Byte := BitVec 8
/-- A word of 32 bits (R5). -/
abbrev W32 := BitVec 32
/-- A word of 64 bits: addresses, instruction words, 64-bit registers. -/
abbrev W64 := BitVec 64
/-- A set of group lanes: bit `L` stands for lane `L` (R30). -/
abbrev LaneMask := BitVec 64

/-- Storage with a default: pairs of a key and a value, keys strictly rising, and no value equal to
the default the storage reads as where nothing is listed. -/
abbrev Sparse (α : Type) := List (Nat × α)

end Sys2Proof
end

