-- ==== Sys2Proof/Syntax.lean ====
section
/-! DEFINITION. The abstract instructions of Beybry: one constructor for each row of the table of
operations and events, with the operand forms of "Instruction formats and opcode map". -/

namespace Sys2Proof

/-! ### Operands -/

/-- A register named by an operand field: 0–191 are `v0`–`v191`, 192–255 are `s0`–`s63` (R176). -/
inductive Reg where
  | v (n : Nat)
  | s (n : Nat)
  deriving DecidableEq, Repr

/-- A source operand: a register, a mapped vector register (R223; selector 15 is `msum`), the 12-bit
immediate of the I-form or the 64-bit literal of the L-form (R177, R178). -/
inductive Src where
  | reg (r : Reg)
  | map (sel : Nat) (n : Nat)
  | imm (x : BitVec 12)
  | lit (x : W64)
  deriving DecidableEq, Repr

/-- A guard field: 0–11 name a predicate, 15 is always (R175). -/
structure Guard where
  idx : Nat
  neg : Bool
  deriving DecidableEq, Repr

/-- The choice of set-flag A or B of the clause header (R73). -/
inductive FlagSel where
  | A | B
  deriving DecidableEq, Repr

/-- The integer types (R150, R181). -/
inductive IntTy where
  | i8 | i16 | i32 | i64 | n8 | n16 | n32 | n64
  deriving DecidableEq, Repr

/-- The rounding modes (R153, R181). -/
inductive Mode where
  | rn | rz | ru | rd | ra | sr
  deriving DecidableEq, Repr

/-- The scopes, narrowest first (R6, R181). -/
inductive Scope where
  | group | block | mill | die | device | domain | system
  deriving DecidableEq, Repr

/-- The data types of loads and stores (R181): `w32` is `.n32` or `.i32`, `w64` is `.n64` or `.i64`. -/
inductive DType where
  | n8 | i8 | n16 | i16 | w32 | w64 | b128
  deriving DecidableEq, Repr

/-- The atomic operations (R181). -/
inductive AtomOp where
  | add | fadd | smin | smax | umin | umax | and | or | xor | xchg | cas
  deriving DecidableEq, Repr

/-- The orders of an atomic (R256). -/
inductive Order where
  | plain | acq | rel | ar
  deriving DecidableEq, Repr

/-- The width of an atomic (R256). -/
inductive AtomWidth where
  | b32 | b64
  deriving DecidableEq, Repr

/-- The operations of `LOP` (R192). -/
inductive LopOp where
  | and | or | xor | andn | orn | xnor
  deriving DecidableEq, Repr

/-- The conditions of `ICMP` (R200). -/
inductive ICond where
  | eq | ne | lt | le | gt | ge | f | t
  deriving DecidableEq, Repr

/-- The conditions of `FCMP` (R238). -/
inductive FCond where
  | eq | ne | lt | le | gt | ge | un | ordered
  deriving DecidableEq, Repr

/-- The NaN handling of `FMIN` and `FMAX` (R237). -/
inductive NanKind where
  | num | nan
  deriving DecidableEq, Repr

/-- What `POLL` gathers and where it writes it (R206). -/
inductive PollOp where
  | every (pd : Nat)
  | some (pd : Nat)
  | same (pd : Nat)
  | bits (d : Reg)
  | count (d : Reg)
  | first (d : Reg)
  deriving DecidableEq, Repr

/-- The operations of `MASK.wr` (R208). -/
inductive MaskOp where
  | set | and | or | andn
  deriving DecidableEq, Repr

/-- The modes of `LANEX` (R209). -/
inductive LaneMode where
  | idx | off | rot | flip | rev
  deriving DecidableEq, Repr

/-- The packed half formats (R240). -/
inductive HalfFmt where
  | f16 | bf16
  deriving DecidableEq, Repr

/-- The element types of `CVT` (R243). -/
inductive CTy where
  | f32 | f16 | bf16 | e4m3 | e5m2 | wt8 | wt6 | i8 | n8 | i16 | n16 | i32 | n32 | i64 | n64
  deriving DecidableEq, Repr

/-- The MX formats of `QNT`, `DQNT`, `MXLD` and `MXST`, format codes 5 to 10 (R147, R244). -/
inductive MxFmt where
  | e4m3 | e5m2 | e3m2 | e2m3 | e2m1 | i8
  deriving DecidableEq, Repr

/-- What `RAND` writes (R246). -/
inductive RandKind where
  | n32 | n64 | f32
  deriving DecidableEq, Repr

/-- The folds of the expand unit (R273). -/
inductive FoldOp where
  | add | fadd | smin | smax | umin | umax | and | or | xor
  deriving DecidableEq, Repr

/-- The fields `TRIGI` reads (R286). -/
inductive TrigField where
  | wid | addr | sector | sblk | origin | depth | arg | count
  deriving DecidableEq, Repr

/-! ### Names of agents and the data of events -/

/-- A fragment: its block's identity, its group number and its fragment id. -/
structure FragRef where
  bid : Nat
  gid : Nat
  fid : Nat
  deriving DecidableEq, Repr

/-- Where a dispatcher places a block and which areas it allocates: the mill, each group's lane
position in group order (R26), the private region (R103), the save image and the staging area (R316). -/
structure Placement where
  mill  : Nat
  pos   : List Nat
  priv  : W64
  save  : Nat
  stage : Nat
  deriving DecidableEq, Repr

/-- What a far access does at its target (R287, R288). -/
inductive FarKind where
  | load
  | store
  | red (op : AtomOp)
  deriving DecidableEq, Repr

/-- One lane's part of a far access: the issuer's address, the bytes and the value. -/
structure FarAcc where
  lane : Nat
  addr : W64
  size : Nat
  val  : BitVec 128
  deriving DecidableEq, Repr

/-- A far access as Spur carries it to its target (R98, R285, R380): the issuer's number for it and its
rank, the context, what it does, whether it carries a qualifier, whether its launch runs deterministic, the
lanes' accesses, and the storer. An access of size 0 asks for the target's checks alone. -/
structure FarReq where
  id      : Nat
  rank    : Nat
  ctx     : Nat
  kind    : FarKind
  ordered : Bool
  det     : Bool
  accs    : List FarAcc
  sblk    : W32
  depth   : Nat
  key     : Nat
  srank   : Nat
  deriving DecidableEq, Repr

/-- A target's answer to a far access (R380): the values read, or a cause, a code and the failing lanes. -/
inductive FarReply where
  | ok (vals : List (BitVec 128))
  | fail (cause code : Nat) (lanes : LaneMask)
  deriving DecidableEq, Repr

/-- The host's answer to an access to a host page (R381). -/
inductive HostReply where
  | ok
  | error
  deriving DecidableEq, Repr

/-- The header fields of one remote contribution to a collective (R389). -/
structure CollHead where
  rank  : Nat
  op    : Nat
  type  : Nat
  count : Nat
  deriving DecidableEq, Repr

/-- The arrival of a member at a start barrier (R304, R387). -/
structure Arrival where
  rank : Nat
  gen  : W32
  time : W64
  deriving DecidableEq, Repr

/-- A message about a gang's domain barrier (R267, R386). -/
inductive BarMsg where
  | arrived (rank : Nat)
  | completed
  deriving DecidableEq, Repr

/-- The cooling limits that lower the issue rate (R406). -/
inductive Coolant where
  | temperature | flow
  deriving DecidableEq, Repr

/-- The size field of TLBINV (R101). -/
inductive PageSize where
  | k64 | m2 | m512
  deriving DecidableEq, Repr

/-- A firmware image: header fields, body and signature of 16,224 bytes (R405). -/
structure Firmware where
  version  : W32
  rollback : W32
  body     : List Byte
  sig      : Vector Byte 16224
  deriving DecidableEq, Repr

/-- What a measurement register is extended by (R409): the digest of a kernel image of `n` bytes at a physical address, or
a digest that the driver gives (log entry 65). -/
inductive Measured where
  | kernel (pa n : Nat)
  | digest (h : BitVec 256)
  deriving DecidableEq, Repr

/-- The two slice registers (R307). -/
inductive SliceReg where
  | slt0 | slper
  deriving DecidableEq, Repr

/-! ### The instructions -/

/-- One constructor for each row of the table of operations and events. -/
inductive Instr where
  -- row 0x0 (R210 to R220, R296)
  | nop
  | bra (g : Guard) (disp : BitVec 36)
  | brx (g : Guard) (a : Reg)
  | call (g : Guard) (d : Reg) (disp : BitVec 36)
  | ret (g : Guard) (a : Reg)
  | exit (g : Guard)
  | tok (disp : BitVec 36)
  | join
  | yield
  | sleepRel (a : Nat)
  | sleepAbs (a : Nat)
  | trap (g : Guard) (code : BitVec 8)
  | bkpt (g : Guard)
  -- the three fates of R173
  | reservedHint (w : W64)
  | reservedEmulable (w : W64)
  | reservedInvalid (w : W64)
  -- row 0x1 (R190, R191)
  | iadd (g : Guard) (all : Bool) (t : IntTy) (d : Reg) (a b : Src)
  | iadd3 (g : Guard) (all : Bool) (t : IntTy) (d : Reg) (a b c : Src)
  | isub (g : Guard) (all : Bool) (t : IntTy) (d : Reg) (a b : Src)
  | imul (g : Guard) (all : Bool) (t : IntTy) (d : Reg) (a b : Src)
  | imulh (g : Guard) (all : Bool) (t : IntTy) (d : Reg) (a b : Src)
  | imad (g : Guard) (all : Bool) (t : IntTy) (d : Reg) (a b c : Src)
  | imin (g : Guard) (all : Bool) (t : IntTy) (d : Reg) (a b : Src)
  | imax (g : Guard) (all : Bool) (t : IntTy) (d : Reg) (a b : Src)
  | iabs (g : Guard) (all : Bool) (t : IntTy) (d : Reg) (a : Src)
  | ineg (g : Guard) (all : Bool) (t : IntTy) (d : Reg) (a : Src)
  | lea (g : Guard) (sgn : Bool) (sh : Nat) (d : Reg) (a : Reg) (b : Src)
  -- row 0x2 (R192 to R199)
  | lop (g : Guard) (op : LopOp) (b64 : Bool) (d : Reg) (a : Reg) (b : Src)
  | bits3 (g : Guard) (f : BitVec 8) (d a b c : Reg)
  | shl (g : Guard) (t : IntTy) (d : Reg) (a : Reg) (b : Src)
  | shr (g : Guard) (t : IntTy) (d : Reg) (a : Reg) (b : Src)
  | sar (g : Guard) (t : IntTy) (d : Reg) (a : Reg) (b : Src)
  | fsh (g : Guard) (left clamp : Bool) (d : Reg) (a b : Reg) (c : Src)
  | bfe (g : Guard) (t : IntTy) (d : Reg) (a : Reg) (b : Src)
  | bfi (g : Guard) (t : IntTy) (d : Reg) (a b : Reg) (c : Src)
  | bysel (g : Guard) (d : Reg) (a b : Reg) (c : Src)
  | popc (g : Guard) (t : IntTy) (d : Reg) (a : Src)
  | clz (g : Guard) (t : IntTy) (d : Reg) (a : Src)
  | brev (g : Guard) (t : IntTy) (d : Reg) (a : Src)
  -- row 0x3 (R200 to R209)
  | icmp (g : Guard) (all : Bool) (cc : ICond) (t : IntTy) (pd : Nat) (a b : Src)
  | sel (g : Guard) (all : Bool) (t : IntTy) (d : Reg) (a b : Src) (pc : Nat)
  | mov (g : Guard) (t : IntTy) (d : Reg) (a : Src)
  | movi (g : Guard) (t : IntTy) (d : Reg) (x : BitVec 36)
  | plop (g : Guard) (f : BitVec 8) (pd pa pb pc : Nat)
  | pmovPack (g : Guard) (d : Reg)
  | pmovUnpack (g : Guard) (a : Reg) (b : Src)
  | pmovCopy (g : Guard) (pd pa : Nat)
  | poll (g : Guard) (op : PollOp) (pa : Nat)
  | maskRd (g : Guard) (d : Reg)
  | maskRdHeld (g : Guard) (d : Reg)
  | maskWr (g : Guard) (op : MaskOp) (a : Src)
  | lanex (g : Guard) (m : LaneMode) (b64 : Bool) (d : Reg) (a : Reg) (b : Src)
  -- row 0x4 (R236 to R240)
  | fadd (g : Guard) (all : Bool) (m : Mode) (d : Reg) (a b : Src)
  | fmul (g : Guard) (all : Bool) (m : Mode) (d : Reg) (a b : Src)
  | ffma (g : Guard) (all : Bool) (m : Mode) (d : Reg) (a b c : Src)
  | fmin (g : Guard) (all : Bool) (k : NanKind) (d : Reg) (a b : Src)
  | fmax (g : Guard) (all : Bool) (k : NanKind) (d : Reg) (a b : Src)
  | fcmp (g : Guard) (all : Bool) (cc : FCond) (pd : Nat) (a b : Src)
  | fclass (g : Guard) (all : Bool) (d : Reg) (a : Src)
  | fclassTest (g : Guard) (all : Bool) (pd : Nat) (a b : Src)
  | hadd2 (g : Guard) (all : Bool) (h : HalfFmt) (m : Mode) (d : Reg) (a b : Src)
  | hmul2 (g : Guard) (all : Bool) (h : HalfFmt) (m : Mode) (d : Reg) (a b : Src)
  | hfma2 (g : Guard) (all : Bool) (h : HalfFmt) (m : Mode) (d : Reg) (a b c : Src)
  -- row 0x5 (R241 to R246)
  | frcp (g : Guard) (all : Bool) (m : Mode) (d : Reg) (a : Src)
  | frsq (g : Guard) (all : Bool) (m : Mode) (d : Reg) (a : Src)
  | fsqrt (g : Guard) (all : Bool) (m : Mode) (d : Reg) (a : Src)
  | fexp2 (g : Guard) (all : Bool) (d : Reg) (a : Src)
  | flog2 (g : Guard) (all : Bool) (d : Reg) (a : Src)
  | fsin (g : Guard) (all : Bool) (d : Reg) (a : Src)
  | fcos (g : Guard) (all : Bool) (d : Reg) (a : Src)
  | ftanh (g : Guard) (all : Bool) (d : Reg) (a : Src)
  | cvt (g : Guard) (all : Bool) (m : Mode) (dt st : CTy) (d : Reg) (j : Nat) (a : Src) (i : Nat)
  | qnt (g : Guard) (m : Mode) (f : MxFmt) (d a : Reg)
  | dqnt (g : Guard) (f : MxFmt) (d a : Reg)
  | rand (g : Guard) (k : RandKind) (d : Reg)
  -- row 0x6 (R230 to R234)
  | mbind (g : Guard) (fl : FlagSel) (k : Nat) (a b : Reg)
  | mput (g : Guard) (fl : FlagSel) (k : Nat) (a b c : Reg)
  | mget (g : Guard) (fl : FlagSel) (d : Reg) (k : Nat) (a : Reg)
  | mgetFmt (g : Guard) (fl : FlagSel) (d : Reg) (k : Nat)
  | mfree (k : Nat)
  -- row 0x7 (R250 to R255)
  | ld (g : Guard) (fl : FlagSel) (t : DType) (sc : Scope) (d a : Reg) (off : BitVec 12)
  | ldAcq (g : Guard) (fl : FlagSel) (t : DType) (sc : Scope) (d a : Reg) (off : BitVec 12)
  | st (g : Guard) (fl : FlagSel) (t : DType) (sc : Scope) (a : Reg) (off : BitVec 12) (b : Src)
  | stRel (g : Guard) (fl : FlagSel) (t : DType) (sc : Scope) (a : Reg) (off : BitVec 12) (b : Src)
  | mxld (g : Guard) (fl : FlagSel) (f : MxFmt) (sc : Scope) (d a b : Reg) (off : BitVec 12)
  | mxst (g : Guard) (fl : FlagSel) (f : MxFmt) (sc : Scope) (a b c : Reg)
  | pref (g : Guard) (sc : Scope) (a : Reg) (off : BitVec 12)
  | cwb (g : Guard) (sc : Scope) (a : Reg) (off : BitVec 12)
  | cinv (g : Guard) (sc : Scope) (a : Reg) (off : BitVec 12)
  | fence (sc : Scope)
  | ifence
  -- row 0x8 (R250, R256)
  | lds (g : Guard) (fl : FlagSel) (t : DType) (d a : Reg) (off : BitVec 12)
  | sts (g : Guard) (fl : FlagSel) (t : DType) (a : Reg) (off : BitVec 12) (b : Src)
  | ldl (g : Guard) (fl : FlagSel) (t : DType) (d a : Reg) (off : BitVec 12)
  | stl (g : Guard) (fl : FlagSel) (t : DType) (a : Reg) (off : BitVec 12) (b : Src)
  | atom (g : Guard) (fl : FlagSel) (op : AtomOp) (w : AtomWidth) (o : Order) (sc : Scope) (d a b c : Reg)
  | red (g : Guard) (fl : FlagSel) (op : AtomOp) (w : AtomWidth) (o : Order) (sc : Scope) (a b c : Reg)
  | atoms (g : Guard) (fl : FlagSel) (op : AtomOp) (w : AtomWidth) (d a b c : Reg)
  -- row 0x9 (R259 to R267)
  | phinit (a b c : Reg)
  | phregSig (a : Reg)
  | phregUnsig (a : Reg)
  | phregWait (a : Reg)
  | phregUnwait (a : Reg)
  | pharv (pd : Nat) (a : Reg)
  | phwait (a : Reg) (pb : Nat)
  | phtest (pd : Nat) (a : Reg) (pb : Nat)
  | qinit (a b c : Reg)
  | qpush (a b : Reg)
  | qpushNb (pd : Nat) (a b : Reg)
  | qpop (d a : Reg)
  | qpopNb (d : Reg) (pc : Nat) (a : Reg)
  | tdef (h : Nat) (a b : Reg)
  | tdefAtt (h : Nat) (a b c : Reg)
  | tdefUndef (h : Nat)
  | regxAcq
  | regxRel
  | dbarDev
  | dbarDom
  -- row 0xA (R268, R269, R273 to R278)
  | cpy (g : Guard) (fl : FlagSel) (n : Nat)
  | cpyw (g : Guard) (fl : FlagSel) (n : Nat)
  | lwait (a b : Reg)
  | lwaitNb (pd : Nat) (a b : Reg)
  | xbegin (op : FoldOp) (vs vl : Reg) (deal n : Nat)
  | xnext (vi vo : Reg) (pd : Nat)
  | xred (g : Guard) (v : Reg)
  | xend (fl : FlagSel) (d : Reg)
  -- row 0xB (R282 to R290)
  | watch (d : Reg) (n : Nat)
  | unwatch (a : Reg)
  | trigi (g : Guard) (k : TrigField) (d : Reg)
  | ldf (g : Guard) (fl : FlagSel) (acq : Bool) (t : DType) (sc : Scope) (d a : Reg) (off : BitVec 12)
  | stf (g : Guard) (fl : FlagSel) (rel : Bool) (t : DType) (sc : Scope) (a : Reg) (off : BitVec 12) (b : Reg)
  | redf (g : Guard) (fl : FlagSel) (op : AtomOp) (w : AtomWidth) (o : Order) (sc : Scope) (a b : Reg)
  | coll (g : Guard) (fl : FlagSel) (n : Nat)
  -- row 0xC (R291 to R293)
  | launch (prio : Nat) (n : Nat)
  | signal (a b : Reg)
  | srd (g : Guard) (d : Reg) (r : Nat)
  | swr (g : Guard) (r : Nat) (a : Reg)
  -- events of clauses and of issue
  | clauseEntry (f : FragRef) (cached : Bool)
  | starvationIssue (f : FragRef)
  | sleepWake (f : FragRef)
  | scoutPrefetch (f : FragRef) (va : W64)
  | longLatencyComplete (op : Nat)
  -- events of memory
  | homeWritePerform (op line : Nat)
  | pageWalkComplete (ctx die : Nat) (va : W64)
  | l1Eviction (mill line : Nat)
  | leatElementTransfer (mill leat : Nat)
  | stampSweep (line : Nat)
  -- events of queues, dispatch, save and restore
  | doorbellWrite (ctx q : Nat) (x : W64)
  | ringControlWrite (ctx q : Nat) (ctl : Bool) (x : W64)
  | launchPacketHead (ctx q : Nat)
  | blockDispatch (ctx q : Nat) (p : Placement)
  | gangDispatch (ctx q : Nat) (ps : List Placement)
  | triggerBlockDispatch (ctx : Nat) (p : Placement)
  | blockEnd (bid : Nat)
  | launchCompletion (lid : Nat)
  | stagedOpRelease (lid : Nat)
  | sliceInstant (n : Nat)
  | blockSaveComplete (bid : Nat)
  | blockRestore (bid : Nat) (p : Placement)
  -- events of traps and faults
  | trapHandlerStart (bid gid : Nat) (image : W64)
  | handlerRunEnd (bid gid : Nat)
  | faultFreeze (bid gid : Nat) (image : Option W64)
  | fcmdRetry (ctx : Nat) (seq : BitVec 16)
  | fcmdSkip (ctx : Nat) (seq : BitVec 16)
  | fcmdKill (ctx : Nat) (seq : BitVec 16)
  -- events of the driver
  | ctxcmdCreate (ctx : Nat)
  | ctxcmdDestroy (ctx : Nat)
  | contextDestroyDone (ctx : Nat)
  | tlbinvPage (ctx : Nat) (va : W64) (sz : PageSize)
  | tlbinvAll (ctx : Nat)
  | tlbinvDone (ctx : Nat)
  | krepl (ctx : Nat) (x : W64)
  | imageRetire (ctx : Nat) (image : W64)
  | sliceScheduleWrite (r : SliceReg) (x : W64)
  | stcovWrite (die : Nat) (x : W64)
  | registerWrite (pa : W64) (x : W64)
  -- events of watches
  | watchArmEffective (f : FragRef)
  | unwatchDone (f : FragRef)
  -- events of the domain and the host
  | farRequestReceive (r : FarReq)
  | farAccessTimeout (id : Nat)
  | hostAccessTimeout (id : Nat)
  | replicaReceive (ctx q : Nat) (pkt : List W64)
  | startBarrierArrival (ctx q : Nat)
  | startBarrierComplete (ctx q : Nat)
  | startBarrierDispatch (ctx q : Nat)
  | startBarrierTimeout (ctx q rank : Nat)
  | dbarDomTimeout (lid rank : Nat)
  | collectiveExchange (lid : Nat) (tag : W32) (heads : List CollHead)
  | collectiveComplete (lid : Nat) (tag : W32) (vals : List (List W64))
  | ptpEventMessage (slew : W64)
  | hostLineRead (line : Nat) (cached : Bool)
  | hostLineWrite (line : Nat) (bytes : List (Nat × Byte))
  | hostAtomic (pa : W64) (op : AtomOp) (w : AtomWidth) (v c : W64)
  | hostRegisterAccess (pa : W64) (size : Nat) (wr : Option W64)
  -- events of the miller, of errors and of the environment
  | rasWindowRestart
  | powerLimit (die : Nat)
  | coolantLimit (k : Coolant)
  | junctionCritical (die : Nat)
  | junctionRecover (die : Nat)
  | thermalShutdown (die : Nat)
  | coldReset
  | warmReset
  | firmwareUpdate (fw : Firmware)
  | measureRequest (r : Nat) (x : Measured)
  | attestationRequest (nonce : BitVec 256)
  | hbmRefresh (stack : Nat)
  | farAnswer (id : Nat) (r : FarReply)
  | hostAnswer (id : Nat) (r : HostReply)
  | spurRouteChange (rank : Nat) (live : Bool)
  | arrivalMessageReceive (ctx q : Nat) (a : Arrival)
  | domainBarrierMessage (lid : Nat) (m : BarMsg)
  | rdcEviction (die line : Nat)
  | coolantRecovery (k : Coolant)
  | modulePowerLoss
  deriving DecidableEq, Repr

end Sys2Proof
end

