-- ==== Sys2Proof/WellFormed.lean ====
section
/-! DEFINITION. Which instructions have an encoding: the operand rules that each entry of the
instruction reference gives, and nothing about the state. -/

namespace Sys2Proof

/-- R175: a predicate 0–11, or 15 without negation. -/
def Guard.wf (g : Guard) : Bool := decide (g.idx < 12) || (g.idx == 15 && !g.neg)

/-- The guard that is always true (R70). -/
def Guard.always : Guard := { idx := 15, neg := false }

/-- R176: `v0`–`v191` and `s0`–`s63`. -/
def Reg.wf : Reg → Bool
  | .v n => decide (n < 192)
  | .s n => decide (n < 64)

/-- The number of the register within its file. -/
def Reg.num : Reg → Nat
  | .v n => n
  | .s n => n

/-- A vector register. -/
def Reg.isVec : Reg → Bool
  | .v _ => true
  | .s _ => false

/-- R66: a 64-bit operand is named by its even register. -/
def Reg.pairWf (r : Reg) : Bool := r.wf && r.num % 2 == 0

/-- R181: `.b128` names a register that is a multiple of 4. -/
def Reg.quadWf (r : Reg) : Bool := r.wf && r.num % 4 == 0

/-- A register, or the even register of a pair when `wide`. -/
def Reg.wfAt (wide : Bool) (r : Reg) : Bool := if wide then r.pairWf else r.wf

/-- A source carries a map selector. -/
def Src.mapped : Src → Bool
  | .map _ _ => true
  | _ => false

/-- A source is an immediate or a literal. -/
def Src.constant : Src → Bool
  | .imm _ => true
  | .lit _ => true
  | _ => false

/-- R176, R177, R188: a source that may carry a map (`mapOk`, 32-bit only), may be the immediate
(`immOk`) or the literal (`litOk`), and is a pair when `wide`. -/
def Src.wfAt (mapOk immOk litOk wide : Bool) : Src → Bool
  | .reg r => r.wfAt wide
  | .map s n => mapOk && !wide && decide (1 ≤ s) && decide (s ≤ 15) && decide (n < 192)
  | .imm _ => immOk
  | .lit _ => litOk

/-- A source before the last one: a register or a mapped register. -/
def Src.early (mapOk wide : Bool) (x : Src) : Bool := x.wfAt mapOk false false wide

/-- The last source in a form R, I or L. -/
def Src.last (mapOk wide : Bool) (x : Src) : Bool := x.wfAt mapOk true true wide

/-- R180: `.all` is reserved without a mapped source. -/
def allWf (all : Bool) (xs : List Src) : Bool := !all || xs.any Src.mapped

/-- The width of an integer type in bits (R187). -/
def IntTy.width : IntTy → Nat
  | .i8 | .n8 => 8
  | .i16 | .n16 => 16
  | .i32 | .n32 => 32
  | .i64 | .n64 => 64

/-- The `.i` types are signed (R150). -/
def IntTy.signed : IntTy → Bool
  | .i8 | .i16 | .i32 | .i64 => true
  | .n8 | .n16 | .n32 | .n64 => false

/-- An operand of the type occupies a pair (R66). -/
def IntTy.wide (t : IntTy) : Bool := t.width == 64

/-- The types of `BFE`, `MOV` and others that take 32 and 64 bits only. -/
def IntTy.big (t : IntTy) : Bool := decide (32 ≤ t.width)

/-- A predicate register (R176). -/
def predWf (p : Nat) : Bool := decide (p < 12)

/-- The registers a data type moves (R250): one, an even pair, or four from a multiple of 4. -/
def DType.regWf (t : DType) (r : Reg) : Bool :=
  match t with
  | .w64 => r.pairWf
  | .b128 => r.quadWf
  | _ => r.wf

/-- R248: source B of a store may be mapped with sub 4 only. -/
def DType.srcWf (t : DType) : Src → Bool
  | .reg r => t.regWf r
  | .map s n => t == .w32 && decide (1 ≤ s) && decide (s ≤ 15) && decide (n < 192)
  | _ => false

/-- The register of a `CVT` operand: a pair for the 64-bit types (R243). -/
def CTy.wide : CTy → Bool
  | .i64 | .n64 => true
  | _ => false

/-- The number of elements of a `CVT` type in one register (R243). -/
def CTy.count : CTy → Nat
  | .f32 | .i32 | .n32 | .i64 | .n64 => 1
  | .f16 | .bf16 | .i16 | .n16 => 2
  | .e4m3 | .e5m2 | .wt8 | .i8 | .n8 => 4
  | .wt6 => 5

/-- The special registers of R75 and R294. -/
def sregDefined (r : Nat) : Bool := decide (r < 16) || (decide (0x40 ≤ r) && decide (r < 0x48))

/-- The special registers of 64 bits (R75, R294). -/
def sregWide (r : Nat) : Bool := r == 6 || r == 7 || r == 8 || r == 9 || (decide (0x40 ≤ r) && decide (r < 0x48))

/-- R256: an atomic's width and its compare-and-swap register. -/
def atomWf (op : AtomOp) (w : AtomWidth) (b c : Reg) : Bool :=
  !(op == .fadd && w == .b64) && b.wfAt (w == .b64) &&
    (if op == .cas then c.wfAt (w == .b64) else c == .v 0)

/-- R287: the scopes of far accesses. -/
def Scope.far (sc : Scope) : Bool := sc == .domain || sc == .system

/-- R288: `.xchg` and `.cas` are reserved in `REDF`, and `.fadd` takes 32 bits. -/
def redfWf (op : AtomOp) (w : AtomWidth) (b : Reg) : Bool :=
  !(op == .xchg || op == .cas) && !(op == .fadd && w == .b64) && b.wfAt (w == .b64)

/-- A uniform pair (R253). -/
def uniPairWf (r : Reg) : Bool := !r.isVec && r.pairWf

/-- The opcode points that are reserved-hint (R182). -/
def opHint (op : Nat) : Bool := op == 0x0C || op == 0x0D || op == 0x0E || (decide (0xE0 ≤ op) && decide (op < 0xF0))

/-- An instruction obeys the operand rules of its entry, so that it has an encoding. Events have no
encoding, and there is nothing to check. -/
def Instr.wf : Instr → Bool
  | .nop | .join | .yield | .ifence | .regxAcq | .regxRel | .dbarDev | .dbarDom => true
  | .bra g _ | .exit g | .trap g _ | .bkpt g => g.wf
  | .brx g a | .ret g a => g.wf && a.pairWf
  | .call g d _ => g.wf && d.pairWf
  | .tok _ => true
  | .sleepRel a => decide (a < 64)
  | .sleepAbs a => decide (a < 64) && a % 2 == 0
  | .reservedHint w => opHint (w.toNat % 256)
  | .reservedEmulable _ | .reservedInvalid _ => true
  | .iadd g all t d a b | .isub g all t d a b | .imul g all t d a b | .imulh g all t d a b
  | .imin g all t d a b | .imax g all t d a b =>
    g.wf && d.wfAt t.wide && a.early true t.wide && b.last true t.wide && allWf all [a, b]
  | .iadd3 g all t d a b c | .imad g all t d a b c =>
    g.wf && d.wfAt t.wide && a.early true t.wide && b.early true t.wide && c.last true t.wide && allWf all [a, b, c]
  | .iabs g all t d a => g.wf && t.signed && d.wfAt t.wide && a.last true t.wide && allWf all [a]
  | .ineg g all t d a => g.wf && d.wfAt t.wide && a.last true t.wide && allWf all [a]
  | .lea g _ sh d a b => g.wf && decide (sh < 8) && d.pairWf && a.pairWf && b.last false false
  | .lop g _ b64 d a b => g.wf && d.wfAt b64 && a.wfAt b64 && b.last false b64
  | .bits3 g _ d a b c => g.wf && d.wf && a.wf && b.wf && c.wf
  | .shl g t d a b | .shr g t d a b | .sar g t d a b => g.wf && d.wfAt t.wide && a.wfAt t.wide && b.last false false
  | .fsh g _ _ d a b c | .bysel g d a b c => g.wf && d.wf && a.wf && b.wf && c.last false false
  | .bfe g t d a b => g.wf && t.big && d.wfAt t.wide && a.wfAt t.wide && b.wfAt false false true false
  | .bfi g t d a b c => g.wf && t.big && d.wfAt t.wide && a.wfAt t.wide && b.wf && c.wfAt false false true t.wide
  | .popc g t d a | .clz g t d a => g.wf && t.big && d.wf && a.last false t.wide
  | .brev g t d a | .mov g t d a => g.wf && t.big && d.wfAt t.wide && a.last false t.wide
  | .icmp g all _ t pd a b => g.wf && predWf pd && a.early true t.wide && b.last true t.wide && allWf all [a, b]
  | .sel g all t d a b pc =>
    g.wf && t.big && d.wfAt t.wide && a.early true t.wide && b.early true t.wide && predWf pc && allWf all [a, b]
  | .movi g t d _ => g.wf && t.big && d.wfAt t.wide
  | .plop g _ pd pa pb pc => g.wf && predWf pd && predWf pa && predWf pb && predWf pc
  | .pmovPack g d => g.wf && d.wf
  | .pmovUnpack g a b => g.wf && a.wf && b.last false false
  | .pmovCopy g pd pa => g.wf && predWf pd && predWf pa
  | .poll g op pa =>
    g.wf && predWf pa &&
      (match op with
       | .every pd | .some pd | .same pd => predWf pd
       | .bits d => d.pairWf
       | .count d | .first d => d.wf)
  | .maskRd g d | .maskRdHeld g d => g.wf && d.pairWf
  | .maskWr g _ a => g.wf && a.last false true
  | .lanex g m b64 d a b =>
    g.wf && d.wfAt b64 && a.wfAt b64 && (if m == .rev then b == .reg (.v 0) else b.last false false)
  | .fadd g all _ d a b | .fmul g all _ d a b | .fmin g all _ d a b | .fmax g all _ d a b =>
    g.wf && d.wf && a.early true false && b.last true false && allWf all [a, b]
  | .ffma g all _ d a b c =>
    g.wf && d.wf && a.early true false && b.early true false && c.last true false && allWf all [a, b, c]
  | .fcmp g all _ pd a b => g.wf && predWf pd && a.early true false && b.last true false && allWf all [a, b]
  | .fclass g all d a | .fexp2 g all d a | .flog2 g all d a | .fsin g all d a | .fcos g all d a | .ftanh g all d a
  | .frcp g all _ d a | .frsq g all _ d a | .fsqrt g all _ d a => g.wf && d.wf && a.last true false && allWf all [a]
  | .fclassTest g all pd a b => g.wf && predWf pd && a.early true false && b.last false false && allWf all [a]
  | .hadd2 g all h _ d a b | .hmul2 g all h _ d a b =>
    g.wf && d.wf && a.early true false && b.wfAt true (h == .f16) true false && allWf all [a, b]
  | .hfma2 g all h _ d a b c =>
    g.wf && d.wf && a.early true false && b.early true false && c.wfAt true (h == .f16) true false && allWf all [a, b, c]
  | .cvt g all _ dty sty d j a i =>
    g.wf && d.wfAt dty.wide && decide (j < dty.count) && decide (i < sty.count) &&
      a.wfAt (sty == .f32 && i == 0) false false sty.wide && allWf all [a]
  | .qnt g _ _ d a => g.wf && d.pairWf && a.wf
  | .dqnt g _ d a => g.wf && d.wf && a.pairWf
  | .rand g k d => g.wf && d.isVec && d.wfAt (k == .n64)
  | .mbind g _ k a b => g.wf && decide (1 ≤ k) && decide (k ≤ 14) && a.wf && b.wf
  | .mput g _ k a b c => g.wf && decide (1 ≤ k) && decide (k ≤ 14) && a.wf && b.wf && c.wf
  | .mget g _ d k a => g.wf && decide (1 ≤ k) && decide (k ≤ 14) && d.isVec && d.wf && a.wf
  | .mgetFmt g _ d k => g.wf && decide (1 ≤ k) && decide (k ≤ 14) && d.isVec && d.wf
  | .mfree k => decide (1 ≤ k) && decide (k ≤ 14)
  | .ld g _ t _ d a _ | .ldAcq g _ t _ d a _ => g.wf && t.regWf d && a.pairWf
  | .st g _ t _ a _ b | .stRel g _ t _ a _ b => g.wf && a.pairWf && t.srcWf b
  | .mxld g _ _ _ d a b _ => g.wf && d.pairWf && uniPairWf a && uniPairWf b
  | .mxst g _ _ _ a b c => g.wf && uniPairWf a && b.pairWf && uniPairWf c
  | .pref g _ a _ | .cwb g _ a _ | .cinv g _ a _ => g.wf && a.pairWf
  | .fence _ => true
  | .lds g _ t d a _ | .ldl g _ t d a _ => g.wf && t.regWf d && a.wf
  | .sts g _ t a _ b | .stl g _ t a _ b => g.wf && a.wf && t.srcWf b
  | .atom g _ op w _ _ d a b c => g.wf && d.wfAt (w == .b64) && a.pairWf && atomWf op w b c
  | .red g _ op w _ _ a b c => g.wf && a.pairWf && atomWf op w b c
  | .atoms g _ op w d a b c => g.wf && d.wfAt (w == .b64) && a.wf && atomWf op w b c
  | .phinit a b c | .qinit a b c => a.wf && b.wf && c.wf
  | .phregSig a | .phregUnsig a | .phregWait a | .phregUnwait a => a.wf
  | .pharv pd a => predWf pd && a.wf
  | .phwait a pb => a.wf && predWf pb
  | .phtest pd a pb => predWf pd && a.wf && predWf pb
  | .qpush a b | .lwait a b => a.wf && b.wf
  | .qpushNb pd a b | .lwaitNb pd a b => predWf pd && a.wf && b.wf
  | .qpop d a => d.wf && a.wf
  | .qpopNb d pc a => d.wf && predWf pc && a.wf
  | .tdef h a b => decide (h < 64) && a.wf && b.wf
  | .tdefAtt h a b c => decide (h < 64) && a.wf && b.wf && c.wf
  | .tdefUndef h => decide (h < 64)
  | .cpy g _ n | .cpyw g _ n | .coll g _ n => g.wf && decide (n < 64) && n % 8 == 0
  | .xbegin _ vs vl deal n => vs.wf && vl.wf && decide (deal < 16) && decide (1 ≤ n) && decide (n ≤ 4)
  | .xnext vi vo pd => vi.wf && vo.wf && predWf pd
  | .xred g v => g.wf && v.wf
  | .xend _ d => d.wf
  | .watch d n => d.wf && decide (n < 64) && n % 8 == 0
  | .unwatch a => a.wf
  | .trigi g k d => g.wf && d.wfAt (k == .addr || k == .arg)
  | .ldf g _ _ t sc d a _ => g.wf && sc.far && t.regWf d && a.pairWf
  | .stf g _ _ t sc a _ b => g.wf && sc.far && a.pairWf && t.regWf b
  | .redf g _ op w _ sc a b => g.wf && sc.far && a.pairWf && redfWf op w b
  | .launch p n => decide (p < 8) && decide (n < 64) && n % 16 == 0
  | .signal a b => a.pairWf && b.pairWf
  | .srd g d r => g.wf && sregDefined r && d.wfAt (sregWide r)
  | .swr g r a => g.wf && decide (r < 256) && a.wfAt (r == 6)
  | .clauseEntry _ _ | .starvationIssue _ | .sleepWake _ | .scoutPrefetch _ _ | .longLatencyComplete _
  | .homeWritePerform _ _ | .pageWalkComplete _ _ _ | .l1Eviction _ _ | .leatElementTransfer _ _ | .stampSweep _
  | .doorbellWrite _ _ _ | .ringControlWrite _ _ _ _ | .launchPacketHead _ _ | .blockDispatch _ _ _
  | .gangDispatch _ _ _ | .triggerBlockDispatch _ _ | .blockEnd _ | .launchCompletion _ | .stagedOpRelease _
  | .sliceInstant _ | .blockSaveComplete _ | .blockRestore _ _ | .trapHandlerStart _ _ _ | .handlerRunEnd _ _
  | .faultFreeze _ _ _ | .fcmdRetry _ _ | .fcmdSkip _ _ | .fcmdKill _ _ | .ctxcmdCreate _ | .ctxcmdDestroy _
  | .contextDestroyDone _ | .tlbinvPage _ _ _ | .tlbinvAll _ | .tlbinvDone _ | .krepl _ _ | .imageRetire _ _
  | .sliceScheduleWrite _ _ | .stcovWrite _ _ | .registerWrite _ _ | .watchArmEffective _ | .unwatchDone _
  | .farRequestReceive _ | .farAccessTimeout _ | .hostAccessTimeout _ | .replicaReceive _ _ _
  | .startBarrierArrival _ _ | .startBarrierComplete _ _ | .startBarrierDispatch _ _ | .startBarrierTimeout _ _ _
  | .dbarDomTimeout _ _ | .collectiveExchange _ _ _ | .collectiveComplete _ _ _ | .ptpEventMessage _
  | .hostLineRead _ _ | .hostLineWrite _ _ | .hostAtomic _ _ _ _ _ | .hostRegisterAccess _ _ _ | .rasWindowRestart
  | .powerLimit _ | .coolantLimit _ | .junctionCritical _ | .junctionRecover _ | .thermalShutdown _ | .coldReset
  | .warmReset | .firmwareUpdate _ | .measureRequest _ _ | .attestationRequest _ | .hbmRefresh _ | .farAnswer _ _
  | .hostAnswer _ _ | .spurRouteChange _ _ | .arrivalMessageReceive _ _ _ | .domainBarrierMessage _ _
  | .rdcEviction _ _ | .coolantRecovery _ | .modulePowerLoss => true

/-- The instruction is an event: it has no encoding, and no fragment issues it. -/
def Instr.isEvent : Instr → Bool
  | .clauseEntry _ _ | .starvationIssue _ | .sleepWake _ | .scoutPrefetch _ _ | .longLatencyComplete _
  | .homeWritePerform _ _ | .pageWalkComplete _ _ _ | .l1Eviction _ _ | .leatElementTransfer _ _ | .stampSweep _
  | .doorbellWrite _ _ _ | .ringControlWrite _ _ _ _ | .launchPacketHead _ _ | .blockDispatch _ _ _
  | .gangDispatch _ _ _ | .triggerBlockDispatch _ _ | .blockEnd _ | .launchCompletion _ | .stagedOpRelease _
  | .sliceInstant _ | .blockSaveComplete _ | .blockRestore _ _ | .trapHandlerStart _ _ _ | .handlerRunEnd _ _
  | .faultFreeze _ _ _ | .fcmdRetry _ _ | .fcmdSkip _ _ | .fcmdKill _ _ | .ctxcmdCreate _ | .ctxcmdDestroy _
  | .contextDestroyDone _ | .tlbinvPage _ _ _ | .tlbinvAll _ | .tlbinvDone _ | .krepl _ _ | .imageRetire _ _
  | .sliceScheduleWrite _ _ | .stcovWrite _ _ | .registerWrite _ _ | .watchArmEffective _ | .unwatchDone _
  | .farRequestReceive _ | .farAccessTimeout _ | .hostAccessTimeout _ | .replicaReceive _ _ _
  | .startBarrierArrival _ _ | .startBarrierComplete _ _ | .startBarrierDispatch _ _ | .startBarrierTimeout _ _ _
  | .dbarDomTimeout _ _ | .collectiveExchange _ _ _ | .collectiveComplete _ _ _ | .ptpEventMessage _
  | .hostLineRead _ _ | .hostLineWrite _ _ | .hostAtomic _ _ _ _ _ | .hostRegisterAccess _ _ _ | .rasWindowRestart
  | .powerLimit _ | .coolantLimit _ | .junctionCritical _ | .junctionRecover _ | .thermalShutdown _ | .coldReset
  | .warmReset | .firmwareUpdate _ | .measureRequest _ _ | .attestationRequest _ | .hbmRefresh _ | .farAnswer _ _
  | .hostAnswer _ _ | .spurRouteChange _ _ | .arrivalMessageReceive _ _ _ | .domainBarrierMessage _ _
  | .rdcEviction _ _ | .coolantRecovery _ | .modulePowerLoss => true
  | _ => false

end Sys2Proof
end

