-- ==== Sys2Proof/Decode.lean ====
section
/-! DEFINITION. The decoder of "Instruction formats and opcode map": a slot's 64-bit word, the number
of map slots the kernel declares and the literal of the next slot give one instruction, the three
fates of R173 included, so that every word decodes. The encoder follows it. -/

namespace Sys2Proof

/-! ### The fields of a word -/

/-- The fields of R175. -/
structure Fields where
  m  : BitVec 7
  cm : BitVec 4
  c  : BitVec 8
  bm : BitVec 4
  b  : BitVec 8
  am : BitVec 4
  a  : BitVec 8
  d  : BitVec 8
  ng : BitVec 1
  gd : BitVec 4
  op : BitVec 8
  deriving DecidableEq, Repr

/-- R175: the fields of a word. -/
def fieldsOf (w : W64) : Fields where
  m  := w.extractLsb' 57 7
  cm := w.extractLsb' 53 4
  c  := w.extractLsb' 45 8
  bm := w.extractLsb' 41 4
  b  := w.extractLsb' 33 8
  am := w.extractLsb' 29 4
  a  := w.extractLsb' 21 8
  d  := w.extractLsb' 13 8
  ng := w.extractLsb' 12 1
  gd := w.extractLsb' 8 4
  op := w.extractLsb' 0 8

/-- R175: the word of its fields. -/
def wordOf (f : Fields) : W64 :=
  f.m ++ f.cm ++ f.c ++ f.bm ++ f.b ++ f.am ++ f.a ++ f.d ++ f.ng ++ f.gd ++ f.op

/-- R178: the 12-bit immediate of the I-form, and the byte offset of the memory form. -/
def immOf (f : Fields) : BitVec 12 := f.cm ++ f.c

/-- R177: the 36 bits of the displacement form and of `MOVI` (R203). -/
def wideOf (f : Fields) : BitVec 36 := f.cm ++ f.c ++ f.bm ++ f.b ++ f.am ++ f.a

/-! ### Parsing one field

A parser answers the operand position of R337 that holds the reserved value (R350): 1 dest, 2 A, 3 B,
4 C, and 0 for a value that belongs to no operand. -/

/-- A parse, or the position of the first reserved field. -/
abbrev Parse (α : Type) := Except Nat α

/-- A condition on the fields of position `pos`. -/
def need (pos : Nat) (ok : Bool) : Parse Unit := if ok then .ok () else .error pos

/-- R176: the register an 8-bit field names. -/
def regOf (x : BitVec 8) : Reg := if x.toNat < 192 then .v x.toNat else .s (x.toNat - 192)

/-- R176: a register field; a 64-bit operand names an even value. -/
def pReg (pos : Nat) (x : BitVec 8) (wide : Bool) : Parse Reg :=
  if (regOf x).wfAt wide then .ok (regOf x) else .error pos

/-- A register field whose map selector must be 0. -/
def pPlain (pos : Nat) (x : BitVec 8) (m : BitVec 4) (wide : Bool) : Parse Reg :=
  if m = 0 ∧ (regOf x).wfAt wide then .ok (regOf x) else .error pos

/-- R184: a field pair the instruction does not use. -/
def pNone (pos : Nat) (x : BitVec 8) (m : BitVec 4) : Parse Unit := need pos (x == 0 && m == 0)

/-- R176: a predicate field. -/
def pPred (pos : Nat) (x : BitVec 8) (m : BitVec 4) : Parse Nat :=
  if m = 0 ∧ x.toNat < 12 then .ok x.toNat else .error pos

/-- R176, R188: a source that may carry a selector up to the kernel's declared slot count `k`. -/
def pSrc (pos : Nat) (x : BitVec 8) (m : BitVec 4) (k : Nat) (mapOk wide : Bool) : Parse Src :=
  if m = 0 then
    if (regOf x).wfAt wide then .ok (.reg (regOf x)) else .error pos
  else if mapOk ∧ ¬ wide ∧ x.toNat < 192 ∧ (m.toNat = 15 ∨ m.toNat ≤ k) then .ok (.map m.toNat x.toNat)
  else .error pos

/-- R175, R184: the guard values of every row. -/
def guardOk (f : Fields) : Bool := decide (f.gd.toNat < 12) || (f.gd == 15 && f.ng == 0)

/-- The guard of a word. -/
def guardOf (f : Fields) : Guard := { idx := f.gd.toNat, neg := f.ng == 1 }

/-- R210, R259: guard 15 with negate 0 only. -/
def pAlways (f : Fields) : Parse Unit := need 0 (f.gd == 15 && f.ng == 0)

/-! ### Modifiers (R180, R181) -/

/-- ALU class: the form. -/
def aForm (f : Fields) : Nat := (f.m.extractLsb' 5 2).toNat
/-- ALU class: the `.all` bit. -/
def aAll (f : Fields) : Bool := f.m.extractLsb' 4 1 == 1
/-- ALU class: sub. -/
def aSub (f : Fields) : Nat := (f.m.extractLsb' 0 4).toNat
/-- MEM class: the flag choice. -/
def mFlag (f : Fields) : FlagSel := if f.m.extractLsb' 6 1 == 1 then .B else .A
/-- MEM class: the scope field. -/
def mScope (f : Fields) : Nat := (f.m.extractLsb' 3 3).toNat
/-- MEM class: sub. -/
def mSub (f : Fields) : Nat := (f.m.extractLsb' 0 3).toNat

/-- R181: the scopes 0 to 6. -/
def scopeOf : Nat → Option Scope
  | 0 => some .group | 1 => some .block | 2 => some .mill | 3 => some .die
  | 4 => some .device | 5 => some .domain | 6 => some .system | _ => none

/-- R181: the integer types. -/
def intTyOf : Nat → Option IntTy
  | 0 => some .i8 | 1 => some .i16 | 2 => some .i32 | 3 => some .i64
  | 4 => some .n8 | 5 => some .n16 | 6 => some .n32 | 7 => some .n64 | _ => none

/-- R181: the rounding modes. -/
def modeOf : Nat → Option Mode
  | 0 => some .rn | 1 => some .rz | 2 => some .ru | 3 => some .rd | 4 => some .ra | 5 => some .sr | _ => none

/-- R181: the data types of loads and stores. -/
def dtypeOf : Nat → Option DType
  | 0 => some .n8 | 1 => some .i8 | 2 => some .n16 | 3 => some .i16
  | 4 => some .w32 | 5 => some .w64 | 6 => some .b128 | _ => none

/-- R181: the atomic operations. -/
def atomOpOf : Nat → Option AtomOp
  | 0 => some .add | 1 => some .fadd | 2 => some .smin | 3 => some .smax | 4 => some .umin
  | 5 => some .umax | 6 => some .and | 7 => some .or | 8 => some .xor | 9 => some .xchg
  | 10 => some .cas | _ => none

/-- R273: the folds. -/
def foldOf : Nat → Option FoldOp
  | 0 => some .add | 1 => some .fadd | 2 => some .smin | 3 => some .smax | 4 => some .umin
  | 5 => some .umax | 6 => some .and | 7 => some .or | 8 => some .xor | _ => none

/-- R192. -/
def lopOf : Nat → Option LopOp
  | 0 => some .and | 1 => some .or | 2 => some .xor | 3 => some .andn | 4 => some .orn | 5 => some .xnor | _ => none

/-- R200. -/
def icondOf : Nat → Option ICond
  | 0 => some .eq | 1 => some .ne | 2 => some .lt | 3 => some .le | 4 => some .gt | 5 => some .ge
  | 6 => some .f | 7 => some .t | _ => none

/-- R238. -/
def fcondOf : Nat → Option FCond
  | 0 => some .eq | 1 => some .ne | 2 => some .lt | 3 => some .le | 4 => some .gt | 5 => some .ge
  | 6 => some .un | 7 => some .ordered | _ => none

/-- R243. -/
def ctyOf : Nat → Option CTy
  | 0 => some .f32 | 1 => some .f16 | 2 => some .bf16 | 3 => some .e4m3 | 4 => some .e5m2
  | 12 => some .wt8 | 13 => some .wt6 | 16 => some .i8 | 17 => some .n8 | 18 => some .i16
  | 19 => some .n16 | 20 => some .i32 | 21 => some .n32 | 22 => some .i64 | 23 => some .n64 | _ => none

/-- R244, R253: the MX format of code 5 to 10. -/
def mxOf : Nat → Option MxFmt
  | 5 => some .e4m3 | 6 => some .e5m2 | 7 => some .e3m2 | 8 => some .e2m3 | 9 => some .e2m1 | 10 => some .i8 | _ => none

/-- R209. -/
def laneModeOf : Nat → Option LaneMode
  | 0 => some .idx | 1 => some .off | 2 => some .rot | 3 => some .flip | 4 => some .rev | _ => none

/-- R208. -/
def maskOpOf : Nat → Option MaskOp
  | 0 => some .set | 1 => some .and | 2 => some .or | 3 => some .andn | _ => none

/-- R286. -/
def trigOf : Nat → Option TrigField
  | 0 => some .wid | 1 => some .addr | 2 => some .sector | 3 => some .sblk | 4 => some .origin
  | 5 => some .depth | 6 => some .arg | 7 => some .count | _ => none

/-- R246. -/
def randOf : Nat → Option RandKind
  | 0 => some .n32 | 1 => some .n64 | 2 => some .f32 | _ => none

/-- R256: the order field. -/
def orderOf : Nat → Order
  | 1 => .acq | 2 => .rel | 3 => .ar | _ => .plain

/-- A choice, or the reserved value at position `pos`. -/
def want (pos : Nat) {α : Type} : Option α → Parse α
  | some x => .ok x
  | none => .error pos

/-! ### The forms of the ALU class (R177, R178) -/

/-- The last source of an instruction of one source: A in the R-form, else its replacement. -/
def lastA (f : Fields) (lit : W64) (k : Nat) (mapOk wide : Bool) : Parse Src :=
  match aForm f with
  | 0 => do let x ← pSrc 2 f.a f.am k mapOk wide; pNone 3 f.b f.bm; pNone 4 f.c f.cm; pure x
  | 1 => do pNone 2 f.a f.am; pNone 3 f.b f.bm; pure (.imm (immOf f))
  | 2 => do pNone 2 f.a f.am; pNone 3 f.b f.bm; pNone 4 f.c f.cm; pure (.lit lit)
  | _ => .error 0

/-- The last source of an instruction of two sources. -/
def lastB (f : Fields) (lit : W64) (k : Nat) (mapOk wide : Bool) : Parse Src :=
  match aForm f with
  | 0 => do let x ← pSrc 3 f.b f.bm k mapOk wide; pNone 4 f.c f.cm; pure x
  | 1 => do pNone 3 f.b f.bm; pure (.imm (immOf f))
  | 2 => do pNone 3 f.b f.bm; pNone 4 f.c f.cm; pure (.lit lit)
  | _ => .error 0

/-- The last source of an instruction of three sources. -/
def lastC (f : Fields) (lit : W64) (k : Nat) (mapOk wide : Bool) : Parse Src :=
  match aForm f with
  | 0 => pSrc 4 f.c f.cm k mapOk wide
  | 1 => .ok (.imm (immOf f))
  | 2 => do pNone 4 f.c f.cm; pure (.lit lit)
  | _ => .error 0

/-- R180, R188: the `.all` bit needs a mapped source. -/
def pAll (f : Fields) (xs : List Src) : Parse Bool := do need 0 (allWf (aAll f) xs); pure (aAll f)

/-- No `.all` bit. -/
def pNoAll (f : Fields) : Parse Unit := need 0 (!aAll f)

/-- Only the R-form. -/
def pFormR (f : Fields) : Parse Unit := need 0 (aForm f == 0)

/-- The forms R and L. -/
def pFormRL (f : Fields) : Parse Unit := need 0 (aForm f == 0 || aForm f == 2)

/-! ### The shapes of rows 0x1 to 0x5 -/

/-- Two sources of integer type (R190). -/
def pInt2 (f : Fields) (k : Nat) (lit : W64) (mk : Guard → Bool → IntTy → Reg → Src → Src → Instr) : Parse Instr := do
  let t ← want 0 (intTyOf (aSub f))
  let a ← pSrc 2 f.a f.am k true t.wide
  let b ← lastB f lit k true t.wide
  let d ← pReg 1 f.d t.wide
  let all ← pAll f [a, b]
  pure (mk (guardOf f) all t d a b)

/-- Three sources of integer type (R190). -/
def pInt3 (f : Fields) (k : Nat) (lit : W64) (mk : Guard → Bool → IntTy → Reg → Src → Src → Src → Instr) : Parse Instr := do
  let t ← want 0 (intTyOf (aSub f))
  let a ← pSrc 2 f.a f.am k true t.wide
  let b ← pSrc 3 f.b f.bm k true t.wide
  let c ← lastC f lit k true t.wide
  let d ← pReg 1 f.d t.wide
  let all ← pAll f [a, b, c]
  pure (mk (guardOf f) all t d a b c)

/-- One source of integer type (R190). -/
def pInt1 (f : Fields) (k : Nat) (lit : W64) (ok : IntTy → Bool)
    (mk : Guard → Bool → IntTy → Reg → Src → Instr) : Parse Instr := do
  let t ← want 0 (intTyOf (aSub f))
  need 0 (ok t)
  let a ← lastA f lit k true t.wide
  let d ← pReg 1 f.d t.wide
  let all ← pAll f [a]
  pure (mk (guardOf f) all t d a)

/-- A shift (R194): the count is a 32-bit register. -/
def pShift (f : Fields) (lit : W64) (mk : Guard → IntTy → Reg → Reg → Src → Instr) : Parse Instr := do
  let t ← want 0 (intTyOf (aSub f))
  pNoAll f
  let a ← pPlain 2 f.a f.am t.wide
  let b ← lastB f lit 0 false false
  let d ← pReg 1 f.d t.wide
  pure (mk (guardOf f) t d a b)

/-- One unmapped source of a 32- or 64-bit type; `dw` says whether the destination is of that width. -/
def pBig1 (f : Fields) (lit : W64) (dw : Bool) (mk : Guard → IntTy → Reg → Src → Instr) : Parse Instr := do
  let t ← want 0 (intTyOf (aSub f))
  need 0 t.big
  pNoAll f
  let a ← lastA f lit 0 false t.wide
  let d ← pReg 1 f.d (dw && t.wide)
  pure (mk (guardOf f) t d a)

/-- Two binary32 sources and a mode (R236). -/
def pF2 (f : Fields) (k : Nat) (lit : W64) (mk : Guard → Bool → Mode → Reg → Src → Src → Instr) : Parse Instr := do
  let m ← want 0 (modeOf (aSub f))
  let a ← pSrc 2 f.a f.am k true false
  let b ← lastB f lit k true false
  let d ← pReg 1 f.d false
  let all ← pAll f [a, b]
  pure (mk (guardOf f) all m d a b)

/-- `FMIN` and `FMAX` (R237). -/
def pFM (f : Fields) (k : Nat) (lit : W64) (mk : Guard → Bool → NanKind → Reg → Src → Src → Instr) : Parse Instr := do
  need 0 (decide (aSub f < 2))
  let a ← pSrc 2 f.a f.am k true false
  let b ← lastB f lit k true false
  let d ← pReg 1 f.d false
  let all ← pAll f [a, b]
  pure (mk (guardOf f) all (if aSub f = 1 then .nan else .num) d a b)

/-- One binary32 source and a mode (R241). -/
def pF1 (f : Fields) (k : Nat) (lit : W64) (mk : Guard → Bool → Mode → Reg → Src → Instr) : Parse Instr := do
  let m ← want 0 (modeOf (aSub f))
  let a ← lastA f lit k true false
  let d ← pReg 1 f.d false
  let all ← pAll f [a]
  pure (mk (guardOf f) all m d a)

/-- One binary32 source and no mode (R242). -/
def pT1 (f : Fields) (k : Nat) (lit : W64) (mk : Guard → Bool → Reg → Src → Instr) : Parse Instr := do
  need 0 (aSub f == 0)
  let a ← lastA f lit k true false
  let d ← pReg 1 f.d false
  let all ← pAll f [a]
  pure (mk (guardOf f) all d a)

/-- R240: the format and the mode of a packed instruction; no I-form with BF16. -/
def pHalf (f : Fields) : Parse (HalfFmt × Mode) := do
  let m ← want 0 (modeOf (aSub f % 8))
  let h := if 8 ≤ aSub f then HalfFmt.bf16 else .f16
  need 0 (!(h == .bf16 && aForm f == 1))
  pure (h, m)

/-- Two packed sources (R240). -/
def pH2 (f : Fields) (k : Nat) (lit : W64) (mk : Guard → Bool → HalfFmt → Mode → Reg → Src → Src → Instr) : Parse Instr := do
  let hm ← pHalf f
  let a ← pSrc 2 f.a f.am k true false
  let b ← lastB f lit k true false
  let d ← pReg 1 f.d false
  let all ← pAll f [a, b]
  pure (mk (guardOf f) all hm.1 hm.2 d a b)

/-! ### The rows -/

/-- Row 0x1 (R190, R191). -/
def decRow1 (f : Fields) (k : Nat) (lit : W64) : Nat → Parse Instr
  | 0x0 => pInt2 f k lit .iadd
  | 0x1 => pInt3 f k lit .iadd3
  | 0x2 => pInt2 f k lit .isub
  | 0x3 => pInt2 f k lit .imul
  | 0x4 => pInt2 f k lit .imulh
  | 0x5 => pInt3 f k lit .imad
  | 0x6 => pInt2 f k lit .imin
  | 0x7 => pInt2 f k lit .imax
  | 0x8 => pInt1 f k lit IntTy.signed .iabs
  | 0x9 => pInt1 f k lit (fun _ => true) .ineg
  | 0xA => do
    pNoAll f
    let a ← pPlain 2 f.a f.am true
    let b ← lastB f lit 0 false false
    let d ← pReg 1 f.d true
    pure (.lea (guardOf f) (decide (8 ≤ aSub f)) (aSub f % 8) d a b)
  | _ => .error 0

/-- R193, R204: the truth table, its low half in the C map field and its high half in sub. -/
def tableOf (f : Fields) : BitVec 8 := BitVec.append (f.m.extractLsb' 0 4) f.cm

/-- Row 0x2 (R192 to R199). -/
def decRow2 (f : Fields) (lit : W64) : Nat → Parse Instr
  | 0x0 => do
    let op ← want 0 (lopOf (aSub f % 8))
    pNoAll f
    let a ← pPlain 2 f.a f.am (decide (8 ≤ aSub f))
    let b ← lastB f lit 0 false (decide (8 ≤ aSub f))
    let d ← pReg 1 f.d (decide (8 ≤ aSub f))
    pure (.lop (guardOf f) op (decide (8 ≤ aSub f)) d a b)
  | 0x1 => do
    pFormR f
    pNoAll f
    let a ← pPlain 2 f.a f.am false
    let b ← pPlain 3 f.b f.bm false
    let c ← pReg 4 f.c false
    let d ← pReg 1 f.d false
    pure (.bits3 (guardOf f) (tableOf f) d a b c)
  | 0x2 => pShift f lit .shl
  | 0x3 => pShift f lit .shr
  | 0x4 => pShift f lit .sar
  | 0x5 => do
    need 0 (decide (aSub f < 4))
    pNoAll f
    let a ← pPlain 2 f.a f.am false
    let b ← pPlain 3 f.b f.bm false
    let c ← lastC f lit 0 false false
    let d ← pReg 1 f.d false
    pure (.fsh (guardOf f) (aSub f % 2 == 1) (decide (2 ≤ aSub f)) d a b c)
  | 0x6 => do
    let t ← want 0 (intTyOf (aSub f))
    need 0 t.big
    pFormRL f
    pNoAll f
    let a ← pPlain 2 f.a f.am t.wide
    let b ← lastB f lit 0 false false
    let d ← pReg 1 f.d t.wide
    pure (.bfe (guardOf f) t d a b)
  | 0x7 => do
    let t ← want 0 (intTyOf (aSub f))
    need 0 t.big
    pFormRL f
    pNoAll f
    let a ← pPlain 2 f.a f.am t.wide
    let b ← pPlain 3 f.b f.bm false
    let c ← lastC f lit 0 false t.wide
    let d ← pReg 1 f.d t.wide
    pure (.bfi (guardOf f) t d a b c)
  | 0x8 => do
    need 0 (aSub f == 0)
    pNoAll f
    let a ← pPlain 2 f.a f.am false
    let b ← pPlain 3 f.b f.bm false
    let c ← lastC f lit 0 false false
    let d ← pReg 1 f.d false
    pure (.bysel (guardOf f) d a b c)
  | 0x9 => pBig1 f lit false .popc
  | 0xA => pBig1 f lit false .clz
  | 0xB => pBig1 f lit true .brev
  | _ => .error 0

/-- R200, R238: the predicate in dest bits [16:13]. -/
def pCcPred (f : Fields) : Parse Nat :=
  if (f.d.extractLsb' 0 4).toNat < 12 then .ok (f.d.extractLsb' 0 4).toNat else .error 1

/-- R206: what `POLL` does, and its destination. -/
def pPoll (f : Fields) : Parse PollOp :=
  match aSub f with
  | 0 => do pure (.every (← pPred 1 f.d 0))
  | 1 => do pure (.some (← pPred 1 f.d 0))
  | 2 => do pure (.same (← pPred 1 f.d 0))
  | 3 => do pure (.bits (← pReg 1 f.d true))
  | 4 => do pure (.count (← pReg 1 f.d false))
  | 5 => do pure (.first (← pReg 1 f.d false))
  | _ => .error 0

/-- Row 0x3 (R200 to R209). -/
def decRow3 (f : Fields) (k : Nat) (lit : W64) : Nat → Parse Instr
  | 0x0 => do
    let t ← want 0 (intTyOf (aSub f))
    let a ← pSrc 2 f.a f.am k true t.wide
    let b ← lastB f lit k true t.wide
    let pd ← pCcPred f
    let cc ← want 1 (icondOf (f.d.extractLsb' 4 4).toNat)
    let all ← pAll f [a, b]
    pure (.icmp (guardOf f) all cc t pd a b)
  | 0x1 => do
    let t ← want 0 (intTyOf (aSub f))
    need 0 t.big
    pFormR f
    let a ← pSrc 2 f.a f.am k true t.wide
    let b ← pSrc 3 f.b f.bm k true t.wide
    let pc ← pPred 4 f.c f.cm
    let d ← pReg 1 f.d t.wide
    let all ← pAll f [a, b]
    pure (.sel (guardOf f) all t d a b pc)
  | 0x2 => pBig1 f lit true .mov
  | 0x3 => do
    let t ← want 0 (intTyOf (aSub f))
    need 0 t.big
    pFormR f
    pNoAll f
    let d ← pReg 1 f.d t.wide
    pure (.movi (guardOf f) t d (wideOf f))
  | 0x4 => do
    pFormR f
    pNoAll f
    let pa ← pPred 2 f.a f.am
    let pb ← pPred 3 f.b f.bm
    let pc ← pPred 4 f.c 0
    let pd ← pPred 1 f.d 0
    pure (.plop (guardOf f) (tableOf f) pd pa pb pc)
  | 0x5 => do
    pNoAll f
    match aSub f with
    | 0 => do
      pFormR f
      pNone 2 f.a f.am
      pNone 3 f.b f.bm
      pNone 4 f.c f.cm
      let d ← pReg 1 f.d false
      pure (.pmovPack (guardOf f) d)
    | 1 => do
      let a ← pPlain 2 f.a f.am false
      let b ← lastB f lit 0 false false
      pNone 1 f.d 0
      pure (.pmovUnpack (guardOf f) a b)
    | 2 => do
      pFormR f
      let pa ← pPred 2 f.a f.am
      pNone 3 f.b f.bm
      pNone 4 f.c f.cm
      let pd ← pPred 1 f.d 0
      pure (.pmovCopy (guardOf f) pd pa)
    | _ => .error 0
  | 0x6 => do
    pFormR f
    pNoAll f
    let pa ← pPred 2 f.a f.am
    pNone 3 f.b f.bm
    pNone 4 f.c f.cm
    let op ← pPoll f
    pure (.poll (guardOf f) op pa)
  | 0x7 => do
    pFormR f
    pNoAll f
    pNone 2 f.a f.am
    pNone 3 f.b f.bm
    pNone 4 f.c f.cm
    let d ← pReg 1 f.d true
    match aSub f with
    | 0 => pure (.maskRd (guardOf f) d)
    | 1 => pure (.maskRdHeld (guardOf f) d)
    | _ => .error 0
  | 0x8 => do
    let op ← want 0 (maskOpOf (aSub f))
    pNoAll f
    let a ← lastA f lit 0 false true
    pNone 1 f.d 0
    pure (.maskWr (guardOf f) op a)
  | 0x9 => do
    let m ← want 0 (laneModeOf (aSub f % 8))
    pNoAll f
    let a ← pPlain 2 f.a f.am (decide (8 ≤ aSub f))
    let b ← if m = .rev then do pFormR f; pNone 3 f.b f.bm; pNone 4 f.c f.cm; pure (Src.reg (.v 0))
      else lastB f lit 0 false false
    let d ← pReg 1 f.d (decide (8 ≤ aSub f))
    pure (.lanex (guardOf f) m (decide (8 ≤ aSub f)) d a b)
  | _ => .error 0

/-- Row 0x4 (R236 to R240). -/
def decRow4 (f : Fields) (k : Nat) (lit : W64) : Nat → Parse Instr
  | 0x0 => pF2 f k lit .fadd
  | 0x1 => pF2 f k lit .fmul
  | 0x2 => do
    let m ← want 0 (modeOf (aSub f))
    let a ← pSrc 2 f.a f.am k true false
    let b ← pSrc 3 f.b f.bm k true false
    let c ← lastC f lit k true false
    let d ← pReg 1 f.d false
    let all ← pAll f [a, b, c]
    pure (.ffma (guardOf f) all m d a b c)
  | 0x3 => pFM f k lit .fmin
  | 0x4 => pFM f k lit .fmax
  | 0x5 => do
    need 0 (aSub f == 0)
    let a ← pSrc 2 f.a f.am k true false
    let b ← lastB f lit k true false
    let pd ← pCcPred f
    let cc ← want 1 (fcondOf (f.d.extractLsb' 4 4).toNat)
    let all ← pAll f [a, b]
    pure (.fcmp (guardOf f) all cc pd a b)
  | 0x6 =>
    match aSub f with
    | 0 => do
      let a ← lastA f lit k true false
      let d ← pReg 1 f.d false
      let all ← pAll f [a]
      pure (.fclass (guardOf f) all d a)
    | 1 => do
      let a ← pSrc 2 f.a f.am k true false
      let b ← lastB f lit 0 false false
      let pd ← pPred 1 f.d 0
      let all ← pAll f [a]
      pure (.fclassTest (guardOf f) all pd a b)
    | _ => .error 0
  | 0x7 => pH2 f k lit .hadd2
  | 0x8 => pH2 f k lit .hmul2
  | 0x9 => do
    let hm ← pHalf f
    let a ← pSrc 2 f.a f.am k true false
    let b ← pSrc 3 f.b f.bm k true false
    let c ← lastC f lit k true false
    let d ← pReg 1 f.d false
    let all ← pAll f [a, b, c]
    pure (.hfma2 (guardOf f) all hm.1 hm.2 d a b c)
  | _ => .error 0

/-- Row 0x5 (R241 to R246). -/
def decRow5 (f : Fields) (k : Nat) (lit : W64) : Nat → Parse Instr
  | 0x0 => pF1 f k lit .frcp
  | 0x1 => pF1 f k lit .frsq
  | 0x2 => pF1 f k lit .fsqrt
  | 0x3 => pT1 f k lit .fexp2
  | 0x4 => pT1 f k lit .flog2
  | 0x5 => pT1 f k lit .fsin
  | 0x6 => pT1 f k lit .fcos
  | 0x7 => pT1 f k lit .ftanh
  | 0x8 => do
    let m ← want 0 (modeOf (aSub f))
    pFormR f
    let _ ← pSrc 2 f.a f.am k (ctyOf (f.b.extractLsb' 0 5).toNat == some .f32 && f.b.extractLsb' 5 3 == 0) false
    let sty ← want 3 (ctyOf (f.b.extractLsb' 0 5).toNat)
    let a ← pSrc 2 f.a f.am k (sty == .f32 && f.b.extractLsb' 5 3 == 0) sty.wide
    need 3 (decide ((f.b.extractLsb' 5 3).toNat < sty.count) && f.bm == 0)
    let dty ← want 4 (ctyOf (f.c.extractLsb' 0 5).toNat)
    need 4 (decide ((f.c.extractLsb' 5 3).toNat < dty.count) && f.cm == 0)
    let d ← pReg 1 f.d dty.wide
    let all ← pAll f [a]
    pure (.cvt (guardOf f) all m dty sty d (f.c.extractLsb' 5 3).toNat a (f.b.extractLsb' 5 3).toNat)
  | 0x9 => do
    let m ← want 0 (modeOf (aSub f))
    pFormR f
    pNoAll f
    let a ← pPlain 2 f.a f.am false
    let x ← want 3 (if f.bm = 0 then mxOf f.b.toNat else none)
    pNone 4 f.c f.cm
    let d ← pReg 1 f.d true
    pure (.qnt (guardOf f) m x d a)
  | 0xA => do
    need 0 (aSub f == 0)
    pFormR f
    pNoAll f
    let a ← pPlain 2 f.a f.am true
    let x ← want 3 (if f.bm = 0 then mxOf f.b.toNat else none)
    pNone 4 f.c f.cm
    let d ← pReg 1 f.d false
    pure (.dqnt (guardOf f) x d a)
  | 0xB => do
    let kd ← want 0 (randOf (aSub f))
    pFormR f
    pNoAll f
    pNone 2 f.a f.am
    pNone 3 f.b f.bm
    pNone 4 f.c f.cm
    let d ← pReg 1 f.d (kd == .n64)
    need 1 d.isVec
    pure (.rand (guardOf f) kd d)
  | _ => .error 0

/-- A GEN-class word with no source: A, B and C are unused. -/
def pBare (f : Fields) : Parse Unit := do pNone 2 f.a f.am; pNone 3 f.b f.bm; pNone 4 f.c f.cm

/-- `BRX` and `RET` (R213). -/
def pBrx (f : Fields) (mk : Guard → Reg → Instr) : Parse Instr := do
  need 0 (f.m == 0)
  let a ← pPlain 2 f.a f.am true
  pNone 3 f.b f.bm
  pNone 4 f.c f.cm
  pNone 1 f.d 0
  pure (mk (guardOf f) a)

/-- Row 0x0 but `NOP` (R210 to R219, R296). -/
def decRow0 (f : Fields) : Nat → Parse Instr
  | 0x1 => do need 0 (f.m == 0); pNone 1 f.d 0; pure (.bra (guardOf f) (wideOf f))
  | 0x2 => pBrx f .brx
  | 0x3 => do need 0 (f.m == 0); let d ← pReg 1 f.d true; pure (.call (guardOf f) d (wideOf f))
  | 0x4 => pBrx f .ret
  | 0x5 => do need 0 (f.m == 0); pBare f; pNone 1 f.d 0; pure (.exit (guardOf f))
  | 0x6 => do need 0 (f.m == 0); pAlways f; pNone 1 f.d 0; pure (.tok (wideOf f))
  | 0x7 => do need 0 (f.m == 0); pAlways f; pBare f; pNone 1 f.d 0; pure .join
  | 0x8 => do need 0 (f.m == 0); pAlways f; pBare f; pNone 1 f.d 0; pure .yield
  | 0x9 => do
    need 0 (decide (f.m.toNat < 2))
    pAlways f
    let a ← pPlain 2 f.a f.am (f.m == 1)
    need 2 (!a.isVec)
    pNone 3 f.b f.bm
    pNone 4 f.c f.cm
    pNone 1 f.d 0
    pure (if f.m == 1 then .sleepAbs a.num else .sleepRel a.num)
  | 0xA => do
    need 0 (f.m == 0)
    pNone 2 f.a f.am
    pNone 3 f.b f.bm
    need 4 (f.cm == 0)
    pNone 1 f.d 0
    pure (.trap (guardOf f) f.c)
  | 0xB => do need 0 (f.m == 0); pBare f; pNone 1 f.d 0; pure (.bkpt (guardOf f))
  | _ => .error 0

/-- R176, R230: a slot number in a register field, 1 to `k`. -/
def pSlot (pos : Nat) (x : BitVec 8) (m : BitVec 4) (k : Nat) : Parse Nat :=
  if m = 0 ∧ 1 ≤ x.toNat ∧ x.toNat ≤ k then .ok x.toNat else .error pos

/-- Row 0x6 (R230 to R234). -/
def decRow6 (f : Fields) (k : Nat) : Nat → Parse Instr
  | 0x0 => do
    need 0 (mScope f == 0 && mSub f == 0)
    let a ← pPlain 2 f.a f.am false
    let b ← pPlain 3 f.b f.bm false
    pNone 4 f.c f.cm
    let s ← pSlot 1 f.d 0 k
    pure (.mbind (guardOf f) (mFlag f) s a b)
  | 0x1 => do
    need 0 (mScope f == 0 && mSub f == 0)
    let a ← pPlain 2 f.a f.am false
    let b ← pPlain 3 f.b f.bm false
    let c ← pPlain 4 f.c f.cm false
    let s ← pSlot 1 f.d 0 k
    pure (.mput (guardOf f) (mFlag f) s a b c)
  | 0x2 => do
    need 0 (mScope f == 0)
    match mSub f with
    | 0 => do
      let a ← pPlain 2 f.a f.am false
      let s ← pSlot 3 f.b f.bm k
      pNone 4 f.c f.cm
      let d ← pReg 1 f.d false
      need 1 d.isVec
      pure (.mget (guardOf f) (mFlag f) d s a)
    | 1 => do
      pNone 2 f.a f.am
      let s ← pSlot 3 f.b f.bm k
      pNone 4 f.c f.cm
      let d ← pReg 1 f.d false
      need 1 d.isVec
      pure (.mgetFmt (guardOf f) (mFlag f) d s)
    | _ => .error 0
  | 0x3 => do
    need 0 (f.m == 0)
    pAlways f
    pBare f
    let s ← pSlot 1 f.d 0 k
    pure (.mfree s)
  | _ => .error 0

/-- R250, R181: the register of a data type. -/
def pData (pos : Nat) (x : BitVec 8) (t : DType) : Parse Reg :=
  if t.regWf (regOf x) then .ok (regOf x) else .error pos

/-- R248: the store value, mapped only with sub 4. -/
def pStoreSrc (f : Fields) (k : Nat) (t : DType) : Parse Src :=
  if f.bm = 0 then
    if t.regWf (regOf f.b) then .ok (.reg (regOf f.b)) else .error 3
  else if t = .w32 ∧ f.b.toNat < 192 ∧ (f.bm.toNat = 15 ∨ f.bm.toNat ≤ k) then .ok (.map f.bm.toNat f.b.toNat)
  else .error 3

/-- A load with a scope (R250). -/
def pLoad (f : Fields) (mk : Guard → FlagSel → DType → Scope → Reg → Reg → BitVec 12 → Instr) : Parse Instr := do
  let t ← want 0 (dtypeOf (mSub f))
  let sc ← want 0 (scopeOf (mScope f))
  let a ← pPlain 2 f.a f.am true
  pNone 3 f.b f.bm
  let d ← pData 1 f.d t
  pure (mk (guardOf f) (mFlag f) t sc d a (immOf f))

/-- A store with a scope (R250). -/
def pStore (f : Fields) (k : Nat) (mk : Guard → FlagSel → DType → Scope → Reg → BitVec 12 → Src → Instr) : Parse Instr := do
  let t ← want 0 (dtypeOf (mSub f))
  let sc ← want 0 (scopeOf (mScope f))
  let a ← pPlain 2 f.a f.am true
  let b ← pStoreSrc f k t
  pNone 1 f.d 0
  pure (mk (guardOf f) (mFlag f) t sc a (immOf f) b)

/-- A uniform pair (R253). -/
def pUniPair (pos : Nat) (x : BitVec 8) (m : BitVec 4) : Parse Reg := do
  let r ← pPlain pos x m true
  need pos (!r.isVec)
  pure r

/-- `PREF`, `CWB` and `CINV` (R254). -/
def pLine (f : Fields) (mk : Guard → Scope → Reg → BitVec 12 → Instr) : Parse Instr := do
  need 0 (mFlag f == .A && mSub f == 0)
  let sc ← want 0 (scopeOf (mScope f))
  let a ← pPlain 2 f.a f.am true
  pNone 3 f.b f.bm
  pNone 1 f.d 0
  pure (mk (guardOf f) sc a (immOf f))

/-- Row 0x7 (R250 to R255). -/
def decRow7 (f : Fields) (k : Nat) : Nat → Parse Instr
  | 0x0 => pLoad f .ld
  | 0x1 => pLoad f .ldAcq
  | 0x2 => pStore f k .st
  | 0x3 => pStore f k .stRel
  | 0x4 => do
    let x ← want 0 (mxOf (mSub f + 5))
    let sc ← want 0 (scopeOf (mScope f))
    let a ← pUniPair 2 f.a f.am
    let b ← pUniPair 3 f.b f.bm
    let d ← pReg 1 f.d true
    pure (.mxld (guardOf f) (mFlag f) x sc d a b (immOf f))
  | 0x5 => do
    let x ← want 0 (mxOf (mSub f + 5))
    let sc ← want 0 (scopeOf (mScope f))
    let a ← pUniPair 2 f.a f.am
    let b ← pPlain 3 f.b f.bm true
    let c ← pUniPair 4 f.c f.cm
    pNone 1 f.d 0
    pure (.mxst (guardOf f) (mFlag f) x sc a b c)
  | 0x6 => pLine f .pref
  | 0x7 => pLine f .cwb
  | 0x8 => pLine f .cinv
  | 0x9 => do
    need 0 (mFlag f == .A && mSub f == 0)
    let sc ← want 0 (scopeOf (mScope f))
    pAlways f
    pBare f
    pNone 1 f.d 0
    pure (.fence sc)
  | 0xA => do need 0 (f.m == 0); pAlways f; pBare f; pNone 1 f.d 0; pure .ifence
  | _ => .error 0

/-- R256: the operation, the width and the compare-and-swap register of an atomic. -/
def pAtom (f : Fields) : Parse (AtomOp × AtomWidth × Reg × Reg) := do
  let op ← want 0 (atomOpOf f.cm.toNat)
  let w := if mSub f < 4 then AtomWidth.b32 else .b64
  need 0 (!(op == .fadd && w == .b64))
  let b ← pPlain 3 f.b f.bm (w == .b64)
  let c ← if op = .cas then pReg 4 f.c (w == .b64) else do need 4 (f.c == 0); pure (Reg.v 0)
  pure (op, w, b, c)

/-- Row 0x8 (R250, R256). -/
def decRow8 (f : Fields) (k : Nat) : Nat → Parse Instr
  | 0x0 => do
    let t ← want 0 (dtypeOf (mSub f))
    need 0 (mScope f == 0)
    let a ← pPlain 2 f.a f.am false
    pNone 3 f.b f.bm
    let d ← pData 1 f.d t
    pure (.lds (guardOf f) (mFlag f) t d a (immOf f))
  | 0x1 => do
    let t ← want 0 (dtypeOf (mSub f))
    need 0 (mScope f == 0)
    let a ← pPlain 2 f.a f.am false
    let b ← pStoreSrc f k t
    pNone 1 f.d 0
    pure (.sts (guardOf f) (mFlag f) t a (immOf f) b)
  | 0x2 => do
    let t ← want 0 (dtypeOf (mSub f))
    need 0 (mScope f == 0)
    let a ← pPlain 2 f.a f.am false
    pNone 3 f.b f.bm
    let d ← pData 1 f.d t
    pure (.ldl (guardOf f) (mFlag f) t d a (immOf f))
  | 0x3 => do
    let t ← want 0 (dtypeOf (mSub f))
    need 0 (mScope f == 0)
    let a ← pPlain 2 f.a f.am false
    let b ← pStoreSrc f k t
    pNone 1 f.d 0
    pure (.stl (guardOf f) (mFlag f) t a (immOf f) b)
  | 0x4 => do
    let sc ← want 0 (scopeOf (mScope f))
    let a ← pPlain 2 f.a f.am true
    let x ← pAtom f
    let d ← pReg 1 f.d (x.2.1 == .b64)
    pure (.atom (guardOf f) (mFlag f) x.1 x.2.1 (orderOf (mSub f % 4)) sc d a x.2.2.1 x.2.2.2)
  | 0x5 => do
    let sc ← want 0 (scopeOf (mScope f))
    let a ← pPlain 2 f.a f.am true
    let x ← pAtom f
    pNone 1 f.d 0
    pure (.red (guardOf f) (mFlag f) x.1 x.2.1 (orderOf (mSub f % 4)) sc a x.2.2.1 x.2.2.2)
  | 0x6 => do
    need 0 (mScope f == 0 && mSub f % 4 == 0)
    let a ← pPlain 2 f.a f.am false
    let x ← pAtom f
    let d ← pReg 1 f.d (x.2.1 == .b64)
    pure (.atoms (guardOf f) (mFlag f) x.1 x.2.1 d a x.2.2.1 x.2.2.2)
  | _ => .error 0

/-- Three plain registers A, B and C (R260). -/
def pRegs3 (f : Fields) : Parse (Reg × Reg × Reg) := do
  let a ← pPlain 2 f.a f.am false
  let b ← pPlain 3 f.b f.bm false
  let c ← pPlain 4 f.c f.cm false
  pure (a, b, c)

/-- Two plain registers A and B, C unused (R260). -/
def pRegs2 (f : Fields) : Parse (Reg × Reg) := do
  let a ← pPlain 2 f.a f.am false
  let b ← pPlain 3 f.b f.bm false
  pNone 4 f.c f.cm
  pure (a, b)

/-- One plain register A, B and C unused. -/
def pRegs1 (f : Fields) (wide : Bool) : Parse Reg := do
  let a ← pPlain 2 f.a f.am wide
  pNone 3 f.b f.bm
  pNone 4 f.c f.cm
  pure a

/-- R260: the tile handle in the dest field. -/
def pHandle (f : Fields) : Parse Nat := if f.d.toNat < 64 then .ok f.d.toNat else .error 1

/-- Row 0x9 (R259 to R267). -/
def decRow9 (f : Fields) : Nat → Parse Instr
  | 0x0 => do
    need 0 (f.m == 0)
    pAlways f
    let x ← pRegs3 f
    pNone 1 f.d 0
    pure (.phinit x.1 x.2.1 x.2.2)
  | 0x1 => do
    pAlways f
    let a ← pRegs1 f false
    pNone 1 f.d 0
    match f.m.toNat with
    | 0 => pure (.phregSig a)
    | 1 => pure (.phregUnsig a)
    | 2 => pure (.phregWait a)
    | 3 => pure (.phregUnwait a)
    | _ => .error 0
  | 0x2 => do
    need 0 (f.m == 0)
    pAlways f
    let a ← pRegs1 f false
    let pd ← pPred 1 f.d 0
    pure (.pharv pd a)
  | 0x3 => do
    need 0 (f.m == 0)
    pAlways f
    let a ← pPlain 2 f.a f.am false
    let pb ← pPred 3 f.b f.bm
    pNone 4 f.c f.cm
    pNone 1 f.d 0
    pure (.phwait a pb)
  | 0x4 => do
    need 0 (f.m == 0)
    pAlways f
    let a ← pPlain 2 f.a f.am false
    let pb ← pPred 3 f.b f.bm
    pNone 4 f.c f.cm
    let pd ← pPred 1 f.d 0
    pure (.phtest pd a pb)
  | 0x5 => do
    need 0 (f.m == 0)
    pAlways f
    let x ← pRegs3 f
    pNone 1 f.d 0
    pure (.qinit x.1 x.2.1 x.2.2)
  | 0x6 => do
    pAlways f
    let x ← pRegs2 f
    match f.m.toNat with
    | 0 => do pNone 1 f.d 0; pure (.qpush x.1 x.2)
    | 1 => do let pd ← pPred 1 f.d 0; pure (.qpushNb pd x.1 x.2)
    | _ => .error 0
  | 0x7 => do
    pAlways f
    let a ← pPlain 2 f.a f.am false
    pNone 3 f.b f.bm
    match f.m.toNat with
    | 0 => do pNone 4 f.c f.cm; let d ← pReg 1 f.d false; pure (.qpop d a)
    | 1 => do let pc ← pPred 4 f.c f.cm; let d ← pReg 1 f.d false; pure (.qpopNb d pc a)
    | _ => .error 0
  | 0x8 => do
    pAlways f
    match f.m.toNat with
    | 0 => do let x ← pRegs2 f; let h ← pHandle f; pure (.tdef h x.1 x.2)
    | 1 => do let x ← pRegs3 f; let h ← pHandle f; pure (.tdefAtt h x.1 x.2.1 x.2.2)
    | 2 => do pBare f; let h ← pHandle f; pure (.tdefUndef h)
    | _ => .error 0
  | 0x9 => do
    pAlways f
    pBare f
    pNone 1 f.d 0
    match f.m.toNat with
    | 0 => pure .regxAcq
    | 1 => pure .regxRel
    | _ => .error 0
  | 0xA => do
    pAlways f
    pBare f
    pNone 1 f.d 0
    match f.m.toNat with
    | 0 => pure .dbarDev
    | 1 => pure .dbarDom
    | _ => .error 0
  | _ => .error 0

/-- R268, R281, R289, R291: the first uniform register of a descriptor, a multiple of `step`. -/
def pDesc (f : Fields) (step : Nat) : Parse Nat :=
  if f.am = 0 ∧ 192 ≤ f.a.toNat ∧ (f.a.toNat - 192) % step = 0 then .ok (f.a.toNat - 192) else .error 2

/-- `CPY`, `CPYW` and `COLL`: a flag choice and a descriptor. -/
def pCopy (f : Fields) (mk : Guard → FlagSel → Nat → Instr) : Parse Instr := do
  need 0 (mScope f == 0 && mSub f == 0)
  let n ← pDesc f 8
  pNone 3 f.b f.bm
  pNone 4 f.c f.cm
  pNone 1 f.d 0
  pure (mk (guardOf f) (mFlag f) n)

/-- Row 0xA (R268, R269, R273 to R278). -/
def decRowA (f : Fields) : Nat → Parse Instr
  | 0x0 => pCopy f .cpy
  | 0x1 => pCopy f .cpyw
  | 0x2 => do
    pAlways f
    let x ← pRegs2 f
    match f.m.toNat with
    | 0 => do pNone 1 f.d 0; pure (.lwait x.1 x.2)
    | 1 => do let pd ← pPred 1 f.d 0; pure (.lwaitNb pd x.1 x.2)
    | _ => .error 0
  | 0x8 => do
    let op ← want 0 (foldOf f.m.toNat)
    pAlways f
    let vs ← pPlain 2 f.a f.am false
    let vl ← pPlain 3 f.b f.bm false
    need 4 (f.cm == 0 && decide (f.c.toNat < 64))
    pNone 1 f.d 0
    pure (.xbegin op vs vl (f.c.toNat % 16) (f.c.toNat / 16 + 1))
  | 0x9 => do
    need 0 (f.m == 0)
    pAlways f
    let vo ← pPlain 2 f.a f.am false
    let pd ← pPred 3 f.b f.bm
    pNone 4 f.c f.cm
    let vi ← pReg 1 f.d false
    pure (.xnext vi vo pd)
  | 0xA => do
    need 0 (f.m == 0)
    let a ← pRegs1 f false
    pNone 1 f.d 0
    pure (.xred (guardOf f) a)
  | 0xB => do
    need 0 (mScope f == 0 && mSub f == 0)
    pAlways f
    pBare f
    let d ← pReg 1 f.d false
    pure (.xend (mFlag f) d)
  | _ => .error 0

/-- Row 0xB (R281 to R290). -/
def decRowB (f : Fields) : Nat → Parse Instr
  | 0x0 => do
    need 0 (f.m == 0)
    pAlways f
    let n ← pDesc f 8
    pNone 3 f.b f.bm
    pNone 4 f.c f.cm
    let d ← pReg 1 f.d false
    pure (.watch d n)
  | 0x1 => do
    need 0 (f.m == 0)
    pAlways f
    let a ← pRegs1 f false
    pNone 1 f.d 0
    pure (.unwatch a)
  | 0x2 => do
    let kd ← want 0 (trigOf f.m.toNat)
    pBare f
    let d ← pReg 1 f.d (kd == .addr || kd == .arg)
    pure (.trigi (guardOf f) kd d)
  | 0x8 => do
    let t ← want 0 (dtypeOf (mSub f))
    let sc ← want 0 (scopeOf (mScope f))
    need 0 sc.far
    let a ← pPlain 2 f.a f.am true
    let b ← pData 3 f.b t
    need 3 (f.bm == 0)
    need 1 (decide (f.d.toNat < 2))
    pure (.stf (guardOf f) (mFlag f) (f.d == 1) t sc a (immOf f) b)
  | 0x9 => do
    let t ← want 0 (dtypeOf (mSub f))
    let sc ← want 0 (scopeOf (mScope f))
    need 0 sc.far
    let a ← pPlain 2 f.a f.am true
    need 3 (f.bm == 0 && decide (f.b.toNat < 2))
    let d ← pData 1 f.d t
    pure (.ldf (guardOf f) (mFlag f) (f.b == 1) t sc d a (immOf f))
  | 0xA => do
    let sc ← want 0 (scopeOf (mScope f))
    need 0 sc.far
    let a ← pPlain 2 f.a f.am true
    let x ← pAtom f
    need 0 (!(x.1 == .xchg || x.1 == .cas))
    pNone 1 f.d 0
    pure (.redf (guardOf f) (mFlag f) x.1 x.2.1 (orderOf (mSub f % 4)) sc a x.2.2.1)
  | 0xB => pCopy f .coll
  | _ => .error 0

/-- Row 0xC (R291 to R293). -/
def decRowC (f : Fields) : Nat → Parse Instr
  | 0x0 => do
    need 0 (f.m == 0)
    need 2 (f.am == 0 && sregDefined f.a.toNat)
    pNone 3 f.b f.bm
    pNone 4 f.c f.cm
    let d ← pReg 1 f.d (sregWide f.a.toNat)
    pure (.srd (guardOf f) d f.a.toNat)
  | 0x1 => do
    need 0 (f.m == 0)
    let a ← pRegs1 f (f.d == 6)
    pure (.swr (guardOf f) f.d.toNat a)
  | 0x2 => do
    need 0 (decide (f.m.toNat < 8))
    pAlways f
    let n ← pDesc f 16
    pNone 3 f.b f.bm
    pNone 4 f.c f.cm
    pNone 1 f.d 0
    pure (.launch f.m.toNat n)
  | 0x3 => do
    need 0 (f.m == 0)
    pAlways f
    let a ← pPlain 2 f.a f.am true
    let b ← pPlain 3 f.b f.bm true
    pNone 4 f.c f.cm
    pNone 1 f.d 0
    pure (.signal a b)
  | _ => .error 0

/-! ### The slot -/

/-- The row of an opcode point. -/
def opRow (f : Fields) : Nat := (f.op.extractLsb' 4 4).toNat
/-- The column of an opcode point. -/
def opCol (f : Fields) : Nat := (f.op.extractLsb' 0 4).toNat

/-- R182: the number of assigned points at the start of a row; row 0xA and row 0xB have a second run. -/
def opAssigned (f : Fields) : Bool :=
  match opRow f with
  | 0x0 => decide (opCol f < 12)
  | 0x1 => decide (opCol f < 11)
  | 0x2 => decide (opCol f < 12)
  | 0x3 => decide (opCol f < 10)
  | 0x4 => decide (opCol f < 10)
  | 0x5 => decide (opCol f < 12)
  | 0x6 => decide (opCol f < 4)
  | 0x7 => decide (opCol f < 11)
  | 0x8 => decide (opCol f < 7)
  | 0x9 => decide (opCol f < 11)
  | 0xA => decide (opCol f < 3) || (decide (8 ≤ opCol f) && decide (opCol f < 12))
  | 0xB => decide (opCol f < 3) || (decide (8 ≤ opCol f) && decide (opCol f < 12))
  | 0xC => decide (opCol f < 4)
  | _ => false

/-- R182, R184: the rows whose reserved points and field values are reserved-emulable. -/
def rowEmulable (f : Fields) : Bool :=
  (decide (1 ≤ opRow f) && decide (opRow f ≤ 5)) || (!opAssigned f && (opRow f == 7 || opRow f == 8 || opRow f == 0xD))

/-- R179: the word is an L-form word of an instruction that accepts the L-form, so its literal takes
the next slot. -/
def takesLit (f : Fields) : Bool :=
  opAssigned f && decide (1 ≤ opRow f) && decide (opRow f ≤ 5) && aForm f == 2 &&
    (match opRow f, opCol f with
     | 2, 1 => false
     | 3, 1 | 3, 3 | 3, 4 | 3, 6 | 3, 7 => false
     | 3, 5 => aSub f == 1
     | 3, 9 => aSub f % 8 != 4
     | 5, 8 | 5, 9 | 5, 0xA | 5, 0xB => false
     | _, _ => true)

/-- The fields of an assigned point other than `NOP`, read by its row (R182, R184). -/
def decFields (k : Nat) (f : Fields) (lit : W64) : Parse Instr :=
  match opRow f with
  | 0x0 => decRow0 f (opCol f)
  | 0x1 => decRow1 f k lit (opCol f)
  | 0x2 => decRow2 f lit (opCol f)
  | 0x3 => decRow3 f k lit (opCol f)
  | 0x4 => decRow4 f k lit (opCol f)
  | 0x5 => decRow5 f k lit (opCol f)
  | 0x6 => decRow6 f k (opCol f)
  | 0x7 => decRow7 f k (opCol f)
  | 0x8 => decRow8 f k (opCol f)
  | 0x9 => decRow9 f (opCol f)
  | 0xA => decRowA f (opCol f)
  | 0xB => decRowB f (opCol f)
  | 0xC => decRowC f (opCol f)
  | _ => .error 0

/-- R185: a slot's instruction, from the kernel's declared map slots `k`, its word, and the next
slot's bits where that slot may hold a literal (R179). -/
def decodeSlot (k : Nat) (w : W64) (lit : Option W64) : Instr :=
  let f := fieldsOf w
  if opHint f.op.toNat then .reservedHint w
  else if f.op = 0 then .nop
  else if opAssigned f then
    if guardOk f = false then .reservedInvalid w
    else if takesLit f && lit.isNone then .reservedInvalid w
    else
      match decFields k f (lit.getD 0) with
      | .ok i => i
      | .error _ => if rowEmulable f then .reservedEmulable w else .reservedInvalid w
  else if rowEmulable f then .reservedEmulable w
  else .reservedInvalid w

/-- R350: the operand field of the record of a slot of the second or third fate: 5 for a missing
literal, else the first position in the order A, B, C, dest that holds a reserved value, else 0. -/
def reservedOperand (k : Nat) (w : W64) (lit : Option W64) : Nat :=
  let f := fieldsOf w
  if opAssigned f = false ∨ guardOk f = false then 0
  else if takesLit f && lit.isNone then 5
  else
    match decFields k f (lit.getD 0) with
    | .ok _ => 0
    | .error p => p

/-- R3: the little-endian word of eight bytes, and what follows them. -/
def wordOfBytes : List Byte → Option (W64 × List Byte)
  | b0 :: b1 :: b2 :: b3 :: b4 :: b5 :: b6 :: b7 :: rest =>
    some (b7 ++ b6 ++ b5 ++ b4 ++ b3 ++ b2 ++ b1 ++ b0, rest)
  | _ => none

/-- The instruction at the start of a string of code bytes; a following word may be its literal. -/
def decodeBytes (k : Nat) (bs : List Byte) : Option Instr :=
  match wordOfBytes bs with
  | none => none
  | some (w, rest) => some (decodeSlot k w ((wordOfBytes rest).map Prod.fst))

/-- The bytes of a number, least significant first. -/
def bytesOfNat : Nat → Nat → List Byte
  | 0, _ => []
  | n + 1, x => BitVec.ofNat 8 x :: bytesOfNat n (x / 256)

/-- The instruction the decoder reads from the bits `w` of an instruction, those at or above `nbits`
being 0: a kernel that declares all 14 map slots, and a literal after the word. -/
def decodeTableWord (nbits w : Nat) : Option Instr :=
  decodeBytes 14 (bytesOfNat 16 (w % 2 ^ nbits))

/-! ### The encoder -/

/-- R176: the field value of a register. -/
def regCode : Reg → BitVec 8
  | .v n => BitVec.ofNat 8 n
  | .s n => BitVec.ofNat 8 (192 + n)

/-- A word whose fields are all zero but the opcode and the guard. -/
def fieldsAt (op : Nat) (g : Guard) : Fields where
  m := 0
  cm := 0
  c := 0
  bm := 0
  b := 0
  am := 0
  a := 0
  d := 0
  ng := if g.neg then 1 else 0
  gd := BitVec.ofNat 4 g.idx
  op := BitVec.ofNat 8 op

/-- The field value and selector of a source; 0 where an immediate or a literal replaces it. -/
def srcCode : Src → BitVec 8 × BitVec 4
  | .reg r => (regCode r, 0)
  | .map s n => (BitVec.ofNat 8 n, BitVec.ofNat 4 s)
  | .imm _ => (0, 0)
  | .lit _ => (0, 0)

/-- Source A. -/
def encA (f : Fields) (x : Src) : Fields := { f with a := (srcCode x).1, am := (srcCode x).2 }
/-- Source B. -/
def encB (f : Fields) (x : Src) : Fields := { f with b := (srcCode x).1, bm := (srcCode x).2 }
/-- Source C. -/
def encC (f : Fields) (x : Src) : Fields := { f with c := (srcCode x).1, cm := (srcCode x).2 }

/-- A plain register in A. -/
def encRA (f : Fields) (r : Reg) : Fields := { f with a := regCode r }
/-- A plain register in B. -/
def encRB (f : Fields) (r : Reg) : Fields := { f with b := regCode r }
/-- A plain register in C. -/
def encRC (f : Fields) (r : Reg) : Fields := { f with c := regCode r }
/-- A register in dest. -/
def encD (f : Fields) (r : Reg) : Fields := { f with d := regCode r }
/-- A small number in dest. -/
def encDN (f : Fields) (n : Nat) : Fields := { f with d := BitVec.ofNat 8 n }
/-- A small number in A. -/
def encAN (f : Fields) (n : Nat) : Fields := { f with a := BitVec.ofNat 8 n }
/-- A small number in B. -/
def encBN (f : Fields) (n : Nat) : Fields := { f with b := BitVec.ofNat 8 n }
/-- A small number in C. -/
def encCN (f : Fields) (n : Nat) : Fields := { f with c := BitVec.ofNat 8 n }

/-- The 12-bit immediate or offset in [56:45] (R177). -/
def encImm (f : Fields) (x : BitVec 12) : Fields := { f with cm := x.extractLsb' 8 4, c := x.extractLsb' 0 8 }

/-- The 36 bits of [56:21] (R177). -/
def encWide (f : Fields) (x : BitVec 36) : Fields :=
  { f with cm := x.extractLsb' 32 4, c := x.extractLsb' 24 8, bm := x.extractLsb' 20 4,
           b := x.extractLsb' 12 8, am := x.extractLsb' 8 4, a := x.extractLsb' 0 8 }

/-- The ALU modifiers: form, `.all`, sub (R180). -/
def aluMods (form : Nat) (all : Bool) (sub : Nat) : BitVec 7 :=
  BitVec.ofNat 2 form ++ (if all then 1#1 else 0#1) ++ BitVec.ofNat 4 sub

/-- The form an instruction's last source chooses (R177). -/
def formOf : Src → Nat
  | .imm _ => 1
  | .lit _ => 2
  | _ => 0

/-- The immediate of the I-form in [56:45]. -/
def encLast (f : Fields) : Src → Fields
  | .imm x => encImm f x
  | _ => f

/-- The MEM modifiers: flag choice, scope, sub (R180). -/
def memMods (fl : FlagSel) (sc sub : Nat) : BitVec 7 :=
  (match fl with | .A => 0#1 | .B => 1#1) ++ BitVec.ofNat 3 sc ++ BitVec.ofNat 3 sub

/-- The words of a slot: the word, and its literal in the L-form (R179). -/
def wordsOf (f : Fields) : Src → List W64
  | .lit x => [wordOf f, x]
  | _ => [wordOf f]

/-- R181. -/
def intTyCode : IntTy → Nat
  | .i8 => 0 | .i16 => 1 | .i32 => 2 | .i64 => 3 | .n8 => 4 | .n16 => 5 | .n32 => 6 | .n64 => 7
/-- R181. -/
def modeCode : Mode → Nat
  | .rn => 0 | .rz => 1 | .ru => 2 | .rd => 3 | .ra => 4 | .sr => 5
/-- R181. -/
def scopeCode : Scope → Nat
  | .group => 0 | .block => 1 | .mill => 2 | .die => 3 | .device => 4 | .domain => 5 | .system => 6
/-- R181. -/
def dtypeCode : DType → Nat
  | .n8 => 0 | .i8 => 1 | .n16 => 2 | .i16 => 3 | .w32 => 4 | .w64 => 5 | .b128 => 6
/-- R181. -/
def atomOpCode : AtomOp → Nat
  | .add => 0 | .fadd => 1 | .smin => 2 | .smax => 3 | .umin => 4 | .umax => 5 | .and => 6
  | .or => 7 | .xor => 8 | .xchg => 9 | .cas => 10
/-- R273. -/
def foldCode : FoldOp → Nat
  | .add => 0 | .fadd => 1 | .smin => 2 | .smax => 3 | .umin => 4 | .umax => 5 | .and => 6 | .or => 7 | .xor => 8
/-- R192. -/
def lopCode : LopOp → Nat
  | .and => 0 | .or => 1 | .xor => 2 | .andn => 3 | .orn => 4 | .xnor => 5
/-- R200. -/
def icondCode : ICond → Nat
  | .eq => 0 | .ne => 1 | .lt => 2 | .le => 3 | .gt => 4 | .ge => 5 | .f => 6 | .t => 7
/-- R238. -/
def fcondCode : FCond → Nat
  | .eq => 0 | .ne => 1 | .lt => 2 | .le => 3 | .gt => 4 | .ge => 5 | .un => 6 | .ordered => 7
/-- R243. -/
def ctyCode : CTy → Nat
  | .f32 => 0 | .f16 => 1 | .bf16 => 2 | .e4m3 => 3 | .e5m2 => 4 | .wt8 => 12 | .wt6 => 13 | .i8 => 16
  | .n8 => 17 | .i16 => 18 | .n16 => 19 | .i32 => 20 | .n32 => 21 | .i64 => 22 | .n64 => 23
/-- R147, R244. -/
def mxCode : MxFmt → Nat
  | .e4m3 => 5 | .e5m2 => 6 | .e3m2 => 7 | .e2m3 => 8 | .e2m1 => 9 | .i8 => 10
/-- R209. -/
def laneModeCode : LaneMode → Nat
  | .idx => 0 | .off => 1 | .rot => 2 | .flip => 3 | .rev => 4
/-- R208. -/
def maskOpCode : MaskOp → Nat
  | .set => 0 | .and => 1 | .or => 2 | .andn => 3
/-- R286. -/
def trigCode : TrigField → Nat
  | .wid => 0 | .addr => 1 | .sector => 2 | .sblk => 3 | .origin => 4 | .depth => 5 | .arg => 6 | .count => 7
/-- R246. -/
def randCode : RandKind → Nat
  | .n32 => 0 | .n64 => 1 | .f32 => 2
/-- R256. -/
def orderCode : Order → Nat
  | .plain => 0 | .acq => 1 | .rel => 2 | .ar => 3

/-- 8 when the bit [3] of sub is set. -/
def sub3 (b : Bool) : Nat := if b then 8 else 0

/-- R256: the sub field of an atomic. -/
def atomSub (w : AtomWidth) (o : Order) : Nat := (match w with | .b32 => 0 | .b64 => 4) + orderCode o

/-- One source in the ALU class. -/
def encAlu1 (op : Nat) (g : Guard) (all : Bool) (sub : Nat) (d : Reg) (a : Src) : List W64 :=
  wordsOf (encLast (encA (encD { fieldsAt op g with m := aluMods (formOf a) all sub } d) a) a) a

/-- Two sources in the ALU class. -/
def encAlu2 (op : Nat) (g : Guard) (all : Bool) (sub : Nat) (d : Reg) (a b : Src) : List W64 :=
  wordsOf (encLast (encB (encA (encD { fieldsAt op g with m := aluMods (formOf b) all sub } d) a) b) b) b

/-- Three sources in the ALU class. -/
def encAlu3 (op : Nat) (g : Guard) (all : Bool) (sub : Nat) (d : Reg) (a b c : Src) : List W64 :=
  wordsOf (encLast (encC (encB (encA (encD { fieldsAt op g with m := aluMods (formOf c) all sub } d) a) b) c) c) c

/-- A predicate destination with a condition (R200). -/
def encCmp (op : Nat) (g : Guard) (all : Bool) (sub cc pd : Nat) (a b : Src) : List W64 :=
  wordsOf (encLast (encB (encA (encDN { fieldsAt op g with m := aluMods (formOf b) all sub } (16 * cc + pd)) a) b) b) b

/-- A truth table in the C map field and sub (R193). -/
def encTable (f : Fields) (x : BitVec 8) : Fields :=
  { f with cm := x.extractLsb' 0 4, m := aluMods 0 false (x.extractLsb' 4 4).toNat }

/-- The MEM-class fields of a load or store (R250). -/
def encMem (op : Nat) (g : Guard) (fl : FlagSel) (sc sub : Nat) (a : Reg) (off : BitVec 12) : Fields :=
  encImm (encRA { fieldsAt op g with m := memMods fl sc sub } a) off

/-- The atomic form (R177). -/
def encAtom (op : Nat) (g : Guard) (fl : FlagSel) (o : AtomOp) (w : AtomWidth) (r : Order) (sc : Nat) (a b c : Reg) : Fields :=
  { encRC (encRB (encRA { fieldsAt op g with m := memMods fl sc (atomSub w r) } a) b) c with
    cm := BitVec.ofNat 4 (atomOpCode o) }

/-- A GEN-class word that takes guard 15 (R259). -/
def genAt (op sub : Nat) : Fields := { fieldsAt op Guard.always with m := BitVec.ofNat 7 sub }

/-- The words of an instruction: none for an event, one word, or a word and its literal. -/
def encode : Instr → List W64
  | .nop => [0]
  | .bra g x => [wordOf (encWide (fieldsAt 0x01 g) x)]
  | .brx g a => [wordOf (encRA (fieldsAt 0x02 g) a)]
  | .call g d x => [wordOf (encD (encWide (fieldsAt 0x03 g) x) d)]
  | .ret g a => [wordOf (encRA (fieldsAt 0x04 g) a)]
  | .exit g => [wordOf (fieldsAt 0x05 g)]
  | .tok x => [wordOf (encWide (fieldsAt 0x06 Guard.always) x)]
  | .join => [wordOf (fieldsAt 0x07 Guard.always)]
  | .yield => [wordOf (fieldsAt 0x08 Guard.always)]
  | .sleepRel a => [wordOf (encRA (genAt 0x09 0) (.s a))]
  | .sleepAbs a => [wordOf (encRA (genAt 0x09 1) (.s a))]
  | .trap g c => [wordOf { fieldsAt 0x0A g with c := c }]
  | .bkpt g => [wordOf (fieldsAt 0x0B g)]
  | .reservedHint w => [w]
  | .reservedEmulable w => [w]
  | .reservedInvalid w => [w]
  | .iadd g all t d a b => encAlu2 0x10 g all (intTyCode t) d a b
  | .iadd3 g all t d a b c => encAlu3 0x11 g all (intTyCode t) d a b c
  | .isub g all t d a b => encAlu2 0x12 g all (intTyCode t) d a b
  | .imul g all t d a b => encAlu2 0x13 g all (intTyCode t) d a b
  | .imulh g all t d a b => encAlu2 0x14 g all (intTyCode t) d a b
  | .imad g all t d a b c => encAlu3 0x15 g all (intTyCode t) d a b c
  | .imin g all t d a b => encAlu2 0x16 g all (intTyCode t) d a b
  | .imax g all t d a b => encAlu2 0x17 g all (intTyCode t) d a b
  | .iabs g all t d a => encAlu1 0x18 g all (intTyCode t) d a
  | .ineg g all t d a => encAlu1 0x19 g all (intTyCode t) d a
  | .lea g sgn sh d a b => encAlu2 0x1A g false (sub3 sgn + sh) d (.reg a) b
  | .lop g op b64 d a b => encAlu2 0x20 g false (sub3 b64 + lopCode op) d (.reg a) b
  | .bits3 g f d a b c => [wordOf (encTable (encRC (encRB (encRA (encD (fieldsAt 0x21 g) d) a) b) c) f)]
  | .shl g t d a b => encAlu2 0x22 g false (intTyCode t) d (.reg a) b
  | .shr g t d a b => encAlu2 0x23 g false (intTyCode t) d (.reg a) b
  | .sar g t d a b => encAlu2 0x24 g false (intTyCode t) d (.reg a) b
  | .fsh g left clamp d a b c =>
    encAlu3 0x25 g false ((if left then 1 else 0) + (if clamp then 2 else 0)) d (.reg a) (.reg b) c
  | .bfe g t d a b => encAlu2 0x26 g false (intTyCode t) d (.reg a) b
  | .bfi g t d a b c => encAlu3 0x27 g false (intTyCode t) d (.reg a) (.reg b) c
  | .bysel g d a b c => encAlu3 0x28 g false 0 d (.reg a) (.reg b) c
  | .popc g t d a => encAlu1 0x29 g false (intTyCode t) d a
  | .clz g t d a => encAlu1 0x2A g false (intTyCode t) d a
  | .brev g t d a => encAlu1 0x2B g false (intTyCode t) d a
  | .icmp g all cc t pd a b => encCmp 0x30 g all (intTyCode t) (icondCode cc) pd a b
  | .sel g all t d a b pc =>
    [wordOf (encCN (encB (encA (encD { fieldsAt 0x31 g with m := aluMods 0 all (intTyCode t) } d) a) b) pc)]
  | .mov g t d a => encAlu1 0x32 g false (intTyCode t) d a
  | .movi g t d x => [wordOf (encWide (encD { fieldsAt 0x33 g with m := aluMods 0 false (intTyCode t) } d) x)]
  | .plop g f pd pa pb pc => [wordOf (encTable (encCN (encBN (encAN (encDN (fieldsAt 0x34 g) pd) pa) pb) pc) f)]
  | .pmovPack g d => [wordOf (encD (fieldsAt 0x35 g) d)]
  | .pmovUnpack g a b =>
    wordsOf (encLast (encB (encRA { fieldsAt 0x35 g with m := aluMods (formOf b) false 1 } a) b) b) b
  | .pmovCopy g pd pa => [wordOf (encAN (encDN { fieldsAt 0x35 g with m := aluMods 0 false 2 } pd) pa)]
  | .poll g op pa =>
    match op with
    | .every pd => [wordOf (encAN (encDN { fieldsAt 0x36 g with m := aluMods 0 false 0 } pd) pa)]
    | .some pd => [wordOf (encAN (encDN { fieldsAt 0x36 g with m := aluMods 0 false 1 } pd) pa)]
    | .same pd => [wordOf (encAN (encDN { fieldsAt 0x36 g with m := aluMods 0 false 2 } pd) pa)]
    | .bits d => [wordOf (encAN (encD { fieldsAt 0x36 g with m := aluMods 0 false 3 } d) pa)]
    | .count d => [wordOf (encAN (encD { fieldsAt 0x36 g with m := aluMods 0 false 4 } d) pa)]
    | .first d => [wordOf (encAN (encD { fieldsAt 0x36 g with m := aluMods 0 false 5 } d) pa)]
  | .maskRd g d => [wordOf (encD (fieldsAt 0x37 g) d)]
  | .maskRdHeld g d => [wordOf (encD { fieldsAt 0x37 g with m := aluMods 0 false 1 } d)]
  | .maskWr g op a =>
    wordsOf (encLast (encA { fieldsAt 0x38 g with m := aluMods (formOf a) false (maskOpCode op) } a) a) a
  | .lanex g m b64 d a b =>
    if m = .rev then [wordOf (encRA (encD { fieldsAt 0x39 g with m := aluMods 0 false (sub3 b64 + 4) } d) a)]
    else encAlu2 0x39 g false (sub3 b64 + laneModeCode m) d (.reg a) b
  | .fadd g all m d a b => encAlu2 0x40 g all (modeCode m) d a b
  | .fmul g all m d a b => encAlu2 0x41 g all (modeCode m) d a b
  | .ffma g all m d a b c => encAlu3 0x42 g all (modeCode m) d a b c
  | .fmin g all k d a b => encAlu2 0x43 g all (match k with | .num => 0 | .nan => 1) d a b
  | .fmax g all k d a b => encAlu2 0x44 g all (match k with | .num => 0 | .nan => 1) d a b
  | .fcmp g all cc pd a b => encCmp 0x45 g all 0 (fcondCode cc) pd a b
  | .fclass g all d a => encAlu1 0x46 g all 0 d a
  | .fclassTest g all pd a b => encCmp 0x46 g all 1 0 pd a b
  | .hadd2 g all h m d a b => encAlu2 0x47 g all (sub3 (h == .bf16) + modeCode m) d a b
  | .hmul2 g all h m d a b => encAlu2 0x48 g all (sub3 (h == .bf16) + modeCode m) d a b
  | .hfma2 g all h m d a b c => encAlu3 0x49 g all (sub3 (h == .bf16) + modeCode m) d a b c
  | .frcp g all m d a => encAlu1 0x50 g all (modeCode m) d a
  | .frsq g all m d a => encAlu1 0x51 g all (modeCode m) d a
  | .fsqrt g all m d a => encAlu1 0x52 g all (modeCode m) d a
  | .fexp2 g all d a => encAlu1 0x53 g all 0 d a
  | .flog2 g all d a => encAlu1 0x54 g all 0 d a
  | .fsin g all d a => encAlu1 0x55 g all 0 d a
  | .fcos g all d a => encAlu1 0x56 g all 0 d a
  | .ftanh g all d a => encAlu1 0x57 g all 0 d a
  | .cvt g all m dty sty d j a i =>
    [wordOf (encCN (encBN (encA (encD { fieldsAt 0x58 g with m := aluMods 0 all (modeCode m) } d) a)
      (32 * i + ctyCode sty)) (32 * j + ctyCode dty))]
  | .qnt g m f d a => [wordOf (encBN (encRA (encD { fieldsAt 0x59 g with m := aluMods 0 false (modeCode m) } d) a) (mxCode f))]
  | .dqnt g f d a => [wordOf (encBN (encRA (encD (fieldsAt 0x5A g) d) a) (mxCode f))]
  | .rand g k d => [wordOf (encD { fieldsAt 0x5B g with m := aluMods 0 false (randCode k) } d)]
  | .mbind g fl k a b => [wordOf (encDN (encRB (encRA { fieldsAt 0x60 g with m := memMods fl 0 0 } a) b) k)]
  | .mput g fl k a b c => [wordOf (encDN (encRC (encRB (encRA { fieldsAt 0x61 g with m := memMods fl 0 0 } a) b) c) k)]
  | .mget g fl d k a => [wordOf (encD (encBN (encRA { fieldsAt 0x62 g with m := memMods fl 0 0 } a) k) d)]
  | .mgetFmt g fl d k => [wordOf (encD (encBN { fieldsAt 0x62 g with m := memMods fl 0 1 } k) d)]
  | .mfree k => [wordOf (encDN (fieldsAt 0x63 Guard.always) k)]
  | .ld g fl t sc d a off => [wordOf (encD (encMem 0x70 g fl (scopeCode sc) (dtypeCode t) a off) d)]
  | .ldAcq g fl t sc d a off => [wordOf (encD (encMem 0x71 g fl (scopeCode sc) (dtypeCode t) a off) d)]
  | .st g fl t sc a off b => [wordOf (encB (encMem 0x72 g fl (scopeCode sc) (dtypeCode t) a off) b)]
  | .stRel g fl t sc a off b => [wordOf (encB (encMem 0x73 g fl (scopeCode sc) (dtypeCode t) a off) b)]
  | .mxld g fl f sc d a b off => [wordOf (encRB (encD (encMem 0x74 g fl (scopeCode sc) (mxCode f - 5) a off) d) b)]
  | .mxst g fl f sc a b c =>
    [wordOf (encRC (encRB (encRA { fieldsAt 0x75 g with m := memMods fl (scopeCode sc) (mxCode f - 5) } a) b) c)]
  | .pref g sc a off => [wordOf (encMem 0x76 g .A (scopeCode sc) 0 a off)]
  | .cwb g sc a off => [wordOf (encMem 0x77 g .A (scopeCode sc) 0 a off)]
  | .cinv g sc a off => [wordOf (encMem 0x78 g .A (scopeCode sc) 0 a off)]
  | .fence sc => [wordOf { fieldsAt 0x79 Guard.always with m := memMods .A (scopeCode sc) 0 }]
  | .ifence => [wordOf (fieldsAt 0x7A Guard.always)]
  | .lds g fl t d a off => [wordOf (encD (encMem 0x80 g fl 0 (dtypeCode t) a off) d)]
  | .sts g fl t a off b => [wordOf (encB (encMem 0x81 g fl 0 (dtypeCode t) a off) b)]
  | .ldl g fl t d a off => [wordOf (encD (encMem 0x82 g fl 0 (dtypeCode t) a off) d)]
  | .stl g fl t a off b => [wordOf (encB (encMem 0x83 g fl 0 (dtypeCode t) a off) b)]
  | .atom g fl op w o sc d a b c => [wordOf (encD (encAtom 0x84 g fl op w o (scopeCode sc) a b c) d)]
  | .red g fl op w o sc a b c => [wordOf (encAtom 0x85 g fl op w o (scopeCode sc) a b c)]
  | .atoms g fl op w d a b c => [wordOf (encD (encAtom 0x86 g fl op w .plain 0 a b c) d)]
  | .phinit a b c => [wordOf (encRC (encRB (encRA (genAt 0x90 0) a) b) c)]
  | .phregSig a => [wordOf (encRA (genAt 0x91 0) a)]
  | .phregUnsig a => [wordOf (encRA (genAt 0x91 1) a)]
  | .phregWait a => [wordOf (encRA (genAt 0x91 2) a)]
  | .phregUnwait a => [wordOf (encRA (genAt 0x91 3) a)]
  | .pharv pd a => [wordOf (encDN (encRA (genAt 0x92 0) a) pd)]
  | .phwait a pb => [wordOf (encBN (encRA (genAt 0x93 0) a) pb)]
  | .phtest pd a pb => [wordOf (encDN (encBN (encRA (genAt 0x94 0) a) pb) pd)]
  | .qinit a b c => [wordOf (encRC (encRB (encRA (genAt 0x95 0) a) b) c)]
  | .qpush a b => [wordOf (encRB (encRA (genAt 0x96 0) a) b)]
  | .qpushNb pd a b => [wordOf (encDN (encRB (encRA (genAt 0x96 1) a) b) pd)]
  | .qpop d a => [wordOf (encD (encRA (genAt 0x97 0) a) d)]
  | .qpopNb d pc a => [wordOf (encCN (encD (encRA (genAt 0x97 1) a) d) pc)]
  | .tdef h a b => [wordOf (encDN (encRB (encRA (genAt 0x98 0) a) b) h)]
  | .tdefAtt h a b c => [wordOf (encDN (encRC (encRB (encRA (genAt 0x98 1) a) b) c) h)]
  | .tdefUndef h => [wordOf (encDN (genAt 0x98 2) h)]
  | .regxAcq => [wordOf (genAt 0x99 0)]
  | .regxRel => [wordOf (genAt 0x99 1)]
  | .dbarDev => [wordOf (genAt 0x9A 0)]
  | .dbarDom => [wordOf (genAt 0x9A 1)]
  | .cpy g fl n => [wordOf (encRA { fieldsAt 0xA0 g with m := memMods fl 0 0 } (.s n))]
  | .cpyw g fl n => [wordOf (encRA { fieldsAt 0xA1 g with m := memMods fl 0 0 } (.s n))]
  | .lwait a b => [wordOf (encRB (encRA (genAt 0xA2 0) a) b)]
  | .lwaitNb pd a b => [wordOf (encDN (encRB (encRA (genAt 0xA2 1) a) b) pd)]
  | .xbegin op vs vl deal n => [wordOf (encCN (encRB (encRA (genAt 0xA8 (foldCode op)) vs) vl) (16 * (n - 1) + deal))]
  | .xnext vi vo pd => [wordOf (encD (encBN (encRA (genAt 0xA9 0) vo) pd) vi)]
  | .xred g v => [wordOf (encRA (fieldsAt 0xAA g) v)]
  | .xend fl d => [wordOf (encD { fieldsAt 0xAB Guard.always with m := memMods fl 0 0 } d)]
  | .watch d n => [wordOf (encD (encRA (genAt 0xB0 0) (.s n)) d)]
  | .unwatch a => [wordOf (encRA (genAt 0xB1 0) a)]
  | .trigi g k d => [wordOf (encD { fieldsAt 0xB2 g with m := BitVec.ofNat 7 (trigCode k) } d)]
  | .ldf g fl acq t sc d a off =>
    [wordOf (encBN (encD (encMem 0xB9 g fl (scopeCode sc) (dtypeCode t) a off) d) (if acq then 1 else 0))]
  | .stf g fl rel t sc a off b =>
    [wordOf (encDN (encRB (encMem 0xB8 g fl (scopeCode sc) (dtypeCode t) a off) b) (if rel then 1 else 0))]
  | .redf g fl op w o sc a b => [wordOf (encAtom 0xBA g fl op w o (scopeCode sc) a b (.v 0))]
  | .coll g fl n => [wordOf (encRA { fieldsAt 0xBB g with m := memMods fl 0 0 } (.s n))]
  | .launch p n => [wordOf (encRA (genAt 0xC2 p) (.s n))]
  | .signal a b => [wordOf (encRB (encRA (genAt 0xC3 0) a) b)]
  | .srd g d r => [wordOf (encD (encAN (fieldsAt 0xC0 g) r) d)]
  | .swr g r a => [wordOf (encDN (encRA (fieldsAt 0xC1 g) a) r)]
  | _ => []

end Sys2Proof
end

