-- ==== Sys2Proof/Config.lean ====
section
/-! DEFINITION. What the manual leaves to each run or to each part: which agent moves next, and the
functions and constants of the miller that the manual names without giving them. None of the opaque
constants has a body, so nothing can be proved about its value. -/

namespace Sys2Proof

/-- The stored unit a soft error strikes (R398). -/
inductive ErrLoc where
  /-- A vector register word of a lane of a group; `v128` and above lie in the pair's extended set. -/
  | vreg (bid gid lane n : Nat)
  /-- A uniform register. -/
  | ureg (bid gid n : Nat)
  /-- A lane's predicates. -/
  | preds (bid gid lane : Nat)
  /-- A word of a map slot's image. -/
  | slot (bid stone k word : Nat)
  /-- A scratchpad word, by its byte offset. -/
  | scratch (bid off : Nat)
  /-- A 64-bit word of an L1 line. -/
  | l1 (mill addr : Nat)
  /-- A 64-bit word of an RDC line. -/
  | rdc (die addr : Nat)
  /-- A 64-bit word of L2 data. -/
  | l2 (addr : Nat)
  /-- A 32-byte code word of HBM. -/
  | hbm (addr : Nat)
  /-- The stamp of a line. -/
  | stamp (line : Nat)
  /-- An entry of the watch tables. -/
  | watch (idx : Nat)
  /-- A TLB entry of a mill, or of a die. -/
  | tlb (mill : Option Nat) (die ctx page : Nat)
  /-- A line of a mill's instruction cache, or of the loop buffer of one of its stones. -/
  | icache (mill : Nat) (stone : Option Nat) (line : Nat)
  /-- The expand-unit state of a block on a stone. -/
  | xu (bid stone : Nat)
  /-- A leat of a mill. -/
  | leat (mill leat : Nat)
  /-- The fragment queue's entry of a fragment. -/
  | queue (bid gid fid : Nat)
  /-- The L2 tag entry of a line. -/
  | tag (line : Nat)
  /-- A code word of HBM that holds the stamp of a line. -/
  | store (line : Nat)
  /-- A 32-byte code word of HBM that holds staged writes of a block, by its place in the block's staging area. -/
  | staged (bid word : Nat)
  /-- A byte of a save image (R384, R411). -/
  | image (bid : Nat)
  /-- State that no master owns (R400). -/
  | unowned (die : Nat)
  deriving DecidableEq, Repr

/-- The value the manual leaves open, for each count of such values (log entry 20). -/
opaque Config.openValue : Nat → W64

/-- The hash of physical bits [37:6] that fixes the L2 slice of a line within its die, invisible to programs (R99; log
entry 19). -/
opaque Config.sliceHash : Nat → Nat

/-- Which of the free watch-table entries an arm takes (R282; log entry 19). -/
opaque Config.watchPick : Nat → Nat

/-- SLH-DSA-SHA2-192s verification (R405, R407): public key, message, signature. -/
opaque Config.slhVerify : Vector (BitVec 8) 48 → List (BitVec 8) → Vector (BitVec 8) 16224 → Bool

/-- Ozvan's firmware public key, held in the boot ROM (R405). -/
opaque Config.firmwareKey : Vector (BitVec 8) 48

/-- The public key of the device identity, kept in fuses (R408). -/
opaque Config.identityKey : Vector (BitVec 8) 48

/-- Ozvan's signature of the identity public key, made at manufacture (R408). -/
opaque Config.identitySig : Vector (BitVec 8) 16224

/-- The SLH-DSA-SHA2-192s signature of a message under the identity's private key, which never leaves the miller (R408, R410). -/
opaque Config.slhSign : List (BitVec 8) → Vector (BitVec 8) 16224

/-- The digest of the boot ROM that bring-up measures into register 0 (R403). -/
opaque Config.romDigest : BitVec 256

/-- The body of the firmware the part is shipped with (R403, R405). -/
opaque Config.factoryBody : List Byte

/-- The signature of the firmware the part is shipped with. -/
opaque Config.factorySig : Vector (BitVec 8) 16224

/-- The four bytes that open a firmware header (R405 names a magic and gives no value). -/
opaque Config.fwMagic : W32

end Sys2Proof
end

