-- ==== Sys2Proof/Machine/Sparse.lean ====
section
/-! DEFINITION. Reading and writing the sparse maps that hold memory and register files. -/

namespace Sys2Proof.Machine

/-- The value at a key, `dflt` where nothing is listed. -/
def sget {α : Type} (dflt : α) : Sparse α → Nat → α
  | [], _ => dflt
  | (k, v) :: m, i => if i = k then v else if i < k then dflt else sget dflt m i

/-- The map with one key written. Writing `dflt` removes the key, so that equal maps are equal lists. -/
def sset {α : Type} [DecidableEq α] (dflt : α) : Sparse α → Nat → α → Sparse α
  | [], i, x => if x = dflt then [] else [(i, x)]
  | (k, v) :: m, i, x =>
    if i < k then (if x = dflt then (k, v) :: m else (i, x) :: (k, v) :: m)
    else if i = k then (if x = dflt then m else (k, x) :: m)
    else (k, v) :: sset dflt m i x

/-- Every key of the map is above `lo`. -/
def sabove {α : Type} (lo : Nat) (m : Sparse α) : Prop := ∀ p ∈ m, lo < p.1

/-- The canonical form: keys strictly rising, no value equal to `dflt`. -/
def swf {α : Type} [DecidableEq α] (dflt : α) : Sparse α → Bool
  | [] => true
  | [(_, v)] => decide (v ≠ dflt)
  | (k, v) :: (k', v') :: m => decide (v ≠ dflt) && decide (k < k') && swf dflt ((k', v') :: m)

/-- The map with the keys of a list written in order. -/
def ssetAll {α : Type} [DecidableEq α] (dflt : α) (m : Sparse α) (ws : List (Nat × α)) : Sparse α :=
  ws.foldl (fun m w => sset dflt m w.1 w.2) m

/-- The map without the keys that satisfy `p`. -/
def sdrop {α : Type} (p : Nat → Bool) (m : Sparse α) : Sparse α := m.filter fun x => !p x.1

end Sys2Proof.Machine
end

