-- ==== Sys2Proof/Machine/Bits.lean ====
section
/-! DEFINITION. Bit fields, sign extension, lane sets and small list operations. -/

namespace Sys2Proof.Machine

/-- Bits `lo` to `lo + n - 1` of a number (R2). -/
def fld (x lo n : Nat) : Nat := x / 2 ^ lo % 2 ^ n

/-- Bit `i` of a number is 1. -/
def bitOf (x i : Nat) : Bool := x / 2 ^ i % 2 == 1

/-- A number of `n` bits read as two's complement. -/
def signed (n x : Nat) : Int := if x % 2 ^ n < 2 ^ (n - 1) then (x % 2 ^ n : Nat) else (x % 2 ^ n : Nat) - (2 ^ n : Nat)

/-- The 64-bit word of an integer, modulo 2^64. -/
def w64 (x : Int) : W64 := BitVec.ofInt 64 x

/-- The 32-bit word of an integer, modulo 2^32. -/
def w32 (x : Int) : W32 := BitVec.ofInt 32 x

/-- The pair of R66: low word, high word. -/
def pair64 (lo hi : W32) : W64 := hi ++ lo

/-- The low word of a pair. -/
def lo32 (x : W64) : W32 := x.extractLsb' 0 32

/-- The high word of a pair. -/
def hi32 (x : W64) : W32 := x.extractLsb' 32 32

/-- The lanes of a set, ascending. -/
def lanesOf (m : LaneMask) : List Nat := (List.range 64).filter fun i => m.getLsbD i

/-- The set of some lanes. -/
def maskOf (ls : List Nat) : LaneMask := ls.foldl (fun m i => m ||| (1#64 <<< i)) 0

/-- The number of lanes of a set. -/
def popCount (m : LaneMask) : Nat := (lanesOf m).length

/-- All `w` lanes of a group (R23). -/
def allLanes (w : Nat) : LaneMask := BitVec.ofNat 64 (2 ^ w - 1)

/-- The lowest lane of a set, 0 for the empty set. -/
def lowLane (m : LaneMask) : Nat := (lanesOf m).headD 0

/-- A lane is in the set. -/
def hasLane (m : LaneMask) (i : Nat) : Bool := m.getLsbD i

/-- The elements that satisfy `p`, replaced by `f` of them. -/
def updIf {α : Type} (p : α → Bool) (f : α → α) (l : List α) : List α := l.map fun x => if p x then f x else x

/-- The number rounded up to a multiple. -/
def roundUp (x m : Nat) : Nat := (x + m - 1) / m * m

/-- The quotient rounded up. -/
def ceilDiv (x m : Nat) : Nat := (x + m - 1) / m

/-- The line of a byte address (R5). -/
def lineOf (a : Nat) : Nat := a / 64

/-- The 16-B sector of a byte address (R5). -/
def sectorOf (a : Nat) : Nat := a / 16

/-- The addresses of `n` bytes from `a` upward. -/
def span (a n : Nat) : List Nat := (List.range n).map (a + ·)

/-- The list without repeats, first occurrences kept. -/
def nub {α : Type} [DecidableEq α] (l : List α) : List α := l.foldl (fun acc x => if acc.contains x then acc else acc ++ [x]) []

end Sys2Proof.Machine
end

