-- ==== Sys2Proof/Machine/Float.lean ====
section
/-! DEFINITION. Number formats: decoding to exact values, one rounding into a format, exact sums and
products ("Number formats and arithmetic"). -/

namespace Sys2Proof.Machine

/-! ### Exact values -/

/-- A decoded value: a NaN, an infinity, or (−1)^s × m × 2^e (R160). -/
inductive Val where
  | nan
  | inf (s : Bool)
  | fin (s : Bool) (m : Nat) (e : Int)
  deriving DecidableEq, Repr

/-- The exponent of the leading bit of a nonzero number. -/
def topBit (m : Nat) : Nat := Nat.log2 m

/-- `m` shifted left by an integer count, bits below the point dropped. -/
def shiftI (m : Nat) (k : Int) : Nat := if k < 0 then m / 2 ^ (-k).toNat else m * 2 ^ k.toNat

/-- A finite value as an integer multiple of 2^q, exact where q is at most its exponent. -/
def scaledTo (s : Bool) (m : Nat) (e q : Int) : Int := let n : Int := (shiftI m (e - q) : Nat); if s then -n else n

/-- The exact product of two finite values. -/
def exactMul : Val → Val → Val
  | .fin s m e, .fin t n f => .fin (s != t) (m * n) (e + f)
  | _, _ => .nan

/-- The exact sum of two finite values; R155 gives the sign of an exact zero. -/
def exactAdd (m : Mode) : Val → Val → Val
  | .fin s a e, .fin t b f =>
    if a == 0 && b == 0 then .fin (if s == t then s else m == .rd) 0 0
    else
      let q := min e f
      let x := scaledTo s a e q + scaledTo t b f q
      if x = 0 then .fin (m == .rd) 0 0 else .fin (decide (x < 0)) x.natAbs q
  | _, _ => .nan

/-- A quotient of naturals to `k` extra bits, the last bit telling whether it is inexact. -/
def stickyDiv (n d k : Nat) : Nat := let q := n * 2 ^ k / d; 2 * q + (if q * d == n * 2 ^ k then 0 else 1)

/-- The integer square root, by halving an interval `k` times. -/
def sqrtStep (n : Nat) : Nat → Nat → Nat
  | 0, r => r
  | k + 1, r => let c := r + 2 ^ k; sqrtStep n k (if c * c ≤ n then c else r)

/-- ⌊√n⌋. -/
def natSqrt (n : Nat) : Nat := sqrtStep n (Nat.log2 n / 2 + 1) 0

/-- A square root of m × 2^e to about 128 bits, the last bit telling whether it is inexact. -/
def stickySqrt (m : Nat) (e : Int) : Nat × Int :=
  let k := if (e % 2 = 0) then 256 else 257
  let n := m * 2 ^ k
  let r := natSqrt n
  (2 * r + (if r * r == n then 0 else 1), (e - (k : Nat)) / 2 - 1)

/-! ### Rounding (R153, R154) -/

/-- Whether a magnitude `sig` with a rest of `rem`/2^sh of a step rounds away from zero; `d` is the draw. -/
def roundsUp (mode : Mode) (s : Bool) (sig rem sh d : Nat) : Bool :=
  match mode with
  | .rn => decide (2 ^ sh < 2 * rem) || (2 * rem == 2 ^ sh && sig % 2 == 1)
  | .rz => false
  | .ru => !s && rem != 0
  | .rd => s && rem != 0
  | .ra => decide (2 ^ sh ≤ 2 * rem) && rem != 0
  | .sr => decide (d < rem * 2 ^ 32 / 2 ^ sh)

/-- A magnitude m × 2^e rounded to a multiple of 2^q, counted in those steps. -/
def roundStep (mode : Mode) (s : Bool) (m : Nat) (e q : Int) (d : Nat) : Nat :=
  if q ≤ e then shiftI m (e - q)
  else
    let sh := (q - e).toNat
    let sig := m / 2 ^ sh
    let rem := m % 2 ^ sh
    if roundsUp mode s sig rem sh d then sig + 1 else sig

/-- A binary floating-point format (R147): fraction bits, exponent bits, bias, the largest finite pattern,
whether it has infinities, and its canonical NaN (R157). -/
structure FFmt where
  p    : Nat
  eb   : Nat
  bias : Nat
  top  : Nat
  inf  : Bool
  cnan : Nat
  deriving DecidableEq, Repr

/-- binary32. -/
def f32 : FFmt := { p := 23, eb := 8, bias := 127, top := 0x7F7FFFFF, inf := true, cnan := 0x7FC00000 }
/-- binary16. -/
def f16 : FFmt := { p := 10, eb := 5, bias := 15, top := 0x7BFF, inf := true, cnan := 0x7E00 }
/-- BF16. -/
def bf16 : FFmt := { p := 7, eb := 8, bias := 127, top := 0x7F7F, inf := true, cnan := 0x7FC0 }
/-- FP8 E4M3. -/
def e4m3 : FFmt := { p := 3, eb := 4, bias := 7, top := 0x7E, inf := false, cnan := 0x7F }
/-- FP8 E5M2. -/
def e5m2 : FFmt := { p := 2, eb := 5, bias := 15, top := 0x7B, inf := true, cnan := 0x7E }
/-- MXFP6 E3M2. -/
def e3m2 : FFmt := { p := 2, eb := 3, bias := 3, top := 0x1F, inf := false, cnan := 0 }
/-- MXFP6 E2M3. -/
def e2m3 : FFmt := { p := 3, eb := 2, bias := 1, top := 0x1F, inf := false, cnan := 0 }
/-- MXFP4 E2M1. -/
def e2m1 : FFmt := { p := 1, eb := 2, bias := 1, top := 0x7, inf := false, cnan := 0 }

/-- Bits of a format. -/
def FFmt.bits (f : FFmt) : Nat := 1 + f.eb + f.p

/-- The pattern of a sign and a magnitude. -/
def FFmt.signed (f : FFmt) (s : Bool) (x : Nat) : Nat := if s then 2 ^ (f.eb + f.p) + x else x

/-- R147: the value of a pattern. -/
def FFmt.decode (f : FFmt) (x : Nat) : Val :=
  let s := bitOf x (f.eb + f.p)
  let ex := fld x f.p f.eb
  let fr := fld x 0 f.p
  if f.top < fld x 0 (f.eb + f.p) then (if f.inf && fr == 0 then .inf s else .nan)
  else if ex == 0 then .fin s fr (1 - (f.bias : Int) - f.p)
  else .fin s (2 ^ f.p + fr) ((ex : Int) - f.bias - f.p)

/-- R160: what a magnitude above the largest becomes. -/
def FFmt.overflow (f : FFmt) (mode : Mode) (s : Bool) : Nat :=
  if !f.inf then f.top
  else match mode with
    | .rn | .ra | .sr => f.top + 1
    | .rz => f.top
    | .ru => if s then f.top else f.top + 1
    | .rd => if s then f.top + 1 else f.top

/-- R153, R154: a finite value rounded once into the format. -/
def FFmt.roundFin (f : FFmt) (mode : Mode) (s : Bool) (m : Nat) (e : Int) (d : Nat) : Nat :=
  if m == 0 then f.signed s 0
  else
    let emin : Int := 1 - (f.bias : Int)
    let q := max (e + (topBit m : Nat)) emin - f.p
    let x := ((q + f.p + f.bias - 1).toNat) * 2 ^ f.p + roundStep mode s m e q d
    f.signed s (if f.top < x then f.overflow mode s else x)

/-- A value rounded into the format; an infinity or a NaN as R157 and R160 state. -/
def FFmt.round (f : FFmt) (mode : Mode) (d : Nat) : Val → Nat
  | .nan => f.cnan
  | .inf s => f.signed s (if f.inf then f.top + 1 else f.top)
  | .fin s m e => f.roundFin mode s m e d

/-- The pattern is a NaN. -/
def FFmt.isNan (f : FFmt) (x : Nat) : Bool := f.decode x == .nan

/-- R158: a NaN quieted. -/
def FFmt.quiet (f : FFmt) (x : Nat) : Nat := if bitOf x (f.p - 1) then x else x + 2 ^ (f.p - 1)

/-- R158: the first NaN among the sources, quieted. -/
def FFmt.firstNan (f : FFmt) (xs : List Nat) : Option Nat := (xs.find? f.isNan).map f.quiet

/-! ### Arithmetic (R155, R158, R159, R236, R240) -/

/-- The sum of two values. -/
def valAdd (mode : Mode) : Val → Val → Val
  | .inf s, .inf t => if s == t then .inf s else .nan
  | .inf s, .fin _ _ _ => .inf s
  | .fin _ _ _, .inf s => .inf s
  | .fin s m e, .fin t n f => exactAdd mode (.fin s m e) (.fin t n f)
  | _, _ => .nan

/-- The product of two values. -/
def valMul : Val → Val → Val
  | .inf s, .inf t => .inf (s != t)
  | .inf s, .fin t n _ => if n == 0 then .nan else .inf (s != t)
  | .fin t n _, .inf s => if n == 0 then .nan else .inf (s != t)
  | .fin s m e, .fin t n f => exactMul (.fin s m e) (.fin t n f)
  | _, _ => .nan

/-- a + b in a format. -/
def FFmt.add (f : FFmt) (mode : Mode) (d : Nat) (a b : Nat) : Nat :=
  (f.firstNan [a, b]).getD (f.round mode d (valAdd mode (f.decode a) (f.decode b)))

/-- a × b in a format. -/
def FFmt.mul (f : FFmt) (mode : Mode) (d : Nat) (a b : Nat) : Nat :=
  (f.firstNan [a, b]).getD (f.round mode d (valMul (f.decode a) (f.decode b)))

/-- a × b + c in a format, rounded once. -/
def FFmt.fma (f : FFmt) (mode : Mode) (d : Nat) (a b c : Nat) : Nat :=
  (f.firstNan [a, b, c]).getD (f.round mode d (valAdd mode (valMul (f.decode a) (f.decode b)) (f.decode c)))

/-- Two patterns as values in order, −0 equal to +0: none where one is a NaN (R238). -/
def FFmt.compare (f : FFmt) (a b : Nat) : Option Ordering :=
  let key := fun (v : Val) => match v with
    | .nan => (none : Option Int)
    | .inf s => some (if s then -(2 ^ 600 : Nat) else (2 ^ 600 : Nat))
    | .fin s m e => some (scaledTo s m e (-300))
  match key (f.decode a), key (f.decode b) with
  | some x, some y => some (if x < y then .lt else if x = y then .eq else .gt)
  | _, _ => none

/-- R237: the lesser of two operands that are not NaN, −0 below +0. -/
def FFmt.minOf (f : FFmt) (a b : Nat) : Nat :=
  match f.compare a b with
  | some .gt => b
  | some .eq => if bitOf b (f.eb + f.p) then b else a
  | _ => a

/-- R237: the greater of two operands that are not NaN. -/
def FFmt.maxOf (f : FFmt) (a b : Nat) : Nat :=
  match f.compare a b with
  | some .lt => b
  | some .eq => if bitOf a (f.eb + f.p) then b else a
  | _ => a

/-- R237: `FMIN` and `FMAX` over their NaN rules. -/
def FFmt.pick (f : FFmt) (k : NanKind) (op : Nat → Nat → Nat) (a b : Nat) : Nat :=
  match f.isNan a, f.isNan b with
  | false, false => op a b
  | true, true => f.quiet a
  | true, false => if k == .num then b else f.quiet a
  | false, true => if k == .num then a else f.quiet b

/-- Binary32 addition rounded to nearest even, used by folds, trees and collectives. -/
def add32 (a b : W32) : W32 := BitVec.ofNat 32 (f32.add .rn 0 a.toNat b.toNat)

/-- R241: 1 ÷ a. -/
def rcp32 (mode : Mode) (d : Nat) (a : Nat) : Nat :=
  (f32.firstNan [a]).getD (match f32.decode a with
    | .inf s => f32.signed s 0
    | .fin s m e => if m == 0 then f32.signed s (f32.top + 1) else f32.roundFin mode s (stickyDiv 1 m 160) (-e - 161) d
    | .nan => f32.cnan)

/-- R241: √a. -/
def sqrt32 (mode : Mode) (d : Nat) (a : Nat) : Nat :=
  (f32.firstNan [a]).getD (match f32.decode a with
    | .inf s => if s then f32.cnan else f32.top + 1
    | .fin s m e =>
      if m == 0 then f32.signed s 0
      else if s then f32.cnan
      else let r := stickySqrt m e; f32.roundFin mode false r.1 r.2 d
    | .nan => f32.cnan)

/-- R241: 1 ÷ √a; 1/√(m × 2^e) is the square root of 1/(m × 2^e), taken from a 400-bit quotient. -/
def rsq32 (mode : Mode) (d : Nat) (a : Nat) : Nat :=
  (f32.firstNan [a]).getD (match f32.decode a with
    | .inf s => if s then f32.cnan else 0
    | .fin s m e =>
      if m == 0 then f32.signed s (f32.top + 1)
      else if s then f32.cnan
      else let r := stickySqrt (stickyDiv 1 m 400) (-e - 401); f32.roundFin mode false r.1 r.2 d
    | .nan => f32.cnan)

/-- R239: the one-hot class mask. -/
def class32 (x : Nat) : Nat :=
  let s := bitOf x 31
  match f32.decode x with
  | .nan => if bitOf x 22 then 2 ^ 9 else 2 ^ 8
  | .inf t => if t then 2 ^ 0 else 2 ^ 7
  | .fin _ m _ =>
    if m == 0 then (if s then 2 ^ 3 else 2 ^ 4)
    else if fld x 23 8 == 0 then (if s then 2 ^ 2 else 2 ^ 5)
    else if s then 2 ^ 1 else 2 ^ 6

/-! ### The tapered formats (R151, R152) -/

/-- The run of bits equal to `b` from bit `i` - 1 of the body down. -/
def runLen (x : Nat) (b : Bool) : Nat → Nat
  | 0 => 0
  | i + 1 => if bitOf x i == b then 1 + runLen x b i else 0

/-- R151: the value of a nonzero magnitude body of `m` bits. -/
def taperVal (m es body : Nat) : Nat × Int :=
  let first := bitOf body (m - 1)
  let l := runLen body first m
  let k : Int := if first then (l : Int) - 1 else -(l : Int)
  let left := m - l - 1
  let ebits := min es left
  let e := fld body (left - ebits) ebits * 2 ^ (es - ebits)
  let fb := left - ebits
  (2 ^ fb + fld body 0 fb, k * (2 ^ es : Nat) + (e : Nat) - (fb : Nat))

/-- R151: the value of a tapered code of `n` bits. -/
def taperDecode (n es x : Nat) : Val :=
  if x == 0 then .fin false 0 0
  else if x == 2 ^ (n - 1) then .nan
  else let r := taperVal (n - 1) es (fld x 0 (n - 1)); .fin (bitOf x (n - 1)) r.1 r.2

/-- The largest body whose magnitude, in steps of 2^-64, is at most `x`, among bodies 1 to `c`. -/
def taperBelow (m es x : Nat) : Nat → Nat
  | 0 => 0
  | c + 1 => let r := taperVal m es (c + 1); if shiftI r.1 (r.2 + 64) ≤ x then c + 1 else taperBelow m es x c

/-- R152: a finite nonzero magnitude on the lattice; `x2` is the magnitude in steps of 2^-200. -/
def taperRound (mode : Mode) (s : Bool) (m es x2 d : Nat) : Nat :=
  let val := fun c => let r := taperVal m es c; shiftI r.1 (r.2 + 200)
  let top := 2 ^ m - 1
  if val top ≤ x2 then top
  else
    let c := taperBelow m es (x2 / 2 ^ 136) top
    if c == 0 then 1
    else
      let a := val c
      let b := val (c + 1)
      let up := match mode with
        | .rn => decide (b - a < 2 * (x2 - a)) || (2 * (x2 - a) == b - a && c % 2 == 1)
        | .rz => false
        | .ru => !s && x2 != a
        | .rd => s && x2 != a
        | .ra => decide (b - a ≤ 2 * (x2 - a)) && x2 != a
        | .sr => decide (d < (x2 - a) * 2 ^ 32 / (b - a))
      if up then c + 1 else c

/-- R152: a value encoded into a tapered format of `n` bits. -/
def taperEncode (n es : Nat) (mode : Mode) (d : Nat) : Val → Nat
  | .nan => 2 ^ (n - 1)
  | .inf s => (if s then 2 ^ (n - 1) else 0) + (2 ^ (n - 1) - 1)
  | .fin s m e =>
    if m == 0 then 0
    else (if s then 2 ^ (n - 1) else 0) + taperRound mode s (n - 1) es (max 1 (shiftI m (e + 200))) d

/-! ### Integers (R160, R243) -/

/-- A value rounded to an integer and brought into a range; a NaN gives 0. -/
def toIntIn (mode : Mode) (d : Nat) (lo hi : Int) : Val → Int
  | .nan => 0
  | .inf s => if s then lo else hi
  | .fin s m e =>
    let n : Int := (roundStep mode s m e 0 d : Nat)
    max lo (min hi (if s then -n else n))

/-- The value of an integer. -/
def intVal (x : Int) : Val := .fin (decide (x < 0)) x.natAbs 0

end Sys2Proof.Machine
end

