-- ==== Sys2Proof/Machine/State.lean ====
section
/-! DEFINITION. The state of one Beybry device: every piece of storage the manual gives it, as plain
data, and its value right after reset. INVENTORY.md lists each piece with its rule. -/

namespace Sys2Proof.Machine

/-! ### How a step can stop -/

/-- The model's own stops. Traps and faults of the manual are NOT among them: they are next states. -/
inductive Fault where
  /-- Raised by an ISA instruction executed while no fragment issues: `State.cur` names no running
  fragment. Safe: the hardware executes an instruction only for an issuing fragment (R36, R37). -/
  | noIssuer
  /-- Raised by an event of the table of operations and events whose condition does not hold in the
  state, and by an agenda turn that cannot come about. Safe: nothing happens there in the hardware. -/
  | notEnabled
  deriving DecidableEq, Repr

/-- Why the model has no meaning for an instruction. -/
inductive Refusal where
  /-- An instruction of the opcode table that has no meaning yet, by its mnemonic. Raised by the arms
  of `exec` only. Safe: nothing is claimed about it. -/
  | notModelled (mnemonic : String)
  deriving DecidableEq, Repr

/-! ### Kernels, launches and triggers -/

/-- A role of a kernel header (R91). -/
structure Role where
  entry  : Nat
  groups : Nat
  base   : Nat
  deriving DecidableEq, Repr

/-- A kernel header that has passed the checks of R367, with its image's address and table index. -/
structure Kernel where
  image   : W64
  index   : Nat
  width   : Nat
  roles   : List Role
  ext     : Nat
  maps    : Nat
  scratch : Nat
  priv    : Nat
  checked : Bool
  det     : Bool
  scout   : Bool
  deriving DecidableEq, Repr

/-- Under whose stamp identity a block's accesses act (R134): a key that names the block, or the block
whose store started the trigger block, its `$blk` and its launch. -/
structure Ident where
  key    : Nat
  blk    : W32
  launch : Option Nat
  deriving DecidableEq, Repr

/-- A stamp identity issued in the current epoch (R134). -/
structure Sid where
  who : Ident
  id  : Nat
  deriving DecidableEq, Repr

/-- Who stored, for a trigger record (R285). -/
inductive Storer where
  /-- A block of this device: the block's identity in the model, its `$blk`, its depth and replica rank,
  the group that stored, and the block's stamp identity. -/
  | block (bid : Nat) (blk : W32) (depth rank gid : Nat) (who : Ident)
  /-- A remote block, as Spur carries it: the sending rank, its key there, its `$blk`, depth and replica rank. -/
  | remote (rank key : Nat) (blk : W32) (depth rep : Nat)
  /-- The host. -/
  | host
  deriving DecidableEq, Repr

/-- What words 1 and 2 of a fault record say of a storer's block of this device (R393). -/
structure StorerTag where
  blk     : W32
  kernel  : Nat
  trigger : Bool
  queue   : Nat
  launch  : W32
  deriving DecidableEq, Repr

/-- A trigger record (R52, R284). -/
structure TrigRec where
  widx    : Nat
  wid     : W32
  ctx     : Nat
  region  : W64
  page    : Nat
  sectors : List Nat
  storer  : Storer
  depth   : Nat
  die     : Nat
  kernel  : Nat
  arg     : W64
  tag     : Option StorerTag
  deriving DecidableEq, Repr

/-- The progress of a launch: waiting for its dependence (R48), its dependence met, arrived at its
start barrier (R304), waiting for the start time, dispatching, all blocks dispatched, complete. -/
inductive Phase where
  | waiting
  | met
  | arrived
  | starting (t : W64)
  | dispatching
  | dispatched
  | complete
  deriving DecidableEq, Repr

/-- A launch (R44, R48, R49, R304, R313). `relStop` is the block at whose staged op release has stopped (R317,
R376); `adopted` says that it is another member's, of which blocks are restored here (R56),
and `killed` that a group of it was killed, so that it never completes (R347). `acks` and `domAcks` are the ranks that
have acknowledged its arrival at the start barrier, and its messages of the domain barrier (R386, R387). -/
structure Launch where
  id       : Nat
  ctx      : Nat
  queue    : Nat
  count    : W32
  packet   : List W64
  replica  : Bool
  phase    : Phase
  kernel   : Option Kernel
  next     : Nat
  head     : Nat
  dropped  : Bool
  added    : Bool
  rank     : Nat
  nrank    : Nat
  barGen   : W32
  domSent  : Bool
  domSince : W64
  domArr   : List Nat
  arrTime  : W64
  sent     : Bool
  relStop  : Option Nat
  adopted  : Bool
  killed   : Bool
  acks     : List Nat
  domAcks  : List Nat
  deriving DecidableEq, Repr

/-! ### Events raised by instructions -/

/-- An event an instruction or an engine raises: the fields of R337 that depend on the cause, and for a failed walk the
pages that fail, where they are several (R370). -/
structure Raised where
  cause   : Nat
  code    : W32
  detail  : W32
  operand : Nat
  slot    : Nat
  lanes   : LaneMask
  addr    : W64
  pages   : List Nat
  deriving DecidableEq, Repr

/-- What a group drains for (R340): the fragment, the instruction, the event and when it was met. -/
structure Stop where
  fid  : Nat
  pc   : W64
  next : W64
  word : W64
  ev   : Raised
  time : W64
  cycle : Nat
  deriving DecidableEq, Repr

/-- A frozen group (R345): what it stopped for, its record and its image in the arena. -/
structure Frozen where
  stop  : Stop
  seq   : BitVec 16
  rcd   : List W64
  image : Option W64
  deriving DecidableEq, Repr

/-! ### Fragments, groups and blocks -/

/-- Why a fragment is blocked in a waiting instruction (R54, R259), or before an access that finds the
divergence filter full (R145). -/
inductive Wait where
  | phaser (off : Nat) (pb : Bool)
  | push (off : Nat)
  | pop (off : Nat)
  | regx
  | pointer (off : Nat) (count : W32)
  | arming (idx : Nat) (d : Reg)
  | disarming (idx : Nat)
  | filter
  deriving DecidableEq, Repr

/-- The state of a fragment (R55). One that sleeps or waits in `DBAR` stands at that instruction and keeps the PC
that follows it (R54). -/
inductive FState where
  | running
  | parked (tok : Nat)
  | blocked (w : Wait) (since : Nat)
  | sleeping (wake next : W64)
  | inDbar (dom : Bool) (next : W64)
  | awaiting (id : Nat)
  deriving DecidableEq, Repr

/-- A pending side (R32): where it stands, its lanes, and the token it was recorded on. -/
structure Pend where
  pc   : W64
  mask : LaneMask
  tok  : Option Nat
  deriving DecidableEq, Repr

/-- What a far target or the host has answered, kept until the fragment issues the access again
(R380, R381). -/
inductive Reply where
  | far (r : FarReply)
  | host (r : HostReply)
  | timeout
  deriving DecidableEq, Repr

/-- A clause line as fetched (R85): its virtual address and its eight words, the header first. -/
structure Line where
  va    : W64
  words : List W64
  deriving DecidableEq, Repr

/-- A side of a serialised branch that has reached its token's join point while another side of the same
fragment runs (R32): the token, `$exm` at arrival, the PC after the `JOIN`, and the mask of the side that
was running before. -/
structure Arrived where
  tok  : Nat
  exm  : LaneMask
  pc   : W64
  side : Option LaneMask
  deriving DecidableEq, Repr

/-- A fragment (R29). `side` is the mask of the pending side that runs, none while the larger set does
(R32). `mid` says that it was saved within a clause, which it has entered already (R56, R81), and `solo` that it runs
alone past a full divergence filter (R145). -/
structure Frag where
  fid     : Nat
  pc      : W64
  held    : LaneMask
  exm     : LaneMask
  st      : FState
  line    : Option Line
  mid     : Bool
  solo    : Bool
  age     : Nat
  last    : Nat
  starved : Bool
  pends   : List Pend
  arrived : List Arrived
  side    : Option LaneMask
  reply   : Option Reply
  deriving DecidableEq, Repr

/-- An open reconvergence token (R33). -/
structure Tok where
  id   : Nat
  join : W64
  part : LaneMask
  deriving DecidableEq, Repr

/-- An entry of the divergence filter (R144): the sector and its space, the fragment that wrote it,
and the fragments that read it. -/
structure FiltEntry where
  scratch : Bool
  sector  : Nat
  writer  : Option Nat
  readers : BitVec 8
  deriving DecidableEq, Repr

/-- What a trapped group keeps inside the device while its handler runs (R340, R342). -/
structure HandlerRun where
  stop   : Stop
  rcd    : List W64
  seq    : BitVec 16
  image  : W64
  kimg   : W64
  base   : Nat
  frags  : List Frag
  toks   : List Tok
  filter : List FiltEntry
  deriving DecidableEq, Repr

/-- A group (R22, R23, R55, R64). Registers are keyed by lane and number: `v`*n* of lane *L* at
128 *L* + *n*. -/
structure Group where
  gid     : Nat
  role    : Nat
  stone   : Nat
  pos     : Nat
  base    : Nat
  v       : Sparse W32
  u       : Sparse W32
  p       : Sparse (BitVec 12)
  flags   : Sparse Nat
  aside   : Sparse Nat
  draws   : Sparse W32
  xowner  : Sparse W32
  ctr     : Sparse W64
  toks    : List Tok
  nextTok : Nat
  filter  : List FiltEntry
  frags   : List Frag
  stop    : Option Stop
  frozen  : Option Frozen
  handler : Option HandlerRun
  ended   : Bool
  deriving DecidableEq, Repr

/-- A map slot of a block on a stone (R224, R228, R235). -/
structure MapSlot where
  stone : Nat
  k     : Nat
  image : Sparse W32
  fmt   : W32
  bound : Bool
  deriving DecidableEq, Repr

/-- The extended set of a pair of groups (R67), keyed by lane and number: `v`(128+*n*) of lane *L* at
64 *L* + *n*. -/
structure ExtSet where
  pair   : Nat
  holder : Option Nat
  regs   : Sparse W32
  deriving DecidableEq, Repr

/-- One slot of an open expansion (R280). -/
structure XSlot where
  gid       : Nat
  ended     : Bool
  rounds    : Nat
  resolved  : Bool
  heldRound : Nat
  unapplied : LaneMask
  contrib   : Sparse W32
  deriving DecidableEq, Repr

/-- An open expansion of a stone (R273, R280). Starts, lengths and totals are keyed by owner index. -/
structure Expansion where
  stone : Nat
  deal  : Nat
  n     : Nat
  op    : FoldOp
  total : Nat
  start : Sparse W32
  len   : Sparse W32
  acc   : Sparse W32
  slots : List XSlot
  bad   : Bool
  deriving DecidableEq, Repr

/-! ### Accesses in flight -/

/-- Where an access goes: global memory by physical address, the block's private region by physical
address, device register space, or the block's scratchpad. -/
inductive Space where
  | global
  | priv
  | regs
  | scratch
  deriving DecidableEq, Repr

/-- One access of an in-flight instruction, as the memories serve it. -/
inductive AccBody where
  /-- A lane's load of the bytes at the addresses, into a register of a data type. -/
  | load (lane : Nat) (d : Reg) (t : DType) (src : List Nat)
  /-- The bytes a store writes, each byte once. -/
  | store (bytes : List (Nat × Byte))
  /-- The lanes of an atomic that name one address: lane, value, compare-and-swap value (R257). -/
  | atom (addr : Nat) (op : AtomOp) (w : AtomWidth) (d : Option Reg) (lanes : List (Nat × W64 × W64))
  /-- One single-copy-atomic unit of an `MXLD`: words by lane, and scale bytes by block (R253). -/
  | mxload (d : Reg) (words : List (Nat × Nat)) (scales : List (Nat × Nat))
  /-- One word of an `MBIND`'s image, from a scratchpad offset (R231). -/
  | bind (stone k word src : Nat)
  /-- The words an `MPUT` writes (R232). -/
  | put (stone k : Nat) (words : List (Nat × W32))
  /-- Register values an `MGET` delivers (R233). -/
  | regs (ws : List (Nat × Nat × W32))
  deriving DecidableEq, Repr

/-- An access with the space it goes to, the lanes it belongs to and its place in the instruction. -/
structure Acc where
  space : Space
  lanes : LaneMask
  body  : AccBody
  deriving DecidableEq, Repr

/-- What completes an in-flight instruction beyond its accesses. -/
inductive Finish where
  | plain
  /-- The slot takes its format word and its bound bit (R231, R232). -/
  | bind (stone k : Nat) (fmt : W32)
  /-- The odd register of an `MXLD` takes the collected scale bytes (R253). -/
  | scales (d : Reg) (lanes : LaneMask)
  /-- `XEND` waits for its deal set and writes the totals (R278). -/
  | xend (stone : Nat) (d : Reg) (lanes : LaneMask)
  /-- `COLL` waits for its collective (R290). -/
  | coll (tag : W32)
  deriving DecidableEq, Repr

/-- The kinds of access a stamp distinguishes (R138). -/
inductive Touch where
  | read | write | atomic
  deriving DecidableEq, Repr

/-- One access to a sector of a checked page: the lane, its virtual and its physical address. -/
structure SectorTouch where
  lane : Nat
  va   : Nat
  pa   : Nat
  deriving DecidableEq, Repr

/-- An in-flight long-latency instruction (R71, R72). `hold` are the lanes that start no later clause until it
completes, where its clause header gave it no flag (R73); `marks` what it touches on checked pages, and `missed` the lanes
whose load has missed in L1 (R294). `fail` is the conflict that it has met after its issue, for which its group has not
been sent on yet (R134, R139, R374; log entry 10). -/
structure LongOp where
  id    : Nat
  bid   : Nat
  gid   : Nat
  fid   : Nat
  flag  : Option Nat
  hold  : LaneMask
  scope : Scope
  acq   : Bool
  rel   : Bool
  ext   : Bool
  accs  : List Acc
  coll  : List (Nat × Byte)
  marks : List SectorTouch
  fail  : Option Raised
  missed : LaneMask
  fin   : Finish
  aside : Bool
  pc    : W64
  word  : W64
  deriving DecidableEq, Repr

/-- A far or host access waiting for its answer (R380, R381): the fragment, the target rank (none: the
host), when it was sent, the request, a far target's answer kept until every target has answered, the event a
host access raises where the host fails it, and whether the instruction names an extended register (R266). -/
structure Await where
  id    : Nat
  f     : FragRef
  rank  : Option Nat
  since : W64
  req   : Option FarReq
  got   : Option FarReply
  ev    : Option Raised
  ext   : Bool
  deriving DecidableEq, Repr

/-- What a staged op does when it is released (R313, R314, R317). -/
inductive StagedBody where
  /-- Writes and atomics with, for each sector touched on a checked page, its virtual and physical
  address and whether the touch is an atomic. -/
  | access (accs : List Acc) (checks : List (W64 × Nat × Bool))
  | far (reqs : List (Nat × FarReq))
  | launch (q : Nat) (pkt : List W64)
  | signal (va x : W64)
  deriving DecidableEq, Repr

/-- A staged op: the instruction it belongs to, its place in issue order, whether a leat performs it, and where its `size`
bytes begin in the block's staging area (R398; log entry 35). -/
structure StagedOp where
  gid   : Nat
  fid   : Nat
  pc    : W64
  word  : W64
  lanes : LaneMask
  size  : Nat
  off   : Nat
  seq   : Nat
  leat  : Bool
  body  : StagedBody
  deriving DecidableEq, Repr

/-- A block (R23 to R25, R55). `away` says that its save image has gone to another member, which restores it (R56), and
`stuck` that its restore has failed and its queue waits for an FCMD (R384); `taken` says that another member saved it
(R56), and `killed` that the whole block was killed (R316, R347). -/
structure Block where
  bid      : Nat
  ctx      : Nat
  launch   : Option Nat
  trig     : Option TrigRec
  index    : W32
  kernel   : Kernel
  mill     : Nat
  resident : Bool
  saving   : Bool
  priv     : W64
  save     : Nat
  stage    : Option Nat
  scratch  : Sparse Byte
  tags     : Sparse Byte
  slots    : List MapSlot
  exts     : List ExtSet
  xus      : List Expansion
  staged   : List StagedOp
  ident    : Ident
  groups   : List Group
  ended    : Bool
  away     : Bool
  stuck    : Bool
  taken    : Bool
  killed   : Bool
  deriving DecidableEq, Repr

/-! ### Caches, translations, leats, watches, collectives -/

/-- An L1 line (R110): the mill, the physical line, the cells present, the offsets that are dirty with
their storers (R285), the scope tag, the block whose private region the line lies in, the context of the
last store, and the lines whose dirty bytes belong to MX units with its own (R146). -/
structure L1Line where
  mill  : Nat
  line  : Nat
  cells : Sparse (Option Byte)
  dirty : List (Nat × Storer)
  tag   : Scope
  priv  : Option Nat
  ctx   : Nat
  mates : List Nat
  deriving DecidableEq, Repr

/-- An RDC line (R113). -/
structure RdcLine where
  die   : Nat
  line  : Nat
  cells : Sparse (Option Byte)
  deriving DecidableEq, Repr

/-- A clause line held by a mill's instruction cache, where `stone` is none, or by the loop buffer of one of its stones
(R11, R85, R255). -/
structure ILine where
  mill  : Nat
  stone : Option Nat
  line  : Nat
  words : List W64
  deriving DecidableEq, Repr

/-- A translation held by the L1 TLB of a mill, or by the L2 TLB of a die where `mill` is none (R100, R102): the page's
virtual base, its size in address bits and its leaf entry. -/
structure TlbEntry where
  mill : Option Nat
  die  : Nat
  ctx  : Nat
  va   : W64
  bits : Nat
  leaf : W64
  deriving DecidableEq, Repr

/-- A copy descriptor (R115, R116). -/
structure CopyDesc where
  g     : W64
  e     : Nat
  dir   : Bool
  kind  : Nat
  d     : Nat
  n0    : Nat
  n1    : Nat
  n2    : Nat
  wptr  : Nat
  st1   : Int
  st2   : Int
  shape : W32
  deriving DecidableEq, Repr

/-- A leat at work (R115 to R121); `seq` is its copy's place in issue order. -/
structure Leat where
  mill   : Nat
  idx    : Nat
  bid    : Nat
  gid    : Nat
  fid    : Nat
  ctx    : Nat
  pc     : W64
  word   : W64
  desc   : CopyDesc
  done   : Nat
  seq    : Nat
  frozen : Option (BitVec 16)
  deriving DecidableEq, Repr

/-- A watch-table entry in use (R281 to R285, R390 to R392). `pages` pairs each 4 KiB region's
physical number with its virtual address at the arm; `live` are the home slices that have taken the arm before it is
complete, and `gone` those that have disarmed before the last has (R283, R297). -/
structure Watch where
  idx     : Nat
  ctx     : Nat
  base    : W64
  lg      : Nat
  depth   : Nat
  kernel  : Nat
  budget  : Nat
  arg     : W64
  wid     : W32
  pages   : List (Nat × W64)
  armed   : Bool
  live    : List Nat
  gone    : List Nat
  susp    : Bool
  held    : Option TrigRec
  window  : Nat
  entered : Nat
  sent    : Nat
  deriving DecidableEq, Repr

/-- A collective in flight on this device, issued on a mill (R289, R290, R327, R389); `fail` is the cause, code, detail
and address of a fault that its group has not taken yet. -/
structure Coll where
  lid       : Nat
  tag       : W32
  op        : Nat
  type      : Nat
  count     : Nat
  root      : Nat
  src       : W64
  dst       : W64
  mill      : Nat
  bid       : Nat
  gid       : Nat
  fid       : Nat
  opId      : Nat
  exchanged : Bool
  done      : Bool
  fail      : Option (Nat × Nat × Nat × Nat)
  deriving DecidableEq, Repr

/-! ### Contexts -/

/-- Why a launch queue is frozen (R348): what FCMD acts on. -/
inductive QStop where
  /-- A fault of a block of the launch named. -/
  | block (lid : Nat)
  /-- The packet, its table entry, its header or its dependence counter (R48, R367). -/
  | entry
  /-- The completion add of a launch (R49). -/
  | completion (lid : Nat)
  /-- A staged op of the launch named, at release (R317, R376). -/
  | release (lid : Nat)
  /-- A start barrier (R387). -/
  | barrier
  /-- A restore (R384). -/
  | restore (bid : Nat)
  deriving DecidableEq, Repr

/-- Why a trigger queue is frozen (R348, R384, R395): its first record cannot dispatch, a trigger block
faulted, or a trigger block cannot be restored. -/
inductive TStop where
  | head
  | block (bid : Nat)
  | restore (bid : Nat)
  deriving DecidableEq, Repr

/-- A launch queue (R43, R47, R303, R304): packets read so far, the launch at the head, the freeze, the
replicas not yet dispatched, each with the doorbell value it stands behind, the latest arrival of each
other member at a start barrier, and whether the queue has been the origin of a replicated packet. -/
structure Queue where
  read     : W32
  head     : Option Nat
  frozen   : Option QStop
  replicas : List (W32 × List W64)
  arrivals : List Arrival
  origin   : Bool
  deriving DecidableEq, Repr

/-- A master that a fault has frozen (R345, R347). -/
inductive Master where
  | group (bid gid : Nat)
  | leat (mill idx : Nat)
  | watch (idx : Nat)
  | endpoint (ctx rank : Nat)
  | port
  | queue (q : Nat)
  | trigger
  deriving DecidableEq, Repr

/-- A stretch of the private arena, the save area or the staging pool that is taken (R103, R316, R340). -/
structure Span where
  base : Nat
  size : Nat
  bid  : Nat
  deriving DecidableEq, Repr

/-- An image a launch or trigger block has bound (R321): its address, whether it has been replaced,
and the retirement counter noted then. -/
structure ImageUse where
  image   : W64
  counter : W64
  deriving DecidableEq, Repr

/-- A context (R46 to R52). `regs` holds the 64-bit registers of its doorbell page by byte offset. -/
structure Ctx where
  present   : Bool
  leaving   : Bool
  regs      : Sparse W64
  queues    : List Queue
  seq       : BitVec 16
  trig      : List TrigRec
  trigStop  : Option TStop
  arena     : List Span
  saves     : List Span
  stages    : List Span
  masters   : List (BitVec 16 × Master)
  images    : List ImageUse
  deriving DecidableEq, Repr

/-- A queue after reset. -/
def Queue.reset : Queue := { read := 0, head := none, frozen := none, replicas := [], arrivals := [], origin := false }

/-- An absent context: every register at its reset value (R46, R403). -/
def Ctx.reset : Ctx where
  present := false
  leaving := false
  regs := []
  queues := List.replicate 8 Queue.reset
  seq := 0
  trig := []
  trigStop := none
  arena := []
  saves := []
  stages := []
  masters := []
  images := []

/-! ### Messages -/

/-- What the device sends another member over Spur (R299, R303, R304). -/
inductive SpurMsg where
  | replica (rank ctx q : Nat) (pkt : List W64)
  | arrival (ctx q : Nat) (a : Arrival)
  | arrivalAck (rank ctx q : Nat) (gen : W32)
  | request (rank : Nat) (r : FarReq)
  | answer (rank id : Nat) (r : FarReply)
  | barrier (lid : Nat) (m : BarMsg)
  | coll (lid : Nat) (tag : W32) (h : CollHead)
  | data (lid : Nat) (tag : W32) (vals : List W64)
  deriving DecidableEq, Repr

/-- What the device sends the host over Felmir (R311). -/
inductive FelmirMsg where
  | faultSignal (ctx : Nat)
  | replaceSignal
  | recall (line : Nat)
  | access (id : Nat) (write : Bool) (addrs : List Nat)
  | lineData (line : Nat) (bytes : List Byte)
  | atomicResult (x : W64)
  | registerData (x : W64)
  | bringUp (step : Nat)
  | report (bytes : List Byte)
  | refused (addr : W64)
  deriving DecidableEq, Repr

/-- What a device keeps of a saved block beside its image, and passes on with it: an `XEND` in flight, frozen leats, staged
ops, handler runs, stops, and the records that name its frozen masters (R53, R56, R317, R340, R345, R347; log entry 39). -/
structure Kept where
  block   : Block
  ops     : List LongOp
  leats   : List Leat
  masters : List (BitVec 16 × Master)
  deriving DecidableEq, Repr

end Sys2Proof.Machine

namespace Sys2Proof

/-! ### Moves -/

/-- One move of one agent. A state's agenda lists the moves to come; the choices the manual leaves to
the device are the arguments of the moves (log entries 2 and 4). -/
inductive Turn where
  /-- The stone issues the fragment's next instruction (R37). -/
  | issue (f : FragRef)
  /-- An event of the table of operations and events comes about. -/
  | event (i : Instr)
  /-- The memories serve access `k` of in-flight instruction `op`, at the level given: 0 the L1,
  1 the RDC, 2 the home (R251). -/
  | perform (op k level : Nat)
  /-- Clock cycles and nanoseconds of domain time pass (R12, R75). -/
  | tick (cycles ns : Nat)
  /-- The host sets the domain time of the member that is rank 0 (R302; log entry 34). -/
  | setTime (ns : Nat)
  /-- A soft error strikes a stored unit; its code corrects it or only detects it (R398). -/
  | softError (l : ErrLoc) (correctable : Bool)
  /-- A full TLB of a mill, or of a die, replaces an entry (R102; log entry 9). -/
  | forget (mill : Option Nat) (die ctx page : Nat)
  /-- A mill's instruction cache, or the loop buffer of one of its stones, replaces a line (R11; log entry 9). -/
  | forgetCode (mill : Nat) (stone : Option Nat) (line : Nat)
  /-- The host's processors write bytes of the host's own memory (R309). -/
  | hostMem (bytes : List (Nat × Byte))
  /-- The host writes bytes in its cached copy of a device line (R309). -/
  | hostStore (line : Nat) (bytes : List (Nat × Byte))
  /-- The host begins, or ceases, to fail the device's own accesses to host pages: code 0 an error, 1 no answer (R381). -/
  | hostFails (code : Option Nat)
  /-- A member of a context's launch domain has no room for replicas, or has room again (R303). -/
  | replicaSpace (ctx rank : Nat) (full : Bool)
  /-- A member acknowledges this member's arrival at a start barrier (R387). -/
  | acked (ctx q rank : Nat) (gen : BitVec 32)
  /-- A member acknowledges this member's messages of a domain barrier (R386). -/
  | domAcked (lid rank : Nat)
  /-- A home slice takes the arm of a watch before it is complete (R297). -/
  | armSlice (idx slice : Nat)
  /-- A home slice disarms a watch before the last has (R283). -/
  | disarmSlice (idx slice : Nat)
  /-- A step of bring-up fails (R403). -/
  | bringUpFails (step : Nat)
  /-- Saved blocks of a launch of another member of the domain, or a trigger block of it, are given to this one to restore:
  each with its save area and staging area here, its save image and what the image has no item for (R56; log entry 39). -/
  | adopt (ctx : Nat) (l : Option Machine.Launch) (blocks : List (Nat × Nat × List Byte × Machine.Kept))
  /-- The member that issued a deterministic launch tells how far its blocks are released (R314, R318; log entry 39). -/
  | headTold (lid head : Nat)
  /-- A die's draw is within its allotment again, and its issue rate is lowered no longer (R20; log entry 29). -/
  | powerWithin (die : Nat)
  /-- A group stops for a conflict that an access of it has met after its issue (R139, R374; log entry 10). -/
  | conflictMet (op : Nat)
  /-- A saved block goes to another member, which restores it (R56). -/
  | sendAway (bid : Nat)
  /-- A block that another member has restored is over there. -/
  | awayEnded (bid : Nat)
  /-- `n` moves of the model's own scheduler (log entry 2). -/
  | auto (n : Nat)
  deriving DecidableEq, Repr

/-- Whether the turn names an event. -/
def Turn.isEvent : Turn → Bool
  | .event _ => true
  | _ => false

/-- The next move where the agenda is empty: a free value for each count of such moves (R63; log entry 2). -/
opaque Config.freeTurn : Nat → Option Turn

end Sys2Proof

namespace Sys2Proof.Machine

/-! ### The device -/

/-- The instruction being issued: whose it is, its PC, the PC that follows it, its word and the bits of
the next slot where that may hold a literal (R179). -/
structure Iss where
  f    : FragRef
  pc   : W64
  next : W64
  word : W64
  lit  : Option W64
  deriving DecidableEq, Repr

/-- What a stone has issued in the current cycle (R37), and for which fragment. -/
structure StoneIssue where
  who    : FragRef
  mill   : Nat
  stone  : Nat
  ctx    : Nat
  image  : W64
  pc     : W64
  lanes  : LaneMask
  mapped : Bool
  deriving DecidableEq, Repr

/-- The whole device. -/
structure State where
  -- the model's own fields: the issuing instruction, the moves to come, counters of free values
  cur       : Option Iss
  agenda    : List Turn
  turnNo    : Nat
  -- time
  powered   : Bool
  heldStep  : Option Nat
  cycle     : Nat
  gtime     : W64
  issued    : List StoneIssue
  mapFree   : Sparse Nat
  -- memory and its caches
  mem       : List Host.Cell
  l1        : List L1Line
  rdc       : List RdcLine
  icache    : List ILine
  tlb       : List TlbEntry
  poison    : List Nat
  errs      : List ErrLoc
  -- stamps (R134, R138)
  epoch     : BitVec 8
  ids       : Nat
  sids      : List Sid
  stamps    : Sparse W64
  seen      : List (Nat × Nat)
  hostCopies : List Nat
  hostDirty : List (Nat × Byte)
  hostFails : Option Nat
  -- contexts and their work
  ctxs      : Sparse Ctx
  launches  : List Launch
  blocks    : List Block
  ops       : List LongOp
  awaits    : List Await
  leats     : List Leat
  watches   : List Watch
  arms      : Sparse (BitVec 22)
  colls     : List Coll
  turns     : Sparse Nat
  nextId    : Nat
  -- device-wide registers
  ctxcmd    : W64
  slt0      : W64
  slper     : W64
  slNext    : Option (W64 × W64)
  slBegun   : Nat
  stcov     : Sparse W64
  rasth     : W64
  rasce     : Sparse W64
  rasst     : W64
  window    : Nat
  -- links
  lost      : List Nat
  fullAt    : List (Nat × Nat)
  endpoints : List (Nat × Nat)
  ports     : List Nat
  spurOut   : List SpurMsg
  felmirOut : List FelmirMsg
  -- the miller
  slow      : List Nat
  coolSlow  : List Coolant
  stopped   : List Nat
  meas      : List (BitVec 256)
  fuse      : W32
  firmware  : Firmware
  waiting   : Option Firmware
  deriving DecidableEq, Repr

/-- The firmware the part is shipped with: version and rollback number 0 (log entry 16). -/
def factoryFirmware : Firmware :=
  { version := 0, rollback := 0, body := Config.factoryBody, sig := Config.factorySig }

/-- R405: a firmware image as a string of bytes: the 64-B header (magic, version, rollback number and
body length; the rest of the header zero) and the body. -/
def fwBytes (f : Firmware) : List Byte :=
  leBytes 4 Config.fwMagic.toNat ++ leBytes 4 f.version.toNat ++ leBytes 4 f.rollback.toNat ++
    leBytes 4 f.body.length ++ List.replicate 48 0 ++ f.body

/-- R409: register `m` extended by the digest `h`. -/
def extendMeas (m h : BitVec 256) : BitVec 256 := sha256 (beBytes 32 m.toNat ++ beBytes 32 h.toNat)

/-- R403, R409: the measurement registers after bring-up with the firmware `f`. -/
def bringUpMeas (f : Firmware) : List (BitVec 256) :=
  [extendMeas 0 Config.romDigest, extendMeas 0 (sha256 (fwBytes f)), 0, 0, 0, 0, 0, 0]

/-- The machine right after power-on and bring-up (R403): every context absent, memory zero with
nothing listed, every cache empty, the registers at their reset values (R307, R378, R401). The reset
values the manual does not give are those of log entry 5. -/
def State.reset : State where
  cur := none
  agenda := []
  turnNo := 0
  powered := true
  heldStep := none
  cycle := 0
  gtime := 0
  issued := []
  mapFree := []
  mem := []
  l1 := []
  rdc := []
  icache := []
  tlb := []
  poison := []
  errs := []
  epoch := 0
  ids := 0
  sids := []
  stamps := []
  seen := []
  hostCopies := []
  hostDirty := []
  hostFails := none
  ctxs := []
  launches := []
  blocks := []
  ops := []
  awaits := []
  leats := []
  watches := []
  arms := []
  colls := []
  turns := []
  nextId := 0
  ctxcmd := 0
  slt0 := 0
  slper := 1
  slNext := none
  slBegun := 0
  stcov := []
  rasth := 0x000003E800041000
  rasce := []
  rasst := 0
  window := 0
  lost := []
  fullAt := []
  endpoints := []
  ports := []
  spurOut := []
  felmirOut := []
  slow := []
  coolSlow := []
  stopped := []
  meas := bringUpMeas factoryFirmware
  fuse := 0
  firmware := factoryFirmware
  waiting := none

end Sys2Proof.Machine
end

