-- ==== Sys2Proof/Machine/Base.lean ====
section
/-! DEFINITION. Access to the pieces of the state: bytes of memory, contexts and their registers,
launches, blocks, groups, fragments, and the registers of a group. -/

namespace Sys2Proof.Machine

/-! ### Bytes of physical memory (R99) -/

/-- The byte at a physical address; an unlisted byte reads as zero (R403; log entry 6). -/
def State.rd (s : State) (a : Nat) : Byte := sget 0 s.mem a

/-- A byte of physical memory written. -/
def State.wr (s : State) (a : Nat) (b : Byte) : State := { s with mem := sset 0 s.mem a b }

/-- Bytes of physical memory written in order. -/
def State.wrAll (s : State) (ws : List (Nat × Byte)) : State := { s with mem := ssetAll 0 s.mem ws }

/-- The little-endian number of `n` bytes of physical memory (R3). -/
def State.rdNat (s : State) (a n : Nat) : Nat := leNat ((span a n).map s.rd)

/-- The canonical form of memory: addresses strictly rising, no entry equal to what an unlisted
address reads as. -/
abbrev Memory.wf (m : List Host.Cell) : Prop := swf (0 : Byte) m = true

/-! ### Contexts -/

/-- A context; an absent one reads its reset values (R46). -/
def State.ctx (s : State) (c : Nat) : Ctx := sget Ctx.reset s.ctxs c

/-- A context written. -/
def State.setCtx (s : State) (c : Nat) (x : Ctx) : State := { s with ctxs := sset Ctx.reset s.ctxs c x }

/-- A register of a doorbell page, by its byte offset. -/
def Ctx.reg (x : Ctx) (off : Nat) : W64 := sget 0 x.regs off

/-- A register of a doorbell page written. -/
def Ctx.setReg (x : Ctx) (off : Nat) (v : W64) : Ctx := { x with regs := sset 0 x.regs off v }

/-- A register of a context's page. -/
def State.creg (s : State) (c off : Nat) : Nat := ((s.ctx c).reg off).toNat

/-- Byte offsets of the registers of a doorbell page (R45, R47, R101, R298, R316, R339, R390). -/
def oDB (q : Nat) : Nat := 8 * q
/-- RINGq. -/
def oRING (q : Nat) : Nat := 0x40 + 16 * q
/-- RCTLq. -/
def oRCTL (q : Nat) : Nat := 0x48 + 16 * q
/-- TTROOT. -/
def oTTROOT : Nat := 0x100
/-- PVBASE. -/
def oPVBASE : Nat := 0x108
/-- PVSIZE. -/
def oPVSIZE : Nat := 0x110
/-- TLBINV. -/
def oTLBINV : Nat := 0x118
/-- DOMCFG. -/
def oDOMCFG : Nat := 0x120
/-- KTBASE. -/
def oKTBASE : Nat := 0x128
/-- KTSIZE. -/
def oKTSIZE : Nat := 0x130
/-- KRIDX. -/
def oKRIDX : Nat := 0x138
/-- KREPL. -/
def oKREPL : Nat := 0x140
/-- KRDONE. -/
def oKRDONE : Nat := 0x148
/-- TRAPH. -/
def oTRAPH : Nat := 0x150
/-- FQBASE. -/
def oFQBASE : Nat := 0x158
/-- FQCTL. -/
def oFQCTL : Nat := 0x160
/-- FQHEAD. -/
def oFQHEAD : Nat := 0x168
/-- FQTAIL. -/
def oFQTAIL : Nat := 0x170
/-- FCMD. -/
def oFCMD : Nat := 0x178
/-- WQUOTA. -/
def oWQUOTA : Nat := 0x180
/-- SAVEB. -/
def oSAVEB : Nat := 0x190
/-- SAVES. -/
def oSAVES : Nat := 0x198
/-- STAGB. -/
def oSTAGB : Nat := 0x1A0
/-- STAGS. -/
def oSTAGS : Nat := 0x1A8

/-- The domain rank of this device in a context (R298). -/
def State.rankOf (s : State) (c : Nat) : Nat := fld (s.creg c oDOMCFG) 0 6

/-- The number of members minus 1 (R298). -/
def State.domSize (s : State) (c : Nat) : Nat := fld (s.creg c oDOMCFG) 8 6

/-- The number of ring slots of a queue (R47). -/
def State.ringSize (s : State) (c q : Nat) : Nat := fld (s.creg c (oRCTL q)) 0 16 + 1

/-- The read index of a queue (R47). -/
def State.readIdx (s : State) (c q : Nat) : Nat := fld (s.creg c (oRCTL q)) 32 16

/-- The write index of a queue's doorbell (R45). -/
def State.writeIdx (s : State) (c q : Nat) : Nat := fld (s.creg c (oDB q)) 0 32

/-- The virtual address of a ring slot (R47). -/
def State.ringSlot (s : State) (c q i : Nat) : Nat := fld (s.creg c (oRING q)) 6 50 * 64 + 64 * i

/-- A launch queue of a context. -/
def Ctx.queue (x : Ctx) (q : Nat) : Queue := x.queues.getD q Queue.reset

/-- A launch queue of a context written. -/
def Ctx.setQueue (x : Ctx) (q : Nat) (v : Queue) : Ctx := { x with queues := x.queues.set q v }

/-! ### Launches, blocks, groups, fragments -/

/-- A launch by its identity. -/
def State.launch? (s : State) (lid : Nat) : Option Launch := s.launches.find? (·.id == lid)

/-- A launch written. -/
def State.setLaunch (s : State) (l : Launch) : State :=
  { s with launches := updIf (·.id == l.id) (fun _ => l) s.launches }

/-- A block by its identity. -/
def State.block? (s : State) (bid : Nat) : Option Block := s.blocks.find? (·.bid == bid)

/-- A block written. -/
def State.setBlock (s : State) (b : Block) : State :=
  { s with blocks := updIf (·.bid == b.bid) (fun _ => b) s.blocks }

/-- A group of a block. -/
def Block.group? (b : Block) (gid : Nat) : Option Group := b.groups.find? (·.gid == gid)

/-- A group of a block written. -/
def Block.setGroup (b : Block) (g : Group) : Block :=
  { b with groups := updIf (·.gid == g.gid) (fun _ => g) b.groups }

/-- A fragment of a group. -/
def Group.frag? (g : Group) (fid : Nat) : Option Frag := g.frags.find? (·.fid == fid)

/-- A fragment of a group written. -/
def Group.setFrag (g : Group) (f : Frag) : Group :=
  { g with frags := updIf (·.fid == f.fid) (fun _ => f) g.frags }

/-- A block changed by a function. -/
def State.onBlock (s : State) (bid : Nat) (f : Block → Block) : State :=
  { s with blocks := updIf (·.bid == bid) f s.blocks }

/-- A group changed by a function. -/
def State.onGroup (s : State) (bid gid : Nat) (f : Group → Group) : State :=
  s.onBlock bid fun b => { b with groups := updIf (·.gid == gid) f b.groups }

/-- A fragment changed by a function. -/
def State.onFrag (s : State) (r : FragRef) (f : Frag → Frag) : State :=
  s.onGroup r.bid r.gid fun g => { g with frags := updIf (·.fid == r.fid) f g.frags }

/-- A context changed by a function. -/
def State.onCtx (s : State) (c : Nat) (f : Ctx → Ctx) : State := s.setCtx c (f (s.ctx c))

/-- A launch changed by a function. -/
def State.onLaunch (s : State) (lid : Nat) (f : Launch → Launch) : State :=
  { s with launches := updIf (·.id == lid) f s.launches }

/-- A group of the device. -/
def State.group? (s : State) (bid gid : Nat) : Option (Block × Group) :=
  match s.block? bid with
  | none => none
  | some b =>
    match b.group? gid with
    | none => none
    | some g => some (b, g)

/-- A fragment of the device. -/
def State.frag? (s : State) (r : FragRef) : Option (Block × Group × Frag) :=
  match s.group? r.bid r.gid with
  | none => none
  | some (b, g) =>
    match g.frag? r.fid with
    | none => none
    | some f => some (b, g, f)

/-- A fresh identity for a launch, block, operation or request. -/
def State.fresh (s : State) : Nat × State := (s.nextId, { s with nextId := s.nextId + 1 })

/-- A stone of the device among all its stones. -/
def stoneKey (mill stone : Nat) : Nat := 4 * mill + stone

/-- The die of a mill (R15). -/
def dieOf (mill : Nat) : Nat := mill / 96

/-- The block is of a launch that runs deterministic (R313): by its packet, or by its kernel's header. -/
def State.detBlock (s : State) (b : Block) : Bool :=
  match b.launch with
  | none => false
  | some lid => b.kernel.det || (match s.launch? lid with | none => false | some l => bitOf (l.packet.getD 0 0).toNat 11)

/-- The block is the head of its launch (R313). -/
def State.isHead (s : State) (b : Block) : Bool :=
  match b.launch with
  | none => true
  | some lid => match s.launch? lid with
    | none => true
    | some l => b.index.toNat == l.head

/-- The launch of a block. -/
def State.launchOf (s : State) (b : Block) : Option Launch := b.launch.bind s.launch?

/-- The number of replicas of a block's launch. -/
def State.replicas (s : State) (b : Block) : Nat := match s.launchOf b with | none => 1 | some l => l.nrank + 1

/-- The replica rank of a block's launch. -/
def State.replicaRank (s : State) (b : Block) : Nat := match s.launchOf b with | none => 0 | some l => l.rank

/-- The launch is a gang launch. -/
def Launch.gang (l : Launch) : Bool := bitOf (l.packet.getD 0 0).toNat 9

/-- The blocks of a launch on this device. -/
def State.blocksOf (s : State) (lid : Nat) : List Block := s.blocks.filter fun b => b.launch == some lid

/-- The other ranks of a launch. -/
def Launch.others (l : Launch) : List Nat := (List.range (l.nrank + 1)).filter (· != l.rank)

/-- The trigger depth of a block (R285, R294). -/
def Block.depth (b : Block) : Nat := match b.trig with | none => 0 | some t => t.depth

/-- The storer a block's writes carry (R285). -/
def State.storerOf (s : State) (b : Block) (gid : Nat) : Storer :=
  .block b.bid b.index b.depth (match b.launch with
    | none => 0
    | some lid => match s.launch? lid with | none => 0 | some l => l.rank) gid b.ident

/-! ### Registers of a group (R64 to R69) -/

/-- The extended set of a group's pair (R67). -/
def Block.extSet (b : Block) (gid : Nat) : ExtSet :=
  (b.exts.find? (·.pair == gid / 2)).getD { pair := gid / 2, holder := none, regs := [] }

/-- The group holds its pair's extended set. -/
def Block.holdsExt (b : Block) (g : Group) : Bool := (b.extSet g.gid).holder == some g.gid

/-- R65, R341: the vector register is one the group has now. -/
def heldV (b : Block) (g : Group) (n : Nat) : Bool :=
  if n < 128 then decide (n < g.base)
  else decide (n - 128 < b.kernel.ext) && b.holdsExt g && g.handler.isNone

/-- The register is one the group has now; a run of uniform registers ends at `s63` (R64). -/
def heldReg (b : Block) (g : Group) : Reg → Bool
  | .v n => heldV b g n
  | .s n => decide (n < 64)

/-- A vector register of a lane. -/
def vget (b : Block) (g : Group) (lane n : Nat) : W32 :=
  if n < 128 then sget 0 g.v (128 * lane + n) else sget 0 (b.extSet g.gid).regs (64 * lane + (n - 128))

/-- A uniform register. -/
def uget (g : Group) (n : Nat) : W32 := sget 0 g.u n

/-- A register as a lane sees it (R69). -/
def rget (b : Block) (g : Group) (lane : Nat) : Reg → W32
  | .v n => vget b g lane n
  | .s n => uget g n

/-- The register after the given one in its file. -/
def regUp : Reg → Nat → Reg
  | .v n, i => .v (n + i)
  | .s n, i => .s (n + i)

/-- A 64-bit operand (R66). -/
def rget64 (b : Block) (g : Group) (lane : Nat) (r : Reg) : W64 := pair64 (rget b g lane r) (rget b g lane (regUp r 1))

/-- A predicate of a lane. -/
def pget (g : Group) (lane k : Nat) : Bool := (sget 0 g.p lane).getLsbD k

/-- The value a guard compares (R70). -/
def guardHolds (g : Group) (x : Guard) (lane : Nat) : Bool :=
  if x.idx < 12 then pget g lane x.idx != x.neg else true

/-- One change of a group's registers. -/
inductive RegWrite where
  | v (lane n : Nat) (x : W32)
  | u (n : Nat) (x : W32)
  | p (lane k : Nat) (x : Bool)
  | draw (lane : Nat) (x : W32)
  | owner (lane : Nat) (x : W32)
  deriving DecidableEq, Repr

/-- R68's defaults: a register nothing has written is zero, `$xowner` 0xFFFF_FFFF. -/
def ownerNone : W32 := 0xFFFFFFFF

/-- A predicate bit changed. -/
def setBit (x : BitVec 12) (k : Nat) (b : Bool) : BitVec 12 :=
  if b then x ||| (1#12 <<< k) else x &&& ~~~(1#12 <<< k)

/-- One change applied to a group. Extended registers are not the group's. -/
def Group.write (g : Group) : RegWrite → Group
  | .v lane n x => if n < 128 then { g with v := sset 0 g.v (128 * lane + n) x } else g
  | .u n x => { g with u := sset 0 g.u n x }
  | .p lane k x => { g with p := sset 0 g.p lane (setBit (sget 0 g.p lane) k x) }
  | .draw lane x => { g with draws := sset 0 g.draws lane x }
  | .owner lane x => { g with xowner := sset ownerNone g.xowner lane x }

/-- One change applied to an extended set (R67). -/
def ExtSet.write (e : ExtSet) : RegWrite → ExtSet
  | .v lane n x => if n < 128 then e else { e with regs := sset 0 e.regs (64 * lane + (n - 128)) x }
  | _ => e

/-- Changes applied to a group of a block, its extended set included. -/
def Block.regWrites (b : Block) (gid : Nat) (ws : List RegWrite) : Block :=
  { b with
    groups := updIf (·.gid == gid) (fun g => ws.foldl Group.write g) b.groups
    exts := updIf (·.pair == gid / 2) (fun e => ws.foldl ExtSet.write e) b.exts }

/-- R398: a staged op has bytes in a code word of its block's staging area. -/
def StagedOp.inWord (o : StagedOp) (w : Nat) : Bool := decide (o.off < 32 * w + 32) && decide (32 * w < o.off + o.size)

/-- R398: a staged op's bytes hold an error. -/
def StagedOp.broken (o : StagedOp) (s : State) (bid : Nat) : Bool :=
  s.errs.any fun x => match x with | .staged b w => b == bid && o.inWord w | _ => false

/-- Where the next staged op of a block lies in its staging area. -/
def Block.stagedEnd (b : Block) : Nat := b.staged.foldl (fun n o => max n (o.off + o.size)) 0

/-- A staged op leaves the area of its block; an error in a code word that holds no op any more is gone. -/
def unstage (s : State) (bid : Nat) (x : StagedOp) : State :=
  let s1 := s.onBlock bid fun b => { b with staged := b.staged.erase x }
  { s1 with errs := s1.errs.filter fun e => match e with
      | .staged b w => b != bid || (s1.block? bid).any fun y => y.staged.any (·.inWord w)
      | _ => true }

/-- R398: a whole register written holds a fresh code word: an error in it is gone. -/
def healed (bid gid : Nat) (ws : List RegWrite) : ErrLoc → Bool
  | .vreg b g l n => b == bid && (if n < 128 then g == gid else g / 2 == gid / 2) &&
      ws.any fun w => match w with | .v lane k _ => lane == l && k == n | _ => false
  | .ureg b g n => b == bid && g == gid && ws.any fun w => match w with | .u k _ => k == n | _ => false
  | _ => false

/-- Changes applied to a group of the device. -/
def State.regWrites (s : State) (bid gid : Nat) (ws : List RegWrite) : State :=
  { (s.onBlock bid fun b => b.regWrites gid ws) with errs := s.errs.filter fun x => !healed bid gid ws x }

/-- A 32-bit result in a register of a lane (R69: a uniform register is written once, by the caller). -/
def wr32 (lane : Nat) (r : Reg) (x : W32) : List RegWrite :=
  match r with
  | .v n => [.v lane n x]
  | .s n => [.u n x]

/-- R225, R69: the lanes whose scale words an instruction with the given active lanes writes to the odd register
of an MX pair: lanes 0 to 3, or the lowest active lane where the pair is uniform. -/
def scaleLanes (d : Reg) (act : LaneMask) : List Nat :=
  match d with
  | .v _ => [0, 1, 2, 3]
  | .s _ => [lowLane act].filter fun q => decide (q < 4)

/-- A 64-bit result in a pair (R66). -/
def wr64 (lane : Nat) (r : Reg) (x : W64) : List RegWrite :=
  wr32 lane r (lo32 x) ++ wr32 lane (regUp r 1) (hi32 x)

/-- A completion flag's count (R71). -/
def Group.flag (g : Group) (i : Nat) : Nat := sget 0 g.flags i

/-- A completion flag's count written. -/
def Group.setFlag (g : Group) (i n : Nat) : Group := { g with flags := sset 0 g.flags i n }

/-- The kernel's group width. -/
def Block.width (b : Block) : Nat := b.kernel.width

/-- The groups of the block that have not ended. -/
def Block.liveGroups (b : Block) : List Group := b.groups.filter fun g => !g.ended

/-- The scratchpad byte at an offset. -/
def Block.sb (b : Block) (o : Nat) : Byte := sget 0 b.scratch o

/-- The scratchpad number of `n` bytes at an offset. -/
def Block.sbNat (b : Block) (o n : Nat) : Nat := leNat ((span o n).map b.sb)

/-- Scratchpad bytes written. -/
def Block.setSb (b : Block) (ws : List (Nat × Byte)) : Block := { b with scratch := ssetAll 0 b.scratch ws }

/-- The bytes of a number at an address (R3). -/
def bytesAt (a n x : Nat) : List (Nat × Byte) := List.zip (span a n) (leBytes n x)

/-- A scratchpad number of `n` bytes written. -/
def Block.setSbNat (b : Block) (o n x : Nat) : Block := b.setSb (bytesAt o n x)

end Sys2Proof.Machine
end

