-- ==== Sys2Proof/Machine/Record.lean ====
section
/-! DEFINITION. Fault records: their words, their sequence, and the fields that a block and a group give them ("When things
go wrong: traps and fault records"). -/

namespace Sys2Proof.Machine

/-! ### The 128-byte record (R337) -/

/-- What a record names, before it takes its sequence number. -/
structure Rec where
  ctx     : Nat
  master  : Nat
  die     : Nat
  mill    : Nat
  stone   : Nat
  operand : Nat
  cls     : Nat
  cause   : Nat
  blk     : W32
  gid     : Nat
  fid     : Nat
  leat    : Nat
  slot    : Nat
  kernel  : Nat
  queue   : Nat
  trigger : Bool
  launch  : W32
  lanes   : LaneMask
  pc      : W64
  word    : W64
  addr    : W64
  iter    : W32
  owned   : Bool
  owner   : Nat
  detail  : W32
  code    : W32
  time    : W64
  image   : W64
  deriving DecidableEq, Repr

/-- A record that names nothing but its context, master, class and cause. -/
def Rec.bare (ctx master cls cause : Nat) (time : W64) : Rec where
  ctx := ctx
  master := master
  die := 0
  mill := 0
  stone := 0
  operand := 0
  cls := cls
  cause := cause
  blk := 0
  gid := 0
  fid := 0
  leat := 0
  slot := 0
  kernel := 0
  queue := 0
  trigger := false
  launch := 0
  lanes := 0
  pc := 0
  word := 0
  addr := 0
  iter := 0
  owned := false
  owner := 0
  detail := 0
  code := 0
  time := time
  image := 0

/-- A 64-bit word packed from fields: lowest bit, width and value of each. -/
def packFields (fs : List (Nat × Nat × Nat)) : W64 :=
  BitVec.ofNat 64 (fs.foldl (fun acc f => acc + f.2.2 % 2 ^ f.2.1 * 2 ^ f.1) 0)

/-- R337: the sixteen words of a record with its sequence number, on a device of the given rank. -/
def Rec.words (r : Rec) (seq : BitVec 16) (rank : Nat) : List W64 :=
  [packFields [(48, 16, seq.toNat), (38, 10, r.ctx), (32, 4, r.master), (26, 6, rank), (24, 2, r.die),
    (15, 9, r.mill), (13, 2, r.stone), (10, 3, r.operand), (8, 2, r.cls), (0, 8, r.cause)],
   packFields [(32, 32, r.blk.toNat), (27, 5, r.gid), (24, 3, r.fid), (20, 4, r.leat), (16, 4, r.slot), (0, 16, r.kernel)],
   packFields [(37, 3, r.queue), (36, 1, if r.trigger then 1 else 0), (0, 32, r.launch.toNat)],
   r.lanes,
   packFields [(0, 56, r.pc.toNat)],
   r.word,
   packFields [(0, 56, r.addr.toNat)],
   packFields [(32, 32, r.iter.toNat), (8, 1, if r.owned then 1 else 0), (0, 8, r.owner)],
   packFields [(32, 32, r.detail.toNat), (0, 32, r.code.toNat)],
   r.time,
   packFields [(0, 56, r.image.toNat)],
   0, 0, 0, 0, 0]

/-- The words with another class in word 0 (R343, R346). -/
def withClass (ws : List W64) (cls : Nat) : List W64 :=
  match ws with
  | [] => []
  | w :: rest => ((w &&& ~~~(3#64 <<< 8)) ||| (BitVec.ofNat 64 cls <<< 8)) :: rest

/-- The bytes of a list of words, little-endian (R3). -/
def wordBytes (ws : List W64) : List Byte := ws.flatMap fun w => leBytes 8 w.toNat

/-! ### Physical ranges (R99) -/

/-- The end of HBM. -/
def hbmTop : Nat := 2 ^ 40
/-- The start of device register space. -/
def regBase : Nat := 2 ^ 54
/-- The end of device register space. -/
def regTop : Nat := 2 ^ 54 + 2 ^ 32
/-- The start of host physical memory. -/
def hostBase : Nat := 2 ^ 55

/-- The address is one of HBM. -/
def inHbm (pa : Nat) : Bool := decide (pa < hbmTop)
/-- The address lies in device register space. -/
def inRegs (pa : Nat) : Bool := decide (regBase ≤ pa) && decide (pa < regTop)
/-- The address is one of host memory. -/
def inHost (pa : Nat) : Bool := decide (hostBase ≤ pa) && decide (pa < 2 ^ 56)

/-- The home of a physical address: the die of its HBM, none for a host page (R13, R99). -/
def homeDie (pa : Nat) : Option Nat := if pa < hbmTop then some (pa / 2 ^ 38) else none

/-- R11, R99: the L2 slice that homes a line, of the 512 of each die. -/
def homeSlice (line : Nat) : Nat := line / 2 ^ 32 * 512 + Config.sliceHash (line % 2 ^ 32) % 512

/-! ### Sequence, ring and masters (R346, R347) -/

/-- R346: the next value of the context's record sequence is taken. -/
def takeSeq (s : State) (c : Nat) : BitVec 16 × State :=
  ((s.ctx c).seq, s.onCtx c fun x => { x with seq := x.seq + 1 })

/-- The bytes of a line that the host has written in its copy. -/
def hostBytes (s : State) (line : Nat) : List (Nat × Byte) := s.hostDirty.filter fun p => lineOf p.1 == line

/-- R309: the home recalls the host's copy of a line before another write to it, and what the host has written there
comes back first. -/
def recallLine (s : State) (line : Nat) : State :=
  if s.hostCopies.contains line then
    { s.wrAll (hostBytes s line) with
      hostCopies := s.hostCopies.filter (· != line)
      hostDirty := s.hostDirty.filter fun p => lineOf p.1 != line
      felmirOut := s.felmirOut ++ [.recall line] }
  else s

/-- The master a record names from now on (R347). -/
def nameMaster (s : State) (c : Nat) (seq : BitVec 16) (m : Master) : State :=
  s.onCtx c fun x => { x with masters := (seq, m) :: x.masters }

/-! ### Entry records (R348) -/

/-- The sector mask of a trigger record as four words (R348). -/
def sectorWords (t : TrigRec) : List W64 :=
  (List.range 4).map fun i => maskOf ((t.sectors.filter fun x => x / 64 == i).map (· % 64))

/-- R286: what `TRIGI.from` reads. -/
def fromCode : Storer → W32
  | .block _ _ _ rank _ _ => BitVec.ofNat 32 (rank * 256)
  | .remote _ _ _ _ rep => BitVec.ofNat 32 (1 + rep * 256)
  | .host => 2

/-- R286: the storer's `$blk`, all ones for the host. -/
def storerBlk : Storer → W32
  | .block _ blk _ _ _ _ => blk
  | .remote _ _ blk _ _ => blk
  | .host => 0xFFFFFFFF

/-- R348: bytes 64 to 127 of the entry record of a trigger queue. -/
def trigEntry (t : TrigRec) : List W64 :=
  [packFields [(32, 3, t.depth), (0, 32, t.wid.toNat)], t.region,
   packFields [(32, 16, (fromCode t.storer).toNat), (0, 32, (storerBlk t.storer).toNat)]] ++ sectorWords t ++ [0]

/-- R338, R348: what a queue's record keeps of a fault's: the cause, the queue, the launch and the kernel index; the
fields that name an agent, a place or an operand do not apply to a queue. -/
def Rec.ofQueue (r : Rec) (master : Nat) : Rec :=
  { r with cls := 3, master := master, die := 0, mill := 0, stone := 0, operand := 0, blk := 0, gid := 0, fid := 0, leat := 0, slot := 0 }

/-- An entry record of class 3: words 0 to 2 name the queue and the launch, then comes the entry (log entry 15). -/
def entryWords (r : Rec) (master : Nat) (seq : BitVec 16) (rank : Nat) (entry : List W64) : List W64 :=
  ((r.ofQueue master).words seq rank).take 3 ++ [0, 0, 0, 0, 0] ++ (entry ++ List.replicate 8 0).take 8

/-! ### The fields a block and a group give a record -/

/-- Words 1 and 2 of a record, from a block (R337). -/
def Rec.ofBlock (s : State) (b : Block) (r : Rec) : Rec :=
  { r with
    ctx := b.ctx
    die := dieOf b.mill
    mill := b.mill
    blk := b.index
    kernel := b.kernel.index
    trigger := b.trig.isSome
    queue := (match b.launch with | none => 0 | some lid => match s.launch? lid with | none => 0 | some l => l.queue)
    launch := (match b.launch with | none => 0 | some lid => match s.launch? lid with | none => 0 | some l => l.count) }

/-- The expansion on its stone that a group has joined and not left (R273, R278). -/
def Block.xu? (b : Block) (stone gid : Nat) : Option Expansion :=
  b.xus.find? fun e => e.stone == stone && e.slots.any fun x => x.gid == gid && !x.ended

/-- The slot of a group in an expansion (R272). -/
def slotOf : List XSlot → Nat → Nat → Option (Nat × XSlot)
  | [], _, _ => none
  | x :: xs, gid, i => if x.gid == gid then some (i, x) else slotOf xs gid (i + 1)

/-- R338: the flat iteration a lane of a group holds, from its latest round. -/
def heldIter (b : Block) (g : Group) (lane : Nat) : W32 :=
  match b.xu? g.stone g.gid with
  | none => 0
  | some e =>
    match slotOf e.slots g.gid 0 with
    | none => 0
    | some (i, x) => BitVec.ofNat 32 ((x.rounds - 1) * (e.n * b.width) + i * b.width + lane)

/-- R337: the record of an event in a group. -/
def groupRec (s : State) (b : Block) (g : Group) (fid : Nat) (cls : Nat) (pc word : W64) (ev : Raised) (time : W64) : Rec :=
  let low := lowLane ev.lanes
  let own := sget ownerNone g.xowner low
  let owned := ev.lanes != 0 && own != ownerNone
  Rec.ofBlock s b
    { Rec.bare b.ctx 0 cls ev.cause time with
      stone := g.stone
      operand := ev.operand
      gid := g.gid
      fid := fid
      slot := ev.slot
      lanes := ev.lanes
      pc := pc
      word := word
      addr := ev.addr
      iter := if owned then heldIter b g low else 0
      owned := owned
      owner := if owned then own.toNat % 256 else 0
      detail := ev.detail
      code := ev.code }

/-- The class of a cause in R336: 0 trap, 1 fault, 2 breakpoint. -/
def classOf (cause : Nat) : Nat :=
  if [0x01, 0x03, 0x05, 0x06, 0x24, 0x25, 0x26].contains cause then 0 else if cause == 0x04 then 2 else 1

end Sys2Proof.Machine
end

