-- ==== Sys2Proof/Machine/Mmu.lean ====
section
/-! DEFINITION. Translation and protection: the five-level walk, the TLBs, page attributes and stamp
coverage ("Memory as programs see it", "Memory faults and conflict exceptions"). -/

namespace Sys2Proof.Machine

/-! ### Poison (R398, R400) -/

/-- A poisoned unit, by the physical address and size of the word. -/
def poisonUnit (base size : Nat) : Nat := base * 64 + size

/-- The byte lies in the poisoned unit. -/
def unitHas (u a : Nat) : Bool := decide (u / 64 ≤ a) && decide (a < u / 64 + u % 64)

/-- A byte of memory lies in a poisoned word. -/
def poisoned (s : State) (a : Nat) : Bool := s.poison.any fun u => unitHas u a

/-- R398: the code of a byte's error at its home: 5 for its line's L2 tag, 4 for a poisoned word of L2, 6 for one of HBM. -/
def byteCode (s : State) (a : Nat) : Option Nat :=
  if s.errs.contains (.tag (lineOf a)) then some 5 else (s.poison.find? fun u => unitHas u a).map fun u => if u % 64 == 8 then 4 else 6

/-- R400: the code of the first poisoned word of a stretch of memory. -/
def wordCode (s : State) (a n : Nat) : Option Nat := if s.poison.isEmpty && s.errs.isEmpty then none else (span a n).findSome? (byteCode s)

/-! ### Stamp coverage (R378) -/

/-- The largest limit a die's coverage takes: *L* + *L*/8 is at most 256 GiB, in 64 KiB units (R378). -/
def stcovMax : Nat := 2 ^ 41 / 9 / 65536 * 65536

/-- The coverage limit in force for a die, in bytes. -/
def State.coverage (s : State) (die : Nat) : Nat :=
  min (fld (sget 0 s.stcov die).toNat 16 24 * 65536) stcovMax

/-- The physical address lies in memory that checked lines may occupy. -/
def covered (s : State) (pa : Nat) : Bool :=
  match homeDie pa with
  | none => false
  | some d => decide (pa % 2 ^ 38 < s.coverage d)

/-- A page overlaps its die's stamp store, the top *L*/8 bytes of the die. -/
def mapsStampStore (s : State) (base size : Nat) : Bool :=
  match homeDie base with
  | none => false
  | some d => decide (0 < s.coverage d) && decide ((d + 1) * 2 ^ 38 - s.coverage d / 8 < base + size)

/-! ### The walk (R95 to R99, R369) -/

/-- Lowest indexed bit, index bits and table size of the levels 0 to 4 (R95). -/
def pageLevels : List (Nat × Nat × Nat) := [(47, 9, 4096), (38, 9, 4096), (29, 9, 4096), (21, 8, 2048), (16, 5, 256)]

/-- A leaf entry's attributes (R96). -/
def leafRo (e : Nat) : Bool := bitOf e 2
/-- Conflict-stamped page. -/
def leafChecked (e : Nat) : Bool := bitOf e 3
/-- Communication page. -/
def leafComm (e : Nat) : Bool := bitOf e 4
/-- Host page. -/
def leafHost (e : Nat) : Bool := bitOf e 5
/-- Domain-window page. -/
def leafWindow (e : Nat) : Bool := bitOf e 6

/-- The address field of an entry. -/
def entryAddr (e : Nat) : Nat := fld e 8 48 * 256

/-- R369, codes 8 to 12, for a leaf at a level whose page has `2 ^ sh` bytes. -/
def leafMalformed (e sh : Nat) : Bool :=
  let a := entryAddr e
  a % 2 ^ sh != 0 ||
  (leafChecked e && leafComm e) || (leafHost e && leafWindow e) || (leafChecked e && (leafHost e || leafWindow e)) ||
  (if leafWindow e then a != 0
   else if leafHost e then !bitOf a 55
   else if a + 2 ^ sh ≤ hbmTop then false
   else if regBase ≤ a && a + 2 ^ sh ≤ regTop then leafChecked e || leafComm e
   else true)

/-- R369, codes 8 to 12, for any valid entry at a level. -/
def malformed (e lvl sh nextSize : Nat) : Bool :=
  fld e 56 8 != 0 || bitOf e 7 ||
  (if bitOf e 1 then decide (lvl < 2) || leafMalformed e sh
   else fld e 2 5 != 0 || lvl == 4 || entryAddr e % nextSize != 0)

/-- A translation: the physical address of the byte, the leaf and the page's size in address bits.
A window page has physical address 0: its target translates the access (R98). -/
structure Xlat where
  pa   : Nat
  leaf : Nat
  bits : Nat
  deriving DecidableEq, Repr

/-- The translation a leaf gives. -/
def xlatOf (e sh va : Nat) : Xlat :=
  { pa := if leafWindow e then 0 else entryAddr e + va % 2 ^ sh, leaf := e, bits := sh }

/-- The walk from one level down; the entries are read at their homes (R100), and a poisoned
one raises 0x60 (R400). A table that `TTROOT` or a non-leaf entry places outside HBM is read from the same bytes at once, which
R100 leaves open (log entry 65). -/
def walkLevels (s : State) (va : Nat) : List (Nat × Nat × Nat) → Nat → Nat → Except (Nat × Nat) Xlat
  | [], _, _ => .error (0x20, 12)
  | (sh, nb, _) :: rest, lvl, table =>
    let a := table + 8 * fld va sh nb
    let e := s.rdNat a 8
    if (wordCode s a 8).isSome then .error (0x60, (wordCode s a 8).getD 0)
    else if !bitOf e 0 then .error (0x20, lvl)
    else if malformed e lvl sh ((rest.map fun x => x.2.2).headD 1) then .error (0x20, 8 + lvl)
    else if bitOf e 1 then
      if !leafWindow e && !leafHost e && mapsStampStore s (entryAddr e) (2 ^ sh) then .error (0x21, 6)
      else .ok (xlatOf e sh va)
    else walkLevels s va rest (lvl + 1) (entryAddr e)

/-- R101: translation is in force in the context. -/
def xlatEnabled (s : State) (c : Nat) : Bool := bitOf (s.creg c oTTROOT) 0

/-- R95, R101: the walk of a context's tables for a 56-bit virtual address; on failure, cause and code. -/
def walk (s : State) (c va : Nat) : Except (Nat × Nat) Xlat :=
  if !xlatEnabled s c then .error (0x20, 0)
  else walkLevels s (va % 2 ^ 56) pageLevels 0 (fld (s.creg c oTTROOT) 12 44 * 4096)

/-! ### The TLBs of a mill and of its die (R100, R102, R370) -/

/-- The translation of an address that a mill's L1 TLB holds, or a die's L2 TLB. -/
def tlbFind (s : State) (mill : Option Nat) (die c va : Nat) : Option TlbEntry :=
  s.tlb.find? fun e => e.mill == mill && e.die == die && e.ctx == c && e.va.toNat / 2 ^ e.bits == va % 2 ^ 56 / 2 ^ e.bits

/-- The translation a mill finds: its own, else its die's. -/
def tlbHeld (s : State) (mill c va : Nat) : Option TlbEntry :=
  match tlbFind s (some mill) (dieOf mill) c va with
  | some e => some e
  | none => tlbFind s none (dieOf mill) c va

/-- R100: the translation an access of a mill uses: the one held, else the walk's. -/
def translate (s : State) (mill c va : Nat) : Except (Nat × Nat) Xlat :=
  if !xlatEnabled s c then .error (0x20, 0)
  else match tlbHeld s mill c va with
    | some e => .ok (xlatOf e.leaf.toNat e.bits (va % 2 ^ 56))
    | none => walk s c va

/-- R416: the translations that a mill's L1 TLB and a die's L2 TLB hold. -/
def tlbEntries (mill : Option Nat) : Nat := if mill.isSome then 512 else 16384

/-- R416: a TLB has room for a translation; a full one takes none until it gives one up (log entry 9). -/
def tlbRoom (s : State) (mill : Option Nat) (die : Nat) : Bool :=
  decide ((s.tlb.filter fun e => e.mill == mill && e.die == die).length < tlbEntries mill)

/-- R370: a die holds the translation of an address, where its walk succeeds and there is room. -/
def walkFill (s : State) (die c va : Nat) : State :=
  match tlbFind s none die c va with
  | some _ => s
  | none =>
    match walk s c va with
    | .error _ => s
    | .ok x =>
      let e : TlbEntry := { mill := none, die := die, ctx := c, va := BitVec.ofNat 64 (va % 2 ^ 56 / 2 ^ x.bits * 2 ^ x.bits), bits := x.bits,
                            leaf := BitVec.ofNat 64 x.leaf }
      if tlbRoom s none die then { s with tlb := s.tlb ++ [e] } else s

/-- R100, R370, R416: a mill and its die hold the translation of an address, where there is one and room for it. -/
def tlbFill (s : State) (mill c va : Nat) : State :=
  match tlbFind s (some mill) (dieOf mill) c va with
  | some _ => s
  | none =>
    let s1 := walkFill s (dieOf mill) c va
    match tlbFind s1 none (dieOf mill) c va with
    | none => s1
    | some e => if tlbRoom s1 (some mill) (dieOf mill) then { s1 with tlb := s1.tlb ++ [{ e with mill := some mill }] } else s1

/-- Translations of a page dropped from a TLB. -/
def tlbDrop (s : State) (mill : Option Nat) (die c page : Nat) : State :=
  { s with tlb := s.tlb.filter fun e => !(e.mill == mill && e.die == die && e.ctx == c && e.va.toNat / 65536 == page) }

/-! ### Protection (R97, R123, R369) -/

/-- What an access does to a page. -/
inductive Use where
  | load | store | atomic | mxload | mxstore | leatLoad | leatStore | fetch | watch | far | farWrite | prefetch | cacheOp
  deriving DecidableEq, Repr

/-- The use writes. -/
def Use.writes : Use → Bool
  | .store | .atomic | .mxstore | .leatStore | .farWrite => true
  | _ => false

/-- The use is a far access, which alone reaches window pages. -/
def Use.isFar : Use → Bool
  | .far | .farWrite => true
  | _ => false

/-- R369, R416: the code of the first protection check that fails. -/
def protectCode (s : State) (u : Use) (ordered det : Bool) (x : Xlat) : Option Nat :=
  let e := x.leaf
  if u == .fetch && (leafComm e || leafHost e || leafWindow e) then some 2
  else if u == .watch && (leafHost e || leafWindow e) then some 3
  else if leafWindow e != u.isFar then some 5
  else if det && leafComm e then some 4
  else if ordered && !leafComm e then some 1
  else if u.writes && leafRo e then some 0
  else if u.isFar then none
  else if inRegs x.pa && !(u == .load || u == .store || u == .cacheOp || u == .prefetch) then some 9
  else if leafChecked e && !covered s x.pa then some 6
  else none

/-- Translation, then protection, of one address. -/
def reach (s : State) (mill c : Nat) (u : Use) (ordered det : Bool) (va : Nat) : Except (Nat × Nat) Xlat :=
  match translate s mill c va with
  | .error e => .error e
  | .ok x =>
    match protectCode s u ordered det x with
    | some k => .error (0x21, k)
    | none => .ok x

/-! ### Accesses the device makes for itself, translated in a context's tables -/

/-- A page the device reads or writes for itself: packets, tables, headers, counters, images. -/
def devReach (s : State) (c : Nat) (write : Bool) (va : Nat) : Except (Nat × Nat) Nat :=
  match walk s c va with
  | .error e => .error e
  | .ok x =>
    if leafWindow x.leaf then .error (0x21, 5)
    else if write && leafRo x.leaf then .error (0x21, 0)
    else if inRegs x.pa then .error (0x21, 9)
    else if leafChecked x.leaf && !covered s x.pa then .error (0x21, 6)
    else match (if inHost x.pa then s.hostFails else none) with
      | some k => .error (0x28, k)
      | none => .ok x.pa

/-- R400: the same for a read or an atomic of some bytes, none of them poisoned. -/
def devGet (s : State) (c : Nat) (write : Bool) (va n : Nat) : Except (Nat × Nat) Nat :=
  match devReach s c write va with
  | .error e => .error e
  | .ok pa => match wordCode s pa n with | some k => .error (0x60, k) | none => .ok pa

/-- The first address of each 64 KiB page a stretch touches. -/
def pagesOf (va n : Nat) : List Nat :=
  va :: ((List.range ((va + n - 1) / 65536 - va / 65536)).map fun i => (va / 65536 + 1 + i) * 65536)

/-- Bytes read at their homes through a context's tables; a byte that does not translate reads 0. -/
def devRead (s : State) (c va n : Nat) : List Byte :=
  (span va n).map fun a => match devReach s c false a with | .ok pa => s.rd pa | .error _ => 0

/-- A number read at its home through a context's tables. -/
def devNat (s : State) (c va n : Nat) : Nat := leNat (devRead s c va n)

end Sys2Proof.Machine
end

