-- ==== Sys2Proof/Machine/Sluice.lean ====
section
/-! DEFINITION. Writes at a home slice: recall, the bytes, poison, and the sluice that compares them and
opens trigger records; the fault ring, and the freezing of queues (R284, R285, R309, R330, R331, R346 to R348, R391 to
R393, R400). -/

namespace Sys2Proof.Machine

/-! ### Writes and poison (R400) -/

/-- A plain write of every byte of a poisoned unit clears it; the unit of an L2 tag is its line (log entry 35). -/
def clearPoison (s : State) (written : List Nat) : State :=
  { s with
    poison := s.poison.filter fun u => !((span (u / 64) (u % 64)).all fun a => written.contains a)
    errs := s.errs.filter fun x => match x with
      | .tag line => !((span (64 * line) 64).all fun a => written.contains a)
      | _ => true }

/-! ### Writing a record (R346, R347) -/

/-- Bytes written by the device itself at their homes, compared by no sluice (log entry 15); `rc` recalls the host's copy
of a line first. -/
def rawWriteBy (rc : State → Nat → State) (s : State) (pa : Nat) (bs : List Byte) : State :=
  let s1 := (nub ((span pa bs.length).map lineOf)).foldl rc s
  clearPoison (s1.wrAll (List.zip (span pa bs.length) bs)) (span pa bs.length)

/-- R346: a record of class 1 to 3 is written to the ring entry at the tail, or counted lost. -/
def ringWriteBy (rc : State → Nat → State) (s : State) (c : Nat) (ws : List W64) : State :=
  let size := fld (s.creg c oFQCTL) 0 16
  let head := fld (s.creg c oFQHEAD) 0 32
  let tail := fld (s.creg c oFQTAIL) 0 32
  let lost := fld (s.creg c oFQTAIL) 32 32
  let pa := fld (s.creg c oFQBASE) 7 49 * 128 + 128 * tail
  if (tail + 1) % (size + 1) == head % (size + 1) || !(inHbm pa || inHost pa) then
    s.onCtx c fun x => x.setReg oFQTAIL (BitVec.ofNat 64 ((lost + 1) % 2 ^ 32 * 2 ^ 32 + tail))
  else
    let s1 := rawWriteBy rc s pa (wordBytes ws)
    let s2 := s1.onCtx c fun x => x.setReg oFQTAIL (BitVec.ofNat 64 (lost * 2 ^ 32 + (tail + 1) % (size + 1)))
    if bitOf (s.creg c oFQCTL) 16 then { s2 with felmirOut := s2.felmirOut ++ [.faultSignal c] } else s2

/-- A record formed, numbered, written to the ring, its master named. -/
def emitRecordBy (rc : State → Nat → State) (s : State) (r : Rec) (m : Master) : State :=
  let q := takeSeq s r.ctx
  nameMaster (ringWriteBy rc q.2 r.ctx (r.words q.1 (s.rankOf r.ctx))) r.ctx q.1 m

/-! ### Trigger records -/

/-- Two storers have one key (R285). -/
def sameStorer : Storer → Storer → Bool
  | .block b1 _ _ _ _ _, .block b2 _ _ _ _ _ => b1 == b2
  | .remote r1 k1 b1 _ _, .remote r2 k2 b2 _ _ => r1 == r2 && k1 == k2 && b1 == b2
  | .host, .host => true
  | _, _ => false

/-- R285: the storer's depth. -/
def storerDepth : Storer → Nat
  | .block _ _ d _ _ _ => d
  | .remote _ _ _ d _ => d
  | .host => 0

/-- A watch-table entry changed. -/
def State.onWatch (s : State) (idx : Nat) (f : Watch → Watch) : State :=
  { s with watches := updIf (·.idx == idx) f s.watches }

/-- A watch-table entry by its index. -/
def State.watch? (s : State) (idx : Nat) : Option Watch := s.watches.find? (·.idx == idx)

/-- A performance counter of a group raised (R294); counters are numbered from `$pcis`. -/
def bumpCtr (s : State) (bid gid k n : Nat) : State :=
  s.onGroup bid gid fun g => { g with ctr := sset 0 g.ctr k (sget 0 g.ctr k + BitVec.ofNat 64 n) }

/-- `$pctrig` counts the records a group's writes open. -/
def countTrig (s : State) : Storer → State
  | .block bid _ _ _ gid _ => bumpCtr s bid gid 7 1
  | _ => s

/-- R393: what a runaway's record says of a storer block of this device, kept with the trigger record. -/
def storerTag (s : State) : Storer → Option StorerTag
  | .block bid _ _ _ _ _ =>
    (s.block? bid).map fun b =>
      let r := Rec.ofBlock s b (Rec.bare b.ctx 3 1 0 0)
      { blk := r.blk, kernel := r.kernel, trigger := r.trigger, queue := r.queue, launch := r.launch }
  | _ => none

/-- Words 1 and 2 of a runaway's record name the storer block of this device (R393). -/
def Rec.ofTag (r : Rec) : Option StorerTag → Rec
  | some t => { r with blk := t.blk, kernel := t.kernel, trigger := t.trigger, queue := t.queue, launch := t.launch }
  | none => r

/-- R391: the cause for which a record is a runaway, and the record's code. -/
def runawayOf (s : State) (w : Watch) (t : TrigRec) : Option (Nat × Nat) :=
  if w.depth < t.depth then some (0x40, t.depth)
  else if w.budget ≤ (if w.window == s.gtime.toNat / 1000000 then w.entered else 0) then some (0x41, w.budget)
  else if 4096 ≤ (s.ctx w.ctx).trig.length then some (0x42, 4096)
  else none

/-- R392, R393: a runaway suspends its watch and writes its record. -/
def suspendWatchBy (rc : State → Nat → State) (s : State) (w : Watch) (t : TrigRec) (cause code : Nat) : State :=
  let s1 := s.onWatch w.idx fun x => { x with susp := true, held := some t }
  emitRecordBy rc s1 (Rec.ofTag { Rec.bare w.ctx 3 1 cause s.gtime with
    die := t.die, operand := 7, addr := t.region, detail := t.wid, code := BitVec.ofNat 32 code } t.tag) (.watch w.idx)

/-- A record enters the trigger queue, or is a runaway. -/
def offerRecordBy (rc : State → Nat → State) (s : State) (w : Watch) (t : TrigRec) : State :=
  match runawayOf s w t with
  | some (cause, code) => suspendWatchBy rc s w t cause code
  | none =>
    let ms := s.gtime.toNat / 1000000
    let s1 := s.onWatch w.idx fun x =>
      { x with window := ms, entered := (if x.window == ms then x.entered else 0) + 1 }
    s1.onCtx w.ctx fun c => { c with trig := c.trig ++ [t] }

/-- The sectors of a 4 KiB region in ascending order, two sets joined. -/
def joinSectors (xs ys : List Nat) : List Nat := (List.range 256).filter fun i => xs.contains i || ys.contains i

/-- R283, R297: the watch is armed at the slice that homes a line. -/
def Watch.armedAt (w : Watch) (line : Nat) : Bool :=
  if w.armed then w.gone.isEmpty || !w.gone.contains (homeSlice line) else !w.live.isEmpty && w.live.contains (homeSlice line)

/-- R284: the watch compares a write that changed the sectors of one line. -/
def compareWatchBy (rc : State → Nat → State) (w0 : Watch) (from? : Option Nat) (line : Nat) (ch : List Nat) (st : Storer) (s : State) : State :=
  match s.watch? w0.idx with
  | none => s
  | some w =>
    if !w.armedAt line || w.susp || (match from? with | some c => c != w.ctx | none => false) then s
    else
      match w.pages.find? (·.1 == line / 64) with
      | none => s
      | some (pg, va) =>
        let lva := va.toNat + line % 64 * 64
        if lva < w.base.toNat || w.base.toNat + 2 ^ w.lg ≤ lva then s
        else
          let secs := ch.map (· % 256)
          let mine := fun (t : TrigRec) => t.widx == w.idx && t.wid == w.wid && t.page == pg && sameStorer t.storer st
          if (s.ctx w.ctx).trig.any mine then
            s.onCtx w.ctx fun c => { c with trig := updIf mine (fun t => { t with sectors := joinSectors t.sectors secs }) c.trig }
          else
            countTrig (offerRecordBy rc s w
              { widx := w.idx, wid := w.wid, ctx := w.ctx, region := va, page := pg, sectors := joinSectors [] secs,
                storer := st, depth := storerDepth st + 1, die := (homeDie (line * 64)).getD 0, kernel := w.kernel,
                arg := w.arg, tag := storerTag s st }) st

/-! ### The write at its home -/

/-- The sectors of a line in which a byte's new value differs from its old one (R331). -/
def changedSectors (s : State) (bytes : List (Nat × Byte)) : List Nat :=
  nub ((bytes.filter fun p => s.rd p.1 != p.2).map fun p => sectorOf p.1)

/-- The bytes of one line written and compared. -/
def compareLineBy (rc : State → Nat → State) (s : State) (from? : Option Nat) (st : Storer) (line : Nat) (bytes : List (Nat × Byte)) : State :=
  let ch := changedSectors s bytes
  let s1 := clearPoison (s.wrAll bytes) (bytes.map (·.1))
  if ch.isEmpty then s1
  else s1.watches.foldl (fun acc w => compareWatchBy rc w from? line ch st acc) s1

/-- R309: what the host has written in its copy of a line comes home, compared as the host's store, and its copy is
recalled. A record that the comparison writes may meet another copy of the host's; each such step within the next
suspends a watch, so `n` above the number of watches reaches the last. -/
def bringBackIn : Nat → State → Nat → State
  | 0, s, line => recallLine s line
  | n + 1, s, line =>
    if s.hostCopies.contains line then recallLine (compareLineBy (bringBackIn n) s none .host line (hostBytes s line)) line else s

/-- R309: the host's copy of a line brought back to its home and recalled. -/
def bringBack (s : State) (line : Nat) : State := bringBackIn (s.watches.length + 1) s line

/-- The bytes of one line written and compared. -/
def compareLine (s : State) (from? : Option Nat) (st : Storer) (line : Nat) (bytes : List (Nat × Byte)) : State :=
  compareLineBy bringBack s from? st line bytes

/-- R14, R284, R330: one write of bytes of one line at the line's home. `from?` is the writer's context,
none for the host. -/
def homeLine (s : State) (from? : Option Nat) (st : Storer) (line : Nat) (bytes : List (Nat × Byte)) : State :=
  compareLine (bringBack s line) from? st line bytes

/-- Bytes written at their homes, each line as one write. -/
def homeWrite (s : State) (from? : Option Nat) (st : Storer) (bytes : List (Nat × Byte)) : State :=
  (nub (bytes.map fun p => lineOf p.1)).foldl
    (fun acc ln => homeLine acc from? st ln (bytes.filter fun p => lineOf p.1 == ln)) s

/-- An atomic add at a counter's home (R49, R292, R321). -/
def homeAdd64 (s : State) (from? : Option Nat) (st : Storer) (pa : Nat) (x : W64) : State :=
  let s1 := bringBack s (lineOf pa)
  homeWrite s1 from? st (bytesAt pa 8 ((s1.rdNat pa 8 + x.toNat) % 2 ^ 64))

/-! ### Records, and the freezing of queues (R346 to R348) -/

/-- Bytes written by the device itself at their homes, compared by no sluice; the host's copies come back first (R309;
log entry 15). -/
def rawWrite (s : State) (pa : Nat) (bs : List Byte) : State := rawWriteBy bringBack s pa bs

/-- R346: a record of class 1 to 3 is written to the ring entry at the tail, or counted lost. -/
def ringWrite (s : State) (c : Nat) (ws : List W64) : State := ringWriteBy bringBack s c ws

/-- A record formed, numbered, written to the ring, its master named. -/
def emitRecord (s : State) (r : Rec) (m : Master) : State := emitRecordBy bringBack s r m

/-- A record enters the trigger queue, or is a runaway. -/
def offerRecord (s : State) (w : Watch) (t : TrigRec) : State := offerRecordBy bringBack s w t

/-- An entry record numbered, written and named. -/
def emitEntry (s : State) (r : Rec) (master : Nat) (entry : List W64) (m : Master) : State :=
  let q := takeSeq s r.ctx
  nameMaster (ringWrite q.2 r.ctx (entryWords r master q.1 (s.rankOf r.ctx) entry)) r.ctx q.1 m

/-- R348: a launch queue freezes; the first freeze writes one entry record. -/
def freezeLaunchQueue (s : State) (q : Nat) (why : QStop) (r : Rec) (packet : List W64) : State :=
  match ((s.ctx r.ctx).queue q).frozen with
  | some _ => s
  | none =>
    let s1 := s.onCtx r.ctx fun x => x.setQueue q { x.queue q with frozen := some why }
    emitEntry s1 r 6 packet (.queue q)

/-- R348: the trigger queue freezes; the first freeze writes one entry record. -/
def freezeTrigQueue (s : State) (why : TStop) (r : Rec) (t : TrigRec) : State :=
  if (s.ctx r.ctx).trigStop.isSome then s
  else emitEntry (s.onCtx r.ctx fun x => { x with trigStop := some why }) r 7 (trigEntry t) .trigger

/-- R348: the queue from which a faulting block's work was taken freezes. -/
def freezeQueueOf (s : State) (b : Block) (r : Rec) : State :=
  match b.trig with
  | some t => freezeTrigQueue s (.block b.bid) r t
  | none =>
    match b.launch with
    | none => s
    | some lid =>
      match s.launch? lid with
      | none => s
      | some l => freezeLaunchQueue s l.queue (.block lid) r l.packet

end Sys2Proof.Machine
end

