-- ==== Sys2Proof/Machine/Cache.lean ====
section
/-! DEFINITION. The L1 of a mill and the remote-data cache of a die: which bytes they hold, how loads are
served, how stores are held or written through, releases, acquires and evictions (R105, R110 to R113, R251). -/

namespace Sys2Proof.Machine

/-- The scopes in order, narrowest 0 (R6). -/
def scopeNum : Scope → Nat
  | .group => 0 | .block => 1 | .mill => 2 | .die => 3 | .device => 4 | .domain => 5 | .system => 6

/-- Die scope or wider. -/
def wideScope (x : Scope) : Bool := decide (3 ≤ scopeNum x)

/-! ### Private regions (R103, R105) -/

/-- R103: the bytes of a block's private region. -/
def Block.privSize (b : Block) : Nat := b.groups.length * b.width * b.kernel.priv

/-- R105: a block's private region reaches into a physical line. -/
def Block.ownsLine (s : State) (b : Block) (line : Nat) : Bool :=
  !b.ended && decide (0 < b.privSize) && (pagesOf b.priv.toNat b.privSize).any fun p =>
    match walk s b.ctx p with
    | .error _ => false
    | .ok x => decide (64 * line < x.pa + (min (b.priv.toNat + b.privSize) ((p / 65536 + 1) * 65536) - p)) && decide (x.pa < 64 * line + 64)

/-- R105: the block in whose private region a line lies, whatever access brings it into an L1. -/
def privLine (s : State) (line : Nat) : Option Nat := (s.blocks.find? fun b => b.ownsLine s line).map (·.bid)

/-! ### Capacities (R11, R16) -/

/-- The lines of a 256 KiB L1. -/
def l1Lines : Nat := 4096
/-- The lines of a 16 MiB RDC. -/
def rdcLines : Nat := 262144
/-- The clause lines of a mill's 128 KiB instruction cache, or the 16 clauses of a stone's loop buffer. -/
def codeLines (stone : Option Nat) : Nat := if stone.isNone then 2048 else 16

/-! ### Lines held -/

/-- The L1 line a mill holds. -/
def l1Find (s : State) (mill line : Nat) : Option L1Line := s.l1.find? fun x => x.mill == mill && x.line == line

/-- The RDC line a die holds. -/
def rdcFind (s : State) (die line : Nat) : Option RdcLine := s.rdc.find? fun x => x.die == die && x.line == line

/-- A mill's L1 has room, beside the lines it holds, for those of some lines that it lacks, all together. -/
def l1Room (s : State) (mill : Nat) (lines : List Nat) : Bool :=
  let new := (nub lines).filter fun ln => (l1Find s mill ln).isNone
  new.isEmpty || decide ((s.l1.filter fun x => x.mill == mill).length + new.length ≤ l1Lines)

/-- A die's RDC has room, beside the lines it holds, for those of some lines that it lacks, all together. -/
def rdcRoom (s : State) (die : Nat) (lines : List Nat) : Bool :=
  let new := (nub lines).filter fun ln => (rdcFind s die ln).isNone
  new.isEmpty || decide ((s.rdc.filter fun x => x.die == die).length + new.length ≤ rdcLines)

/-- A line is a mill's copy in its instruction cache, or in the loop buffer of a stone. -/
def ILine.isAt (x : ILine) (mill : Nat) (stone : Option Nat) (line : Nat) : Bool :=
  x.mill == mill && x.stone == stone && x.line == line

/-- The copy that a mill's instruction cache, or the loop buffer of a stone, holds of a line. -/
def codeFind (s : State) (mill : Nat) (stone : Option Nat) (line : Nat) : Option ILine :=
  s.icache.find? fun x => x.isAt mill stone line

/-- R11: a mill's instruction cache, or a stone's loop buffer, holds the line, or has room for it. -/
def codeRoom (s : State) (mill : Nat) (stone : Option Nat) (line : Nat) : Bool :=
  (codeFind s mill stone line).isSome ||
    decide ((s.icache.filter fun x => x.mill == mill && x.stone == stone).length < codeLines stone)

/-- R11: a mill's instruction cache, or a stone's loop buffer, replaces a clause line that it holds (log entry 9). -/
def forgetCode (s : State) (mill : Nat) (stone : Option Nat) (line : Nat) : State :=
  { s with icache := s.icache.filter fun x => !x.isAt mill stone line }

/-- A line's words held by a mill's instruction cache, or by a stone's loop buffer. -/
def codePut (s : State) (mill : Nat) (stone : Option Nat) (line : Nat) (words : List W64) : State :=
  { forgetCode s mill stone line with
    icache := (forgetCode s mill stone line).icache ++ [{ mill := mill, stone := stone, line := line, words := words }] }

/-- An L1 line written back into the list, in place of the mill's copy of that line. -/
def l1Put (s : State) (x : L1Line) : State :=
  { s with l1 := (s.l1.filter fun y => !(y.mill == x.mill && y.line == x.line)) ++ [x] }

/-- An RDC line written back into the list. -/
def rdcPut (s : State) (x : RdcLine) : State :=
  { s with rdc := (s.rdc.filter fun y => !(y.die == x.die && y.line == x.line)) ++ [x] }

/-- A byte held by an L1 line. -/
def L1Line.cell (x : L1Line) (a : Nat) : Option Byte := sget none x.cells (a % 64)

/-- A byte is dirty in an L1 line. -/
def L1Line.isDirty (x : L1Line) (a : Nat) : Bool := x.dirty.any (·.1 == a % 64)

/-- Bytes placed in an L1 line, clean, where they are not dirty. -/
def L1Line.refresh (x : L1Line) (bytes : List (Nat × Byte)) : L1Line :=
  let new := (bytes.filter fun p => !x.isDirty p.1).map fun p => (p.1 % 64, some p.2)
  { x with cells := ssetAll none x.cells new }

/-- Bytes placed in an RDC line. -/
def RdcLine.refresh (x : RdcLine) (bytes : List (Nat × Byte)) : RdcLine :=
  { x with cells := ssetAll none x.cells (bytes.map fun p => (p.1 % 64, some p.2)) }

/-- R113: the RDC updates its own copy of bytes written or read at the home. -/
def rdcUpdate (s : State) (die line : Nat) (bytes : List (Nat × Byte)) : State :=
  match rdcFind s die line with
  | none => s
  | some x => rdcPut s (x.refresh bytes)

/-- The line is homed on another die than `die` (R113). -/
def remoteHome (die line : Nat) : Bool :=
  match homeDie (line * 64) with
  | some d => d != die
  | none => false

/-- The caches have room for the lines that a load or a held store of a scope brings in. -/
def cacheRoom (s : State) (mill : Nat) (sc : Scope) (lines : List Nat) : Bool :=
  (decide (2 < scopeNum sc) || l1Room s mill lines) &&
    (decide (3 < scopeNum sc) || rdcRoom s (dieOf mill) (lines.filter fun ln => remoteHome (dieOf mill) ln))

/-! ### Loads (R251) -/

/-- The level that serves bytes of a line, from the level offered downward: 0 L1, 1 RDC, 2 home. -/
def servedAt (s : State) (mill level : Nat) (as : List Nat) : Nat :=
  let line := lineOf (as.headD 0)
  let inL1 := match l1Find s mill line with
    | some x => as.all fun a => (x.cell a).isSome
    | none => false
  let inRdc := remoteHome (dieOf mill) line && (match rdcFind s (dieOf mill) line with
    | some x => as.all fun a => (sget none x.cells (a % 64)).isSome
    | none => false)
  if level == 0 && inL1 then 0 else if level ≤ 1 && inRdc then 1 else 2

/-- A byte as a level holds it; bytes dirty in the L1 come from there at every level. -/
def byteAt (s : State) (mill served a : Nat) : Byte :=
  let below := if served == 1 then
      (match rdcFind s (dieOf mill) (lineOf a) with
       | some x => (sget none x.cells (a % 64)).getD (s.rd a)
       | none => s.rd a)
    else s.rd a
  match l1Find s mill (lineOf a) with
  | none => below
  | some x => if x.isDirty a || served == 0 then (x.cell a).getD below else below

/-- The widest level a load of a scope may be served from: 0 up to mill, 1 at die, 2 beyond. -/
def levelOf (sc : Scope) : Nat := if scopeNum sc ≤ 2 then 0 else if scopeNum sc == 3 then 1 else 2

/-- A line with nothing in it yet. -/
def L1Line.empty (mill line : Nat) (tag : Scope) (priv : Option Nat) (ctx : Nat) : L1Line :=
  { mill := mill, line := line, cells := [], dirty := [], tag := tag, priv := priv, ctx := ctx, mates := [] }

/-- R105: a line that the L1 holds is a block's private line. -/
def claimLine (s : State) (mill line bid : Nat) : State :=
  match l1Find s mill line with
  | some x => if x.priv.isNone then l1Put s { x with priv := some bid } else s
  | none => s

/-- R251: what a load leaves in the caches: the bytes it takes from below refresh copies that are present, and a load of
mill scope or narrower brings its line into the L1, one of die scope or narrower into the RDC. -/
def fillCaches (s0 : State) (mill : Nat) (sc : Scope) (served : Nat) (priv : Option Nat) (ctx : Nat) (as : List Nat) : State :=
  let line := lineOf (as.headD 0)
  let s := match priv with | some bid => claimLine s0 mill line bid | none => s0
  let got := as.map fun a => (a, byteAt s mill served a)
  let whole := (span (line * 64) 64).map fun a => (a, byteAt s mill served a)
  let s1 := if served == 0 then s else
    match l1Find s mill line with
    | some x => l1Put s (x.refresh got)
    | none =>
      if scopeNum sc ≤ 2 then
        l1Put s (L1Line.refresh (L1Line.empty mill line .group (priv.or (privLine s line)) ctx) whole)
      else s
  if served == 2 && remoteHome (dieOf mill) line then
    let home := fun (as : List Nat) => as.map fun a => (a, s.rd a)
    match rdcFind s1 (dieOf mill) line with
    | some x => rdcPut s1 (x.refresh (home (if scopeNum sc ≤ 2 && (l1Find s mill line).isNone then span (line * 64) 64 else as)))
    | none =>
      if scopeNum sc ≤ 3 then
        rdcPut s1 (RdcLine.refresh { die := dieOf mill, line := line, cells := [] } (home (span (line * 64) 64)))
      else s1
  else s1

/-- R400: an L1 holds a byte of a 64-bit word. -/
def l1Has (s : State) (mill a : Nat) : Bool :=
  match l1Find s mill (lineOf a) with | some x => (span a 8).any fun b => (x.cell b).isSome | none => false

/-- R400: the L1 words in error that their L1 holds no longer. -/
def l1Left (s : State) : List Nat :=
  s.errs.filterMap fun x => match x with | .l1 m a => if l1Has s m a then none else some a | _ => none

/-- R400: a struck L1 word that has left its L1 is poisoned at its home. -/
def pruneL1 (s : State) : State :=
  { s with
    poison := s.poison ++ (nub ((l1Left s).map fun a => poisonUnit a 8)).filter fun u => !s.poison.contains u
    errs := s.errs.filter fun x => match x with | .l1 m a => l1Has s m a | _ => true }

/-- R114: before a block's first read of some sectors in an epoch, the clean bytes that the mill's L1 and its die's RDC
hold of them go, so that the read reaches the home. -/
def forgetSectors (s : State) (mill : Nat) (secs : List Nat) : State :=
  pruneL1 { s with
    l1 := (s.l1.map fun x => if x.mill == mill then
        { x with cells := x.cells.filter fun c => x.isDirty c.1 || !secs.contains (sectorOf (64 * x.line + c.1)) } else x).filter
      fun x => !x.cells.isEmpty
    rdc := (s.rdc.map fun x => if x.die == dieOf mill then
        { x with cells := x.cells.filter fun c => !secs.contains (sectorOf (64 * x.line + c.1)) } else x).filter
      fun x => !x.cells.isEmpty }

/-! ### Uncorrectable errors in dirty L1 words (R400) -/

/-- The dirty 64-bit word that holds an address carries an error. -/
def l1Broken (s : State) (mill a : Nat) : Bool := s.errs.contains (.l1 mill (a / 8 * 8))

/-- A store of every byte of such a word clears its error. -/
def healL1 (s : State) (mill : Nat) (written : List Nat) : State :=
  { s with errs := s.errs.filter fun x => match x with
      | .l1 m a => !(m == mill && (span a 8).all fun b => written.contains b)
      | _ => true }

/-- A written-back word carries its error to the home as poison. -/
def poisonBack (s : State) (mill : Nat) (written : List Nat) : State :=
  let bad := nub ((written.map fun a => a / 8 * 8).filter fun a => l1Broken s mill a)
  { s with poison := s.poison ++ bad.map (fun a => poisonUnit a 8), errs := s.errs.filter fun x => match x with
      | .l1 m a => !(m == mill && bad.contains a)
      | _ => true }

/-! ### Stores (R110) -/

/-- A store held in the L1: its bytes dirty, the line's tag at its scope; `mates` are the other lines of an MX unit
(R146). -/
def storeL1 (s : State) (mill ctx : Nat) (sc : Scope) (priv : Option Nat) (st : Storer) (line : Nat)
    (bytes : List (Nat × Byte)) (mates : List Nat) : State :=
  let x := (l1Find s mill line).getD (L1Line.empty mill line sc (priv.or (privLine s line)) ctx)
  let offs := nub (bytes.map fun p => p.1 % 64)
  l1Put (healL1 s mill (bytes.map (·.1))) { x with
    cells := ssetAll none x.cells (bytes.map fun p => (p.1 % 64, some p.2))
    dirty := (x.dirty.filter fun d => !offs.contains d.1) ++ offs.map fun o => (o, st)
    tag := sc
    priv := x.priv.or priv
    ctx := ctx
    mates := nub (x.mates ++ mates) }

/-- A store written through to its home: the written bytes of the L1 are left clean, the die's RDC copy is
updated. -/
def storeThrough (s : State) (mill ctx : Nat) (st : Storer) (line : Nat) (bytes : List (Nat × Byte)) : State :=
  let offs := bytes.map fun p => p.1 % 64
  let s1 := homeLine (healL1 s mill (bytes.map (·.1))) (some ctx) st line bytes
  let s2 := rdcUpdate s1 (dieOf mill) line bytes
  match l1Find s2 mill line with
  | none => s2
  | some x =>
    let y := { x with dirty := x.dirty.filter fun d => !offs.contains d.1 }
    l1Put s2 (y.refresh bytes)

/-! ### Write-backs -/

/-- The dirty bytes of a line that satisfy `p`, with their storers. -/
def L1Line.dirtyBytes (x : L1Line) (p : Nat → Bool) : List (Nat × Byte × Storer) :=
  (x.dirty.filter fun d => p (x.line * 64 + d.1)).map fun d => (x.line * 64 + d.1, (sget none x.cells d.1).getD 0, d.2)

/-- R110: dirty bytes of a line that satisfy `p` written back to the home and left clean, one write for
each storer; private lines are compared by no sluice (R105). -/
def writeBackOne (s : State) (x : L1Line) (p : Nat → Bool) : State :=
  let ds := x.dirtyBytes p
  let bytesOf := fun (st : Storer) => (ds.filter fun d => d.2.2 == st).map fun d => (d.1, d.2.1)
  let s1 := if x.priv.isSome then clearPoison (s.wrAll (ds.map fun d => (d.1, d.2.1))) (ds.map (·.1))
    else (nub (ds.map fun d => d.2.2)).foldl (fun acc st => homeLine acc (some x.ctx) st x.line (bytesOf st)) s
  let s2 := rdcUpdate s1 (dieOf x.mill) x.line (ds.map fun d => (d.1, d.2.1))
  let left := x.dirty.filter fun d => !p (x.line * 64 + d.1)
  if ds.isEmpty then s
  else l1Put (poisonBack s2 x.mill (ds.map (·.1))) { x with dirty := left, mates := if left.isEmpty then [] else x.mates }

/-- The lines that MX units held in a mill's L1 tie to some lines, in at most `n` steps. -/
def mateLines (s : State) (mill : Nat) : Nat → List Nat → List Nat
  | 0, ls => ls
  | n + 1, ls =>
    let more := nub (ls ++ ls.flatMap fun ln => match l1Find s mill ln with | some x => x.mates | none => [])
    if more.length == ls.length then ls else mateLines s mill n more

/-- R110, R146: dirty bytes of a line that satisfy `p` written back, and with them every line that an MX unit ties to
it, so that no other mill sees a unit in part. -/
def writeBackIf (s : State) (x : L1Line) (p : Nat → Bool) : State :=
  if x.mates.isEmpty || (x.dirtyBytes p).isEmpty then writeBackOne s x p
  else (mateLines s x.mill s.l1.length [x.line]).foldl (fun acc ln =>
    match l1Find acc x.mill ln with | some y => writeBackOne acc y fun _ => true | none => acc) s

/-- Every dirty byte of a line written back. -/
def writeBack (s : State) (x : L1Line) : State := writeBackIf s x fun _ => true

/-- R111: the write-back of a release or fence at a scope. -/
def releaseAt (s : State) (mill : Nat) (sc : Scope) : State :=
  if !wideScope sc then s
  else (s.l1.filter fun x => x.mill == mill && x.priv.isNone && decide (scopeNum x.tag < scopeNum sc)).foldl writeBack s

/-- A line without its clean bytes. -/
def L1Line.dropClean (x : L1Line) : L1Line := { x with cells := x.cells.filter fun c => x.isDirty c.1 }

/-- R112: the invalidation of an acquire or fence at a scope. -/
def acquireAt (s : State) (mill : Nat) (sc : Scope) : State :=
  if !wideScope sc then s
  else pruneL1 { s with
    l1 := (s.l1.map fun x => if x.mill == mill && x.priv.isNone then x.dropClean else x).filter fun x => !x.cells.isEmpty
    rdc := s.rdc.filter fun x => x.die != dieOf mill }

/-- R254: the write-back of `CWB` for one line. -/
def cleanLine (s : State) (mill : Nat) (sc : Scope) (line : Nat) : State :=
  match l1Find s mill line with
  | none => s
  | some x => if wideScope sc && x.priv.isNone && decide (scopeNum x.tag < scopeNum sc) then writeBack s x else s

/-- R254: the invalidation of `CINV` for one line. -/
def dropLine (s : State) (mill : Nat) (sc : Scope) (line : Nat) : State :=
  if !wideScope sc then s
  else pruneL1 { s with
    l1 := (s.l1.map fun x => if x.mill == mill && x.line == line then x.dropClean else x).filter fun x => !x.cells.isEmpty
    rdc := s.rdc.filter fun x => !(x.die == dieOf mill && x.line == line) }

/-- R119, R258: dirty bytes of some sectors written back, then the L1's copy of those sectors dropped. -/
def flushSectors (s : State) (mill line : Nat) (secs : List Nat) : State :=
  match l1Find s mill line with
  | none => s
  | some x =>
    let hit := fun a => secs.contains (sectorOf a)
    let s1 := writeBackIf s x hit
    match l1Find s1 mill line with
    | none => s1
    | some y =>
      let z := { y with cells := y.cells.filter fun c => !hit (line * 64 + c.1) }
      pruneL1 (if z.cells.isEmpty then { s1 with l1 := s1.l1.filter fun u => !(u.mill == mill && u.line == line) } else l1Put s1 z)

/-- R119, R287: bytes written at their home past a mill's L1, whose sectors are written back first and dropped. -/
def writePast (s : State) (mill ctx : Nat) (st : Storer) (line : Nat) (bytes : List (Nat × Byte)) : State :=
  let s1 := flushSectors s mill line (nub (bytes.map fun p => sectorOf p.1))
  rdcUpdate (homeLine s1 (some ctx) st line bytes) (dieOf mill) line bytes

/-- R258: every RDC copy of a line dropped. -/
def dropRdc (s : State) (line : Nat) : State := { s with rdc := s.rdc.filter fun x => x.line != line }

/-- R105, R110: an L1 line written back and dropped. -/
def evictL1 (s : State) (x : L1Line) : State :=
  let s1 := writeBack s x
  pruneL1 { s1 with l1 := s1.l1.filter fun u => !(u.mill == x.mill && u.line == x.line) }

/-- R254: a prefetch brings a line into the L1, or at die scope or wider into the RDC only, without binding it; one that
finds no room is dropped (log entry 9). -/
def prefetchLine (s : State) (mill ctx : Nat) (sc : Scope) (pa : Nat) : State :=
  let line := lineOf pa
  let as := span (64 * line) 64
  if scopeNum sc ≤ 2 then
    let served := servedAt s mill 0 as
    if served == 0 || !cacheRoom s mill .mill [line] then s else fillCaches s mill .mill served none ctx as
  else if remoteHome (dieOf mill) line && rdcRoom s (dieOf mill) [line] then
    rdcPut s (((rdcFind s (dieOf mill) line).getD { die := dieOf mill, line := line, cells := [] }).refresh (as.map fun a => (a, s.rd a)))
  else s

end Sys2Proof.Machine
end

