-- ==== Sys2Proof/Machine/Stamp.lean ====
section
/-! DEFINITION. Conflict checks: stamps and block identities, scratchpad tags, the divergence filter, and
the epoch ("The memory model: forbidden shapes"). -/

namespace Sys2Proof.Machine

/-- An event's fields (R337), those that do not apply at 0. -/
def mkEv (cause code operand : Nat) (lanes : LaneMask) (addr : Nat := 0) (detail : Nat := 0) (slot : Nat := 0) : Raised where
  cause := cause
  code := BitVec.ofNat 32 code
  detail := BitVec.ofNat 32 detail
  operand := operand
  slot := slot
  lanes := lanes
  addr := BitVec.ofNat 64 addr
  pages := []

/-! ### What an access touches -/

/-- Bytes of an atomic's width. -/
def atomBytes : AtomWidth → Nat
  | .b32 => 4
  | .b64 => 8

/-- The addresses an access reads or writes. -/
def Acc.touches (a : Acc) : List Nat :=
  match a.body with
  | .load _ _ _ src => src
  | .store bytes => bytes.map (·.1)
  | .atom x _ w _ _ => span x (atomBytes w)
  | .mxload _ words scales => words.flatMap (fun p => span p.2 4) ++ scales.map (·.2)
  | .bind _ _ _ src => span src 4
  | .put _ _ _ => []
  | .regs _ => []

/-! ### Stamps (R138, R139) -/

/-- A stamp's contents in the current epoch. -/
structure Stamp where
  wb : Nat
  rb : Nat
  m  : Bool
  ws : BitVec 4
  rs : BitVec 4
  as : BitVec 4
  h  : Bool
  deriving DecidableEq, Repr

/-- R138, R139: the stamp of a line, cleared where it is of another epoch. -/
def stampOf (epoch : BitVec 8) (x : W64) : Stamp :=
  let v := if x.extractLsb' 56 8 == epoch then x.toNat else 0
  { wb := fld v 36 20, rb := fld v 16 20, m := bitOf v 15, ws := BitVec.ofNat 4 (fld v 11 4),
    rs := BitVec.ofNat 4 (fld v 7 4), as := BitVec.ofNat 4 (fld v 3 4), h := bitOf v 2 }

/-- The 64 bits of a stamp. -/
def Stamp.word (epoch : BitVec 8) (t : Stamp) : W64 :=
  packFields [(56, 8, epoch.toNat), (36, 20, t.wb), (16, 20, t.rb), (15, 1, if t.m then 1 else 0), (11, 4, t.ws.toNat),
    (7, 4, t.rs.toNat), (3, 4, t.as.toNat), (2, 1, if t.h then 1 else 0)]

/-- R373: the other block that a stamp names in a C4: its writer, else one of its two readers while M is clear (log entry 10). -/
def Stamp.other (t : Stamp) (b : Nat) : Option Nat :=
  if !t.h && t.ws != 0 && t.wb != b then some t.wb
  else if t.m then none
  else if t.rs != 0 && t.rb != b then some t.rb
  else if t.h && t.wb != b then some t.wb
  else none

/-- R139: the check of one sector, by its mask. A conflict gives its case and the other block's identity. -/
def stampCheck (t : Stamp) (b : Nat) (s : BitVec 4) (k : Touch) : Except (Nat × Option Nat) Stamp :=
  let inWs := t.ws &&& s != 0
  let inRs := t.rs &&& s != 0
  let named := !t.h && t.ws != 0
  match k with
  | .atomic =>
    if named && t.wb != b then .error (if inWs then 2 else 3, some t.wb)
    else if inRs && (t.m || t.rb != b) then .error (if t.m then 5 else 2, if t.m then none else some t.rb)
    else if t.h && inWs && t.wb != b then .error (2, some t.wb)
    else .ok { t with as := t.as ||| s }
  | .read =>
    if t.as &&& s != 0 then .error (4, t.other b)
    else if named && t.wb != b && inWs then .error (1, some t.wb)
    else if named && t.wb == b then .ok t
    else if t.m then .ok { t with rs := t.rs ||| s }
    else if t.rs == 0 then .ok { t with rb := b, rs := s }
    else if t.rb == b then .ok { t with rs := t.rs ||| s }
    else if t.h && t.wb == b then .ok { t with ws := t.ws ||| s }
    else if t.ws == 0 then .ok { t with h := true, wb := b, ws := s }
    else if t.h then .ok { t with rs := t.rs ||| t.ws ||| s, ws := 0, h := false, m := true }
    else .ok { t with m := true, rs := t.rs ||| s }
  | .write =>
    if t.as &&& s != 0 then .error (4, t.other b)
    else if named && t.wb != b then .error (if inWs then 1 else 3, some t.wb)
    else if t.m && inRs then .error (5, none)
    else if !t.m && t.rs != 0 && t.rb != b && inRs then .error (1, some t.rb)
    else if t.h then
      if t.wb != b && inWs then .error (1, some t.wb)
      else .ok { t with m := true, rs := t.rs ||| t.ws, h := false, wb := b, ws := s }
    else .ok { t with wb := b, ws := t.ws ||| s }

/-! ### Identities (R134, R377) -/

/-- The stamp identity a block's accesses act under in this epoch, taken at its first access. -/
def takeSid (s : State) (who : Ident) : Option (Nat × State) :=
  match s.sids.find? (·.who.key == who.key) with
  | some x => some (x.id, s)
  | none =>
    if 2 ^ 20 ≤ s.ids then none
    else some (s.ids, { s with ids := s.ids + 1, sids := s.sids ++ [{ who := who, id := s.ids }] })

/-- The block behind an identity of this epoch. -/
def sidOwner (s : State) (id : Nat) : Option Ident := (s.sids.find? (·.id == id)).map (·.who)

/-- R373: code and detail of a global conflict. -/
def conflictEv (s : State) (who : Ident) (x : SectorTouch) (case : Nat) (other : Option Nat) (lanes : LaneMask) : Raised :=
  let o := match other with | none => none | some id => sidOwner s id
  let elsewhere := match o with | none => 0 | some y => if y.launch == who.launch then 0 else 256
  mkEv 0x24 (sectorOf x.pa % 4 + 16 * case + elsewhere) 2 lanes x.va (match o with | none => 0xFFFFFFFF | some y => y.blk.toNat)

/-- The stamp of a line. -/
def State.stamp (s : State) (line : Nat) : Stamp := stampOf s.epoch (sget 0 s.stamps line)

/-- The number of the 16-B sector a touch lies in. -/
def SectorTouch.sec (x : SectorTouch) : Nat := sectorOf x.pa

/-- R139 over some sectors, each once: the state with its stamps updated, and the sectors that conflict, each with its
case and the other block. -/
def stampEach (id : Nat) (k : Touch) : List Nat → State → State × List (Nat × Nat × Option Nat)
  | [], s => (s, [])
  | x :: xs, s =>
    let line := x / 4
    match stampCheck (s.stamp line) id (1#4 <<< (x % 4)) k with
    | .ok t => stampEach id k xs { s with stamps := sset 0 s.stamps line (t.word s.epoch) }
    | .error e => let r := stampEach id k xs s; (r.1, (x, e.1, e.2) :: r.2)

/-- R398, R400: the code of a broken stamp: in the L2 tags, or in the stamp store of the HBM. -/
def stampBroken (s : State) (line : Nat) : Option Nat :=
  if s.errs.contains (.stamp line) then some 5
  else if s.errs.contains (.store (line / 4 * 4)) then some 6 else none

/-- R114, R334, R377, R400: the stamp check of an instruction's sectors on checked pages. On a conflict nothing is kept:
an identity that this first access of the block took is given back too, which R134 and R139 leave open (log
entry 10). -/
def stampAll (s : State) (who : Ident) (k : Touch) (touches : List SectorTouch) : Except Raised State :=
  if touches.isEmpty then .ok s
  else
    let broken := touches.filter fun x => (stampBroken s (lineOf x.pa)).isSome
    match broken with
    | x :: _ => .error (mkEv 0x60 ((stampBroken s (lineOf x.pa)).getD 5) 2 (maskOf (broken.map (·.lane))) x.va)
    | [] =>
      match takeSid s who with
      | none => .error (mkEv 0x29 s.epoch.toNat 2 (maskOf (touches.map (·.lane))) ((touches.map (·.va)).headD 0))
      | some (id, s1) =>
        let r := stampEach id k (nub (touches.map (·.sec))) s1
        let bad := touches.filterMap fun x => (r.2.find? (·.1 == x.sec)).map fun y => (x, y.2)
        match bad with
        | [] => .ok r.1
        | (x, case, other) :: rest => .error (conflictEv s1 who x case other (maskOf (x.lane :: rest.map (·.1.lane))))

/-- R114: a block's reads of sectors on checked pages: the first of each in an epoch reaches the home. -/
def seeSectors (s : State) (mill key : Nat) (secs : List Nat) : State :=
  let new := secs.filter fun x => !s.seen.contains (key, x)
  if new.isEmpty then s else { forgetSectors s mill new with seen := s.seen ++ new.map fun x => (key, x) }

/-- What an access in flight does to a sector. -/
def Acc.touch (a : Acc) : Touch :=
  match a.body with
  | .store _ => .write
  | .atom _ _ _ _ _ => .atomic
  | _ => .read

/-- R114, R139: the sectors on checked pages that an access in flight reaches. -/
def markedSectors (op : LongOp) (a : Acc) : List Nat :=
  if op.marks.isEmpty || a.space != .global then [] else (nub (a.touches.map sectorOf)).filter (op.marks.map (·.sec)).contains

/-- R139: an in-flight instruction has a checked access to a line that its home has not performed; what checks and performs
an access in one step waits for it. -/
def lineOwed (s : State) (line : Nat) : Bool :=
  s.ops.any fun o => o.fail.isNone && o.accs.any fun a => (markedSectors o a).any fun x => x / 4 == line

/-- Some sectors' lines are owed. -/
def linesOwed (s : State) (ts : List SectorTouch) : Bool := !s.ops.isEmpty && (nub (ts.map fun x => lineOf x.pa)).any (lineOwed s)

/-- R139, R374: an in-flight instruction has met a conflict, and is not performed until its group is sent on. -/
def failOp (s : State) (oid : Nat) (ev : Raised) : State :=
  { s with ops := updIf (·.id == oid) (fun o => { o with fail := some ev }) s.ops }

/-- R134, R139, R146: what an in-flight instruction has still to do on checked pages is checked in the epoch that holds now; a
conflict is kept for its group (log entry 10). -/
def restampOp (s : State) (o : LongOp) : State :=
  match s.block? o.bid, o.accs with
  | some b, a :: _ =>
    let secs := o.accs.flatMap (markedSectors o)
    match stampAll s b.ident a.touch (o.marks.filter fun x => secs.contains x.sec) with
    | .error ev => failOp s o.id ev
    | .ok s1 => if a.touch == .read then seeSectors s1 b.mill b.ident.key (nub secs) else s1
  | _, _ => s

/-- R134, R141: the epoch advances: no identity is left, no stamp holds the new value, and what is in flight is checked
in it. -/
def advanceEpoch (s : State) : State :=
  let e := s.epoch + 1
  let s1 := { s with
    epoch := e
    ids := 0
    sids := []
    seen := []
    stamps := s.stamps.filter fun x => x.2.extractLsb' 56 8 != e
    errs := s.errs.filter fun x => match x with | .stamp _ => false | .store _ => false | _ => true }
  s1.ops.foldl restampOp s1

/-! ### Scratchpad tags (R142) -/

/-- The tag of a sector: its state and group. -/
def tagParts (x : Byte) : Nat × Nat := (fld x.toNat 6 2, fld x.toNat 0 5)

/-- A tag from its state and group. -/
def tagWord (st g : Nat) : Byte := BitVec.ofNat 8 (st * 64 + g % 32)

/-- R142: the tag after a plain access by a group, none on a conflict. -/
def tagStep (x : Byte) (g : Nat) (write : Bool) : Option Byte :=
  let (st, h) := tagParts x
  if st == 0 then some (tagWord (if write then 3 else 1) g)
  else if st == 1 && h == g then some (if write then tagWord 3 g else x)
  else if st == 1 then (if write then none else some (tagWord 2 0))
  else if st == 2 then (if write then none else some x)
  else if h == g then some x else none

/-- R142 over the sectors an instruction touches, in lane order. -/
def tagEach (g : Nat) (write : Bool) : List (Nat × Nat) → Sparse Byte → Sparse Byte × List (Nat × Nat)
  | [], m => (m, [])
  | (lane, sec) :: xs, m =>
    match tagStep (sget 0 m sec) g write with
    | some y => tagEach g write xs (sset 0 m sec y)
    | none => let r := tagEach g write xs m; (r.1, (lane, sec) :: r.2)

/-- R142, R373: the tag check of a checked kernel's scratchpad sectors, each with its lane. -/
def tagAll (b : Block) (g : Nat) (write : Bool) (secs : List (Nat × Nat)) : Except Raised Block :=
  if !b.kernel.checked then .ok b
  else match tagEach g write secs b.tags with
    | (m, []) => .ok { b with tags := m }
    | (_, (lane, sec) :: rest) =>
      let (st, h) := tagParts (sget 0 b.tags sec)
      .error (mkEv 0x25 (sec * 16 + st * 2 ^ 20) 2 (maskOf (lane :: rest.map (·.1))) 0 (if st == 2 then 0xFFFFFFFF else h))

/-- R143: the tags of a stretch of scratchpad cleared. -/
def clearTags (b : Block) (lo n : Nat) : Block :=
  { b with tags := sdrop (fun k => decide (lo / 16 ≤ k) && decide (k < (lo + n + 15) / 16)) b.tags }

/-- R143: every tag cleared. -/
def clearAllTags (b : Block) : Block := { b with tags := [] }

/-! ### The divergence filter (R144, R145) -/

/-- The number at which the filter's sectors of window pages begin: those of their virtual addresses, above every
physical sector (log entry 65). -/
def farBase : Nat := 2 ^ 52

/-- One access to a sector: its space, sector, lane and virtual address. -/
structure FiltTouch where
  scratch : Bool
  sector  : Nat
  lane    : Nat
  va      : Nat
  deriving DecidableEq, Repr

/-- The outcome of the filter's check. -/
inductive FiltOut where
  | ok (f : List FiltEntry)
  | full
  | conflict (ev : Raised)
  deriving DecidableEq, Repr

/-- The other fragment an access conflicts with (R144). -/
def filtConflict (fid : Nat) (write : Bool) (e : FiltEntry) : Option Nat :=
  match e.writer with
  | some w =>
    if w != fid then some w
    else if write then ((List.range 8).filter fun i => i != fid && e.readers.getLsbD i).head? else none
  | none => if write then ((List.range 8).filter fun i => i != fid && e.readers.getLsbD i).head? else none

/-- The entry of a sector. -/
def filtFind (f : List FiltEntry) (x : FiltTouch) : Option FiltEntry :=
  f.find? fun e => e.scratch == x.scratch && e.sector == x.sector

/-- An access recorded in the filter. -/
def filtRecord (fid : Nat) (write : Bool) (f : List FiltEntry) (x : FiltTouch) : List FiltEntry :=
  let mark := fun (e : FiltEntry) =>
    if write then { e with writer := some fid } else { e with readers := e.readers ||| (1#8 <<< fid) }
  match filtFind f x with
  | some _ => updIf (fun e => e.scratch == x.scratch && e.sector == x.sector) mark f
  | none => f ++ [mark { scratch := x.scratch, sector := x.sector, writer := none, readers := 0 }]

/-- R144, R145, R373: the filter's check of an instruction's sectors. -/
def filtCheck (f : List FiltEntry) (fid : Nat) (write : Bool) (xs : List FiltTouch) : FiltOut :=
  let new := xs.foldl (filtRecord fid write) f
  if 64 < new.length then .full
  else
    let bad := xs.filterMap fun x =>
      match filtFind f x with
      | none => none
      | some e => match filtConflict fid write e with | none => none | some o => some (x, o)
    match bad with
    | [] => .ok new
    | (x, o) :: _ =>
      .conflict (mkEv 0x26 (if x.scratch then x.sector * 16 + 2 ^ 24 else 0) 2 (maskOf (bad.map (·.1.lane)))
        (if x.scratch then 0 else x.va) o)

/-- R144: the filter after fragments merge into one id; it is empty while one fragment is left. -/
def filtMerge (f : List FiltEntry) (ids : List Nat) (into : Nat) (single : Bool) : List FiltEntry :=
  if single then []
  else f.map fun e =>
    { e with
      writer := e.writer.map fun w => if ids.contains w then into else w
      readers := if ids.any fun i => e.readers.getLsbD i then
          (ids.foldl (fun m i => m &&& ~~~(1#8 <<< i)) e.readers) ||| (1#8 <<< into)
        else e.readers }

end Sys2Proof.Machine
end

