-- ==== Sys2Proof/Machine/Frags.lean ====
section
/-! DEFINITION. Fragments and reconvergence tokens: divergence, pending sides, parking, merging and exit
(R29 to R35, R211, R215 to R218). -/

namespace Sys2Proof.Machine

/-- A fresh fragment with a PC and a set of lanes, all active. -/
def Frag.start (fid : Nat) (pc : W64) (lanes : LaneMask) (cycle : Nat) : Frag where
  fid := fid
  pc := pc
  held := lanes
  exm := lanes
  st := .running
  line := none
  mid := false
  solo := false
  age := cycle
  last := cycle
  starved := false
  pends := []
  arrived := []
  side := none
  reply := none

/-- The lanes of every pending side of a fragment. -/
def Frag.pendLanes (f : Frag) : LaneMask := f.pends.foldl (fun m p => m ||| p.mask) 0

/-- The lanes of the side that runs: the larger set, or the pending side (R32), less those that are pending. -/
def Frag.sideLanes (f : Frag) : LaneMask := (f.side.getD f.held) &&& f.held &&& ~~~f.pendLanes

/-- The fragment enters its next slot anew, at a PC (R81). -/
def Frag.enterAt (f : Frag) (pc : W64) (cycle : Nat) : Frag :=
  { f with pc := pc, line := none, mid := false, st := .running, age := cycle, reply := none }

/-- R83: the age of a fragment that completes its clause, by the header's yield bit. -/
def Frag.ageOn (f : Frag) (cycle : Nat) : Nat :=
  match f.line with
  | some l => if bitOf (l.words.headD 0).toNat 23 then cycle else f.age
  | none => f.age

/-- R81, R83: the fragment leaves its clause for a PC. -/
def Frag.branchTo (f : Frag) (pc : W64) (cycle : Nat) : Frag := { f.enterAt pc cycle with age := f.ageOn cycle }

/-- R33: the innermost token of a fragment: the one its lanes opened last. -/
def innerTok (g : Group) (f : Frag) : Option Tok := g.toks.reverse.find? fun t => t.part &&& f.held != 0

/-- The lowest fragment id that is free (R31). -/
def freeFid (g : Group) : Option Nat := (List.range 8).find? fun i => !(g.frags.any (·.fid == i))

/-- R32: a pending side starts to run. -/
def startPend (f : Frag) (p : Pend) (cycle : Nat) : Frag :=
  { (f.enterAt p.pc cycle) with exm := p.mask &&& f.held, side := some p.mask, pends := f.pends.erase p }

/-- How deep the token of a pending side lies: tokens are numbered as they open, and none lies outside all. -/
def Pend.depth (p : Pend) : Nat := match p.tok with | some t => t + 1 | none => 0

/-- The pending side a fragment runs next among those of a depth or deeper: on the innermost token, and there the one
recorded first, which R32 and R218 leave open (log entry 60). -/
def nextPend (f : Frag) (least : Nat) : Option Pend :=
  let ps := f.pends.filter fun p => decide (least ≤ p.depth)
  let best := ps.foldl (fun m p => max m p.depth) 0
  ps.find? fun p => p.depth == best

/-- R32: the mask of the side of a fragment that a token's close resumes: the one that ran before its first arrival there. -/
def Frag.sideBefore (f : Frag) (tok : Nat) : Option LaneMask :=
  match f.arrived.find? (·.tok == tok) with
  | some a => a.side
  | none => f.side

/-- R32, R34: the side that fragments parked at a token resume together: none where each is its larger set, or else the
lanes of every one. -/
def mergedSide (fs : List Frag) (tok : Nat) : Option LaneMask :=
  if fs.all fun f => (f.sideBefore tok).isNone then none
  else some (fs.foldl (fun m f => m ||| ((f.sideBefore tok).getD (f.held &&& ~~~f.pendLanes) &&& f.held)) 0)

/-- R34: the fragments parked at a token become one. -/
def mergeFrags (fs : List Frag) (tok : Nat) (cycle : Nat) : Option Frag :=
  match fs with
  | [] => none
  | f0 :: _ =>
    some
      { f0.enterAt f0.pc cycle with
        fid := (fs.map (·.fid)).foldl min f0.fid
        held := fs.foldl (fun m f => m ||| f.held) 0
        exm := fs.foldl (fun m f => m ||| f.exm) 0
        pends := fs.flatMap (·.pends)
        arrived := (fs.flatMap (·.arrived)).filter (·.tok != tok)
        side := mergedSide fs tok
        solo := false
        starved := false
        last := fs.foldl (fun m f => max m f.last) 0 }

/-- R34: a token closes when every lane of its participating set has exited or is parked at it. -/
def closeTok (cycle : Nat) (g : Group) (t : Tok) : Group :=
  let here := g.frags.filter fun f => f.st == .parked t.id
  let held := here.foldl (fun m f => m ||| f.held) 0
  if t.part &&& ~~~held != 0 then g
  else
    let rest := g.frags.filter fun f => f.st != .parked t.id
    let toks := g.toks.filter (·.id != t.id)
    match mergeFrags here t.id cycle with
    | none => { g with toks := toks }
    | some m =>
      { g with
        frags := rest ++ [m]
        toks := toks
        filter := filtMerge g.filter (here.map (·.fid)) m.fid rest.isEmpty }

/-- Every token that can close closes, innermost first. -/
def closeToks (cycle : Nat) (g : Group) : Group := g.toks.reverse.foldl (closeTok cycle) g

/-- R144: the filter is empty while the group has one fragment. -/
def Group.soloFilter (g : Group) : Group := if g.frags.length ≤ 1 then { g with filter := [] } else g

/-- R33, R34: a fragment parks at a token; `exm` and the PC after the `JOIN` are kept for the merge. -/
def parkFrag (f : Frag) (tok : Nat) (exm : LaneMask) (pc : W64) : Frag :=
  { f with st := .parked tok, exm := exm, pc := pc, line := none, mid := false, solo := false, reply := none }

/-- R218: a fragment reaches the join point of its innermost token: a pending side starts, or it parks. -/
def joinAt (cycle : Nat) (g : Group) (f : Frag) (t : Tok) (next : W64) : Group :=
  let seen := f.arrived.find? (·.tok == t.id)
  let exm := f.exm ||| (match seen with | some a => a.exm | none => 0)
  match nextPend f (t.id + 1) with
  | some p =>
    let entry : Arrived := { tok := t.id, exm := exm, pc := next, side := match seen with | some a => a.side | none => f.side }
    g.setFrag (startPend { f with arrived := entry :: f.arrived.filter (·.tok != t.id) } p cycle)
  | none => closeToks cycle (g.setFrag (parkFrag { f with last := cycle } t.id exm next))

/-- The pending sides of a fragment once some lanes have left it. -/
def dropPends (ps : List Pend) (lanes : LaneMask) : List Pend :=
  (ps.map fun p => { p with mask := p.mask &&& ~~~lanes }).filter fun p => p.mask != 0

/-- R31, R32: a divergent branch. The taken lanes go to `tpc`, the others to `npc`; `keep` says that the
not-taken lanes stay in the clause they have fetched, and `peel` that with eight fragments live they are the pending
side, whatever their number (R213). -/
def divergeFrag (cycle : Nat) (g : Group) (f : Frag) (taken rest : LaneMask) (tpc npc : W64) (keep peel : Bool) : Group :=
  let takenStays := decide (popCount rest < popCount taken) || (peel && (freeFid g).isNone)
  let stay := if takenStays then taken else rest
  let leave := if takenStays then rest else taken
  let leavePc := if takenStays then npc else tpc
  let moved : Frag :=
    if takenStays then f.branchTo tpc cycle
    else if keep then { f with pc := npc, reply := none } else f.branchTo npc cycle
  match freeFid g with
  | some i =>
    let other := Frag.start i leavePc leave cycle
    let other := if takenStays && keep then { other with line := f.line } else other
    let stays := { moved with solo := false, held := f.held &&& ~~~leave, exm := stay, pends := dropPends f.pends leave }
    { g.setFrag stays with frags := (g.setFrag stays).frags ++ [other] }
  | none =>
    let p : Pend := { pc := leavePc, mask := leave, tok := (innerTok g f).map (·.id) }
    g.setFrag { moved with exm := stay, pends := f.pends ++ [p] }

/-- R32, R215: what a fragment does once a side of it has no lane left. -/
def afterExit (f : Frag) (cycle : Nat) : Frag :=
  if f.sideLanes != 0 then f
  else
    match f.arrived with
    | a :: _ =>
      (match nextPend f (a.tok + 1) with
       | some p => startPend f p cycle
       | none => parkFrag f a.tok (a.exm &&& f.held) a.pc)
    | [] =>
      match nextPend f 0 with
      | some p => startPend f p cycle
      | none => f

/-- R35, R215: lanes of a fragment exit. They leave its masks and every token; an empty fragment ends. -/
def exitLanes (cycle : Nat) (g : Group) (fid : Nat) (lanes : LaneMask) : Group :=
  let drop := fun (f : Frag) =>
    { f with
      held := f.held &&& ~~~lanes
      exm := f.exm &&& ~~~lanes
      pends := dropPends f.pends lanes
      arrived := f.arrived.map fun a => { a with exm := a.exm &&& ~~~lanes }
      side := f.side.map fun m => m &&& ~~~lanes }
  let frags := (updIf (·.fid == fid) (fun f => afterExit (drop f) cycle) g.frags).filter fun f => f.held != 0
  let toks := g.toks.map fun t => { t with part := t.part &&& ~~~lanes }
  (closeToks cycle { g with frags := frags, toks := toks }).soloFilter

/-- R347: every held lane of a group exits. -/
def exitAll (g : Group) : Group := { g with frags := [], toks := [], filter := [] }

/-- R33, R217: a token opens over a fragment's held lanes. -/
def openTok (g : Group) (f : Frag) (join : W64) : Group :=
  { g with toks := g.toks ++ [{ id := g.nextTok, join := join, part := f.held }], nextTok := g.nextTok + 1 }

end Sys2Proof.Machine
end

