-- ==== Sys2Proof/Machine/Xu.lean ====
section
/-! DEFINITION. The expand unit: deal sets, the numbering of iterations, contributions and their folds
(R272 to R280, R354, R365). -/

namespace Sys2Proof.Machine

/-- R273: a fold's identity. -/
def foldIdentity : FoldOp → W32
  | .add => 0 | .fadd => 0x80000000 | .smin => 0x7FFFFFFF | .smax => 0x80000000 | .umin => 0xFFFFFFFF
  | .umax => 0 | .and => 0xFFFFFFFF | .or => 0 | .xor => 0

/-- R273: a fold; the accumulator is source A. -/
def foldStep (op : FoldOp) (a v : W32) : W32 :=
  match op with
  | .add => a + v
  | .fadd => add32 a v
  | .smin => if a.toInt ≤ v.toInt then a else v
  | .smax => if v.toInt ≤ a.toInt then a else v
  | .umin => if a.toNat ≤ v.toNat then a else v
  | .umax => if v.toNat ≤ a.toNat then a else v
  | .and => a &&& v
  | .or => a ||| v
  | .xor => a ^^^ v

/-- Owner `o`'s loop length. -/
def Expansion.lenOf (e : Expansion) (o : Nat) : Nat := (sget 0 e.len o).toNat

/-- R274: base[o]: the sum of the lengths of the owners before. -/
def Expansion.baseOf (e : Expansion) (o : Nat) : Nat := e.len.foldl (fun a p => if p.1 < o then a + p.2.toNat else a) 0

/-- R274: the total of the lengths. -/
def Expansion.sumLen (e : Expansion) : Nat := e.len.foldl (fun a p => a + p.2.toNat) 0

/-- R274: the owner of an iteration. -/
def Expansion.ownerOf (e : Expansion) (t : Nat) : Option Nat :=
  (e.len.find? fun p => decide (e.baseOf p.1 ≤ t) && decide (t < e.baseOf p.1 + p.2.toNat)).map (·.1)

/-- R274: the value of an iteration. -/
def Expansion.valueOf (e : Expansion) (t : Nat) : W32 :=
  match e.ownerOf t with
  | none => 0
  | some o => sget 0 e.start o + BitVec.ofNat 32 (t - e.baseOf o)

/-- Every group of the deal set has issued `XBEGIN`. -/
def Expansion.complete (e : Expansion) : Bool := e.slots.length == e.n

/-- The open expansion of a stone. -/
def Block.openXu? (b : Block) (stone : Nat) : Option Expansion := b.xus.find? fun e => e.stone == stone && !e.bad

/-- The expansion, open or failed, a group still belongs to. -/
def Block.groupXu? (b : Block) (stone gid : Nat) (bad : Bool) : Option Expansion :=
  b.xus.find? fun e => e.stone == stone && e.bad == bad && e.slots.any fun x => x.gid == gid && !x.ended

/-- An expansion written back. -/
def Block.setXu (b : Block) (e : Expansion) : Block :=
  { b with xus := updIf (fun x => x.stone == e.stone && x.bad == e.bad) (fun _ => e) b.xus }

/-- R272: the keys of a map moved up by one slot from slot `i`. -/
def shiftSlots (i : Nat) (m : Sparse W32) : Sparse W32 := m.map fun p => (if p.1 < 64 * i then p.1 else p.1 + 64, p.2)

/-- The place of a group among the slots, in ascending `$grp`. -/
def slotPlace (slots : List XSlot) (gid : Nat) : Nat := (slots.filter fun x => x.gid < gid).length

/-- R273: a group joins an expansion with its lanes' starts and lengths; with the last group the numbering
is made, and a total above 2^32 - 1 makes the expansion fail (R354). Before that the groups that have arrived are numbered
from 0, and are saved so, which R280 leaves open (log entry 65). -/
def xuJoin (e : Expansion) (gid : Nat) (starts lens : List (Nat × W32)) : Expansion :=
  let i := slotPlace e.slots gid
  let slot : XSlot := { gid := gid, ended := false, rounds := 0, resolved := false, heldRound := 0, unapplied := 0, contrib := [] }
  let e1 := { e with
    slots := e.slots.take i ++ [slot] ++ e.slots.drop i
    start := ssetAll 0 (shiftSlots i e.start) (starts.map fun (p : Nat × W32) => (64 * i + p.1, p.2))
    len := ssetAll 0 (shiftSlots i e.len) (lens.map fun (p : Nat × W32) => (64 * i + p.1, p.2)) }
  if e1.complete then { e1 with total := e1.sumLen % 2 ^ 32, bad := decide (2 ^ 32 ≤ e1.sumLen) } else e1

/-- R273: a new expansion. -/
def xuOpen (stone deal n : Nat) (op : FoldOp) : Expansion where
  stone := stone
  deal := deal
  n := n
  op := op
  total := 0
  start := []
  len := []
  acc := []
  slots := []
  bad := false

/-- The accumulator of an owner; the map lists its difference from the identity. -/
def Expansion.accOf (e : Expansion) (o : Nat) : W32 := sget (foldIdentity e.op) e.acc o

/-- R274: the iteration lane `lane` of slot `i` holds in a round. -/
def iterOf (e : Expansion) (w i r lane : Nat) : Nat := r * (e.n * w) + i * w + lane

/-- R276: the first round of a slot that is not resolved, none when the slot has issued `XEND`. -/
def firstOpenRound (x : XSlot) : Option Nat :=
  if x.ended then none else if x.rounds == 0 then some 0 else some (if x.resolved then x.rounds else x.rounds - 1)

/-- The lowest iteration at or above `lo` that slot `i` has not resolved. -/
def firstOpenIter (e : Expansion) (w : Nat) (lo i : Nat) (x : XSlot) : Option Nat :=
  match firstOpenRound x with
  | none => none
  | some r =>
    let wide := e.n * w
    let t := max lo (iterOf e w i r 0)
    let at_ := t % wide
    some (if at_ < i * w then t - at_ + i * w else if at_ < (i + 1) * w then t else (t / wide + 1) * wide + i * w)

/-- The slots with their numbers. -/
def numbered {α : Type} (l : List α) : List (Nat × α) := List.zip (List.range l.length) l

/-- R277: every iteration of the owner before `t` is resolved. -/
def resolvedBefore (e : Expansion) (w base t : Nat) : Bool :=
  (numbered e.slots).all fun p => match firstOpenIter e w base p.1 p.2 with | none => true | some u => decide (t ≤ u)

/-- The contributions not yet applied: iteration, slot, lane and value. -/
def pendingContribs (e : Expansion) (w : Nat) : List (Nat × Nat × Nat × W32) :=
  (numbered e.slots).flatMap fun p =>
    (lanesOf p.2.unapplied).map fun l => (iterOf e w p.1 p.2.heldRound l, p.1, l, sget 0 p.2.contrib l)

/-- Insertion by iteration. -/
def insertIter (x : Nat × Nat × Nat × W32) : List (Nat × Nat × Nat × W32) → List (Nat × Nat × Nat × W32)
  | [] => [x]
  | y :: ys => if x.1 ≤ y.1 then x :: y :: ys else y :: insertIter x ys

/-- One contribution applied, where it may be. -/
def applyOne (w : Nat) (e : Expansion) (c : Nat × Nat × Nat × W32) : Expansion :=
  match e.ownerOf c.1 with
  | none => e
  | some o =>
    if resolvedBefore e w (e.baseOf o) c.1 && !((pendingContribs e w).any fun d => decide (d.1 < c.1) && e.ownerOf d.1 == some o) then
      { e with
        acc := sset (foldIdentity e.op) e.acc o (foldStep e.op (e.accOf o) c.2.2.2)
        slots := (numbered e.slots).map fun p =>
          if p.1 == c.2.1 then { p.2 with unapplied := p.2.unapplied &&& ~~~(1#64 <<< c.2.2.1), contrib := sset 0 p.2.contrib c.2.2.1 0 } else p.2 }
    else e

/-- R277: every contribution that may be applied is applied, in ascending iteration. -/
def xuApply (e : Expansion) (w : Nat) : Expansion :=
  ((pendingContribs e w).foldl (fun acc x => insertIter x acc) []).foldl (applyOne w) e

/-- A slot of an expansion changed. -/
def Expansion.onSlot (e : Expansion) (gid : Nat) (f : XSlot → XSlot) : Expansion := { e with slots := updIf (·.gid == gid) f e.slots }

/-- R276, R278, R365: a group leaves the expansion: its iterations are resolved, its latest round with them. -/
def xuLeave (e : Expansion) (w gid : Nat) : Expansion :=
  xuApply (e.onSlot gid fun x => { x with ended := true, resolved := x.resolved || x.rounds != 0 }) w

/-- R278: every group has issued `XEND` and every contribution is applied. -/
def Expansion.finished (e : Expansion) : Bool := e.complete && e.slots.all fun x => x.ended && x.unapplied == 0

end Sys2Proof.Machine
end

