-- ==== Sys2Proof/Machine/Atomics.lean ====
section
/-! DEFINITION. What atomics compute, and the writes of its own that a deterministic block sees before they are
released (R257, R258, R313). -/

namespace Sys2Proof.Machine

/-! ### Atomics (R257, R258) -/

/-- The largest power of two below `m`, for `m` above 1. -/
def halfOfTree (m : Nat) : Nat := 2 ^ Nat.log2 (m - 1)

/-- R257: the pairwise tree, over lane order; `n` bounds its depth. -/
def treeSum : Nat → List W32 → W32
  | 0, xs => xs.headD 0
  | n + 1, xs =>
    if xs.length ≤ 1 then xs.headD 0
    else let h := halfOfTree xs.length; add32 (treeSum n (xs.take h)) (treeSum n (xs.drop h))

/-- A value as wide as the atomic. -/
def atomCut (w : AtomWidth) (x : W64) : W64 := match w with | .b32 => (lo32 x).setWidth 64 | .b64 => x

/-- R257: one lane's step of an atomic other than `.fadd`. -/
def atomStep (op : AtomOp) (w : AtomWidth) (cur v c : W64) : W64 :=
  let n := 8 * atomBytes w
  let sx := signed n cur.toNat
  let sv := signed n v.toNat
  atomCut w (match op with
    | .add => cur + v
    | .fadd => cur
    | .smin => if sx ≤ sv then cur else v
    | .smax => if sv ≤ sx then cur else v
    | .umin => if cur.toNat ≤ v.toNat then cur else v
    | .umax => if v.toNat ≤ cur.toNat then cur else v
    | .and => cur &&& v
    | .or => cur ||| v
    | .xor => cur ^^^ v
    | .xchg => v
    | .cas => if cur == v then c else cur)

/-- R257: the lanes served one after another: the values returned, and the final value. -/
def atomSerial (op : AtomOp) (w : AtomWidth) : W64 → List (W64 × W64) → List W64 × W64
  | cur, [] => ([], cur)
  | cur, (v, c) :: xs => let r := atomSerial op w (atomStep op w cur v c) xs; (cur :: r.1, r.2)

/-- R257: the values returned to the lanes and the new value of the location. -/
def atomServe (op : AtomOp) (w : AtomWidth) (old : W64) (lanes : List (W64 × W64)) : List W64 × W64 :=
  if op = .fadd then
    let vs := lanes.map fun (p : W64 × W64) => lo32 p.1
    let after := fun k => if k == 0 then lo32 old else add32 (lo32 old) (treeSum k (vs.take k))
    ((List.range vs.length).map fun k => (after k).setWidth 64, (after vs.length).setWidth 64)
  else atomSerial op w old (lanes.map fun (p : W64 × W64) => (atomCut w p.1, atomCut w p.2))

/-! ### A block's own staged writes (R313) -/

/-- A byte under an overlay of later values. -/
def ovByte (base : Nat → Byte) (ov : List (Nat × Byte)) (a : Nat) : Byte := ((ov.find? fun p => p.1 == a).map (·.2)).getD (base a)

/-- An overlay with the new value of an atomic. -/
def ovAtomic (base : Nat → Byte) (ov : List (Nat × Byte)) (a : Nat) (op : AtomOp) (w : AtomWidth) (lanes : List (W64 × W64)) :
    List (Nat × Byte) :=
  let n := atomBytes w
  bytesAt a n (atomServe op w (BitVec.ofNat 64 (leNat ((span a n).map (ovByte base ov)))) lanes).2.toNat ++ ov

/-- An overlay with what a staged access writes. -/
def ovAcc (base : Nat → Byte) (ov : List (Nat × Byte)) (a : Acc) : List (Nat × Byte) :=
  match a.body with
  | .store bytes => bytes ++ ov
  | .atom x op w _ lanes => ovAtomic base ov x op w (lanes.map (·.2))
  | _ => ov

/-- An overlay with what a staged op writes on this device. -/
def ovOp (s : State) (c : Nat) (ov : List (Nat × Byte)) (o : StagedOp) : List (Nat × Byte) :=
  match o.body with
  | .access accs _ => accs.foldl (ovAcc s.rd) ov
  | .signal va x => (match walk s c va.toNat with | .ok p => ovAtomic s.rd ov p.pa .add .b64 [(x, 0)] | .error _ => ov)
  | _ => ov

/-- R313: the bytes a block's own parties see of its staged ops, each at its latest value; reductions are
worked over what the homes hold (log entry 17). -/
def stagedView (s : State) (b : Block) : List (Nat × Byte) := b.staged.foldl (ovOp s b.ctx) []

end Sys2Proof.Machine
end

