-- ==== Sys2Proof/Machine/Ops.lean ====
section
/-! DEFINITION. The named operations every instruction uses: who issues, which lanes act, how a fragment
goes on, how an event is raised, completion flags; then taking a trap and returning from it, freezing a
group for a fault, and ending a group (R53, R69 to R73, R82, R334 to R345, R347). -/

namespace Sys2Proof.Machine

/-- The outcome of an instruction. -/
abbrev Out := Host.Outcome State Fault Refusal

/-! ### The issuing fragment -/

/-- The issuing fragment with its group and block, and the instruction's place. -/
structure Env where
  s : State
  i : Iss
  b : Block
  g : Group
  f : Frag
  deriving DecidableEq, Repr

/-- An ISA instruction acts for the fragment that issues; without one the model stops. -/
def onIss (s : State) (k : Env → Out) : Out :=
  match s.cur with
  | none => .fault .noIssuer
  | some i =>
    match s.frag? i.f with
    | none => .fault .noIssuer
    | some (b, g, f) => k { s := s, i := i, b := b, g := g, f := f }

/-- R70: the lanes of `$exm` in which the guard passes. -/
def guarded (g : Group) (exm : LaneMask) (x : Guard) : LaneMask :=
  maskOf ((lanesOf exm).filter fun l => guardHolds g x l)

/-- The active lanes of an instruction. -/
def Env.active (e : Env) (x : Guard) : LaneMask := guarded e.g e.f.exm x

/-- R259, R351: the lanes an instruction that acts once for the fragment records. -/
def Env.whole (e : Env) : LaneMask := if e.f.exm != 0 then e.f.exm else e.f.held

/-- R259: the lane that supplies a vector source of such an instruction. -/
def Env.lead (e : Env) : Nat := lowLane e.whole

/-- A register as that lane sees it. -/
def Env.r32 (e : Env) (r : Reg) : W32 := rget e.b e.g e.lead r

/-- A pair as that lane sees it. -/
def Env.r64 (e : Env) (r : Reg) : W64 := rget64 e.b e.g e.lead r

/-! ### Going on (R82, R83) -/

/-- The line address of a PC (R79). -/
def lineAddr (pc : W64) : W64 := pc &&& ~~~63#64

/-- The clause header of a fetched line. -/
def Line.header (l : Line) : W64 := l.words.headD 0

/-- The header's slot count. -/
def Line.count (l : Line) : Nat := fld l.header.toNat 20 3

/-- R82: the PC that follows `len` slots from a PC of a line. -/
def nextPc (l : Line) (pc : W64) (len : Nat) : W64 :=
  if fld pc.toNat 3 3 + len < l.count then pc + BitVec.ofNat 64 (8 * len) else lineAddr pc + 64

/-- R79: the PC names no slot. -/
def noSlot (pc : W64) : Bool := fld pc.toNat 0 3 != 0 || fld pc.toNat 3 3 == 7

/-- R82, R83: a fragment goes on at the PC that follows; leaving the clause resets the age where the header
says so. -/
def Frag.goOn (f : Frag) (next : W64) (cycle : Nat) : Frag :=
  if lineAddr next == lineAddr f.pc then { f with pc := next, st := .running, reply := none }
  else f.branchTo next cycle

/-- The instruction completes: the fragment goes on at the next slot. -/
def retire (s : State) : State :=
  match s.cur with
  | none => s
  | some i => ({ s with cur := none } : State).onFrag i.f fun f => f.goOn i.next s.cycle

/-- The whole fragment moves to a PC, which it enters anew (R81). -/
def jump (s : State) (pc : W64) : State :=
  match s.cur with
  | none => s
  | some i => ({ s with cur := none } : State).onFrag i.f fun f => f.branchTo pc s.cycle

/-- The fragment blocks at the instruction, which has not begun (R54). -/
def blockOn (s : State) (st : FState) : State :=
  match s.cur with
  | none => s
  | some i => ({ s with cur := none } : State).onFrag i.f fun f => { f with st := st }

/-- The instruction finds its resources busy and does not issue (R36): nothing changes. -/
def stall (s : State) : Out := .next s

/-- An instruction completes with changes to its group's registers. -/
def retireWith (s : State) (ws : List RegWrite) : State :=
  match s.cur with
  | none => s
  | some i => retire (s.regWrites i.f.bid i.f.gid ws)

/-- The issuing group changed. -/
def onIssGroup (s : State) (f : Group → Group) : State :=
  match s.cur with
  | none => s
  | some i => s.onGroup i.f.bid i.f.gid f

/-- The issuing block changed. -/
def onIssBlock (s : State) (f : Block → Block) : State :=
  match s.cur with
  | none => s
  | some i => s.onBlock i.f.bid f

/-! ### Raising an event (R334, R335, R340 step 1) -/

/-- R340: a group stops for an event of a fragment. A fault met while it drains for a trap takes the
trap's place. -/
def stopGroup (s : State) (bid gid : Nat) (x : Stop) : State :=
  s.onGroup bid gid fun g =>
    match g.stop with
    | none => { g with stop := some x }
    | some y => if classOf y.ev.cause == 0 && classOf x.ev.cause != 0 then { g with stop := some x } else g

/-- R334: the instruction raises an event and has not begun; its group stops and drains. -/
def raise (s : State) (ev : Raised) : State :=
  match s.cur with
  | none => s
  | some i =>
    let s1 := ({ s with cur := none } : State).onFrag i.f fun f => { f with reply := none, st := .running }
    stopGroup s1 i.f.bid i.f.gid { fid := i.f.fid, pc := i.pc, next := i.next, word := i.word, ev := ev, time := s.gtime, cycle := s.cycle }

/-- The outcome of a check: the event, or the rest of the instruction. -/
def orRaise (s : State) (x : Option Raised) (k : State) : Out :=
  match x with
  | some ev => .next (raise s ev)
  | none => .next k

/-! ### Registers held (R65, R334 step 2, R350) -/

/-- The field value of a register (R64). -/
def regValue : Reg → Nat
  | .v n => n
  | .s n => 192 + n

/-- The first of `n` registers from `r` that the group does not hold. -/
def firstUnheld (b : Block) (g : Group) (r : Reg) (n : Nat) : Option Reg :=
  ((List.range n).map (regUp r)).find? fun x => !heldReg b g x

/-- R350: the operands, each with its position, register and count of registers, checked in order; the
event of the first register not held. -/
def heldCheck (b : Block) (g : Group) (lanes : LaneMask) (ops : List (Nat × Reg × Nat)) : Option Raised :=
  ops.findSome? fun o => (firstUnheld b g o.2.1 o.2.2).map fun r => mkEv 0x07 (regValue r) o.1 lanes

/-- The lanes a register check records: the active lanes, or the fragment's where none is active. -/
def Env.recLanes (e : Env) (act : LaneMask) : LaneMask := if act != 0 then act else e.whole

/-! ### Completion flags (R71 to R73) -/

/-- R73: the flag an instruction counts, by its clause header. -/
def Env.flag (e : Env) (fl : FlagSel) : Option Nat :=
  match e.f.line with
  | none => none
  | some l =>
    let v := fld l.header.toNat (match fl with | .A => 12 | .B => 16) 4
    if v == 15 then none else some v

/-- R73: the flag stands at 63. -/
def Env.flagFull (e : Env) (fl : FlagSel) : Bool :=
  match e.flag fl with
  | none => false
  | some i => decide (63 ≤ e.g.flag i)

/-- A fresh in-flight instruction of the issuing fragment. -/
def Env.op (e : Env) (fl : FlagSel) (accs : List Acc) : LongOp where
  id := e.s.nextId
  bid := e.i.f.bid
  gid := e.i.f.gid
  fid := e.i.f.fid
  flag := e.flag fl
  hold := if (e.flag fl).isNone then e.f.held else 0
  scope := .group
  acq := false
  rel := false
  ext := false
  accs := accs
  coll := []
  marks := []
  fail := none
  missed := 0
  fin := .plain
  aside := false
  pc := e.i.pc
  word := e.i.word

/-- A group's flag counts up once (R71). -/
def countFlag (g : Group) (fl : Option Nat) : Group :=
  match fl with
  | none => g
  | some i => g.setFlag i (g.flag i + 1)

/-- R71: a long-latency instruction issues: its flag counts and it is in flight; the fragment goes on. -/
def launchOp (s : State) (op : LongOp) : State :=
  let s1 := onIssGroup { s with nextId := s.nextId + 1, ops := s.ops ++ [op] } fun g => countFlag g op.flag
  retire s1

/-- The in-flight instructions of a group. -/
def State.opsOf (s : State) (bid gid : Nat) : List LongOp := s.ops.filter fun o => o.bid == bid && o.gid == gid

/-- The lanes of an in-flight instruction's accesses. -/
def LongOp.lanes (o : LongOp) : LaneMask := o.accs.foldl (fun m a => m ||| a.lanes) 0

/-- The in-flight instructions of the issuing fragment that are older: those it issued, and those of lanes it
has merged with. -/
def Env.opsMine (e : Env) : List LongOp :=
  (e.s.opsOf e.i.f.bid e.i.f.gid).filter fun o => o.fid == e.i.f.fid || o.lanes &&& e.f.held != 0

/-- An instruction has accesses that the memories are to serve; one that has met a conflict waits for its group. -/
def LongOp.served (o : LongOp) : Bool := o.accs.isEmpty || o.fail.isSome

/-- R132, R262, R264: every earlier access of the fragment has been served. -/
def Env.quiet (e : Env) : Bool := e.opsMine.all (·.served)

/-- R131: an acquire of the fragment is not served yet: no later access begins. -/
def Env.acqPending (e : Env) : Bool := e.opsMine.any fun o => o.acq && !o.served

/-- R53, R340: an instruction that waits on other parties, or for its group's handler, and does not hold up a drain. -/
def waitsOutside (o : LongOp) : Bool :=
  o.fail.isSome || match o.fin with
  | .xend _ _ _ => true
  | .coll _ => true
  | _ => false

/-- R53: an issued instruction of the fragment has still to complete: an access that waits for its answer, a `WATCH`, an
`UNWATCH`. -/
def Frag.unfinished (f : Frag) : Bool :=
  match f.st with
  | .awaiting _ => true
  | .blocked (.arming _ _) _ => true
  | .blocked (.disarming _) _ => true
  | _ => false

/-- R340 step 1: nothing of the group is still to complete, but what waits on other parties. -/
def groupDrained (s : State) (bid : Nat) (g : Group) : Bool := (s.opsOf bid g.gid).all waitsOutside && g.frags.all (!·.unfinished)

/-! ### Virtual memory as the device reaches it for its own images -/

/-- The physical addresses of a stretch, page by page, or the cause, code and address that fail. -/
def devMap (s : State) (c : Nat) (write : Bool) (va n : Nat) : Except (Nat × Nat × Nat) (List Nat) :=
  (pagesOf va n).foldr (fun p acc =>
    match devReach s c write p with
    | .error e => .error (e.1, e.2, p)
    | .ok pa =>
      match acc with
      | .error e => .error e
      | .ok l => .ok (span pa (min (va + n) ((p / 65536 + 1) * 65536) - p) ++ l)) (.ok [])

/-- R400: the same for a read of the stretch, none of it poisoned. -/
def devMapGet (s : State) (c va n : Nat) : Except (Nat × Nat × Nat) (List Nat) :=
  match devMap s c false va n with
  | .error e => .error e
  | .ok pas => match pas.findSome? (byteCode s) with | some k => .error (0x60, k, va) | none => .ok pas

/-- Bytes written at their homes through a context's tables, and dropped from the caches of a mill and its
die, which hold no newer copy (log entry 15). -/
def devWrite (s : State) (mill : Nat) (pas : List Nat) (bs : List Byte) : State :=
  let lines := nub (pas.map lineOf)
  let s1 := clearPoison (healL1 ((lines.foldl bringBack s).wrAll (List.zip pas bs)) mill pas) pas
  pruneL1 { s1 with
    l1 := s1.l1.filter fun x => !(x.mill == mill && lines.contains x.line)
    rdc := s1.rdc.filter fun x => !(x.die == dieOf mill && lines.contains x.line) }

/-- The lines of a stretch written back from a mill's L1 and dropped. -/
def flushLines (s : State) (mill : Nat) (lines : List Nat) : State :=
  (s.l1.filter fun x => x.mill == mill && lines.contains x.line).foldl evictL1 s

/-! ### Stretches of an area (R103, R316, R340) -/

/-- Two stretches overlap. -/
def overlap (a n b m : Nat) : Bool := decide (a < b + m) && decide (b < a + n) && decide (0 < n) && decide (0 < m)

/-- A stretch is aligned, lies in an area and overlaps none that is taken. -/
def fitsAt (base size : Nat) (taken : List Span) (a n : Nat) : Bool :=
  a % 64 == 0 && decide (base ≤ a) && decide (a + n ≤ base + size) && taken.all fun t => !overlap a n t.base t.size

/-- Some aligned stretch of `n` bytes is free: one begins at the area's start or where a taken one ends. -/
def hasRoom (base size : Nat) (taken : List Span) (n : Nat) : Bool :=
  (roundUp base 64 :: taken.map fun t => roundUp (t.base + t.size) 64).any fun a => fitsAt base size taken a n

/-- PVBASE and PVSIZE of a context. -/
def State.arena (s : State) (c : Nat) : Nat × Nat := (fld (s.creg c oPVBASE) 0 56, s.creg c oPVSIZE)

/-- A stretch of the private arena may be taken. -/
def arenaFits (s : State) (c a n : Nat) : Bool := fitsAt (s.arena c).1 (s.arena c).2 (s.ctx c).arena a n

/-- The private arena has room. -/
def arenaRoom (s : State) (c n : Nat) : Bool := hasRoom (s.arena c).1 (s.arena c).2 (s.ctx c).arena n

/-- A stretch of the arena taken for a block. -/
def takeArena (s : State) (c a n bid : Nat) : State :=
  s.onCtx c fun x => { x with arena := x.arena ++ [{ base := a, size := n, bid := bid }] }

/-- A stretch of the arena freed. -/
def freeArena (s : State) (c a : Nat) : State :=
  s.onCtx c fun x => { x with arena := x.arena.filter fun t => t.base != a }

/-! ### The trap image (R342) -/

/-- Offset of the predicates. -/
def imgP (w b : Nat) : Nat := 0x200 + 4 * w * b
/-- Offset of the uniform registers. -/
def imgU (w b : Nat) : Nat := roundUp (imgP w b + 2 * w) 64
/-- Bytes of the image. -/
def imgSize (w b : Nat) : Nat := roundUp (imgU w b + 256 + 4 * w) 64

/-- The image with gaps filled by zero up to an offset. -/
def padTo (n : Nat) (bs : List Byte) : List Byte := bs ++ List.replicate (n - bs.length) 0

/-- R343: the disposition word the device writes first. -/
def firstDisposition (cause : Nat) : W64 := if cause == 0x03 then 1#64 <<< 56 else 3#64 <<< 56

/-- R342: the image of a group with its record. -/
def imageBytes (b : Block) (g : Group) (rcd : List W64) (cause : Nat) : List Byte :=
  let w := b.width
  let lanes := List.range w
  let x0 := padTo 0x100 (wordBytes (rcd ++ [firstDisposition cause]))
  let x1 := padTo 0x200 (x0 ++ lanes.flatMap fun l => leBytes 4 (sget ownerNone g.xowner l).toNat)
  let x2 := x1 ++ (List.range g.base).flatMap fun n => lanes.flatMap fun l => leBytes 4 (sget 0 g.v (128 * l + n)).toNat
  let x3 := padTo (imgU w g.base) (x2 ++ lanes.flatMap fun l => leBytes 2 (sget 0 g.p l).toNat)
  let x4 := x3 ++ (List.range 64).flatMap fun n => leBytes 4 (uget g n).toNat
  padTo (imgSize w g.base) (x4 ++ lanes.flatMap fun l => leBytes 4 (sget 0 g.draws l).toNat)

/-- R341, R342: a group's registers read back from its image's bytes. -/
def imageRead (w : Nat) (g : Group) (img : List Byte) : Group :=
  let num := fun o n => leNat ((img.drop o).take n)
  let lanes := List.range w
  { g with
    v := ssetAll 0 [] ((List.range g.base).flatMap fun n => lanes.map fun l =>
      (128 * l + n, BitVec.ofNat 32 (num (0x200 + 4 * (n * w + l)) 4)))
    p := ssetAll 0 [] (lanes.map fun l => (l, BitVec.ofNat 12 (num (imgP w g.base + 2 * l) 2)))
    u := ssetAll 0 [] ((List.range 64).map fun n => (n, BitVec.ofNat 32 (num (imgU w g.base + 4 * n) 4)))
    draws := ssetAll 0 [] (lanes.map fun l => (l, BitVec.ofNat 32 (num (imgU w g.base + 256 + 4 * l) 4))) }

/-! ### Taking a trap (R339 to R342) -/

/-- The handler image TRAPH names. -/
def handlerImage (s : State) (c : Nat) : Nat := fld (s.creg c oTRAPH) 7 49 * 128

/-- R340, code 3: the handler header is unusable. -/
def handlerBad (s : State) (c : Nat) : Bool :=
  let h := handlerImage s c
  match devMapGet s c h 128 with
  | .error _ => true
  | .ok pas =>
    let x := leNat (pas.map s.rd)
    !(fld x 0 8 == 3 && fld x 16 3 == 1 && fld x 24 8 == 0 && fld x 20 3 == 0 && fld x 32 4 == 0 && fld x 64 32 == 0 &&
      fld x 96 32 == 0 && !noSlot (BitVec.ofNat 64 (fld x 192 32)))

/-- The handler's entry offset and base count. -/
def handlerRole (s : State) (c : Nat) : Nat × Nat :=
  let h := handlerImage s c
  (devNat s c (h + 24) 4, devNat s c (h + 29) 1)

/-- The pages of a stretch take the image. -/
def imageWritable (s : State) (c a n : Nat) : Bool := match devMap s c true a n with | .ok _ => true | .error _ => false

/-- R340: the case in which a trap becomes fault 0x0D, tried in the order of its codes; `image` is the
arena address chosen, if any (log entry 15). -/
def trapCase (s : State) (b : Block) (g : Group) (image : Option W64) : Option Nat :=
  let n := imgSize b.width g.base
  if !bitOf (s.creg b.ctx oTRAPH) 0 then some 0
  else if !arenaRoom s b.ctx n then some 1
  else if (match image with | some a => !imageWritable s b.ctx a.toNat n | none => false) then some 2
  else if handlerBad s b.ctx then some 3
  else if g.base < (handlerRole s b.ctx).2 then some 4
  else if g.handler.isSome then some 5
  else none

/-- R340, R342: the trap image is written at an arena address, with its record. -/
def writeImage (s : State) (b : Block) (g : Group) (a : W64) (rcd : List W64) (cause : Nat) : State :=
  let n := imgSize b.width g.base
  match devMap s b.ctx true a.toNat n with
  | .error _ => s
  | .ok pas => takeArena (devWrite s b.mill pas (imageBytes b g rcd cause)) b.ctx a.toNat n b.bid

/-- The in-flight instructions of a group marked as set aside, or taken back. -/
def markAside (s : State) (bid gid : Nat) (x : Bool) : State :=
  { s with ops := updIf (fun o => o.bid == bid && o.gid == gid) (fun o => { o with aside := x }) s.ops }

/-- R340 step 3: the group in its handler run. -/
def handlerGroup (b : Block) (g : Group) (x : Stop) (rcd : List W64) (seq : BitVec 16) (image kimg : W64)
    (entry base cycle : Nat) : Group :=
  { g with
    v := []
    u := []
    p := []
    flags := []
    aside := g.flags
    draws := ssetAll 0 [] ((List.range b.width).map fun l => (l, 0x80000000#32))
    toks := []
    filter := []
    frags := [Frag.start 0 (kimg + BitVec.ofNat 64 entry) (allLanes b.width) cycle]
    base := base
    stop := none
    handler := some { stop := x, rcd := rcd, seq := seq, image := image, kimg := kimg, base := g.base, frags := g.frags,
                      toks := g.toks, filter := g.filter } }

/-- R340: the trap is taken: the record gets its number, the image is written, the group runs the handler. -/
def enterHandler (s : State) (b : Block) (g : Group) (x : Stop) (image : W64) : State :=
  let q := takeSeq s b.ctx
  let rcd := ({ groupRec s b g x.fid 0 x.pc x.word x.ev x.time with image := image } : Rec).words q.1 (s.rankOf b.ctx)
  let kimg := BitVec.ofNat 64 (handlerImage s b.ctx)
  let role := handlerRole s b.ctx
  let s1 := writeImage q.2 b g image rcd x.ev.cause
  (markAside s1 b.bid g.gid true).onGroup b.bid g.gid fun _ =>
    handlerGroup b g x rcd q.1 image kimg role.1 role.2 s.cycle

/-! ### Freezing a group (R345 to R348) -/

/-- The event a group freezes for: the fault met, or 0x0D for a trap without a usable handler. -/
def freezeEvent (x : Stop) (case : Option Nat) : Raised :=
  match case with
  | some k => { x.ev with cause := 0x0D, code := BitVec.ofNat 32 k, detail := 0, addr := 0 }
  | none => x.ev

/-- R345, R346, R348: the drained group freezes: its image is written where there is one, its record is
written, and the queue its work came from freezes for a fault. -/
def freezeGroup (s : State) (b : Block) (g : Group) (x : Stop) (ev : Raised) (image : Option W64) : State :=
  let cls := if classOf ev.cause == 2 then 2 else 1
  let q := takeSeq s b.ctx
  let ok := match image with | some a => imageWritable s b.ctx a.toNat (imgSize b.width g.base) | none => false
  let img := if ok then image else none
  let r := { groupRec s b g x.fid cls x.pc x.word ev x.time with image := img.getD 0 }
  let ws := r.words q.1 (s.rankOf b.ctx)
  let s1 := match img with | some a => writeImage q.2 b g a ws ev.cause | none => q.2
  let s2 := nameMaster (ringWrite s1 b.ctx ws) b.ctx q.1 (.group b.bid g.gid)
  let s3 := s2.onGroup b.bid g.gid fun g =>
    { g with stop := none, frozen := some { stop := { x with ev := ev }, seq := q.1, rcd := ws, image := img } }
  if cls == 1 then freezeQueueOf s3 b r else s3

/-- An in-flight instruction's count taken off its flag, or off the count set aside. -/
def uncount (g : Group) (o : LongOp) : Group :=
  match o.flag with
  | none => g
  | some i => if o.aside then { g with aside := sset 0 g.aside i (sget 0 g.aside i - 1) } else g.setFlag i (g.flag i - 1)

/-! ### Conflicts met in flight (R139, R343, R374) -/

/-- The in-flight instruction for whose conflict a group has stopped. -/
def conflictOp (s : State) (bid gid : Nat) (x : Stop) : Option LongOp :=
  (s.opsOf bid gid).find? fun o => o.fail.isSome && o.fid == x.fid && o.pc == x.pc

/-- R374: the access is abandoned in every lane. -/
def dropOp (s : State) (o : LongOp) : State :=
  ({ s with ops := s.ops.filter (·.id != o.id), colls := s.colls.filter (·.opId != o.id) } : State).onGroup o.bid o.gid fun g => uncount g o

/-- R374: the access is checked again, after all that has been checked meanwhile. -/
def recheckOp (s : State) (o : LongOp) : State :=
  let y := { o with fail := none }
  restampOp { s with ops := s.ops.filter (·.id != o.id) ++ [y] } y

/-- R343, R374: the access is checked again, or abandoned. -/
def sendOp (s : State) (o : LongOp) (again : Bool) : State := if again then recheckOp s o else dropOp s o

/-- `conflictMet`: the group of an access in conflict stops for it, once it can; one that has ended is there again until it is
sent on (log entry 10). -/
def conflictMet (s : State) (oid : Nat) : Option State :=
  match s.ops.find? (·.id == oid) with
  | none => none
  | some o =>
    match o.fail, s.group? o.bid o.gid with
    | some ev, some (b, g) =>
      if b.resident && g.stop.isNone && g.frozen.isNone && g.handler.isNone then
        some (s.onGroup o.bid o.gid fun g => { g with
          ended := false, stop := some { fid := o.fid, pc := o.pc, next := o.pc + 8, word := o.word, ev := ev, time := s.gtime, cycle := s.cycle } })
      else none
    | _, _ => none

/-! ### Returning from a handler run (R341, R343, R344) -/

/-- R344, R54: a fragment as it is when its group resumes. -/
def resumeFrag (cycle : Nat) (f : Frag) : Frag :=
  let g := { f with age := cycle, starved := false }
  match f.st with
  | .blocked _ _ => { g with st := .running }
  | _ => g

/-- The group as its handler run found it, with the registers of the image. -/
def restoredGroup (b : Block) (g : Group) (h : HandlerRun) (img : List Byte) (cycle : Nat) : Group :=
  let g1 := imageRead b.width { g with base := h.base } img
  { g1 with frags := h.frags.map (resumeFrag cycle), toks := h.toks, filter := h.filter, flags := g.aside, aside := [], handler := none }

/-- The trapping fragment sent on at a PC: within its clause where `keep`, else entered anew. -/
def sendFrag (g : Group) (fid : Nat) (pc : W64) (keep : Bool) (cycle : Nat) : Group :=
  { g with frags := updIf (·.fid == fid) (fun f => if keep then f.goOn pc cycle else f.enterAt pc cycle) g.frags }

/-- R343: the disposition's effect on the restored group; none says that the group freezes. -/
def disposed (g : Group) (x : Stop) (word : Nat) (cycle : Nat) : Option Group :=
  let act := fld word 56 8
  if act == 0 && x.ev.cause != 0x01 && x.ev.cause != 0x03 then some g
  else if act ≤ 1 then some (sendFrag g x.fid x.next true cycle)
  else if act == 2 then some (sendFrag g x.fid (BitVec.ofNat 64 (fld word 0 56)) false cycle)
  else if act == 4 then some (exitLanes cycle (sendFrag g x.fid x.next true cycle) x.fid x.ev.lanes)
  else none

/-- R341: a page of the image cannot be read back: the group freezes with fault 0x0D, code 6. -/
def readBackFault (s : State) (b : Block) (g : Group) (h : HandlerRun) : State :=
  let ev := { h.stop.ev with cause := 0x0D, code := 6, detail := 0, addr := 0 }
  let q := takeSeq s b.ctx
  let r := { groupRec s b g h.stop.fid 1 h.stop.pc h.stop.word ev s.gtime with image := h.image }
  let ws := r.words q.1 (s.rankOf b.ctx)
  let s1 := nameMaster (ringWrite q.2 b.ctx ws) b.ctx q.1 (.group b.bid g.gid)
  let s2 := s1.onGroup b.bid g.gid fun g => { g with frozen := some { stop := { h.stop with ev := ev }, seq := q.1, rcd := ws, image := some h.image } }
  freezeQueueOf s2 b r

/-- R343, R346: the disposition is fault: the group freezes, and its record is written with class 1 and
the number the trap gave it. -/
def dispositionFault (s : State) (b : Block) (g : Group) (h : HandlerRun) : State :=
  let ws := withClass h.rcd 1
  let s1 := nameMaster (ringWrite s b.ctx ws) b.ctx h.seq (.group b.bid g.gid)
  let s2 := s1.onGroup b.bid g.gid fun _ => { g with frozen := some { stop := h.stop, seq := h.seq, rcd := ws, image := some h.image } }
  freezeQueueOf s2 b { groupRec s b g h.stop.fid 1 h.stop.pc h.stop.word h.stop.ev h.stop.time with image := h.image }

/-- R343, R374: the disposition of a stop: of the fragment at its instruction, or of an access in conflict, whose fragment
has gone on. -/
def disposedAll (s : State) (b : Block) (g : Group) (x : Stop) (word : Nat) : Option State :=
  let at_ := fun (g : Group) => s.onGroup b.bid g.gid fun _ => g
  match conflictOp s b.bid g.gid x with
  | none => (disposed g x word s.cycle).map at_
  | some o => (if fld word 56 8 ≤ 1 then some g else disposed g x word s.cycle).map fun g2 => sendOp (at_ g2) o (fld word 56 8 == 0)

/-- R341, R343: the image is read back, with every write of the handler run, and the group resumes by its disposition, or
freezes. -/
def leaveHandler (s : State) (b : Block) (g : Group) (h : HandlerRun) : State :=
  match devMapGet s b.ctx h.image.toNat (imgSize b.width h.base) with
  | .error _ => readBackFault s b g h
  | .ok pas =>
    let s1 := flushLines s b.mill (nub (pas.map lineOf))
    let img := pas.map (ovByte s1.rd (stagedView s1 b))
    let g1 := { restoredGroup b g h img s.cycle with frozen := none }
    let s2 := markAside s1 b.bid g.gid false
    match disposedAll s2 b g1 h.stop (leNat ((img.drop 0x80).take 8)) with
    | some s3 => freeArena s3 b.ctx h.image.toNat
    | none => dispositionFault (s2.onGroup b.bid g.gid fun _ => g1) b g1 h

/-! ### A waiting fragment goes on, the end of a group, and REGX passing on (R67, R215, R266, R365) -/

/-- The PC after a waiting fragment's instruction: the one kept with it, else by its clause (R54, R82). -/
def Frag.after (f : Frag) : W64 :=
  match f.st, f.line with
  | .sleeping _ next, _ => next
  | .inDbar _ next, _ => next
  | _, some l => nextPc l f.pc 1
  | _, none => f.pc + 8

/-- A waiting fragment's instruction completes. -/
def Frag.wake (f : Frag) (cycle : Nat) : Frag := { f.goOn f.after cycle with age := cycle }

/-- The fragment waits in `LWAIT` for a pointer word that has reached its count. -/
def pointerMet (b : Block) (f : Frag) : Bool :=
  match f.st with
  | .blocked (.pointer off n) _ => decide (n.toNat ≤ b.sbNat off 4)
  | _ => false

/-- R270: the waiters that a block's pointer words satisfy go on, and stay satisfied. -/
def wakePointers (s : State) (bid : Nat) : State :=
  s.onBlock bid fun b => { b with groups := b.groups.map fun g => { g with frags := updIf (pointerMet b) (fun f => f.wake s.cycle) g.frags } }

/-- The fragment waits in `REGX.acq`. -/
def inRegx (f : Frag) : Bool := match f.st with | .blocked .regx _ => true | _ => false

/-- R266: a pair's set is released, and a partner blocked in `REGX.acq` then holds it. -/
def regxPass (b : Block) (gid cycle : Nat) : Block :=
  let next := b.groups.find? fun g => g.gid / 2 == gid / 2 && g.gid != gid && g.frags.any inRegx
  { b with
    exts := updIf (·.pair == gid / 2) (fun e => { e with holder := next.map (·.gid) }) b.exts
    groups := match next with
      | none => b.groups
      | some n => updIf (·.gid == n.gid) (fun g => { g with frags := updIf inRegx (fun f => f.wake cycle) g.frags }) b.groups }

/-- R278, R365: a group that has ended leaves its stone's expansions; a closed expansion is dropped. -/
def xuDrop (b : Block) (g : Group) : Block :=
  { b with xus := (b.xus.map fun e =>
      if e.stone == g.stone && e.slots.any fun x => x.gid == g.gid && !x.ended then xuLeave e b.width g.gid else e) }

/-- R278: an expansion whose every group has left and whose totals are all written is dropped. -/
def xuSweep (s : State) (bid : Nat) : State :=
  s.onBlock bid fun b => { b with xus := b.xus.filter fun e =>
    !((e.slots.all (·.ended)) && (e.complete || e.bad) &&
      !(s.ops.any fun o => o.bid == bid && (match o.fin with | .xend st _ _ => st == e.stone | _ => false))) }

/-- R215: the group holds no lane and its flags are clear. -/
def groupOver (g : Group) : Bool :=
  !g.ended && g.frags.isEmpty && g.flags.isEmpty && g.handler.isNone && g.stop.isNone && g.frozen.isNone

/-- R266: an in-flight instruction of the group names an extended register; one that waits for the host counts,
whatever it names. -/
def extBusy (s : State) (bid gid : Nat) : Bool :=
  (s.opsOf bid gid).any (·.ext) || s.awaits.any fun a => a.ext && a.f.bid == bid && a.f.gid == gid

/-- R266: an ended group that holds its pair's set gives it up, once nothing in flight names it. -/
def passEnded (s : State) (bid gid : Nat) : State :=
  match s.group? bid gid with
  | none => s
  | some (b, g) => if g.ended && b.holdsExt g && !extBusy s bid gid then s.setBlock (regxPass b gid s.cycle) else s

/-- R215, R365: the group ends if nothing is left of it. -/
def endGroup (s : State) (bid gid : Nat) : State :=
  match s.group? bid gid with
  | none => s
  | some (b, g) =>
    if groupOver g then s.setBlock (xuDrop { b with groups := updIf (·.gid == gid) (fun g => { g with ended := true }) b.groups } g) else s

/-- R215, R266, R365: the group ends if nothing is left of it, and gives up what it holds. -/
def settleGroup (s : State) (bid gid : Nat) : State := xuSweep (passEnded (endGroup s bid gid) bid gid) bid

/-! ### FCMD on a group (R347) -/

/-- The image a frozen group keeps for the driver is freed. -/
def freeImage (s : State) (b : Block) (z : Frozen) : State := match z.image with | some a => freeArena s b.ctx a.toNat | none => s

/-- The watch entries that fragments of a group are arming. -/
def armingOf (g : Group) : List Nat :=
  (g.frags ++ (match g.handler with | some h => h.frags | none => [])).filterMap fun f =>
    match f.st with | .blocked (.arming idx _) _ => some idx | _ => none

/-- R347: a killed group: every held lane exits, and its launch never completes. -/
def killGroup (s : State) (bid gid : Nat) : State :=
  match s.group? bid gid with
  | none => s
  | some (b, g) =>
    let s1 := match g.handler with | some h => freeArena s b.ctx h.image.toNat | none => s
    let s2 := match g.frozen with | some z => freeImage s1 b z | none => s1
    let s3 := (markAside s2 bid gid false).onGroup bid gid fun g =>
      { exitAll g with stop := none, frozen := none, handler := none, flags := if g.handler.isSome then g.aside else g.flags, aside := [] }
    let arming := armingOf g
    let s3 := (s3.opsOf bid gid).foldl (fun acc o => if o.fail.isSome then dropOp acc o else acc) s3
    let s3 := match b.launch with | some l => s3.onLaunch l fun l => { l with killed := true } | none => s3
    settleGroup { s3 with
      awaits := s3.awaits.filter fun a => !(a.f.bid == bid && a.f.gid == gid && decide (a.f.fid < 8))
      watches := s3.watches.filter fun w => w.armed || !arming.contains w.idx } bid gid

/-- R341: the group froze because its image could not be read back. -/
def readBackStop (g : Group) (z : Frozen) : Bool := g.handler.isSome && z.stop.ev.cause == 0x0D && z.stop.ev.code == 6

/-- R347: retry and skip of a frozen group. -/
def thawGroup (s : State) (bid gid : Nat) (skip : Bool) : State :=
  match s.group? bid gid with
  | none => s
  | some (b, g) =>
    match g.frozen with
    | none => s
    | some z =>
      match readBackStop g z, g.handler with
      | true, some h => leaveHandler s b { g with frozen := none } h
      | _, _ =>
        let g1 := { g with frozen := none, frags := g.frags.map (resumeFrag s.cycle) }
        match conflictOp s bid gid z.stop with
        | some o => freeImage (sendOp (s.onGroup bid gid fun _ => g1) o !skip) b z
        | none =>
        let g2 :=
          if skip then
            { g1 with frags := updIf (fun f => f.fid == z.stop.fid && f.pc == z.stop.pc) (fun f => f.goOn z.stop.next s.cycle) g1.frags }
          else { g1 with frags := updIf (fun f => f.fid == z.stop.fid && f.pc != z.stop.pc) (fun f => f.enterAt z.stop.pc s.cycle) g1.frags }
        freeImage (s.onGroup bid gid fun _ => g2) b z

end Sys2Proof.Machine
end

