-- ==== Sys2Proof/Machine/Queues.lean ====
section
/-! DEFINITION. Launch queues: doorbells, rings, packets consumed and dropped; where the kernel table's entries lie, and
how many slices have begun (R45, R47, R303, R308, R319, R347). -/

namespace Sys2Proof.Machine

/-- The register's value with only some bits kept. -/
def keepBits (x : W64) (hi lo : Nat) : W64 := BitVec.ofNat 64 (fld x.toNat lo (hi + 1 - lo) * 2 ^ lo)

/-! ### Queues (R45, R47) -/

/-- The queue is empty: its read index equals its doorbell's write index. -/
def queueEmpty (s : State) (c q : Nat) : Bool := s.readIdx c q == s.writeIdx c q

/-- R45: a doorbell write; an index at or above the ring's size is ignored. -/
def writeDoorbell (s : State) (c q : Nat) (x : W64) : State :=
  if (s.ctx c).present && decide (fld x.toNat 0 32 < s.ringSize c q) then s.onCtx c fun y => y.setReg (oDB q) (keepBits x 31 0) else s

/-- RCTLq from a read index and a size field. -/
def rctlWord (idx size : Nat) : W64 := packFields [(32, 16, idx), (0, 16, size)]

/-- R47: a write to RINGq, ignored while the queue is not empty. -/
def writeRing (s : State) (c q : Nat) (x : W64) : State :=
  if (s.ctx c).present && queueEmpty s c q then s.onCtx c fun y => y.setReg (oRING q) (keepBits x 55 6) else s

/-- R47, R303: a write to RCTLq's size; a change of size sets the read index and the doorbell to 0, where the replicas that
wait stand too. -/
def writeRctl (s : State) (c q : Nat) (x : W64) : State :=
  let size := fld x.toNat 0 16
  if !((s.ctx c).present && queueEmpty s c q) || size + 1 == s.ringSize c q then s
  else s.onCtx c fun y => ((y.setReg (oRCTL q) (rctlWord 0 size)).setReg (oDB q) 0).setQueue q
    { y.queue q with replicas := (y.queue q).replicas.map fun r => (0, r.2) }

/-- R47: the read index goes to the next slot. -/
def advanceRead (s : State) (c q : Nat) : State :=
  s.onCtx c fun y => y.setReg (oRCTL q) (rctlWord ((s.readIdx c q + 1) % s.ringSize c q) (s.ringSize c q - 1))

/-- R303: the oldest replica stands at the head: every packet its doorbell value covers has been read. -/
def replicaDue (s : State) (c q : Nat) : Option (List W64) :=
  match ((s.ctx c).queue q).replicas with
  | [] => none
  | (mark, pkt) :: _ => if mark.toNat == s.readIdx c q || queueEmpty s c q then some pkt else none

/-- A packet is consumed: a replica leaves its place, or the read index goes on (log entry 18). -/
def consumeAs (s : State) (c q : Nat) (replica : Bool) : State :=
  let s1 := if replica then s.onCtx c fun y => y.setQueue q { y.queue q with replicas := (y.queue q).replicas.drop 1 }
    else advanceRead s c q
  s1.onCtx c fun y => y.setQueue q { y.queue q with read := (y.queue q).read + 1 }

/-- The packet of a launch is consumed. -/
def consumePacket (s : State) (l : Launch) : State := consumeAs s l.ctx l.queue l.replica

/-- A launch is dropped (R347): it dispatches no further block and never adds to its counter. -/
def dropLaunch (s : State) (lid : Nat) : State :=
  match s.launch? lid with
  | none => s
  | some l =>
    let head := ((s.ctx l.ctx).queue l.queue).head == some lid
    let s1 := if head && l.next == 0 then consumePacket s l else s
    let s2 := s1.onCtx l.ctx fun y => y.setQueue l.queue { y.queue l.queue with head := if head then none else (y.queue l.queue).head }
    s2.onLaunch lid fun l => { l with dropped := true, phase := .dispatched }

/-! ### The kernel table and the slices (R308, R319) -/

/-- R319: the address of a kernel table entry. -/
def ktEntry (s : State) (c k : Nat) : Nat := fld (s.creg c oKTBASE) 3 53 * 8 + 8 * k

/-- R308: how many slices have begun at a time under a schedule; none before its t0. With a period of 0,
outside R307's values, slice 0 lasts for ever (log entry 65). -/
def slicesBegun (now t0 per : W64) : Nat :=
  if now.toNat < t0.toNat then 0 else (now.toNat - t0.toNat) / (fld per.toNat 0 16 * 100000) + 1

end Sys2Proof.Machine
end

