-- ==== Sys2Proof/Machine/Kernels.lean ====
section
/-! DEFINITION. Kernel images: the kernel indirection table, kernel headers and the binding of an image
(R91, R319, R367, R395); and the packet's own check (R44, R367). -/

namespace Sys2Proof.Machine

/-- Why a kernel cannot be bound: cause, code and address. -/
abbrev BindErr := Nat × Nat × Nat

/-- R319, R367: the image that a kernel index names. -/
def kernelEntry (s : State) (c k : Nat) : Except BindErr Nat :=
  if fld (s.creg c oKTSIZE) 0 16 < k then .error (0x0C, 0, 0)
  else
    let va := ktEntry s c k
    match devGet s c false va 8 with
    | .error e => .error (e.1, e.2, va)
    | .ok pa =>
      let x := s.rdNat pa 8
      if bitOf x 63 && fld x 56 7 == 0 && fld x 0 7 == 0 then .ok (fld x 0 56) else .error (0x0C, 0, 0)

/-- Role *i* of a header's 1,024 bits (R91). -/
def headerRole (x i : Nat) : Role :=
  { entry := fld x (192 + 64 * i) 32, groups := fld x (224 + 64 * i) 8, base := fld x (232 + 64 * i) 8 }

/-- R91, R367: the role breaks a value range. The entry of a role past the role count, for which R91 gives no value, is
held to 0 as its other fields are (log entry 61). -/
def roleBad (x i : Nat) : Bool :=
  let r := headerRole x i
  if i < fld x 16 3 then
    fld x (240 + 64 * i) 16 != 0 || decide (r.entry < 128) || noSlot (BitVec.ofNat 64 r.entry) ||
      r.groups == 0 || decide (32 < r.groups) || r.base == 0 || decide (128 < r.base)
  else fld x (192 + 64 * i) 64 != 0

/-- R91, R367: the header breaks a value range. -/
def headerBad (x : Nat) : Bool :=
  let n := fld x 16 3
  fld x 448 576 != 0 || fld x 128 64 != 0 || fld x 36 28 != 0 || bitOf x 23 || bitOf x 19 || fld x 0 8 != 3 ||
    !([8, 16, 32, 64].contains (fld x 8 8)) || n == 0 || decide (4 < n) || decide (64 < fld x 24 8) || decide (14 < fld x 32 4) ||
    fld x 64 32 % 64 != 0 || decide (2 ^ 20 < fld x 64 32) || fld x 96 32 % 4 != 0 ||
    ((List.range 4).any fun i => roleBad x i) ||
    decide (32 < ((List.range n).foldl (fun t i => t + (headerRole x i).groups) 0))

/-- The kernel a header gives (R91). -/
def kernelOf (image k x : Nat) : Kernel where
  image := BitVec.ofNat 64 image
  index := k
  width := fld x 8 8
  roles := (List.range (fld x 16 3)).map fun i => headerRole x i
  ext := fld x 24 8
  maps := fld x 32 4
  scratch := fld x 64 32
  priv := fld x 96 32
  checked := bitOf x 20
  det := bitOf x 21
  scout := bitOf x 22

/-- R319, R367: the kernel that an index binds now, or why it cannot be bound. -/
def bindKernel (s : State) (c k : Nat) : Except BindErr Kernel :=
  match kernelEntry s c k with
  | .error e => .error e
  | .ok image =>
    match devGet s c false image 128 with
    | .error e => .error (e.1, e.2, image)
    | .ok pa =>
      let x := s.rdNat pa 128
      if headerBad x then .error (0x0C, 0, 0) else .ok (kernelOf image k x)

/-- R44, R367: the lowest 32-bit word of a packet that holds a reserved value or a misaligned counter. -/
def packetBad (x : Nat) : Option Nat :=
  if 1 < fld x 0 8 || bitOf x 8 || fld x 12 4 != 0 then some 0
  else if fld x 120 8 != 0 then some 3
  else if fld x 128 3 != 0 then some 4
  else if fld x 184 8 != 0 then some 5
  else if fld x 256 3 != 0 then some 8
  else if fld x 312 8 != 0 then some 9
  else if fld x 480 32 != 0 then some 15
  else none

end Sys2Proof.Machine
end

