-- ==== Sys2Proof/Machine/Place.lean ====
section
/-! DEFINITION. Placement: what a mill has room for, the areas a block takes, and a block's start
(R22 to R27, R50, R55, R58, R67, R68, R103, R235, R279, R308, R316, R383). -/

namespace Sys2Proof.Machine

/-! ### Groups of a kernel (R23, R52) -/

/-- A group to be: its number, its role and the role's fields. -/
structure GroupPlan where
  gid  : Nat
  role : Nat
  spec : Role
  deriving DecidableEq, Repr

/-- The stone of a group (R25). -/
def stoneOf (gid : Nat) : Nat := gid / 2 % 4

/-- The groups of a launched block, numbered in role order. -/
def planRoles : Nat → Nat → List Role → List GroupPlan
  | _, _, [] => []
  | gid, i, r :: rs => ((List.range r.groups).map fun k => { gid := gid + k, role := i, spec := r }) ++ planRoles (gid + r.groups) (i + 1) rs

/-- The groups of a block: by the role table, or the trigger groups for `n` changed sectors (R52). -/
def planGroups (k : Kernel) (n : Option Nat) : List GroupPlan :=
  match n with
  | none => planRoles 0 0 k.roles
  | some n => (List.range (ceilDiv n 8)).map fun i => { gid := i, role := 0, spec := k.roles.headD { entry := 0, groups := 0, base := 0 } }

/-! ### Rows, slots and scratchpad (R26, R27) -/

/-- Rows taken in some slot lanes of a stone; `group` marks a group's own. -/
structure Occ where
  stone : Nat
  mask  : LaneMask
  rows  : Nat
  group : Bool
  deriving DecidableEq, Repr

/-- The slot lanes of a group of width `w` at position `q`. -/
def slotMask (w q : Nat) : LaneMask := allLanes w <<< (w * q)

/-- The base count a group was given, whatever it holds in a handler run. -/
def roleBase (b : Block) (g : Group) : Nat := (b.kernel.roles.getD g.role { entry := 0, groups := 0, base := 0 }).base

/-- A group as a mill holds it: its number, its base count, or 0 where it has ended, and its position. -/
abbrev Held := Nat × Nat × Nat

/-- R27: the group's pair has its extended set allocated in this group's lanes: it is the first of the pair, and one of
the two still lives. Where the two stand at different positions the manual names no lanes (log entry 61). -/
def extAt (k : Kernel) (gs : List Held) (y : Held) : Bool :=
  k.ext != 0 && (gs.find? fun z => z.1 / 2 == y.1 / 2) == some y && gs.any fun z => z.1 / 2 == y.1 / 2 && z.2.1 != 0

/-- R27: what groups of one block take: each its rows, and each pair its extended set. -/
def occOf (k : Kernel) (gs : List Held) : List Occ :=
  gs.flatMap fun y =>
    let m := slotMask k.width y.2.2
    (if y.2.1 == 0 then [] else [{ stone := stoneOf y.1, mask := m, rows := y.2.1, group := true }]) ++
      if extAt k gs y then [{ stone := stoneOf y.1, mask := m, rows := k.ext, group := false }] else []

/-- The blocks that live on a mill. -/
def residents (s : State) (mill : Nat) : List Block := s.blocks.filter fun b => b.resident && !b.ended && b.mill == mill

/-- A block's group at a position. -/
def heldAt (b : Block) (g : Group) (q : Nat) : Held := (g.gid, if g.ended then 0 else roleBase b g, q)

/-- What a resident block takes. -/
def Block.occ (b : Block) : List Occ := occOf b.kernel (b.groups.map fun g => heldAt b g g.pos)

/-- R27: no stone holds more than 16 groups, and no slot lane more than 1,024 rows. -/
def occOk (xs : List Occ) : Bool :=
  (List.range 4).all fun st =>
    let ys := xs.filter (·.stone == st)
    decide ((ys.filter (·.group)).length ≤ 16) &&
      (List.range 64).all fun l => decide (ys.foldl (fun n y => if hasLane y.mask l then n + y.rows else n) 0 ≤ 1024)

/-- The stones some groups lie on. -/
def stonesOf (gids : List Nat) : List Nat := (List.range 4).filter fun st => gids.any fun g => stoneOf g == st

/-- R27: each stone has room for the declared map slots, and the mill for the scratchpad (R11). -/
def slotsOk (s : State) (mill : Nat) (k : Kernel) (gids : List Nat) : Bool :=
  let rs := residents s mill
  ((stonesOf gids).all fun st =>
    decide (rs.foldl (fun n b => if (stonesOf (b.groups.map (·.gid))).contains st then n + b.kernel.maps else n) k.maps ≤ 16)) &&
  decide (rs.foldl (fun n b => n + b.kernel.scratch) k.scratch ≤ 2 ^ 20)

/-- R58: a block's save is not finished on the mill, and incoming work waits for it. -/
def millSaving (s : State) (mill : Nat) : Bool := (residents s mill).any (·.saving)

/-- R27, R58: the groups fit on a mill at some positions. -/
def fitsMill (s : State) (mill : Nat) (k : Kernel) (gs : List Held) : Bool :=
  decide (mill < 384) && !millSaving s mill && (gs.all fun g => decide ((g.2.2 + 1) * k.width ≤ 64)) &&
    slotsOk s mill k (gs.map (·.1)) && occOk ((residents s mill).flatMap Block.occ ++ occOf k gs)

/-- Positions tried for one group after another, the lowest first, until the groups fit and `next` answers. -/
def tryPlaces (s : State) (mill : Nat) (k : Kernel) (next : List Held → Option α) : List (Nat × Nat) → List Held → Option α
  | [], acc => next acc
  | (gid, base) :: rest, acc => (List.range (64 / k.width)).findSome? fun q =>
      let acc1 := acc ++ [(gid, base, q)]
      if fitsMill s mill k acc1 then tryPlaces s mill k next rest acc1 else none

/-- The first positions at which a mill takes the groups. -/
def seekPlaces (s : State) (mill : Nat) (k : Kernel) (gs : List (Nat × Nat)) : Option (List Held) := tryPlaces s mill k some gs []

/-- The mill has room for a kernel's groups. -/
def millRoom (s : State) (k : Kernel) (gs : List (Nat × Nat)) (mill : Nat) : Bool := (seekPlaces s mill k gs).isSome

/-- The die has a mill with room. -/
def dieRoom (s : State) (k : Kernel) (gs : List (Nat × Nat)) (die : Nat) : Bool := (span (96 * die) 96).any (millRoom s k gs)

/-- Groups and base counts of a plan. -/
def planBases (p : List GroupPlan) : List (Nat × Nat) := p.map fun g => (g.gid, g.spec.base)

/-! ### Areas (R55, R103, R315, R316, R383) -/

/-- R55: the bytes of a block's save image. -/
def saveSize (k : Kernel) (p : List GroupPlan) : Nat :=
  let w := k.width
  let perGroup := p.foldl (fun n g => n + 4 * w * g.spec.base + 2 * w + 256 + 32 + 512 + 256 + 512 + 4 * w + 4 * w) 0
  let pairs := (nub (p.map fun g => g.gid / 2)).length
  let stones := (stonesOf (p.map (·.gid))).length
  roundUp (256 + perGroup + (if k.ext == 0 then 0 else pairs * (4 * w * k.ext + 8)) + stones * (k.maps * (16384 + 8) + 4416) +
    k.scratch + (if k.checked then k.scratch / 16 else 0)) 64

/-- R103: the bytes of a block's private region. -/
def privSize (k : Kernel) (p : List GroupPlan) : Nat := p.length * k.width * k.priv

/-- The save area of a context. -/
def State.saveArea (s : State) (c : Nat) : Nat × Nat := (fld (s.creg c oSAVEB) 16 24 * 65536, fld (s.creg c oSAVES) 0 24 * 65536)

/-- The staging pool of a context. -/
def State.stagePool (s : State) (c : Nat) : Nat × Nat := (fld (s.creg c oSTAGB) 16 24 * 65536, fld (s.creg c oSTAGS) 0 24 * 65536)

/-- R316: bytes of a block's staging area. -/
def stageSize (det : Bool) : Nat := if det then 256 * 1024 else 0

/-- The areas have room for a block. -/
def areasRoom (s : State) (c : Nat) (k : Kernel) (p : List GroupPlan) (det : Bool) : Bool :=
  (privSize k p == 0 || arenaRoom s c (privSize k p)) &&
  hasRoom (s.saveArea c).1 (s.saveArea c).2 (s.ctx c).saves (saveSize k p) &&
  (!det || hasRoom (s.stagePool c).1 (s.stagePool c).2 (s.ctx c).stages (stageSize det))

/-- The areas a placement names may be taken. -/
def areasFit (s : State) (c : Nat) (k : Kernel) (p : List GroupPlan) (det : Bool) (x : Placement) : Bool :=
  (privSize k p == 0 || arenaFits s c x.priv.toNat (privSize k p)) &&
  fitsAt (s.saveArea c).1 (s.saveArea c).2 (s.ctx c).saves x.save (saveSize k p) &&
  (!det || fitsAt (s.stagePool c).1 (s.stagePool c).2 (s.ctx c).stages x.stage (stageSize det))

/-- The areas taken for a block. -/
def takeAreas (s : State) (c bid : Nat) (k : Kernel) (p : List GroupPlan) (det : Bool) (x : Placement) : State :=
  s.onCtx c fun y => { y with
    arena := if privSize k p == 0 then y.arena else y.arena ++ [{ base := x.priv.toNat, size := privSize k p, bid := bid }]
    saves := y.saves ++ [{ base := x.save, size := saveSize k p, bid := bid }]
    stages := if det then y.stages ++ [{ base := x.stage, size := stageSize det, bid := bid }] else y.stages }

/-- The placement gives every group of a plan its position. -/
def planPlaces (p : List GroupPlan) (x : Placement) : List Held :=
  (List.zip p x.pos).map fun (y : GroupPlan × Nat) => (y.1.gid, y.1.spec.base, y.2)

/-- R27, R50, R103, R316, R383: a block may be placed as a placement says. -/
def placeable (s : State) (c : Nat) (k : Kernel) (p : List GroupPlan) (det : Bool) (x : Placement) : Bool :=
  x.pos.length == p.length && fitsMill s x.mill k (planPlaces p x) && areasFit s c k p det x

/-! ### A block's start (R23, R26, R29, R52, R68, R235) -/

/-- A group at its start; `lanes` are the lanes it holds. -/
def startGroup (k : Kernel) (p : GroupPlan) (pos cycle : Nat) (lanes : LaneMask) : Group where
  gid := p.gid
  role := p.role
  stone := stoneOf p.gid
  pos := pos
  base := p.spec.base
  v := []
  u := []
  p := []
  flags := []
  aside := []
  draws := []
  xowner := []
  ctr := []
  toks := []
  nextTok := 0
  filter := []
  frags := [Frag.start 0 (k.image + BitVec.ofNat 64 p.spec.entry) lanes cycle]
  stop := none
  frozen := none
  handler := none
  ended := false

/-- R52: the lanes a group holds at its start. -/
def startLanes (k : Kernel) (n : Option Nat) (gid : Nat) : LaneMask :=
  match n with
  | none => allLanes k.width
  | some n => allLanes (min 8 (n - 8 * gid))

/-- The unbound map slots of a block. -/
def startSlots (k : Kernel) (gids : List Nat) : List MapSlot :=
  (stonesOf gids).flatMap fun st => (List.range k.maps).map fun i => { stone := st, k := i + 1, image := [], fmt := 0, bound := false }

/-- The extended sets of a block. -/
def startExts (k : Kernel) (gids : List Nat) : List ExtSet :=
  if k.ext == 0 then [] else (nub (gids.map (· / 2))).map fun j => { pair := j, holder := none, regs := [] }

/-- What a new block comes from: its context, its launch or its record, its index, and its stamp identity. -/
structure Origin where
  ctx    : Nat
  launch : Option Nat
  trig   : Option TrigRec
  index  : W32
  det    : Bool

/-- R134: under which identity a trigger block acts. -/
def trigIdent (bid : Nat) (index : W32) (t : TrigRec) : Ident :=
  match t.storer with
  | .block _ _ _ _ _ who => who
  | _ => { key := bid, blk := index, launch := none }

/-- The stamp identity of a new block. -/
def Origin.ident (o : Origin) (bid : Nat) : Ident :=
  match o.trig with
  | some t => trigIdent bid o.index t
  | none => { key := bid, blk := o.index, launch := o.launch }

/-- A block starts at a placement: its areas, its groups, and an acquire of what its dependence covers (R48,
R136). -/
def startBlock (s : State) (o : Origin) (k : Kernel) (x : Placement) : State :=
  let bid := s.nextId
  let n := o.trig.map (·.sectors.length)
  let plan := planGroups k n
  let gids := plan.map (·.gid)
  let b : Block := { bid := bid, ctx := o.ctx, launch := o.launch, trig := o.trig, index := o.index, kernel := k, mill := x.mill,
                     resident := true, saving := false, priv := if privSize k plan == 0 then 0 else x.priv, save := x.save,
                     stage := if o.det then some x.stage else none, scratch := [], tags := [], slots := startSlots k gids,
                     exts := startExts k gids, xus := [], staged := [], ident := o.ident bid,
                     groups := (List.zip plan x.pos).map fun (y : GroupPlan × Nat) => startGroup k y.1 y.2 s.cycle (startLanes k n y.1.gid),
                     ended := false, away := false, stuck := false, taken := false, killed := false }
  let s1 := takeAreas (acquireAt { s with nextId := s.nextId + 1 } x.mill .system) o.ctx bid k plan o.det x
  { s1 with blocks := s1.blocks ++ [b] }

/-! ### Slices (R308) -/

/-- R308: the schedule in force: the one written while slicing was on, once an instant has come since. -/
def scheduleNow (s : State) : W64 × W64 :=
  match s.slNext with
  | some x => if s.slBegun < slicesBegun s.gtime s.slt0 s.slper then x else (s.slt0, s.slper)
  | none => (s.slt0, s.slper)

/-- Slicing is in force. -/
def slicing (s : State) : Bool := bitOf (scheduleNow s).2.toNat 20

/-- The context owns the current slice, or no slicing is in force. -/
def ownsSlice (s : State) (c : Nat) : Bool :=
  if !slicing s then true
  else
    let x := scheduleNow s
    let n := slicesBegun s.gtime x.1 x.2
    n != 0 && fld (s.creg c oDOMCFG) 16 4 == (n - 1) % (fld x.2.toNat 16 4 + 1)

end Sys2Proof.Machine
end

