-- ==== Sys2Proof/Machine/SaveImage.lean ====
section
/-! DEFINITION. The bytes of a save image, item by item, and what a restore reads of them (R55, R56, R280, R384, R412;
log entries 23 and 62). -/

namespace Sys2Proof.Machine

/-- Bytes of an image, none for those to which the manual gives no contents. -/
abbrev ImageBytes := List (Option Byte)

/-- Bytes with contents. -/
def laidOut (bs : List Byte) : ImageBytes := bs.map some

/-- `n` bytes with no contents. -/
def openBytes (n : Nat) : ImageBytes := List.replicate n none

/-- A 32-bit word. -/
def word4 (x : W32) : List Byte := leBytes 4 x.toNat

/-- R55, R342: the vector registers, register by register, then the predicates and the uniform registers. -/
def imageRegs (b : Block) (g : Group) : List Byte :=
  let lanes := List.range b.width
  ((List.range (roleBase b g)).flatMap fun n => lanes.flatMap fun l => word4 (sget 0 g.v (128 * l + n))) ++
    (lanes.flatMap fun l => leBytes 2 (sget 0 g.p l).toNat) ++ (List.range 64).flatMap fun n => word4 (uget g n)

/-- R53, R55: the part of a flag's count that an `XEND` or `COLL` saved in flight holds. -/
def heldCount (s : State) (bid gid fl : Nat) : Nat :=
  ((s.opsOf bid gid).filter fun o => waitsOutside o && !o.aside && o.flag == some fl).length

/-- R55: the completion flags, with the counts held by instructions saved in flight. -/
def imageFlags (s : State) (b : Block) (g : Group) : ImageBytes :=
  (laidOut ((List.range 12).map fun i => BitVec.ofNat 8 (g.flag i)) ++ openBytes 4) ++
    (laidOut ((List.range 12).map fun i => BitVec.ofNat 8 (heldCount s b.bid g.gid i)) ++ openBytes 4)

/-- R55: the open tokens, innermost last, of sixteen places; one that is not open has an empty set. -/
def imageTokens (g : Group) : List Byte :=
  (List.range 16).flatMap fun i => match g.toks[i]? with
    | some t => leBytes 8 t.join.toNat ++ leBytes 8 t.part.toNat
    | none => List.replicate 16 0

/-- The code of a fragment's state in its record: 5 is blocked in a waiting instruction, which runs again (R54). -/
def stateCode : FState → Nat
  | .running => 0
  | .blocked .filter _ => 0
  | .blocked _ _ => 5
  | .awaiting _ => 0
  | .parked _ => 1
  | .sleeping _ _ => 2
  | .inDbar dom _ => if dom then 4 else 3

/-- The place of a token in a group's stack, from 1. -/
def tokPlace (g : Group) (t : Nat) : Nat := match (numbered g.toks).find? fun p => p.2.id == t with | some p => p.1 + 1 | none => 0

/-- Whether a fragment that sleeps or waits in `DBAR` goes on in its own line. -/
def staysInLine (f : Frag) : Bool := f.after == f.pc + 8

/-- R55: fragment record `i`: its first word, the PC, the held mask, `$exm`, the wake time, and the pending side recorded
first (log entry 62). -/
def imageFrag (g : Group) (i : Nat) : List Byte :=
  match g.frag? i with
  | none => List.replicate 64 0
  | some f =>
    let p := f.pends.head?
    let w0 := packFields [(0, 1, 1), (1, 3, stateCode f.st), (4, 1, if f.mid || f.line.isSome then 1 else 0),
      (5, 1, if staysInLine f then 1 else 0), (6, 1, if p.isSome then 1 else 0), (7, 1, if f.solo then 1 else 0),
      (8, 8, match f.st with | .parked t => tokPlace g t | _ => 0),
      (16, 8, match p.bind (·.tok) with | some t => tokPlace g t | none => 0)]
    let wake : W64 := match f.st with | .sleeping w _ => w | _ => 0
    wordBytes [w0, f.pc, f.held, f.exm, wake, (p.map (·.pc)).getD 0, (p.map (·.mask)).getD 0, 0]

/-- R55, R144: an entry of the divergence filter: the sector in bits 51 to 0, a scratchpad sector from 2^49 upward; then
the writer and 1, or 0, and the readers. For a sector of a window page the four bits are 9 without a writer and 10 with
one, whose number and own reading the readers' byte then holds, since it alone may have read (log entry 62). -/
def imageFilt (x : FiltEntry) : W64 :=
  let far := decide (farBase ≤ x.sector)
  let y := match far, x.writer with
    | false, none => (0, x.readers.toNat)
    | false, some i => (i + 1, x.readers.toNat)
    | true, none => (9, x.readers.toNat)
    | true, some i => (10, i + if x.readers.getLsbD i then 8 else 0)
  packFields [(0, 52, if x.scratch then 2 ^ 49 + x.sector else x.sector), (52, 4, y.1), (56, 8, y.2)]

/-- R55: the divergence filter, of 64 places. -/
def imageFilter (g : Group) : List Byte := wordBytes ((List.range 64).map fun i => match g.filter[i]? with | some x => imageFilt x | none => 0)

/-- R55: a group's items: registers, flags, fragment records, tokens, filter, draw indices, owners. -/
def imageGroup (b : Block) (g : Group) (flags : ImageBytes) : ImageBytes :=
  let lanes := List.range b.width
  laidOut (imageRegs b g) ++ flags ++
    laidOut ((List.range 8).flatMap (imageFrag g) ++ imageTokens g ++ imageFilter g ++
      (lanes.flatMap fun l => word4 (sget 0 g.draws l)) ++ lanes.flatMap fun l => word4 (sget ownerNone g.xowner l))

/-- R55: a pair's extended set and its holder: its number and 1, or 0. -/
def imageExt (b : Block) (e : ExtSet) : List Byte :=
  ((List.range b.kernel.ext).flatMap fun n => (List.range b.width).flatMap fun l => word4 (sget 0 e.regs (64 * l + n))) ++
    leBytes 8 (match e.holder with | some i => i + 1 | none => 0)

/-- R412: a map slot's 4,096 words and its tail. -/
def imageSlot (m : MapSlot) : List Byte :=
  ((List.range 4096).flatMap fun i => word4 (sget 0 m.image i)) ++ word4 m.fmt ++ leBytes 4 (if m.bound then 1 else 0)

/-- R280: the record of slot `i` of an expansion. -/
def imageXuSlot (e : Expansion) (i : Nat) : List Byte :=
  match e.slots[i]? with
  | none => List.replicate 320 0
  | some x =>
    leBytes 4 x.rounds ++ leBytes 4 ((if x.resolved then 1 else 0) + if x.unapplied == 0 then 0 else 2) ++ leBytes 4 x.heldRound ++
      List.replicate 4 0 ++ leBytes 8 x.unapplied.toNat ++ List.replicate 40 0 ++ (List.range 64).flatMap fun l => word4 (sget 0 x.contrib l)

/-- A mask of the slots that satisfy `f`. -/
def slotBits (e : Expansion) (f : XSlot → Bool) : Nat :=
  ((List.range 4).filter fun i => match e.slots[i]? with | some x => f x | none => false).foldl (fun n i => n + 2 ^ i) 0

/-- R280: the expand-unit item. -/
def imageXu (e : Expansion) : List Byte :=
  let owners := List.range 256
  leBytes 4 e.total ++ (packFields [(0, 4, e.deal), (4, 2, e.n - 1), (8, 4, foldCode e.op), (16, 4, slotBits e fun _ => true),
      (20, 4, slotBits e (·.ended))] |> fun x => leBytes 4 x.toNat) ++ List.replicate 56 0 ++
    (owners.flatMap fun o => word4 (sget 0 e.start o)) ++
    (owners.flatMap fun o => leBytes 4 (if e.complete then e.baseOf o else e.lenOf o)) ++
    (owners.flatMap fun o => word4 (e.accOf o)) ++ (List.range 4).flatMap (imageXuSlot e)

/-- R55: a stone's map slots, and its expand-unit item where an expansion is open. -/
def imageStone (b : Block) (stone : Nat) : List Byte :=
  ((List.range b.kernel.maps).flatMap fun i =>
    imageSlot ((b.slots.find? fun m => m.stone == stone && m.k == i + 1).getD { stone := stone, k := i + 1, image := [], fmt := 0, bound := false })) ++
    match b.openXu? stone with | some e => imageXu e | none => []

/-- A kernel header's first 56 bytes (R91). -/
def headerWords (k : Kernel) : List W64 :=
  let bit := fun (b : Bool) => if b then 1 else 0
  packFields [(0, 8, 3), (8, 8, k.width), (16, 3, k.roles.length), (20, 1, bit k.checked), (21, 1, bit k.det), (22, 1, bit k.scout),
      (24, 8, k.ext), (32, 4, k.maps)] ::
    packFields [(0, 32, k.scratch), (32, 32, k.priv)] :: 0 ::
    (List.range 4).map fun i => match k.roles[i]? with
      | some r => packFields [(0, 32, r.entry), (32, 8, r.groups), (40, 8, r.base)]
      | none => 0

/-- The groups of a stone's open expansion, each plus one, in a byte each. -/
def xuWord (b : Block) (stone : Nat) : Nat :=
  match b.openXu? stone with
  | none => 0
  | some e => (numbered e.slots).foldl (fun n (p : Nat × XSlot) => n + (p.2.gid + 1) * 256 ^ p.1) 0

/-- R55: the block header: the context and encoding version 3, the block index, the launch's count, the image and the
kernel index, the queue and the ranks, the frozen groups (R345), the private region, the groups of open expansions; the
packet; the kernel header, which holds the role table (log entry 62). -/
def imageHeader (s : State) (b : Block) : List Byte :=
  let l := s.launchOf b
  let num := fun (f : Launch → Nat) => match l with | some x => f x | none => 0
  padTo 256 (wordBytes ([packFields [(0, 32, b.ctx), (32, 32, 3)], packFields [(0, 32, b.index.toNat), (32, 32, num (·.count.toNat))],
      b.kernel.image, packFields [(0, 32, b.kernel.index), (32, 8, num (·.queue)), (40, 8, num (·.rank)), (48, 8, num (·.nrank)),
      (56, 1, num fun _ => 1)],
      (b.groups.filter (·.frozen.isSome)).foldl (fun m g => m ||| (1#64 <<< g.gid)) 0, b.priv,
      packFields [(0, 32, xuWord b 0), (32, 32, xuWord b 1)], packFields [(0, 32, xuWord b 2), (32, 32, xuWord b 3)]] ++
    (List.range 8).map (fun i => match l with | some x => x.packet.getD i 0 | none => 0) ++ headerWords b.kernel))

/-- R55: the save image of a block, with its groups' completion flags. -/
def imageWith (s : State) (b : Block) (flags : Group → ImageBytes) : ImageBytes :=
  laidOut (imageHeader s b) ++ (b.groups.flatMap fun g => imageGroup b g (flags g)) ++
    laidOut ((if b.kernel.ext == 0 then [] else b.exts.flatMap (imageExt b)) ++
      ((stonesOf (b.groups.map (·.gid))).flatMap (imageStone b)) ++ ((List.range b.kernel.scratch).map b.sb) ++
      (if b.kernel.checked then (List.range (b.kernel.scratch / 16)).map (sget 0 b.tags) else []))

/-- R55: the save image of a block. -/
def saveImage (s : State) (b : Block) : ImageBytes := imageWith s b (imageFlags s b)

/-- R53 step 4: the image is written to the save area; a byte with no contents takes a free value. -/
def writeSave (s : State) (b : Block) : State :=
  let img := saveImage s b
  let bytes := (numbered img).map fun p => p.2.getD ((Config.openValue ((s.nextId + 1) * 2 ^ 56 + p.1)).setWidth 8)
  let s1 := rawWrite s b.save bytes
  { s1 with nextId := s.nextId + 1, errs := s1.errs.filter (· != .image b.bid) }

/-- R347: what FCMD changes of a saved block is changed in its image. -/
def resave (s0 s : State) : State :=
  s.blocks.foldl (fun acc b => if b.resident || b.ended || b.away || s0.block? b.bid == some b then acc else writeSave acc b) s

/-- R384: the image cannot be read back: an uncorrectable error stands in it, or in a word of HBM that holds it. -/
def imageBroken (s : State) (b : Block) : Bool :=
  s.errs.contains (.image b.bid) || (span b.save (saveImage s b).length).any (poisoned s)

/-- R384: the image's header names another context or another encoding version. -/
def imageForeign (s : State) (b : Block) : Bool := s.rdNat b.save 4 != b.ctx || s.rdNat (b.save + 4) 4 != 3

/-! ### What a restore reads (R56) -/

/-- The image holds what the block held when it was saved; a completion may since have lowered a flag (R53). -/
def imageKept (s : State) (b : Block) : Bool :=
  (numbered (imageWith s b fun _ => openBytes 32)).all fun p => match p.2 with | some x => s.rd (b.save + p.1) == x | none => true

/-- The 32-bit words of an image from an address, with their keys. -/
def readWords (s : State) (a : Nat) (keys : List Nat) : List (Nat × W32) :=
  (numbered keys).map fun p => (p.2, BitVec.ofNat 32 (s.rdNat (a + 4 * p.1) 4))

/-- A 64-bit word of an image. -/
def readWord (s : State) (a : Nat) : W64 := BitVec.ofNat 64 (s.rdNat a 8)

/-- The tokens of an image; those past the block's own take fresh numbers. -/
def readToks (s : State) (a : Nat) (g : Group) : List Tok :=
  ((List.range 16).map fun i =>
    { id := match g.toks[i]? with | some t => t.id | none => g.nextTok + i, join := readWord s (a + 16 * i), part := readWord s (a + 16 * i + 8) : Tok
    }).filter (·.part != 0)

/-- A token by its place in the stack, from 1. -/
def tokAt (toks : List Tok) (n : Nat) : Option Nat := if n == 0 then none else (toks[n - 1]?).map (·.id)

/-- The state a fragment record gives. -/
def readState (toks : List Tok) (w0 : Nat) (pc wake : W64) : FState :=
  let next := if bitOf w0 5 then pc + 8 else lineAddr pc + 64
  match fld w0 1 3 with
  | 1 => (match tokAt toks (fld w0 8 8) with | some t => .parked t | none => .running)
  | 2 => .sleeping wake next
  | 3 => .inDbar false next
  | 4 => .inDbar true next
  | _ => .running

/-- Fragment record `i` of an image, over what the block keeps of the fragment. -/
def readFrag (s : State) (a : Nat) (g : Group) (toks : List Tok) (i : Nat) : Option Frag :=
  let w0 := s.rdNat (a + 64 * i) 8
  let at_ := fun k => readWord s (a + 64 * i + 8 * k)
  if !bitOf w0 0 then none
  else
    let f := (g.frag? i).getD (Frag.start i 0 0 s.cycle)
    let p : List Pend := if bitOf w0 6 then [{ pc := at_ 5, mask := at_ 6, tok := tokAt toks (fld w0 16 8) }] else []
    some { f with pc := at_ 1, held := at_ 2, exm := at_ 3, st := readState toks w0 (at_ 1) (at_ 4), line := none,
                  mid := bitOf w0 4, solo := bitOf w0 7, pends := p ++ f.pends.drop 1 }

/-- The divergence filter of an image. -/
def readFilter (s : State) (a : Nat) : List FiltEntry :=
  (List.range 64).filterMap fun i =>
    let x := s.rdNat (a + 8 * i) 8
    let sec := fld x 0 52
    let k := fld x 52 4
    let pad := decide (2 ^ 49 ≤ sec) && decide (sec < 2 ^ 50) && decide (k < 9)
    let who := fld x 56 3
    if fld x 52 12 == 0 then none
    else some { scratch := pad, sector := if pad then sec - 2 ^ 49 else if 9 ≤ k then farBase + sec else sec,
                writer := if k == 0 || k == 9 then none else if k == 10 then some who else some (k - 1),
                readers := if k == 10 then (if bitOf x 59 then 1#8 <<< who else 0) else BitVec.ofNat 8 (fld x 56 8) }

/-- The bytes of a group's items. -/
def groupBytes (b : Block) (g : Group) : Nat :=
  let w := b.width
  4 * w * roleBase b g + 2 * w + 256 + 32 + 512 + 256 + 512 + 4 * w + 4 * w

/-- A group's items read from an address; its flags stand as they are (R53). -/
def readGroup (s : State) (b : Block) (a : Nat) (g : Group) : Group :=
  let w := b.width
  let lanes := List.range w
  let n := roleBase b g
  let ap := a + 4 * w * n
  let af := ap + 2 * w + 256 + 32
  let toks := readToks s (af + 512) g
  { g with
    v := ssetAll 0 [] (readWords s a ((List.range n).flatMap fun r => lanes.map fun l => 128 * l + r))
    p := ssetAll 0 [] (lanes.map fun l => (l, BitVec.ofNat 12 (s.rdNat (ap + 2 * l) 2)))
    u := ssetAll 0 [] (readWords s (ap + 2 * w) (List.range 64))
    frags := (List.range 8).filterMap (readFrag s af g toks)
    toks := toks
    nextTok := g.nextTok + 16
    filter := readFilter s (af + 768)
    draws := ssetAll 0 [] (readWords s (af + 1280) lanes)
    xowner := ssetAll ownerNone [] (readWords s (af + 1280 + 4 * w) lanes) }

/-- Items read one after another, each of a size. -/
def readEach (size : α → Nat) (read : Nat → α → α) : Nat → List α → List α × Nat
  | a, [] => ([], a)
  | a, x :: xs =>
    let r := readEach size read (a + size x) xs
    (read a x :: r.1, r.2)

/-- A pair's extended set and its holder. -/
def readExt (s : State) (b : Block) (a : Nat) (e : ExtSet) : ExtSet :=
  let n := s.rdNat (a + 4 * b.width * b.kernel.ext) 8
  { e with
    regs := ssetAll 0 [] (readWords s a ((List.range b.kernel.ext).flatMap fun r => (List.range b.width).map fun l => 64 * l + r))
    holder := if n == 0 then none else some (n - 1) }

/-- A map slot (R412). -/
def readSlot (s : State) (a : Nat) (m : MapSlot) : MapSlot :=
  { m with
    image := ssetAll 0 [] (readWords s a (List.range 4096))
    fmt := BitVec.ofNat 32 (s.rdNat (a + 16384) 4)
    bound := bitOf (s.rdNat (a + 16388) 4) 0 }

/-- A slot of an expansion (R280). -/
def readXuSlot (s : State) (a : Nat) (ended : Bool) (x : XSlot) : XSlot :=
  { x with
    ended := ended
    rounds := s.rdNat a 4
    resolved := bitOf (s.rdNat (a + 4) 4) 0
    heldRound := s.rdNat (a + 8) 4
    unapplied := readWord s (a + 16)
    contrib := ssetAll 0 [] (readWords s (a + 64) (List.range 64)) }

/-- An open expansion (R280): the groups of its slots are those it was saved with. -/
def readXu (s : State) (a : Nat) (e : Expansion) : Expansion :=
  let w1 := s.rdNat (a + 4) 4
  let total := s.rdNat a 4
  let op := (foldOf (fld w1 8 4)).getD e.op
  let base := fun o => s.rdNat (a + 0x440 + 4 * o) 4
  let whole := e.slots.length == fld w1 4 2 + 1
  let len := fun o => if whole then (if o == 255 then total - base 255 else base (o + 1) - base o) else base o
  { e with
    deal := fld w1 0 4
    n := fld w1 4 2 + 1
    op := op
    total := total
    start := ssetAll 0 [] (readWords s (a + 0x40) (List.range 256))
    len := ssetAll 0 [] ((List.range 256).map fun o => (o, BitVec.ofNat 32 (len o)))
    acc := ssetAll (foldIdentity op) [] (readWords s (a + 0x840) (List.range 256))
    slots := (numbered e.slots).map fun p => readXuSlot s (a + 0xC40 + 0x140 * p.1) (bitOf w1 (20 + p.1)) p.2 }

/-- The items of one stone: its map slots and its open expansion. -/
def readStone (s : State) (b : Block) (r : Block × Nat) (stone : Nat) : Block × Nat :=
  let n := b.kernel.maps
  let slots := (List.range n).map fun i => readSlot s (r.2 + 16392 * i) { stone := stone, k := i + 1, image := [], fmt := 0, bound := false }
  let b1 := { r.1 with slots := (r.1.slots.filter (·.stone != stone)) ++ slots }
  match b.openXu? stone with
  | none => (b1, r.2 + 16392 * n)
  | some e => (b1.setXu (readXu s (r.2 + 16392 * n) e), r.2 + 16392 * n + 4416)

/-- R56: a block as its save image holds it. -/
def readImage (s : State) (b : Block) : Block :=
  let gs := readEach (groupBytes b) (readGroup s b) (b.save + 256) b.groups
  let es := readEach (fun _ => 4 * b.width * b.kernel.ext + 8) (readExt s b) gs.2 (if b.kernel.ext == 0 then [] else b.exts)
  let st := (stonesOf (b.groups.map (·.gid))).foldl (readStone s b)
    ({ b with groups := gs.1, exts := if b.kernel.ext == 0 then b.exts else es.1 }, es.2)
  let n := b.kernel.scratch
  { st.1 with
    scratch := ssetAll 0 [] ((List.range n).map fun i => (i, s.rd (st.2 + i)))
    tags := if b.kernel.checked then ssetAll 0 [] ((List.range (n / 16)).map fun i => (i, s.rd (st.2 + n + i))) else b.tags }

/-- R56: every item of R55 reads back as it was saved. -/
def restoredItems (s : State) (b : Block) : Block := if imageKept s b then b else readImage s b

end Sys2Proof.Machine
end

