-- ==== Sys2Proof/Machine/Restore.lean ====
section
/-! DEFINITION. What a mill needs to take a saved block back, and the restore itself (R27, R53 to R57, R186, R279, R295,
R384, R385). -/

namespace Sys2Proof.Machine

/-- R54, R56: a fragment as it is restored; a waiting instruction runs again, and one that stood within a clause has
entered it (R81). -/
def restoreFrag (cycle : Nat) (f : Frag) : Frag := { resumeFrag cycle f with line := none, mid := f.mid || f.line.isSome }

/-- A trap met is dropped, since its slot decodes again; a fault stays to be taken (R340, R345). -/
def keptStop : Option Stop → Option Stop
  | some x => if classOf x.ev.cause == 0 then none else some x
  | none => none

/-- R186, R295, R340, R386, R389: a group as it is restored at a position; a fault that it met while it was saved stays. -/
def restoreGroup (cycle : Nat) (g : Group) (pos : Nat) : Group :=
  { g with
    pos := pos
    ctr := []
    stop := keptStop g.stop
    frags := g.frags.map (restoreFrag cycle)
    handler := g.handler.map fun h => { h with frags := h.frags.map (restoreFrag cycle) } }

/-- A group's position in a placement, by its place in the block. -/
def restoreGroups (cycle : Nat) (gs : List Group) (pos : List Nat) : List Group :=
  (List.zip gs pos).map fun (p : Group × Nat) => restoreGroup cycle p.1 p.2

/-- The free leats of a mill. -/
def freeLeats (s : State) (mill : Nat) : List Nat := (List.range 16).filter fun i => !(s.leats.any fun l => l.mill == mill && l.idx == i)

/-- R27, R279, R385: the mill takes the block: rows, slots and scratchpad, an expand unit for each open
expansion, and a leat for each frozen one. -/
def restorable (s : State) (b : Block) (x : Placement) : Bool :=
  x.pos.length == b.groups.length &&
    fitsMill s x.mill b.kernel ((List.zip b.groups x.pos).map fun (p : Group × Nat) => heldAt b p.1 p.2) &&
    (b.xus.all fun e => (residents s x.mill).all fun y => (y.openXu? e.stone).isNone) &&
    decide ((s.leats.filter (·.bid == b.bid)).length ≤ (freeLeats s x.mill).length)

/-- A block's frozen leats, paired with the leats of the new mill that take them. -/
def leatMoves (s : State) (bid mill : Nat) : List (Nat × Nat × Nat) :=
  List.zipWith (fun (l : Leat) (i : Nat) => (l.mill, l.idx, i)) (s.leats.filter (·.bid == bid)) (freeLeats s mill)

/-- Where a move takes a leat. -/
def leatTo (moves : List (Nat × Nat × Nat)) (m idx : Nat) : Option Nat :=
  (moves.find? fun (y : Nat × Nat × Nat) => y.1 == m && y.2.1 == idx).map fun (y : Nat × Nat × Nat) => y.2.2

/-- A leat of a block on its new mill. -/
def moveLeat (moves : List (Nat × Nat × Nat)) (bid mill : Nat) (l : Leat) : Leat :=
  if l.bid == bid then (match leatTo moves l.mill l.idx with | some i => { l with mill := mill, idx := i } | none => l) else l

/-- The master a record names, where that leat has moved. -/
def moveMaster (moves : List (Nat × Nat × Nat)) (mill : Nat) (p : BitVec 16 × Master) : BitVec 16 × Master :=
  match p.2 with
  | .leat m idx => (match leatTo moves m idx with | some i => (p.1, .leat mill i) | none => p)
  | _ => p

/-- The frozen leats of a restored block stand on its new mill, and their records name them there. -/
def moveLeats (s : State) (b : Block) (mill : Nat) : State :=
  let moves := leatMoves s b.bid mill
  let s1 := { s with leats := s.leats.map (moveLeat moves b.bid mill) }
  s1.onCtx b.ctx fun x => { x with masters := x.masters.map (moveMaster moves mill) }

/-- The block is restored on a mill: an acquire at system scope (R146), every item as its image holds it. -/
def restoreBlock (s : State) (b : Block) (x : Placement) : State :=
  (moveLeats (acquireAt s x.mill .system) b x.mill).onBlock b.bid fun b =>
    let y := restoredItems s b
    { y with resident := true, mill := x.mill, groups := restoreGroups s.cycle y.groups x.pos }

/-! ### Gangs (R57, R61, R385) -/

/-- Placements of a saved block tried in order until `next` answers. -/
def tryRestore (s : State) (b : Block) (next : Placement → Option α) : Option α :=
  (List.range 384).findSome? fun m =>
    tryPlaces s m b.kernel (fun gs =>
      let x : Placement := { mill := m, pos := gs.map (·.2.2), priv := b.priv, save := b.save, stage := b.stage.getD 0 }
      if restorable s b x then next x else none) (b.groups.map fun g => ((heldAt b g 0).1, (heldAt b g 0).2.1)) []

/-- Every block of a list can be restored, each after those before it. -/
def restoreRoom : List Block → State → Bool
  | [], _ => true
  | b :: bs, s => (tryRestore s b fun x => if restoreRoom bs (restoreBlock s b x) then some x else none).isSome

/-- The block is saved on this device. -/
def Block.saved (b : Block) : Bool := !b.resident && !b.ended && !b.away

/-- The saved blocks of a launch. -/
def savedOf (s : State) (lid : Nat) : List Block := (s.blocksOf lid).filter (·.saved)

/-- R57, R385: the saved blocks of a gang can all be restored. -/
def gangRoom (s : State) (lid : Nat) : Bool :=
  let bs := savedOf s lid
  (bs.all fun b => !b.stuck && !imageBroken s b) && restoreRoom bs s

/-- Some blocks of a gang have been restored and others wait for it, none of them failed. -/
def partRestored (s : State) (l : Launch) : Bool :=
  l.gang && ownsSlice s l.ctx && ((s.blocksOf l.id).any fun b => b.resident && !b.saving) && (s.blocksOf l.id).any (·.saved) &&
    (s.blocksOf l.id).all fun b => !b.stuck

/-- R57, R61: while a gang is being restored nothing takes room but the rest of it; `but` is the launch for which room is
taken (log entry 21). -/
def restKept (s : State) (but : Option Nat) : Bool := s.launches.all fun l => !partRestored s l || but == some l.id

end Sys2Proof.Machine
end

