-- ==== Sys2Proof/Machine/MapPath.lean ====
section
/-! DEFINITION. Element packing, the map path's chunk rule, quantisation, conversion and the random
stream ("Number formats and arithmetic"; the map operands of "Instruction reference: floating point,
conversion and the map path"). -/

namespace Sys2Proof.Machine

/-! ### Element formats by code (R147, R148, R229) -/

/-- Bits of an element. -/
def elemBits (c : Nat) : Nat := if c == 0 then 32 else if c ≤ 2 then 16 else if c == 7 || c == 8 || c == 13 then 6 else if c == 9 then 4 else 8

/-- Elements of a 32-bit word. -/
def perWord (c : Nat) : Nat := if c == 0 then 1 else if c ≤ 2 then 2 else if c == 7 || c == 8 || c == 13 then 5 else if c == 9 then 8 else 4

/-- The format is an MX format. -/
def isMx (c : Nat) : Bool := decide (5 ≤ c) && decide (c ≤ 10)

/-- Element `j` of a word (R148). -/
def elemOf (c : Nat) (x : W32) (j : Nat) : Nat := fld x.toNat (elemBits c * j) (elemBits c)

/-- The floating-point format of a code; binary32 where the code names none. -/
def fmtOf (c : Nat) : FFmt :=
  match c with
  | 1 => f16
  | 2 => bf16
  | 3 => e4m3
  | 5 => e4m3
  | 4 => e5m2
  | 6 => e5m2
  | 7 => e3m2
  | 8 => e2m3
  | 9 => e2m1
  | _ => f32

/-- The value of an element, without a block scale. -/
def elemVal (c x : Nat) : Val :=
  if c == 10 then (let i := signed 8 x; .fin (decide (i < 0)) i.natAbs (-6))
  else if c == 11 then intVal (signed 8 x)
  else if c == 12 then taperDecode 8 1 x
  else if c == 13 then taperDecode 6 0 x
  else (fmtOf c).decode x

/-- A value rounded into an element of a format, scale already divided out (R160, R167). -/
def elemEnc (c : Nat) (mode : Mode) (d : Nat) (v : Val) : Nat :=
  if c == 10 then
    (let w := match v with | .fin s m e => Val.fin s m (e + 6) | u => u
     ((toIntIn mode d (-128) 127 w) % 256).toNat)
  else if c == 11 then ((toIntIn mode d (-128) 127 v) % 256).toNat
  else if c == 12 then taperEncode 8 1 mode d v
  else if c == 13 then taperEncode 6 0 mode d v
  else (fmtOf c).round mode d v

/-! ### The chunk rule (R161 to R166) -/

/-- R164: the special outcome of a chunk's products, if any. -/
def chunkSpecial (ps : List Val) : Option W32 :=
  if ps.any (· == .nan) then some 0x7FC00000
  else
    let pos := ps.any (· == .inf false)
    let neg := ps.any (· == .inf true)
    if pos && neg then some 0x7FC00000
    else if pos then some 0x7F800000
    else if neg then some 0xFF800000
    else none

/-- R162: the sum of finite products in the 80-bit window, scaled by 2^k and rounded once (R163). -/
def chunkSum (ps : List Val) (k : Int) : W32 :=
  let nz := ps.filter fun p => match p with | .fin _ m _ => m != 0 | _ => false
  match nz with
  | [] => if !ps.isEmpty && (ps.all fun p => match p with | .fin s _ _ => s | _ => false) then 0x80000000 else 0
  | _ =>
    let top := fun (p : Val) => match p with | .fin _ m e => e + (topBit m : Nat) | _ => 0
    let e := nz.foldl (fun a p => max a (top p)) (top (nz.headD .nan))
    let unit := e - 71
    let s := nz.foldl (fun a p => a + (match p with | .fin sg m ex => scaledTo sg m ex unit | _ => 0)) (0 : Int)
    if s = 0 then 0 else BitVec.ofNat 32 (f32.roundFin .rn (decide (s < 0)) s.natAbs (unit + k) 0)

/-- R161 to R164: one chunk's result; `k` is the sum of the two scale exponents, none for a NaN scale. -/
def chunkResult (ps : List Val) (k : Option Int) : W32 :=
  match k with
  | none => 0x7FC00000
  | some k => (chunkSpecial ps).getD (chunkSum ps k)

/-- R165: chunk results added in order. -/
def foldChunks : List W32 → W32
  | [] => 0
  | c :: cs => cs.foldl add32 c

/-- The pieces of a list, 32 at a time, `n` of them. -/
def chunks32 {α : Type} : Nat → List α → List (List α)
  | 0, _ => []
  | n + 1, l => l.take 32 :: chunks32 n (l.drop 32)

/-- R149: the exponent of a scale byte, none for NaN. -/
def scaleExp (b : Nat) : Option Int := if b == 255 then none else some ((b : Int) - 127)

/-- The sum of two scale exponents. -/
def addExp (a b : Option Int) : Option Int := match a, b with | some x, some y => some (x + y) | _, _ => none

/-- The fields of a format word (R228). -/
def fwMfmt (f : W32) : Nat := fld f.toNat 0 4
/-- Source format. -/
def fwSfmt (f : W32) : Nat := fld f.toNat 4 4
/-- Output kind INT32. -/
def fwInt (f : W32) : Bool := bitOf f.toNat 8
/-- Saturate. -/
def fwSat (f : W32) : Bool := bitOf f.toNat 9
/-- Image order. -/
def fwTr (f : W32) : Bool := bitOf f.toNat 10
/-- Matrix scale byte. -/
def fwScale (f : W32) : Nat := fld f.toNat 12 8

/-- R229: the format word is valid. -/
def fwValid (f : W32) : Bool :=
  decide (fwMfmt f ≤ 13) && decide (fwSfmt f ≤ 13) && fld f.toNat 20 12 == 0 && !bitOf f.toNat 11 &&
  decide (perWord (fwSfmt f) ≤ perWord (fwMfmt f)) && (!fwInt f || (fwMfmt f == 11 && fwSfmt f == 11)) &&
  (!fwSat f || fwInt f) && (isMx (fwMfmt f) || fwScale f == 0)

/-- R224: the words the matrix of a format word takes, for group width `w`. -/
def imageWords (w : Nat) (f : W32) : Nat := ceilDiv (w * (w * perWord (fwSfmt f))) (perWord (fwMfmt f))

/-- R224: matrix element (o, i) of an image. -/
def matElem (image : Sparse W32) (f : W32) (w o i : Nat) : Nat :=
  let cols := w * perWord (fwSfmt f)
  let k := if fwTr f then i * w + o else o * cols + i
  let em := perWord (fwMfmt f)
  elemOf (fwMfmt f) (sget 0 image (k / em)) (k % em)

/-- R161: the source's input elements, those of lanes not in `live` zero. -/
def mapInputs (c : Nat) (words : List (Bool × W32)) : List Nat :=
  words.flatMap fun x => (List.range (perWord c)).map fun j => if x.1 then elemOf c x.2 j else 0

/-- R225: the scale byte of source block `c`, from the odd register of lanes 0 to 3. -/
def scaleByte (odd : List W32) (c : Nat) : Nat := fld (odd.getD (c / 4) 0).toNat (8 * (c % 4)) 8

/-- R166: an addition of the INT32 kind. -/
def addInt (sat : Bool) (a b : Int) : Int :=
  if sat then max (-(2 ^ 31 : Int)) (min (2 ^ 31 - 1) (a + b)) else signed 32 ((a + b) % 2 ^ 32).toNat

/-- R161 to R166: MapOut of output lane `o` through a bound slot. -/
def mapOut (image : Sparse W32) (f : W32) (w : Nat) (words : List (Bool × W32)) (odd : List W32) (o : Nat) : W32 :=
  let c := fwSfmt f
  let xs := mapInputs c words
  let ps := List.zip xs (List.range xs.length)
  let n := ceilDiv xs.length 32
  if fwInt f then
    let prods := ps.map fun p => signed 8 p.1 * signed 8 (matElem image f w o p.2)
    let sums := (chunks32 n prods).map fun l => l.foldl (· + ·) (0 : Int)
    w32 (match sums with | [] => 0 | a :: as => as.foldl (addInt (fwSat f)) a)
  else
    let prods := ps.map fun p => valMul (elemVal (fwMfmt f) (matElem image f w o p.2)) (elemVal c p.1)
    let mexp := if isMx (fwMfmt f) then scaleExp (fwScale f) else some 0
    let sexp := fun i => if isMx c then scaleExp (scaleByte odd i) else some 0
    foldChunks ((List.zip (chunks32 n prods) (List.range n)).map fun x => chunkResult x.1 (addExp (sexp x.2) mexp))

/-- R161: MapOut of every output lane through `msum`. -/
def msumOut (words : List (Bool × W32)) : W32 :=
  let ps := (mapInputs 0 words).map fun x => valMul (.fin false 1 0) (f32.decode x)
  foldChunks ((chunks32 (ceilDiv ps.length 32) ps).map fun l => chunkResult l (some 0))

/-- R226: the value a consumer of a format (0 binary32, 1 binary16, 2 BF16) reads from a map value. -/
def mapConsume (int : Bool) (half : Option HalfFmt) (v : W32) : W32 :=
  let x := if int then intVal (signed 32 v.toNat) else f32.decode v.toNat
  match half with
  | none => if int then BitVec.ofNat 32 (f32.round .rn 0 x) else v
  | some h =>
    let y := (match h with | .f16 => f16 | .bf16 => bf16).round .rn 0 x
    BitVec.ofNat 32 (y * 65536 + y)

/-! ### Quantisation (R167, R244, R245) -/

/-- The element maximum exponent of a format code. -/
def emaxOf (c : Nat) : Int := match c with | 5 => 8 | 6 => 15 | 7 => 4 | 8 => 2 | 9 => 2 | _ => 0

/-- R167: the scale byte of a block. -/
def quantScale (c : Nat) (xs : List Val) : Nat :=
  if xs.any fun v => match v with | .fin _ _ _ => false | _ => true then 255
  else
    let tops := xs.filterMap fun v => match v with | .fin _ m e => if m == 0 then none else some (e + (topBit m : Nat)) | _ => none
    match tops with
    | [] => 0
    | t :: ts => (max 0 (min 254 (ts.foldl max t - emaxOf c + 127))).toNat

/-- R167, R244: an input encoded under its block's scale byte; `x` is its binary32 pattern. -/
def quantElem (c : Nat) (mode : Mode) (d byte x : Nat) : Nat :=
  if byte == 255 then elemEnc c mode d (.fin (bitOf x 31) 0 0)
  else match f32.decode x with
    | .fin s m e => elemEnc c mode d (.fin s m (e - ((byte : Int) - 127)))
    | v => elemEnc c mode d v

/-- R167, R245: an element times its block's scale, in binary32. -/
def dequantElem (c byte x : Nat) : W32 :=
  match scaleExp byte, elemVal c x with
  | none, _ => 0x7FC00000
  | some _, .nan => 0x7FC00000
  | some k, .fin s m e => BitVec.ofNat 32 (f32.round .rn 0 (.fin s m (e + k)))
  | some _, v => BitVec.ofNat 32 (f32.round .rn 0 v)

/-- Elements packed into a word (R148). -/
def packElems (c : Nat) (xs : List Nat) : W32 :=
  BitVec.ofNat 32 ((List.zip xs (List.range xs.length)).foldl (fun a p => a + p.1 * 2 ^ (elemBits c * p.2)) 0)

/-- The code of an MX format (R147). -/
def mxCode : MxFmt → Nat
  | .e4m3 => 5 | .e5m2 => 6 | .e3m2 => 7 | .e2m3 => 8 | .e2m1 => 9 | .i8 => 10

/-! ### Conversion (R160, R243) -/

/-- A type of `CVT`: an element format, or a signed or unsigned integer of some bits. -/
inductive CKind where
  | flt (code : Nat)
  | int (n : Nat) (sgn : Bool)
  deriving DecidableEq, Repr

/-- The kind of a type. -/
def ckind : CTy → CKind
  | .f32 => .flt 0 | .f16 => .flt 1 | .bf16 => .flt 2 | .e4m3 => .flt 3 | .e5m2 => .flt 4 | .wt8 => .flt 12 | .wt6 => .flt 13
  | .i8 => .int 8 true | .n8 => .int 8 false | .i16 => .int 16 true | .n16 => .int 16 false
  | .i32 => .int 32 true | .n32 => .int 32 false | .i64 => .int 64 true | .n64 => .int 64 false

/-- Bits of an element of a type. -/
def cbits (t : CTy) : Nat := match ckind t with | .flt c => elemBits c | .int n _ => n

/-- The value of a source element. -/
def cvtVal (t : CTy) (x : Nat) : Val :=
  match ckind t with
  | .flt c => elemVal c x
  | .int n true => intVal (signed n x)
  | .int _ false => intVal x

/-- R158, R160: sign and fraction of a source NaN, the fraction's top bit at bit 22, which the manual says of a narrowing
only (log entry 64); NaR is canonical (R151). -/
def nanParts (t : CTy) (x : Nat) : Bool × Nat :=
  match ckind t with
  | .flt c => if c ≤ 4 then (bitOf x (elemBits c - 1), fld x 0 (fmtOf c).p * 2 ^ (23 - (fmtOf c).p)) else (false, 0)
  | .int _ _ => (false, 0)

/-- R160: a NaN in a destination type. -/
def cvtNan (t : CTy) (sg : Bool) (fr : Nat) : Nat :=
  match ckind t with
  | .int _ _ => 0
  | .flt 12 => 2 ^ 7
  | .flt 13 => 2 ^ 5
  | .flt c =>
    let f := fmtOf c
    if f.inf then f.signed sg (f.top + 1 + (fr / 2 ^ (23 - f.p)) % 2 ^ (f.p - 1) + 2 ^ (f.p - 1)) else f.signed sg f.cnan

/-- R160, R243: a source element converted to a destination element; `d` is the draw. -/
def convert (dt st : CTy) (mode : Mode) (d x : Nat) : Nat :=
  match cvtVal st x with
  | .nan => let p := nanParts st x; cvtNan dt p.1 p.2
  | v =>
    match ckind dt with
    | .flt c => elemEnc c mode d v
    | .int n true => ((toIntIn mode d (-(2 ^ (n - 1) : Nat)) ((2 ^ (n - 1) : Nat) - 1) v) % (2 ^ n : Nat)).toNat
    | .int n false => (toIntIn mode d 0 ((2 ^ n : Nat) - 1) v).toNat

/-! ### The random stream (R168, R169) -/

/-- R169: Stir. -/
def stir (h : W64) : W64 :=
  let h := (h ^^^ (h >>> 31)) * 0xC3A59E174B2D60F5
  let h := (h ^^^ (h >>> 29)) * 0x8E21D94B7F06A3C9
  h ^^^ (h >>> 32)

/-- R169: Draw. -/
def drawOf (key gid n : W64) : W32 := hi32 (stir (stir (stir (key ^^^ 0x5B1E93C70D4AF268) ^^^ gid) ^^^ n))

end Sys2Proof.Machine
end

