-- ==== Sys2Proof/Machine/Operands.lean ====
section
/-! DEFINITION. Source and destination operands: registers, mapped registers, immediates and literals as
an instruction uses them; the checks made on them; random draws; and the skeleton of every instruction that
acts lane by lane (R65, R69, R178, R187, R188, R222 to R227, R334, R350, R357, R400). -/

namespace Sys2Proof.Machine

/-- How a consumer reads an immediate or a map value (R178, R188, R226). -/
inductive View where
  | int
  | f32
  | half (h : HalfFmt)
  deriving DecidableEq, Repr

/-- A source operand: its position in a record (2 A, 3 B, 4 C), the field, and how it is read. -/
structure Opnd where
  pos  : Nat
  src  : Src
  wide : Bool
  view : View
  deriving DecidableEq, Repr

/-- A position, a register and a count of registers (R350). -/
abbrev RegUse := Nat × Reg × Nat

/-- The registers a source names, none for an immediate or a literal. -/
def Opnd.regs (o : Opnd) : List RegUse :=
  match o.src with
  | .reg r => [(o.pos, r, if o.wide then 2 else 1)]
  | .map _ n => [(o.pos, .v n, 1)]
  | _ => []

/-- R67: some of the registers named lie in the extended set. -/
def extUses (us : List RegUse) : Bool :=
  us.any fun u => (List.range u.2.2).any fun i => decide (128 ≤ regValue (regUp u.2.1 i)) && decide (regValue (regUp u.2.1 i) < 192)

/-- The source is mapped. -/
def Opnd.mapped (o : Opnd) : Bool := match o.src with | .map _ _ => true | _ => false

/-- The source's map selector, none where it is not mapped or names `msum`. -/
def Opnd.slot? (o : Opnd) : Option Nat := match o.src with | .map k _ => if k == 15 then none else some k | _ => none

/-! ### Map slots (R224, R227, R234, R235) -/

/-- The slot a selector names on a group's stone. -/
def Block.slot? (b : Block) (stone k : Nat) : Option MapSlot := b.slots.find? fun x => x.stone == stone && x.k == k

/-- R227, R234, R235: an `MBIND` or `MPUT` of the block to the slot is in flight on its stone. -/
def slotBusy (s : State) (b : Block) (stone k : Nat) : Bool :=
  s.ops.any fun o => o.bid == b.bid && (match o.fin with | .bind st j _ => st == stone && j == k | _ => false)

/-- R227: the instruction waits for a slot it names. -/
def Env.mapBusy (e : Env) (srcs : List Opnd) : Bool :=
  srcs.any fun o => match o.slot? with | some k => slotBusy e.s e.b e.g.stone k | none => false

/-- R357, R400: the checks of one mapped source. -/
def Env.mapCheck (e : Env) (lanes : LaneMask) (o : Opnd) : Option Raised :=
  match o.src with
  | .map k n =>
    if k == 15 then none
    else match e.b.slot? e.g.stone k with
      | none => some (mkEv 0x08 0 o.pos lanes 0 0 k)
      | some x =>
        if !x.bound then some (mkEv 0x08 0 o.pos lanes 0 0 k)
        else if e.s.errs.any fun y => match y with
            | .slot bid st j w => bid == e.b.bid && st == e.g.stone && j == k && decide (w < imageWords e.b.width x.fmt)
            | _ => false then some (mkEv 0x60 1 o.pos lanes 0 0 k)
        else if !isMx (fwSfmt x.fmt) then none
        else if n % 2 == 1 then some (mkEv 0x09 x.fmt.toNat o.pos lanes 0 0 k)
        else (firstUnheld e.b e.g (.v (n + 1)) 1).map fun r => mkEv 0x07 (regValue r) o.pos lanes
  | _ => none

/-- R161 to R166, R223: the map value of every lane of the group. -/
def Env.mapVals (e : Env) (live : LaneMask) (k n : Nat) : List W32 × Bool :=
  let lanes := List.range e.b.width
  let words := lanes.map fun l => (hasLane live l, vget e.b e.g l n)
  if k == 15 then (lanes.map fun _ => msumOut words, false)
  else match e.b.slot? e.g.stone k with
    | none => ([], false)
    | some x =>
      let odd := (lanes.take 4).map fun l => vget e.b e.g l (n + 1)
      (lanes.map fun o => mapOut x.image x.fmt e.b.width words odd o, fwInt x.fmt)

/-! ### Values -/

/-- R178: a 12-bit immediate as its consumer reads it. -/
def immValue (v : View) (x : BitVec 12) : W64 :=
  match v with
  | .int => x.signExtend 64
  | .f32 => BitVec.ofNat 64 (f32.round .rn 0 (intVal x.toInt))
  | .half _ => let y := f16.round .rn 0 (intVal x.toInt); BitVec.ofNat 64 (y * 65536 + y)

/-- R188, R226: a map value as its consumer reads it. -/
def mapValue (v : View) (int : Bool) (x : W32) : W64 :=
  match v with
  | .int => x.setWidth 64
  | .f32 => (mapConsume int none x).setWidth 64
  | .half h => (mapConsume int (some h) x).setWidth 64

/-- A source's values in the lanes of an instruction; `live` are the lanes a map reads. -/
def Env.srcVals (e : Env) (live : LaneMask) (o : Opnd) : Nat → W64 :=
  match o.src with
  | .reg r => fun l => if o.wide then rget64 e.b e.g l r else (rget e.b e.g l r).setWidth 64
  | .map k n =>
    let m := e.mapVals live k n
    fun l => mapValue o.view m.2 (m.1.getD l 0)
  | .imm x => fun _ => immValue o.view x
  | .lit x => fun _ => if o.wide then x else (lo32 x).setWidth 64

/-! ### Uncorrectable errors in registers (R400) -/

/-- A register of a lane holds an uncorrectable error. -/
def regBroken (s : State) (bid gid lane : Nat) (r : Reg) : Bool :=
  s.errs.any fun x => match x, r with
    | .vreg b g l n, .v k => b == bid && l == lane && n == k && (if n < 128 then g == gid else g / 2 == gid / 2)
    | .ureg b g n, .s k => b == bid && g == gid && n == k
    | _, _ => false

/-- A lane's predicates hold an uncorrectable error. -/
def predsBroken (s : State) (bid gid lane : Nat) : Bool :=
  s.errs.any fun x => match x with | .preds b g l => b == bid && g == gid && l == lane | _ => false

/-- R400: the first source register that some lane reads with an uncorrectable error. -/
def Env.regErr (e : Env) (lanes : LaneMask) (uses : List RegUse) : Option Raised :=
  if e.s.errs.isEmpty then none
  else uses.findSome? fun u =>
    let bad := (lanesOf lanes).filter fun l => (List.range u.2.2).any fun i => regBroken e.s e.b.bid e.g.gid l (regUp u.2.1 i)
    if bad.isEmpty then none else some (mkEv 0x60 0 u.1 (maskOf bad))

/-- R400: the lanes whose predicates an instruction reads with an uncorrectable error. -/
def Env.predErr (e : Env) (pos : Nat) (lanes : LaneMask) : Option Raised :=
  if e.s.errs.isEmpty then none
  else
    let bad := (lanesOf lanes).filter fun l => predsBroken e.s e.b.bid e.g.gid l
    if bad.isEmpty then none else some (mkEv 0x60 0 pos (maskOf bad))

/-- The guard is read from a predicate. -/
def Env.guardErr (e : Env) (x : Guard) : Option Raised := if x.idx < 12 then e.predErr 0 e.f.exm else none

/-! ### Checks of an instruction's registers and maps (R334 steps 2 and 3) -/

/-- R357: the lanes a mapped source's check records: every active lane, or with `.all` every lane. -/
def Env.covers (e : Env) (act : LaneMask) (every : Bool) : LaneMask := if every then allLanes e.b.width else act

/-- R229, R400: a mapped source of an MX slot whose scales, in lanes 0 to 3 of its odd register, hold an error. -/
def Env.oddErr (e : Env) (o : Opnd) : Option Raised :=
  match o.src with
  | .map k n =>
    (match e.b.slot? e.g.stone k with
     | some x => if k != 15 && isMx (fwSfmt x.fmt) then e.regErr 0xF [(o.pos, .v (n + 1), 1)] else none
     | none => none)
  | _ => none

/-- R334: registers held, in the order sources, then destination; errors in what is read; map slots. -/
def Env.laneCheck (e : Env) (x : Guard) (act : LaneMask) (every : Bool) (srcs : List Opnd) (preds : List Nat) (dst : List RegUse) : Option Raised :=
  let uses := srcs.flatMap Opnd.regs
  (((heldCheck e.b e.g (e.recLanes act) (uses ++ dst)).or (e.guardErr x)).or
    (preds.findSome? fun p => e.predErr p act)).or
    (((e.regErr (if every then allLanes e.b.width else act) uses).or (srcs.findSome? (e.mapCheck (e.covers act every)))).or
      (srcs.findSome? e.oddErr))

/-! ### The random stream (R168, R170) -/

/-- The launch key of a block: its packet's, or its watch's argument. -/
def State.keyOf (s : State) (b : Block) : W64 :=
  match b.trig with
  | some t => t.arg
  | none =>
    match b.launch with
    | none => 0
    | some lid => match s.launch? lid with | none => 0 | some l => l.packet.getD 6 0

/-- R168: the global lane id. -/
def laneId (b : Block) (g : Group) (lane : Nat) : Nat := (b.index.toNat * 32 + g.gid) * 64 + lane

/-- The draw a lane takes next, after `k` others of the same instruction. -/
def Env.draw (e : Env) (lane k : Nat) : W32 :=
  drawOf (e.s.keyOf e.b) (BitVec.ofNat 64 (laneId e.b e.g lane)) ((sget 0 e.g.draws lane + BitVec.ofNat 32 k).setWidth 64)

/-- The active lanes' draw indices advanced by `n`. -/
def Env.drawn (e : Env) (act : LaneMask) (n : Nat) : List RegWrite :=
  if n == 0 then [] else (lanesOf act).map fun l => .draw l (sget 0 e.g.draws l + BitVec.ofNat 32 n)

/-! ### Results -/

/-- R69: the lanes that write a destination: all active lanes, or the lowest where it is uniform. -/
def writers (d : Reg) (act : LaneMask) : List Nat :=
  match d with
  | .v _ => lanesOf act
  | .s _ => (lanesOf act).take 1

/-- 32-bit results of the active lanes. -/
def put32 (d : Reg) (act : LaneMask) (f : Nat → W32) : List RegWrite := (writers d act).flatMap fun l => wr32 l d (f l)

/-- 64-bit results of the active lanes. -/
def put64 (d : Reg) (act : LaneMask) (f : Nat → W64) : List RegWrite := (writers d act).flatMap fun l => wr64 l d (f l)

/-- Predicate results of the active lanes. -/
def putP (k : Nat) (act : LaneMask) (f : Nat → Bool) : List RegWrite := (lanesOf act).map fun l => .p l k (f l)

/-! ### Instructions that act lane by lane -/

/-- R294: an instruction with a mapped source counts. -/
def countMapped (s : State) (srcs : List Opnd) : State :=
  match s.cur with
  | none => s
  | some i => if srcs.any Opnd.mapped then bumpCtr s i.f.bid i.f.gid 3 1 else s

/-- The skeleton of rows 0x1 to 0x5: the lanes that act, the wait for busy slots, the checks, and the
writes that `f` makes of the operands' values. `preds` are the positions of its predicate sources. -/
def laneExec (x : Guard) (every : Bool) (srcs : List Opnd) (preds : List Nat) (dst : List RegUse)
    (f : Env → LaneMask → (Nat → Nat → W64) → List RegWrite) (s : State) : Out :=
  onIss s fun e =>
    let act := e.active x
    if e.mapBusy srcs then stall s
    else match e.laneCheck x act every srcs preds dst with
      | some ev => .next (raise s ev)
      | none =>
        let live := if every then allLanes e.b.width else act
        let vals := srcs.map (e.srcVals live)
        .next (retireWith (countMapped s srcs) (f e act fun k l => (vals.getD k fun _ => 0) l))

/-- Source operands A, B and C of an instruction. -/
def opA (v : View) (wide : Bool) (x : Src) : Opnd := { pos := 2, src := x, wide := wide, view := v }
/-- Source B. -/
def opB (v : View) (wide : Bool) (x : Src) : Opnd := { pos := 3, src := x, wide := wide, view := v }
/-- Source C. -/
def opC (v : View) (wide : Bool) (x : Src) : Opnd := { pos := 4, src := x, wide := wide, view := v }
/-- A destination register, or pair. -/
def useD (wide : Bool) (d : Reg) : List RegUse := [(1, d, if wide then 2 else 1)]

end Sys2Proof.Machine
end

