-- ==== Sys2Proof/Machine/Regs.lean ====
section
/-! DEFINITION. Device register space: reads and writes of the device-wide registers and of the doorbell
pages, with what a write starts: doorbells, rings, TLBINV, KREPL, FCMD, CTXCMD, the slice schedule, stamp
coverage (R45 to R47, R101, R102, R298, R307, R316, R320, R339, R347, R378, R390, R401, R415). -/

namespace Sys2Proof.Machine

/-! ### FCMD (R347, R379, R384, R388, R394, R395) -/

/-- The commands of FCMD. -/
inductive FCmd where
  | retry | skip | kill
  deriving DecidableEq, Repr

/-- The fragment number under which the release sequencer waits for a far answer (R317). -/
def releaseFid : Nat := 32

/-- R314: the sequencer's head goes on over blocks that have ended with nothing staged, which are released; that of another
member's launch goes on as that member tells (log entry 39). -/
def releaseHeads (lid : Nat) : Nat → State → State
  | 0, s => s
  | n + 1, s =>
    match s.launch? lid with
    | none => s
    | some l =>
      if l.next ≤ l.head then s
      else match s.blocks.find? fun b => b.launch == some lid && b.index.toNat == l.head with
        | none => if l.adopted then s else releaseHeads lid n (s.onLaunch lid fun l => { l with head := l.head + 1 })
        | some b =>
          if !(b.ended && b.staged.isEmpty) then s
          else
            let s1 := { s with blocks := s.blocks.filter (·.bid != b.bid) }
            let s2 := s1.onCtx b.ctx fun y => { y with stages := y.stages.filter (·.bid != b.bid) }
            if l.adopted then s2 else releaseHeads lid n (s2.onLaunch lid fun l => { l with head := l.head + 1 })

/-- Every group of a block is killed; its staged ops are dropped (R347, R376). -/
def killBlock (s : State) (bid : Nat) : State :=
  match s.block? bid with
  | none => s
  | some b =>
    let s1 := (b.groups.foldl (fun acc g => killGroup acc bid g.gid) s).onBlock bid fun b => { b with staged := [], killed := true }
    { s1 with awaits := s1.awaits.filter fun a => !(a.f.bid == bid && a.f.fid == releaseFid) }

/-- A block that cannot be restored is discarded with its areas, its leats and its collectives, and its launch's head goes
on (R384). -/
def discardBlock (s : State) (bid : Nat) : State :=
  match s.block? bid with
  | none => s
  | some b =>
    let s1 := killBlock s bid
    let s2 := s1.onCtx b.ctx fun x => { x with
      arena := x.arena.filter (·.bid != bid), saves := x.saves.filter (·.bid != bid), stages := x.stages.filter (·.bid != bid) }
    let s3 := { s2 with
      blocks := s2.blocks.filter (·.bid != bid)
      ops := s2.ops.filter (·.bid != bid)
      awaits := s2.awaits.filter (·.f.bid != bid)
      leats := s2.leats.filter (·.bid != bid)
      colls := s2.colls.filter (·.bid != bid) }
    match b.launch with
    | some lid => if s.detBlock b then releaseHeads lid (s3.blocks.length + (match s3.launch? lid with | some l => l.next | none => 0) + 1) s3 else s3
    | none => s3

/-- Every block of a launch is killed. -/
def killLaunch (s : State) (lid : Nat) : State :=
  (s.blocks.filter fun b => b.launch == some lid).foldl (fun acc b => killBlock acc b.bid) s

/-- R49: the completion add of a launch, or its record and the freeze of its queue. -/
def completionAdd (s : State) (l : Launch) : State :=
  let ctr := fld (l.packet.getD 4 0).toNat 0 56
  let k := fld (l.packet.getD 0 0).toNat 16 16
  let r0 := Rec.bare l.ctx 6 1 0 s.gtime
  let r := { r0 with queue := l.queue, launch := l.count, addr := BitVec.ofNat 64 ctr, kernel := k }
  if ctr == 0 || l.dropped then s.onLaunch l.id fun l => { l with added := true }
  else match devGet s l.ctx true ctr 8 with
    | .ok pa => (homeAdd64 s (some l.ctx) .host pa (l.packet.getD 5 0)).onLaunch l.id fun l => { l with added := true }
    | .error e =>
      let r := { r with cause := e.1, code := BitVec.ofNat 32 e.2 }
      freezeLaunchQueue (emitRecord s r (.queue l.queue)) l.queue (.completion l.id) r l.packet

/-- The staged op at which release stopped is dropped: the first of the block in release order (R314). -/
def dropStaged (s : State) (bid : Nat) : State :=
  match (s.block? bid).bind fun b => b.groups.findSome? fun g => b.staged.find? fun x => x.gid == g.gid with
  | none => s
  | some x => unstage s bid x

/-- R376: FCMD on a launch whose release has stopped: the op is checked again, or dropped, or every op of the
launch is dropped with its blocks. -/
def fcmdRelease (k : FCmd) (s : State) (l : Launch) : State :=
  match l.relStop with
  | none => s
  | some bid =>
    let s1 := s.onLaunch l.id fun l => { l with relStop := none }
    match k with
    | .retry => s1
    | .skip => dropStaged s1 bid
    | .kill => killLaunch (dropLaunch s1 l.id) l.id

/-- R384: FCMD on blocks that could not be restored: each is tried again, or discarded with its launch's add. -/
def fcmdStuck (s : State) (k : FCmd) (mine : Block → Bool) : State :=
  match k with
  | .retry => { s with blocks := updIf (fun b => b.stuck && mine b) (fun b => { b with stuck := false }) s.blocks }
  | _ => (s.blocks.filter fun b => b.stuck && mine b).foldl (fun acc b =>
      let s1 := discardBlock acc b.bid
      match b.launch with | some l => s1.onLaunch l fun l => { l with killed := true } | none => s1) s

/-- The block is of a launch of a queue. -/
def ofQueue (s : State) (c q : Nat) (b : Block) : Bool := match s.launchOf b with | some l => l.ctx == c && l.queue == q | none => false

/-- R347, R376, R384, R388: FCMD on a launch queue, by what it stopped for. -/
def fcmdQueue (s : State) (c q : Nat) (k : FCmd) : State :=
  let y := (s.ctx c).queue q
  let s0 := s.onCtx c fun x => x.setQueue q { x.queue q with frozen := none }
  let s1 := fcmdStuck ((s.launches.filter fun l => l.ctx == c && l.queue == q).foldl (fcmdRelease k) s0) k (ofQueue s c q)
  let unfinished := (s.launches.filter fun l => l.ctx == c && l.queue == q && l.phase == .complete && !l.added && !l.dropped && !l.killed)
  match y.frozen with
  | none => s
  | some why =>
    match k with
    | .retry =>
      unfinished.foldl completionAdd (match why, y.head with
        | .entry, some lid => s1.onLaunch lid fun l => if l.next == 0 then { l with packet := [], phase := .waiting, kernel := none } else l
        | _, _ => s1)
    | _ =>
      let s2 := unfinished.foldl (fun acc l => acc.onLaunch l.id fun l => { l with dropped := true, added := true }) s1
      match why with
      | .entry | .barrier =>
        (match y.head with
         | some lid => let s3 := dropLaunch s2 lid; if k == .kill then killLaunch s3 lid else s3
         | none => consumeAs s2 c q (replicaDue s2 c q).isSome)
      | .block lid => let s3 := dropLaunch s2 lid; if k == .kill then killLaunch s3 lid else s3
      | .completion _ => s2
      | .release _ => s2
      | .restore _ => s2

/-- R347, R384, R395: FCMD on a trigger queue. -/
def fcmdTrigger (s : State) (c : Nat) (k : FCmd) : State :=
  let s1 := fcmdStuck (s.onCtx c fun x => { x with trigStop := none }) k fun b => b.ctx == c && b.trig.isSome
  match (s.ctx c).trigStop, k with
  | none, _ => s
  | some _, .retry => s1
  | some .head, _ => s1.onCtx c fun x => { x with trig := x.trig.drop 1 }
  | some (.block bid), .kill => killBlock s1 bid
  | some (.block _), .skip => s1
  | some (.restore _), _ => s1

/-- R394: FCMD on a suspended watch. -/
def fcmdWatch (s : State) (idx : Nat) (k : FCmd) : State :=
  match s.watch? idx with
  | none => s
  | some w =>
    match k with
    | .kill => s.onWatch idx fun x => { x with held := none }
    | .skip => s.onWatch idx fun x => { x with held := none, susp := false }
    | .retry =>
      let s1 := s.onWatch idx fun x => { x with held := none, susp := false }
      match w.held with
      | none => s1
      | some t => offerRecord s1 { w with held := none, susp := false } t

/-- A leat abandons its copy (R347, R379). -/
def dropLeat (s : State) (mill idx : Nat) : State := { s with leats := s.leats.filter fun l => !(l.mill == mill && l.idx == idx) }

/-- A master is still frozen (R345, R347). -/
def masterFrozen (s : State) (c : Nat) : Master → Bool
  | .group bid gid => match s.group? bid gid with | some (_, g) => g.frozen.isSome | none => false
  | .leat mill idx => s.leats.any fun l => l.mill == mill && l.idx == idx && l.ctx == c && l.frozen.isSome
  | .watch idx => match s.watch? idx with | some w => w.susp && w.ctx == c | none => false
  | .endpoint d rank => s.endpoints.contains (d, rank)
  | .port => s.ports.contains c
  | .queue q => ((s.ctx c).queue q).frozen.isSome
  | .trigger => (s.ctx c).trigStop.isSome

/-- R347: the command acts on a master. -/
def fcmdMaster (s : State) (c : Nat) (m : Master) (k : FCmd) : State :=
  match m with
  | .group bid gid => if k == .kill then killGroup s bid gid else thawGroup s bid gid (k == .skip)
  | .leat mill idx =>
    if k == .retry then { s with leats := updIf (fun l => l.mill == mill && l.idx == idx) (fun l => { l with frozen := none }) s.leats }
    else dropLeat s mill idx
  | .watch idx => fcmdWatch s idx k
  | .endpoint d rank => if k == .kill then s else { s with endpoints := s.endpoints.filter (· != (d, rank)) }
  | .port => if k == .kill then s else { s with ports := s.ports.filter (· != c) }
  | .queue q => fcmdQueue s c q k
  | .trigger => fcmdTrigger s c k

/-- The frozen master of the most recent record of a sequence number (R347). -/
def fcmdTarget (s : State) (c : Nat) (seq : BitVec 16) : Option Master :=
  ((s.ctx c).masters.find? fun p => p.1 == seq && masterFrozen s c p.2).map (·.2)

/-- R347: FCMD with a sequence; one that names no frozen master is ignored. The images of saved blocks
follow. -/
def fcmd (s : State) (c : Nat) (seq : BitVec 16) (k : FCmd) : State :=
  match fcmdTarget s c seq with
  | none => s
  | some m => resave s (fcmdMaster s c m k)

/-! ### TLBINV and KREPL (R101, R102, R320) -/

/-- The page size of a field value, in address bits. -/
def pageBits : PageSize → Nat
  | .k64 => 16 | .m2 => 21 | .m512 => 29

/-- R102: a write of 1 to TLBINV's go: the translations named are dropped on every die. -/
def tlbInvalidate (s : State) (c : Nat) (reg : W64) (drop : TlbEntry → Bool) : State :=
  if !(s.ctx c).present || bitOf (s.creg c oTLBINV) 0 then s
  else ({ s with tlb := s.tlb.filter fun e => !(e.ctx == c && drop e) } : State).onCtx c fun x => x.setReg oTLBINV reg

/-- A translation held lies in, or holds, the page named. -/
def inPage (va : W64) (bits : Nat) (e : TlbEntry) : Bool := va.toNat / 2 ^ max bits e.bits == e.va.toNat / 2 ^ max bits e.bits

/-- TLBINV for one page. -/
def tlbInvPage (s : State) (c : Nat) (va : W64) (sz : PageSize) : State :=
  let code := match sz with | .k64 => 0 | .m2 => 1 | .m512 => 2
  tlbInvalidate s c (packFields [(16, 40, va.toNat / 65536), (4, 2, code), (0, 1, 1)]) (inPage (keepBits va 55 16) (pageBits sz))

/-- TLBINV for a whole context. -/
def tlbInvAll (s : State) (c : Nat) : State := tlbInvalidate s c 3 fun _ => true

/-- A write to TLBINV. A size field of 3, which R101 does not name, starts the command and drops nothing (log entry
61). -/
def writeTlbinv (s : State) (c : Nat) (x : W64) : State :=
  let reg := keepBits x 55 16 ||| keepBits x 5 4 ||| keepBits x 1 0
  if !bitOf x.toNat 0 then
    (if (s.ctx c).present && !bitOf (s.creg c oTLBINV) 0 then s.onCtx c fun y => y.setReg oTLBINV reg else s)
  else if bitOf x.toNat 1 then tlbInvalidate s c reg fun _ => true
  else match fld x.toNat 4 2 with
    | 0 => tlbInvalidate s c reg (inPage (keepBits x 55 16) 16)
    | 1 => tlbInvalidate s c reg (inPage (keepBits x 55 16) 21)
    | 2 => tlbInvalidate s c reg (inPage (keepBits x 55 16) 29)
    | _ => tlbInvalidate s c reg fun _ => false

/-- R320: a write to KREPL; with go, the table entry is replaced in one step, and the old image waits for
its retirement (R321). Go reads 0 after. R320 leaves open an entry whose address does not translate, where nothing is written
or recorded, and an index above the table's size, whose word is written beyond it (log entry 65). -/
def writeKrepl (s : State) (c : Nat) (x : W64) : State :=
  if !(s.ctx c).present then s
  else
    let s1 := s.onCtx c fun y => y.setReg oKREPL (keepBits x 55 7)
    if !bitOf x.toNat 0 then s1
    else
      let k := fld (s.creg c oKRIDX) 0 16
      match devReach s c true (ktEntry s c k) with
      | .error _ => s1
      | .ok pa =>
        let old := s.rdNat pa 8
        let s2 := rawWrite s1 pa (leBytes 8 (2 ^ 63 + fld x.toNat 7 49 * 128))
        if bitOf old 63 then
          let use : ImageUse := { image := BitVec.ofNat 64 (fld old 0 56), counter := BitVec.ofNat 64 (fld (s.creg c oKRDONE) 3 53 * 8) }
          s2.onCtx c fun y => { y with images := y.images ++ [use] }
        else s2

/-! ### CTXCMD (R46) -/

/-- R46: create applies to an absent context. -/
def createCtx (s : State) (c : Nat) : State :=
  if (s.ctx c).present then s else s.setCtx c { Ctx.reset with present := true }

/-- R46: destroy: dispatch stops, blocks end as killed ones, leats, collectives, watches, records, staged
ops and translations go, dirty lines are written back. -/
def destroyCtx (s : State) (c : Nat) : State :=
  if !(s.ctx c).present then s
  else
    let mine := fun (bid : Nat) => match s.block? bid with | some b => b.ctx == c | none => false
    let s0 := { s with
      ops := s.ops.filter fun o => !(mine o.bid && waitsOutside o)
      colls := s.colls.filter fun x => !mine x.bid
      leats := s.leats.filter (·.ctx != c)
      watches := s.watches.filter (·.ctx != c)
      tlb := s.tlb.filter (·.ctx != c)
      endpoints := s.endpoints.filter (·.1 != c)
      ports := s.ports.filter (· != c) }
    let held := fun (bid gid : Nat) => s.ops.filter fun o => o.bid == bid && o.gid == gid && waitsOutside o
    let clear := fun (b : Block) => { b with groups := b.groups.map fun g => (held b.bid g.gid).foldl uncount g }
    let s1 := { s0 with blocks := updIf (·.ctx == c) clear s0.blocks }
    let s2 := (s1.blocks.filter (·.ctx == c)).foldl (fun acc b => killBlock acc b.bid) s1
    let s3 := (s2.l1.filter fun x => x.ctx == c && x.priv.isNone).foldl writeBack s2
    let s4 := { s3 with launches := updIf (·.ctx == c) (fun l => { l with dropped := true, phase := .dispatched }) s3.launches }
    s4.onCtx c fun x => { x with leaving := true, trig := [], masters := [], queues := x.queues.map fun q => { q with head := none, replicas := [] } }

/-- The context a CTXCMD names. -/
def ctxcmdCtx (x : W64) : Nat := fld x.toNat 0 10

/-- R46: a write to CTXCMD; ignored while go reads 1. -/
def writeCtxcmd (s : State) (x : W64) : State :=
  if bitOf s.ctxcmd.toNat 63 then s
  else
    let c := ctxcmdCtx x
    let reg := keepBits x 17 16 ||| keepBits x 9 0
    let s1 := { s with ctxcmd := reg }
    if !bitOf x.toNat 63 then s1
    else match fld x.toNat 16 2 with
      | 1 => createCtx s1 c
      | 2 => if (s.ctx c).present then destroyCtx { s1 with ctxcmd := reg ||| (1#64 <<< 63) } c else s1
      | _ => s1

/-! ### Device-wide registers (R307, R378, R401) -/

/-- R308: a write to SLT0 or SLPER: at once while slicing is off, else at the next instant. -/
def writeSlice (s : State) (r : SliceReg) (x : W64) : State :=
  if !bitOf s.slper.toNat 20 then
    let s1 := match r with | .slt0 => { s with slt0 := x } | .slper => { s with slper := keepBits x 20 0 }
    { s1 with slBegun := slicesBegun s1.gtime s1.slt0 s1.slper }
  else
    let cur := s.slNext.getD (s.slt0, s.slper)
    { s with slNext := some (match r with | .slt0 => (x, cur.2) | .slper => (cur.1, keepBits x 20 0)) }

/-- R378: a write to STCOVd, effective only with no context present; it clears the die's stamps. -/
def writeStcov (s : State) (die : Nat) (x : W64) : State :=
  if s.ctxs.any fun p => p.2.present then s
  else
    let lim := BitVec.ofNat 64 (min (fld x.toNat 16 24 * 65536) stcovMax)
    let kept := sdrop (fun line => homeDie (line * 64) == some die) s.stamps
    { s with stcov := sset 0 s.stcov die lim, stamps := kept }

/-! ### The map of register space (R46, R415) -/

/-- Where a register address lies. -/
inductive RegPlace where
  | wide (off : Nat)
  | page (priv : Bool) (ctx off : Nat)
  | none
  deriving DecidableEq, Repr

/-- R46: the device-wide registers and the two views of each context's page. -/
def regPlace (pa : Nat) : RegPlace :=
  let o := pa - regBase
  if pa < regBase || regTop ≤ pa then .none
  else if o < 0x10000 then .wide o
  else if 0x10000000 ≤ o && o < 0x10000000 + 0x4000000 then .page true ((o - 0x10000000) / 65536) (o % 65536)
  else if 0x20000000 ≤ o && o < 0x20000000 + 0x4000000 then .page false ((o - 0x20000000) / 65536) (o % 65536)
  else .none

/-- R390: WQUOTA with the entries in use. -/
def wquotaWord (s : State) (c : Nat) : W64 :=
  packFields [(32, 11, (s.watches.filter (·.ctx == c)).length), (0, 11, fld (s.creg c oWQUOTA) 0 11)]

/-- The registers of a page that R415 reaches, by offset. -/
def isPageReg (off : Nat) : Bool :=
  decide (off < 0xC0) || [oTTROOT, oPVBASE, oPVSIZE, oTLBINV, oDOMCFG, oKTBASE, oKTSIZE, oKRIDX, oKREPL, oKRDONE, oTRAPH,
    oFQBASE, oFQCTL, oFQHEAD, oFQTAIL, oFCMD, oWQUOTA, oSAVEB, oSAVES, oSTAGB, oSTAGS].contains off

/-- R402: the number of the counting window that runs now. -/
def rasWindow (s : State) : Nat := s.gtime.toNat / (fld s.rasth.toNat 32 16 * 1000000)

/-- R402: the window counts of a window that is over restart at 0. -/
def rollWindow (s : State) : State :=
  if s.window == rasWindow s then s
  else
    let xs := (List.range 4).foldl (fun m d => sset 0 m d (keepBits (sget 0 m d) 63 32)) s.rasce
    { s with rasce := xs, window := rasWindow s }

/-- R402: a write to RASTH; the counts go on to the next instant that the new window gives. -/
def writeRasth (s : State) (x : W64) : State :=
  let s1 := { rollWindow s with rasth := keepBits x 47 0 }
  { s1 with window := rasWindow s1 }

/-- R401, R402: a die's count of corrected errors; the window count of a window that is over reads 0. -/
def rasCount (s : State) (die : Nat) : W64 :=
  let x := sget 0 s.rasce die
  if s.window == rasWindow s then x else keepBits x 63 32

/-- R415: a read of 8 bytes at an aligned address of register space. SLT0 and SLPER read the schedule in force while a write
of another waits, which R307 leaves open (log entry 65). -/
def regRead (s : State) (pa : Nat) : W64 :=
  match regPlace pa with
  | .wide o =>
    if o == 0 then s.slt0 else if o == 8 then s.slper
    else if 0x10 ≤ o && o < 0x30 then BitVec.ofNat 64 (s.coverage ((o - 0x10) / 8))
    else if o == 0x100 then s.rasth
    else if 0x110 ≤ o && o < 0x130 then rasCount s ((o - 0x110) / 8)
    else if o == 0x130 then s.rasst
    else if o == 0x200 then s.ctxcmd else 0
  | .page _ c off =>
    if !(s.ctx c).present || !isPageReg off then 0 else if off == oWQUOTA then wquotaWord s c else (s.ctx c).reg off
  | .none => 0

/-- R101: the bits of a plainly stored register of the privileged view that a write keeps. -/
def plainMask (off : Nat) : Option W64 :=
  if off == oTTROOT then some 0x00FFFFFFFFFFF001
  else if off == oDOMCFG then some 0x00000000000F3F3F
  else if off == oKTBASE || off == oKRDONE then some 0x00FFFFFFFFFFFFF8
  else if off == oKTSIZE || off == oKRIDX then some 0x000000000000FFFF
  else if off == oTRAPH then some 0x00FFFFFFFFFFFF83
  else if off == oFQBASE then some 0x00FFFFFFFFFFFF80
  else if off == oFQCTL then some 0x000000000001FFFF
  else if off == oWQUOTA then some 0x00000000000007FF
  else none

/-- R101, R316: areas whose registers a write changes only while nothing of the context uses them. -/
def areaMask (off : Nat) : Option W64 :=
  if off == oPVBASE then some 0x00FFFFFFFFFFFFC0
  else if off == oPVSIZE then some 0xFFFFFFFFFFFFFFC0
  else if off == oSAVEB || off == oSTAGB then some 0x000000FFFFFF0000
  else if off == oSAVES || off == oSTAGS then some 0x0000000000FFFFFF
  else none

/-- The area registers of a context are in use: a block of it is resident or saved, or holds a stretch of the arena. -/
def areaBusy (s : State) (c off : Nat) : Bool :=
  if off == oPVBASE || off == oPVSIZE then !(s.ctx c).arena.isEmpty else s.blocks.any fun b => b.ctx == c && !b.ended

/-- The command of an FCMD value. -/
def fcmdOf (x : W64) : Option FCmd := match fld x.toNat 16 4 with | 1 => some .retry | 2 => some .skip | 3 => some .kill | _ => none

/-- A write to a register of a context's page, through the privileged view or the tenant's. -/
def pageWrite (s : State) (priv : Bool) (c off : Nat) (x : W64) : State :=
  if !(s.ctx c).present then s
  else if off < 0x40 then writeDoorbell s c (off / 8) x
  else if off == oTLBINV then writeTlbinv s c x
  else if off == oFQHEAD then s.onCtx c fun y => y.setReg oFQHEAD (keepBits x 31 0)
  else if !priv then s
  else if off < 0xC0 then (if off % 16 == 0 then writeRing s c ((off - 0x40) / 16) x else writeRctl s c ((off - 0x40) / 16) x)
  else if off == oKREPL then writeKrepl s c x
  else if off == oFCMD then
    let s1 := s.onCtx c fun y => y.setReg oFCMD (keepBits x 19 0)
    (match fcmdOf x with | some k => fcmd s1 c (x.extractLsb' 0 16) k | none => s1)
  else match plainMask off with
    | some m => s.onCtx c fun y => y.setReg off (x &&& m)
    | none =>
      match areaMask off with
      | some m => if areaBusy s c off then s else s.onCtx c fun y => y.setReg off (x &&& m)
      | none => s

/-- R415: a write of 8 bytes at an aligned address of register space. -/
def regWrite (s : State) (pa : Nat) (x : W64) : State :=
  match regPlace pa with
  | .wide o =>
    if o == 0 then writeSlice s .slt0 x
    else if o == 8 then writeSlice s .slper x
    else if 0x10 ≤ o && o < 0x30 then writeStcov s ((o - 0x10) / 8) x
    else if o == 0x100 then writeRasth s x
    else if o == 0x200 then writeCtxcmd s x
    else s
  | .page priv c off => pageWrite s priv c off x
  | .none => s

end Sys2Proof.Machine
end

