-- ==== Sys2Proof/Machine/Perform.lean ====
section
/-! DEFINITION. How the memories serve the accesses of in-flight instructions, and how an in-flight
instruction completes (R72, R110, R125 to R131, R146, R250 to R258, R313, R314). -/

namespace Sys2Proof.Machine

/-! ### What an access touches -/

/-- The access goes to the scratchpad. -/
def Acc.inScratch (a : Acc) : Bool := a.space == .scratch

/-- R128, shapes 1 and 2: two accesses of one lane that share a byte. -/
def accClash (a b : Acc) : Bool :=
  a.inScratch == b.inScratch && a.lanes &&& b.lanes != 0 && a.touches.any fun x => b.touches.contains x

/-- The group's in-flight instructions that were checked before this one; one that has met a conflict comes after. -/
def earlierOps (s : State) (op : LongOp) : List LongOp := ((s.opsOf op.bid op.gid).takeWhile fun o => o.id != op.id).filter (·.fail.isNone)

/-- R133, R139: on checked pages a lane's accesses are performed in its program order, and those of one line in the
order of their stamps. -/
def checkedWait (o op : LongOp) (x a : Acc) : Bool :=
  let xs := markedSectors o x
  let ys := markedSectors op a
  !xs.isEmpty && !ys.isEmpty &&
    ((o.bid == op.bid && o.gid == op.gid && x.lanes &&& a.lanes != 0) || xs.any fun u => ys.any fun v => u / 4 == v / 4)

/-- R133, R139: no earlier access to a checked page holds the access back. -/
def checkedTurn (s : State) (op : LongOp) (a : Acc) : Bool :=
  op.marks.isEmpty || (s.ops.takeWhile fun o => o.id != op.id).all fun o => o.fail.isSome || o.accs.all fun x => !checkedWait o op x a

/-- R128, R131, R133: the instruction has met no conflict, and nothing earlier holds the access back: no access of the same lane to the same bytes, for a
release no access of the fragment at all, and on checked pages none that comes first. -/
def mayPerform (s : State) (op : LongOp) (a : Acc) : Bool :=
  op.fail.isNone && ((earlierOps s op).all fun o =>
    (o.accs.all fun x => !accClash x a) && (!op.rel || o.accs.isEmpty || !(o.fid == op.fid || o.lanes &&& op.lanes != 0))) &&
  checkedTurn s op a

/-! ### Values of a load (R250) -/

/-- The register writes of a load's bytes. -/
def loadWrites (lane : Nat) (d : Reg) (t : DType) (bs : List Byte) : List RegWrite :=
  let x := leNat bs
  match t with
  | .n8 => wr32 lane d (BitVec.ofNat 32 (x % 2 ^ 8))
  | .i8 => wr32 lane d (w32 (signed 8 x))
  | .n16 => wr32 lane d (BitVec.ofNat 32 (x % 2 ^ 16))
  | .i16 => wr32 lane d (w32 (signed 16 x))
  | .w32 => wr32 lane d (BitVec.ofNat 32 x)
  | .w64 => wr64 lane d (BitVec.ofNat 64 x)
  | .b128 => (List.range 4).flatMap fun i => wr32 lane (regUp d i) (BitVec.ofNat 32 (x / 2 ^ (32 * i)))

/-- The block whose private region an access reaches. -/
def privOf (b : Block) : Space → Option Nat
  | .priv => some b.bid
  | _ => none

/-- R415: a plain load of register space. -/
def regLoad (s : State) (src : List Nat) : List Byte :=
  let a := src.headD 0
  if src.length == 8 && a % 8 == 0 then leBytes 8 (regRead s a).toNat else src.map fun _ => 0

/-- R415: a plain store to register space. -/
def regStore (s : State) (bytes : List (Nat × Byte)) : State :=
  let a := (bytes.map (·.1)).headD 0
  if bytes.length == 8 && a % 8 == 0 then regWrite s a (BitVec.ofNat 64 (leNat (bytes.map (·.2)))) else s

/-- R294: lanes whose load misses in L1 count, each lane of an instruction once. -/
def countMiss (s : State) (op : LongOp) (served : Nat) (lanes : LaneMask) : State :=
  let before := match s.ops.find? (·.id == op.id) with | some o => o.missed | none => op.missed
  let new := lanes &&& ~~~before
  if served == 0 || new == 0 then s
  else
    let s1 := bumpCtr s op.bid op.gid 4 (popCount new)
    { s1 with ops := updIf (·.id == op.id) (fun o => { o with missed := o.missed ||| new }) s1.ops }

/-! ### What a load returns -/

/-- The memory bytes a load of a block returns from a level. -/
def loadBytes (s : State) (b : Block) (served : Nat) (src : List Nat) : List Byte :=
  let ov := stagedView s b
  src.map (ovByte (byteAt s b.mill served) ov)

/-- A lane's load served. -/
def performLoad (s : State) (b : Block) (op : LongOp) (sp : Space) (level lane : Nat) (d : Reg) (t : DType) (src : List Nat) : State :=
  match sp with
  | .scratch => s.regWrites op.bid op.gid (loadWrites lane d t (src.map b.sb))
  | .regs => s.regWrites op.bid op.gid (loadWrites lane d t (regLoad s src))
  | _ =>
    let served := servedAt s b.mill level src
    let s1 := countMiss (fillCaches s b.mill op.scope served (privOf b sp) b.ctx src) op served (maskOf [lane])
    s1.regWrites op.bid op.gid (loadWrites lane d t (loadBytes s b served src))

/-- The register writes of an atomic's returned values: every lane, or the lowest for a uniform destination. -/
def atomWrites (w : AtomWidth) (d : Option Reg) (lanes : List Nat) (vals : List W64) : List RegWrite :=
  match d with
  | none => []
  | some r =>
    let ps := List.zip lanes vals
    (match r with | .v _ => ps | .s _ => ps.take 1).flatMap fun (p : Nat × W64) =>
      (match w with | .b32 => wr32 p.1 r (lo32 p.2) | .b64 => wr64 p.1 r p.2)

/-- The lanes of an atomic instruction that name one address: the address, and each lane's values. -/
abbrev AtomPart := Nat × List (W64 × W64)

/-- R258, R330: the parts of an atomic instruction in one line, served in one write at the line's home: their
sectors leave the L1 and the RDCs first, and the host's copy of the line is recalled (R309). The values returned, part by part. -/
def homeAtomics (s : State) (mill ctx : Nat) (st : Storer) (line : Nat) (op : AtomOp) (w : AtomWidth) (ps : List AtomPart) :
    List (List W64) × State :=
  let s1 := bringBack (dropRdc (flushSectors s mill line (nub (ps.map fun p => sectorOf p.1))) line) line
  let n := atomBytes w
  let rs := ps.map fun p => (p.1, atomServe op w (BitVec.ofNat 64 (s1.rdNat p.1 n)) p.2)
  (rs.map fun r => r.2.1, homeLine s1 (some ctx) st line (rs.flatMap fun r => bytesAt r.1 n r.2.2.toNat))

/-- R257: an atomic at its scratchpad bank. -/
def bankAtomic (b : Block) (a : Nat) (op : AtomOp) (w : AtomWidth) (lanes : List (W64 × W64)) : List W64 × Block :=
  let n := atomBytes w
  let r := atomServe op w (BitVec.ofNat 64 (b.sbNat a n)) lanes
  (r.1, b.setSbNat a n r.2.toNat)

/-- An atomic access at its scratchpad bank, with the values it returns. -/
def performBank (s : State) (b : Block) (op : LongOp) (a : Nat) (f : AtomOp) (w : AtomWidth) (d : Option Reg)
    (lanes : List (Nat × W64 × W64)) : State :=
  let r := bankAtomic b a f w (lanes.map (·.2))
  (s.setBlock r.2).regWrites op.bid op.gid (atomWrites w d (lanes.map (·.1)) r.1)

/-! ### Stores (R110, R125) -/

/-- The store is performed at its home: a plain store of die scope or wider. -/
def storesHome (sp : Space) (sc : Scope) : Bool := sp == .global && wideScope sc

/-- R398: scratchpad words written whole are sound again. -/
def healScratch (s : State) (bid : Nat) (written : List Nat) : State :=
  { s with errs := s.errs.filter fun x => match x with
      | .scratch b a => !(b == bid && (span (a / 4 * 4) 4).all fun o => written.contains o)
      | _ => true }

/-- Bytes grouped by line, each line's bytes in their order. -/
def byLine (bytes : List (Nat × Byte)) : List (Nat × List (Nat × Byte)) :=
  (nub (bytes.map fun p => lineOf p.1)).map fun ln => (ln, bytes.filter fun p => lineOf p.1 == ln)

/-- A store's bytes served. -/
def performStore (s : State) (b : Block) (op : LongOp) (sp : Space) (bytes : List (Nat × Byte)) : State :=
  match sp with
  | .scratch => healScratch (s.setBlock (b.setSb bytes)) b.bid (bytes.map (·.1))
  | .regs => regStore s bytes
  | _ =>
    let lines := byLine bytes
    lines.foldl (fun acc p =>
      if storesHome sp op.scope then storeThrough acc b.mill b.ctx (s.storerOf b op.gid) p.1 p.2
      else storeL1 acc b.mill b.ctx op.scope (privOf b sp) (s.storerOf b op.gid) p.1 p.2
        ((lines.map (·.1)).filter (· != p.1))) s

/-! ### Map slots (R231 to R233) -/

/-- A map slot of a block changed. -/
def Block.onSlot (b : Block) (stone k : Nat) (f : MapSlot → MapSlot) : Block :=
  { b with slots := updIf (fun x => x.stone == stone && x.k == k) f b.slots }

/-- Words of a slot's image written. -/
def MapSlot.setWords (x : MapSlot) (ws : List (Nat × W32)) : MapSlot := { x with image := ssetAll 0 x.image ws }

/-- R398: the errors of image words written anew are gone. -/
def healSlot (s : State) (bid stone k : Nat) (ws : List Nat) : State :=
  { s with errs := s.errs.filter fun x => match x with
      | .slot b st j w => !(b == bid && st == stone && j == k && ws.contains w)
      | _ => true }

/-! ### One access served -/

/-- An access served at a level, without the order an acquire or a release adds. A unit of an `MXLD` is served at its
homes, with the bytes dirty in the L1, whatever the level: its parts are never of different ages (R146; log entry 10). -/
def serveAcc (s : State) (b : Block) (op : LongOp) (a : Acc) (level : Nat) : State :=
  match a.body with
  | .load lane d t src => performLoad s b op a.space level lane d t src
  | .store bytes => performStore s b op a.space bytes
  | .atom x f w d lanes => if a.space == .scratch then performBank s b op x f w d lanes else s
  | .mxload d words scales =>
    let as := words.flatMap (fun p => span p.2 4) ++ scales.map (·.2)
    let get := fun x n => loadBytes s b 2 (span x n)
    let inL1 := fun (ln : Nat) => servedAt s b.mill 0 (as.filter fun y => lineOf y == ln) == 0
    let fill := fun acc ln => fillCaches acc b.mill op.scope 2 (privOf b a.space) b.ctx (as.filter fun y => lineOf y == ln)
    let missed := maskOf ((words.filter fun p => !inL1 (lineOf p.2)).map (·.1))
    let s1 := (nub (as.map lineOf)).foldl fill (countMiss s op 2 missed)
    let s2 := s1.regWrites op.bid op.gid (words.flatMap fun p => loadWrites p.1 d .w32 (get p.2 4))
    let got := scales.map fun p => (p.1, (get p.2 1).headD 0)
    { s2 with ops := updIf (·.id == op.id) (fun o => { o with coll := o.coll ++ got }) s2.ops }
  | .bind stone k w src =>
    healSlot (s.setBlock (b.onSlot stone k fun x => x.setWords [(w, BitVec.ofNat 32 (b.sbNat src 4))])) b.bid stone k [w]
  | .put stone k ws => healSlot (s.setBlock (b.onSlot stone k fun x => x.setWords ws)) b.bid stone k (ws.map (·.1))
  | .regs ws => s.regWrites op.bid op.gid (ws.map fun w => .v w.1 w.2.1 w.2.2)

/-- Accesses of an operation are no longer to be served. -/
def dropAccs (s : State) (oid : Nat) (ks : List Nat) : State :=
  { s with ops := updIf (·.id == oid) (fun o =>
      { o with accs := ((List.zip (List.range o.accs.length) o.accs).filter fun p => !ks.contains p.1).map (·.2) }) s.ops }

/-- R131: some accesses of an operation served together: a release first writes back, an acquire invalidates
before a load is served and after an atomic is. -/
def performWith (s : State) (op : LongOp) (ks : List Nat) (serve : State → Block → State) : State :=
  match s.block? op.bid with
  | none => s
  | some b0 =>
    let s1 := if op.rel then releaseAt s b0.mill op.scope else s
    let s2 := if op.acq then acquireAt s1 b0.mill op.scope else s1
    match s2.block? op.bid with
    | none => s
    | some b =>
      let s3 := serve s2 b
      dropAccs (if op.acq then acquireAt s3 b0.mill op.scope else s3) op.id ks

/-- One access served. -/
def performAcc (s : State) (op : LongOp) (k : Nat) (a : Acc) (level : Nat) : State :=
  performWith s op [k] fun s b => serveAcc s b op a level

/-- The access is a write or an atomic that a home performs (R125, R258). -/
def atHome (op : LongOp) (a : Acc) : Bool :=
  match a.body with
  | .store _ => storesHome a.space op.scope
  | .atom _ _ _ _ _ => a.space == .global
  | _ => false

/-- R251: the levels a load of an access may be served from. -/
def levelOk (op : LongOp) (a : Acc) (level : Nat) : Bool :=
  match a.body with
  | .load _ _ _ _ => decide (level ≤ 2) && (a.space == .priv || decide (levelOf op.scope ≤ level))
  | .mxload _ _ _ => decide (level ≤ 2) && decide (levelOf op.scope ≤ level)
  | _ => decide (level ≤ 2)

/-- An in-flight instruction by its identity. -/
def State.op? (s : State) (oid : Nat) : Option LongOp := s.ops.find? (·.id == oid)

/-- R11, R16: the caches have room for the lines that an access brings in; a full one evicts a line first. -/
def accRoom (s : State) (op : LongOp) (a : Acc) : Bool :=
  match a.space, s.block? op.bid with
  | .global, some b => cacheRoom s b.mill op.scope (nub (a.touches.map lineOf))
  | .priv, some b => cacheRoom s b.mill .group (nub (a.touches.map lineOf))
  | _, _ => true

/-- The memories serve access `k` of an in-flight instruction at a level; none where they cannot yet. -/
def performTurn (s : State) (oid k level : Nat) : Option State :=
  match s.op? oid with
  | none => none
  | some op =>
    match op.accs[k]? with
    | none => none
    | some a =>
      if atHome op a || !levelOk op a level || !mayPerform s op a || !accRoom s op a then none else some (performAcc s op k a level)

/-- R330: the accesses of an in-flight instruction that a home performs in a line, with their places: all of them, or
none while one is held back. -/
def homeAccs (s : State) (op : LongOp) (line : Nat) : List (Nat × Acc) :=
  let here := (List.zip (List.range op.accs.length) op.accs).filter fun p => atHome op p.2 && lineOf (p.2.touches.headD 0) == line
  if here.all fun p => mayPerform s op p.2 then here else []

/-- The atomic parts among some accesses: operation, width, destination, address and lanes. -/
def atomParts (as : List Acc) : List (AtomOp × AtomWidth × Option Reg × Nat × List (Nat × W64 × W64)) :=
  as.filterMap fun a => match a.body with | .atom x f w d lanes => some (f, w, d, x, lanes) | _ => none

/-- R258, R330: the accesses of one line served at the line's home, as one write. -/
def serveHome (s : State) (b : Block) (op : LongOp) (line : Nat) (as : List Acc) : State :=
  let s1 := as.foldl (fun acc a => match a.body with | .store bytes => performStore acc b op a.space bytes | _ => acc) s
  match atomParts as with
  | [] => s1
  | (f, w, d, x, ls) :: rest =>
    let ps := (x, ls) :: rest.map fun (p : AtomOp × AtomWidth × Option Reg × Nat × List (Nat × W64 × W64)) => p.2.2.2
    let r := homeAtomics s1 b.mill b.ctx (s.storerOf b op.gid) line f w (ps.map fun p => (p.1, p.2.map (·.2)))
    let ds := d :: rest.map fun (p : AtomOp × AtomWidth × Option Reg × Nat × List (Nat × W64 × W64)) => p.2.2.1
    r.2.regWrites op.bid op.gid ((List.zip ds (List.zip ps r.1)).flatMap fun q =>
      atomWrites w q.1 (q.2.1.2.map (·.1)) q.2.2)

/-- `HOME_WRITE_PERFORM` (R14, R113, R126, R330): a home performs the writes or atomics of an in-flight
instruction to a line. -/
def execHomeWritePerform (op line : Nat) (s : State) : Out :=
  match s.op? op with
  | none => .fault .notEnabled
  | some o =>
    match homeAccs s o line with
    | [] => .fault .notEnabled
    | as => .next (performWith s o (as.map (·.1)) fun s b => serveHome s b o line (as.map (·.2)))

/-! ### Completion (R71, R72) -/

/-- R278: the totals of a group's `XEND`. -/
def xendWrites (e : Expansion) (gid : Nat) (d : Reg) (lanes : LaneMask) : List RegWrite :=
  match slotOf e.slots gid 0 with
  | none => []
  | some (i, _) =>
    (match d with | .v _ => lanesOf lanes | .s _ => (lanesOf lanes).take 1).flatMap fun l => wr32 l d (e.accOf (64 * i + l))

/-- R253: the scale words of an `MXLD` in lanes 0 to 3 of its odd register; a uniform one takes the word of
the lowest active lane, where that lane has one (R69, log entry 31). -/
def scaleWrites (d : Reg) (lanes : LaneMask) (coll : List (Nat × Byte)) : List RegWrite :=
  let word := fun (q : Nat) => BitVec.ofNat 32 (leNat ((List.range 4).map fun i => ((coll.find? fun p => p.1 == 4 * q + i).map (·.2)).getD 0))
  (scaleLanes d lanes).flatMap fun q => wr32 q (regUp d 1) (word q)

/-- The group is in a handler run. -/
def inHandler (s : State) (op : LongOp) : Bool :=
  match s.group? op.bid op.gid with
  | none => false
  | some (_, g) => g.handler.isSome

/-- R278: the expansion that a group's `XEND` waits for: one that it has left, and that has not failed (R354). -/
def Block.xuEnding (b : Block) (stone gid : Nat) : Option Expansion :=
  b.xus.find? fun e => e.stone == stone && !e.bad && e.slots.any fun x => x.gid == gid && x.ended

/-- What is left for an in-flight instruction has come about. An `XEND` whose total is ready in a handler run of its group
completes after the run, which R340 leaves open (log entry 65). -/
def finReady (s : State) (op : LongOp) : Bool :=
  match op.fin with
  | .xend stone _ _ =>
    !inHandler s op && (match s.block? op.bid with
      | none => false
      | some b => match b.xuEnding stone op.gid with | none => false | some e => e.finished)
  | .coll tag => s.colls.any fun c => c.opId == op.id && c.tag == tag && c.done
  | _ => true

/-- The last effect of an in-flight instruction. -/
def finish (s : State) (op : LongOp) : State :=
  match op.fin with
  | .plain => s
  | .bind stone k fmt => s.onBlock op.bid fun b => b.onSlot stone k fun x => { x with fmt := fmt, bound := true }
  | .scales d lanes => s.regWrites op.bid op.gid (scaleWrites d lanes op.coll)
  | .xend stone d lanes =>
    (match s.block? op.bid with
     | none => s
     | some b => match b.xuEnding stone op.gid with
       | none => s
       | some e => s.regWrites op.bid op.gid (xendWrites e op.gid d lanes))
  | .coll _ => { s with colls := s.colls.filter fun c => c.opId != op.id }

/-- R71, R340: a completed instruction's count leaves its flag, or the count its handler run set aside. -/
def uncountOp (s : State) (op : LongOp) : State := s.onGroup op.bid op.gid fun g => uncount g op

/-- An in-flight instruction completes. -/
def completeOp (s : State) (op : LongOp) : State :=
  let s1 := uncountOp (finish s op) op
  settleGroup (xuSweep { s1 with ops := s1.ops.filter (·.id != op.id) } op.bid) op.bid op.gid

/-! ### Staged ops (R313, R314) -/

/-- R314: the block's staged ops in release order. -/
def stagedOrder (b : Block) : List StagedOp := b.groups.flatMap fun g => b.staged.filter fun o => o.gid == g.gid

/-- R314, R330: the staged accesses of one line performed at its home, as one write; a leat's past the L1 (R119). -/
def releaseLine (s : State) (bid gid line : Nat) (leat : Bool) (as : List Acc) : State :=
  match s.block? bid with
  | none => s
  | some b =>
    let st := s.storerOf b gid
    let s1 := as.foldl (fun acc a => match a.body with
      | .store bytes =>
        if a.space == .regs then regStore acc bytes
        else
          let mine := bytes.filter fun p => lineOf p.1 == line
          if leat then writePast acc b.mill b.ctx st line mine else storeThrough acc b.mill b.ctx st line mine
      | _ => acc) s
    match atomParts as with
    | [] => s1
    | (f, w, _, x, ls) :: rest =>
      let ps := (x, ls) :: rest.map fun (p : AtomOp × AtomWidth × Option Reg × Nat × List (Nat × W64 × W64)) => p.2.2.2
      (homeAtomics s1 b.mill b.ctx st line f w (ps.map fun p => (p.1, p.2.map (·.2)))).2

/-- R314: the accesses of a staged op performed at their homes, line by line. -/
def releaseAccs (s : State) (bid gid : Nat) (leat : Bool) (as : List Acc) : State :=
  let lines := nub (as.flatMap fun a => a.touches.map lineOf)
  lines.foldl (fun acc ln => releaseLine acc bid gid ln leat (as.filter fun a => a.touches.any fun x => lineOf x == ln)) s

end Sys2Proof.Machine
end

