-- ==== Sys2Proof/Machine/Filter.lean ====
section
/-! DEFINITION. The divergence filter at issue: what it says of an instruction's sectors, the fragment that runs alone past
a full one, and the accesses of the instructions that act once for their fragment (R144, R145, R334). -/

namespace Sys2Proof.Machine

/-- The accesses are recorded in the group's divergence filter (R144). -/
def Env.filtered (e : Env) : Bool := e.b.kernel.checked && decide (1 < e.g.frags.length)

/-- R145: every other fragment of the group has parked, waits its turn behind this one, or is gone, and what
they accessed is performed. -/
def Env.alone (e : Env) : Bool :=
  (e.g.frags.all fun f => f.fid == e.f.fid || (match f.st with
    | .parked _ => true
    | .blocked .filter _ => decide (e.f.fid < f.fid)
    | _ => false)) &&
  (e.s.opsOf e.b.bid e.g.gid).all fun o => o.served || e.opsMine.any (·.id == o.id)

/-- What the filter says of an instruction's sectors. -/
inductive FiltGate where
  | pass (f : List FiltEntry)
  /-- The fragment runs alone from here on, and nothing it does is recorded. -/
  | alone
  | wait
  | conflict (ev : Raised)
  deriving DecidableEq, Repr

/-- R144, R145: one that runs alone past a full filter records nothing. -/
def Env.filtGate (e : Env) (write : Bool) (xs : List FiltTouch) : FiltGate :=
  if !e.filtered || e.f.solo then .pass e.g.filter
  else match filtCheck e.g.filter e.f.fid write xs with
    | .ok f => .pass f
    | .full => if e.alone then .alone else .wait
    | .conflict ev => .conflict ev

/-- The state after an instruction's filter check. -/
def setFilter (e : Env) (f : List FiltEntry) (s : State) : State :=
  if e.filtered then s.onGroup e.b.bid e.g.gid fun g => { g with filter := f } else s

/-- R145: the fragment runs alone. -/
def setSolo (e : Env) (s : State) : State := s.onFrag e.i.f fun f => { f with solo := true }

/-- R144, R145: an instruction goes on with its sectors recorded, or raises, or waits. -/
def FiltGate.andThen (fg : FiltGate) (e : Env) (k : State → Out) : Out :=
  match fg with
  | .pass f => k (setFilter e f e.s)
  | .alone => k (setSolo e e.s)
  | .wait => .next (blockOn e.s (.blocked .filter e.s.cycle))
  | .conflict ev => .next (raise e.s ev)

/-- R93, R144: what the filter sees of far memory: the sectors of window pages (log entry 65). -/
def farTouches (xs : List (Nat × Nat × Nat)) : List FiltTouch :=
  xs.flatMap fun (x : Nat × Nat × Nat) => (nub ((span x.2.1 x.2.2).map sectorOf)).map fun sec =>
    { scratch := false, sector := farBase + sec, lane := x.1, va := max (16 * sec) x.2.1 }

/-- What the filter sees of scratchpad sectors, each with its lane. -/
def scratchTouches (secs : List (Nat × Nat)) : List FiltTouch :=
  secs.map fun (x : Nat × Nat) => { scratch := true, sector := x.2, lane := x.1, va := 0 }

/-- R144: what the filter says of the scratchpad sectors of an instruction that acts once: those it reads, then those it
writes. -/
def Env.filtWords (e : Env) (reads writes : List Nat) : FiltGate :=
  let see := fun (secs : List Nat) => scratchTouches (secs.map fun x => (e.lead, x))
  let whole := fun (ev : Raised) => { ev with lanes := e.whole }
  match filtCheck e.g.filter e.f.fid false (see reads) with
  | .conflict ev => .conflict (whole ev)
  | .full => if e.alone then .alone else .wait
  | .ok f =>
    match filtCheck f e.f.fid true (see writes) with
    | .conflict ev => .conflict (whole ev)
    | .full => if e.alone then .alone else .wait
    | .ok f => .pass f

/-- R144, R145: an instruction that acts once goes on with its scratchpad words recorded, or raises, or waits; where the
group records nothing it goes on as it stands. -/
def Env.seeWords (e : Env) (reads writes : List Nat) (k : Env → Out) : Out :=
  if !e.filtered || e.f.solo then k e
  else match e.filtWords reads writes with
    | .pass f => onIss (setFilter e f e.s) k
    | .alone => onIss (setSolo e e.s) k
    | .wait => .next (blockOn e.s (.blocked .filter e.s.cycle))
    | .conflict ev => .next (raise e.s ev)

end Sys2Proof.Machine
end

