-- ==== Sys2Proof/Machine/Sync.lean ====
section
/-! DEFINITION. Row 0x9 and the pointer wait: phasers, queues, tiles, the extended-register lock and the
device barrier (R107 to R109, R142, R143, R259 to R269, R353, R362 to R364, R386). -/

namespace Sys2Proof.Machine

/-! ### The operands of an instruction that acts once for its fragment (R259, R351) -/

/-- The event of a check of such an instruction. -/
def Env.wev (e : Env) (cause code operand : Nat) (detail : Nat := 0) : Raised := mkEv cause code operand e.whole 0 detail

/-- An event of an instruction that acts once, in the lanes it records (R351). -/
def Env.inWhole (e : Env) (ev : Raised) : Raised := { ev with lanes := e.whole }

/-- R350, R351, R400: its registers are held, and sound in the lanes that supply them. -/
def Env.onceCheck (e : Env) (lanes : LaneMask) (srcs dst : List RegUse) : Option Raised :=
  (heldCheck e.b e.g e.whole (srcs ++ dst)).or ((e.regErr lanes srcs).map e.inWhole)

/-- R259: the same where one lane supplies them. -/
def Env.wholeCheck (e : Env) (srcs dst : List RegUse) : Option Raised := e.onceCheck (maskOf [e.lead]) srcs dst

/-- R371: a scratchpad access of `n` bytes at an offset, aligned; the code that fails. -/
def scratchCode (b : Block) (off n align : Nat) : Option Nat :=
  if off % align != 0 then some 0 else if b.kernel.scratch < off + n then some 1 else none

/-- R362, R371: the check of an offset an operand supplies. -/
def Env.offCheck (e : Env) (operand off n align : Nat) : Option Raised :=
  (scratchCode e.b off n align).map fun k => e.wev 0x22 k operand

/-- R400: a scratchpad word read with an uncorrectable error. -/
def scratchBroken (s : State) (bid off n : Nat) : Bool :=
  s.errs.any fun x => match x with | .scratch b a => b == bid && decide (a / 4 * 4 < off + n) && decide (off < a / 4 * 4 + 4) | _ => false

/-- The check of scratchpad words such an instruction reads. -/
def Env.soundCheck (e : Env) (off n : Nat) : Option Raised := if scratchBroken e.s e.b.bid off n then some (e.wev 0x60 2 2) else none

/-- A predicate written in every lane of `$exm`. -/
def Env.putPred (e : Env) (k : Nat) (x : Bool) : List RegWrite := putP k e.f.exm fun _ => x

/-- The block with its scratchpad changed by the issuing fragment's instruction. -/
def setScratch (s : State) (bid off n x : Nat) : State := healScratch (s.onBlock bid fun b => b.setSbNat off n x) bid (span off n)

/-! ### Groups that wait -/

/-- A group whose fragments' waits stand: it is not stopped and not frozen. -/
def Group.waits (g : Group) : Bool := g.stop.isNone && g.frozen.isNone

/-- R131: the instruction touches the scratchpad once every earlier `LD.acq` of the fragment is complete. -/
def onSync (s : State) (k : Env → Out) : Out := onIss s fun e => if e.acqPending then stall s else k e

/-- The fragments of a block that wait in instructions of one sort, each with its cycle and group (R264). -/
def waitersOf (b : Block) (p : Wait → Bool) : List (Nat × Nat × Nat) :=
  b.groups.flatMap fun g => if !g.waits then [] else g.frags.filterMap fun f =>
    match f.st with | .blocked w since => if p w then some (since, g.gid, f.fid) else none | _ => none

/-- R264: one waiter comes before another. -/
def before (x y : Nat × Nat × Nat) : Bool :=
  decide (x.1 < y.1) || (x.1 == y.1 && (decide (x.2.1 < y.2.1) || (x.2.1 == y.2.1 && decide (x.2.2 < y.2.2))))

/-- The waits a group's partner may hold up (R363). -/
def lockWait : FState → Bool
  | .blocked (.phaser _ _) _ => true
  | .blocked (.push _) _ => true
  | .blocked (.pop _) _ => true
  | .inDbar _ _ => true
  | _ => false

/-- The partner that waits in `REGX.acq` for the set a group holds. -/
def lockPartner (b : Block) (g : Group) : Option Group :=
  if b.holdsExt g then b.groups.find? fun h => h.gid / 2 == g.gid / 2 && h.gid != g.gid && h.waits && h.frags.any inRegx else none

/-- R363: the issuing fragment blocks, or takes trap 0x06. -/
def Env.blockIn (e : Env) (st : FState) : Out :=
  match (if lockWait st then lockPartner e.b e.g else none) with
  | some h => .next (raise e.s (e.wev 0x06 0 0 h.gid))
  | none => .next (blockOn e.s st)

/-- The word of a fragment's current slot, from the clause it has fetched or, after a restore, from the code's home. -/
def wordOf (s : State) (b : Block) (f : Frag) : W64 :=
  match f.line with
  | some l => l.words.getD (fld f.pc.toNat 3 3 + 1) 0
  | none => BitVec.ofNat 64 (devNat s b.ctx (f.pc.toNat + 8) 8)

/-- R363: the lowest waiting fragment of a group takes trap 0x06, for its partner now waits for its set. -/
def trapHolder (s : State) (bid gid partner : Nat) : State :=
  match s.group? bid gid with
  | none => s
  | some (b, g) =>
    let ws := if g.waits then (List.range 8).filterMap fun i => g.frags.find? fun f => f.fid == i && lockWait f.st else []
    match ws with
    | [] => s
    | f :: _ =>
      let ev := mkEv 0x06 0 0 (if f.exm != 0 then f.exm else f.held) 0 partner
      let s1 := s.onFrag { bid := bid, gid := gid, fid := f.fid } fun f => { f with st := .running }
      stopGroup s1 bid gid { fid := f.fid, pc := f.pc, next := f.after, word := wordOf s b f, ev := ev, time := s.gtime, cycle := s.cycle }

/-! ### Phasers (R107, R261, R262) -/

/-- The fields of a phaser. -/
structure Phaser where
  sig     : Nat
  wait    : Nat
  pending : Nat
  phase   : Bool
  deriving DecidableEq, Repr

/-- The phaser in 16 bytes. -/
def phaserOf (x : Nat) : Phaser := { sig := fld x 0 32, wait := fld x 32 32, pending := fld x 64 32, phase := bitOf x 96 }

/-- The 16 bytes of a phaser. -/
def Phaser.word (p : Phaser) : Nat := p.sig % 2 ^ 32 + p.wait % 2 ^ 32 * 2 ^ 32 + p.pending % 2 ^ 32 * 2 ^ 64 + (if p.phase then 2 ^ 96 else 0)

/-- The number of set bits of a group mask. -/
def groupCount (x : Nat) : Nat := ((List.range 32).filter fun i => bitOf x i).length

/-- R353, sub-cause 6, for a phaser. -/
def phaserBad (x : Nat) : Bool := fld x 97 31 != 0 || decide (32 < fld x 64 32)

/-- R353, R350: misuse, by its sub-cause and the offset concerned, with the operand that fails, 0 where it is none
(log entry 42). -/
def Env.misuse (e : Env) (sub off : Nat) (operand : Nat := 0) : Raised := e.wev 0x0A sub operand off

/-- The phaser an instruction names, or the event of its checks. -/
def Env.phaserAt (e : Env) (a : Reg) : Except Raised (Nat × Phaser) :=
  let off := (e.r32 a).toNat
  match (e.offCheck 2 off 16 16).or (e.soundCheck off 16) with
  | some ev => .error ev
  | none =>
    let x := e.b.sbNat off 16
    if phaserBad x then .error (e.misuse 6 off) else .ok (off, phaserOf x)

/-- A tile table entry's fields (R109): base, size, phaser, defined, attached. -/
structure Tile where
  base     : Nat
  size     : Nat
  phaser   : Nat
  defined  : Bool
  attached : Bool
  deriving DecidableEq, Repr

/-- The offset of a tile table entry. -/
def tileOff (b : Block) (h : Nat) : Nat := b.kernel.scratch - 1024 + 16 * h

/-- The tile in 16 bytes. -/
def tileOf (x : Nat) : Tile :=
  { base := fld x 0 20, size := fld x 32 20, phaser := fld x 64 20, defined := bitOf x 96, attached := bitOf x 97 }

/-- The 16 bytes of a tile table entry. -/
def Tile.word (t : Tile) : Nat :=
  t.base % 2 ^ 20 + t.size % 2 ^ 20 * 2 ^ 32 + t.phaser % 2 ^ 20 * 2 ^ 64 + (if t.defined then 2 ^ 96 else 0) + (if t.attached then 2 ^ 97 else 0)

/-- A block's tile, none while it has no room for a table. -/
def Block.tile? (b : Block) (h : Nat) : Option Tile := if b.kernel.scratch < 1024 then none else some (tileOf (b.sbNat (tileOff b h) 16))

/-- R143: the tags a completed phase clears. -/
def phaseTags (b : Block) (off : Nat) (p : Phaser) : Block :=
  if !b.kernel.checked then b
  else if b.liveGroups.all fun g => bitOf p.sig g.gid then clearAllTags b
  else (List.range 64).foldl (fun acc h => match acc.tile? h with
    | some t => if t.defined && t.attached && t.phaser == off then clearTags acc t.base t.size else acc
    | none => acc) b

/-- The fragment waits on the phaser. -/
def onPhaser (off : Nat) (f : Frag) : Bool := match f.st with | .blocked (.phaser o _) _ => o == off | _ => false

/-- R261: Complete. The waiters go on past their instructions. -/
def phaseComplete (cycle : Nat) (b : Block) (off : Nat) (p : Phaser) : Block :=
  let q := { p with phase := !p.phase, pending := groupCount p.sig }
  let b1 := phaseTags (b.setSbNat off 16 q.word) off p
  { b1 with groups := b1.groups.map fun g =>
      if g.waits then { g with frags := updIf (onPhaser off) (fun f => f.wake cycle) g.frags } else g }

/-- R261: one arrival: pending falls, and the phase completes when it reaches 0. -/
def arrive (cycle : Nat) (b : Block) (off : Nat) (p : Phaser) : Block :=
  if p.pending ≤ 1 then phaseComplete cycle b off { p with pending := 0 } else b.setSbNat off 16 ({ p with pending := p.pending - 1 } : Phaser).word

/-- `PHINIT`. -/
def execPhinit (a b c : Reg) (s : State) : Out :=
  onSync s fun e =>
    match e.wholeCheck [(2, a, 1), (3, b, 1), (4, c, 1)] [] with
    | some ev => .next (raise s ev)
    | none =>
      let off := (e.r32 a).toNat
      let sg := (e.r32 b).toNat
      let wt := (e.r32 c).toNat
      match e.offCheck 2 off 16 16 with
      | some ev => .next (raise s ev)
      | none =>
        let n := e.b.groups.length
        if sg / 2 ^ n != 0 then .next (raise s (e.misuse 5 off 3))
        else if wt / 2 ^ n != 0 then .next (raise s (e.misuse 5 off 4))
        else if !(waitersOf e.b fun w => match w with | .phaser o _ => o == off | _ => false).isEmpty then
          .next (raise s (e.misuse 5 off))
        else
          let p : Phaser := { sig := sg, wait := wt, pending := groupCount sg, phase := false }
          e.seeWords [] [sectorOf off] fun e => .next (retire (setScratch e.s e.b.bid off 16 p.word))

/-- The skeleton of `PHREG` on a phaser: a sub-cause, or what becomes of the block. -/
def phreg (a : Reg) (quiet : Bool) (f : Env → Nat → Phaser → Except Nat (Block → Block)) (s : State) : Out :=
  onSync s fun e =>
    if quiet && !e.quiet then stall s
    else match e.wholeCheck [(2, a, 1)] [] with
      | some ev => .next (raise s ev)
      | none =>
        match e.phaserAt a with
        | .error ev => .next (raise s ev)
        | .ok (off, p) =>
          match f e off p with
          | .error sub => .next (raise s (e.misuse sub off))
          | .ok k => e.seeWords [] [sectorOf off] fun e => .next (retire (e.s.setBlock (k e.b)))

/-- `PHREG.sig`. -/
def execPhregSig (a : Reg) (s : State) : Out :=
  phreg a false (fun e off p =>
    if bitOf p.sig e.g.gid then .error 3
    else .ok fun b => b.setSbNat off 16 ({ p with sig := p.sig + 2 ^ e.g.gid, pending := p.pending + 1 } : Phaser).word) s

/-- `PHREG.unsig`. -/
def execPhregUnsig (a : Reg) (s : State) : Out :=
  phreg a true (fun e off p =>
    if !bitOf p.sig e.g.gid then .error 1
    else if p.pending == 0 then .error 2
    else .ok fun b => arrive s.cycle b off { p with sig := p.sig - 2 ^ e.g.gid }) s

/-- `PHREG.wait`. -/
def execPhregWait (a : Reg) (s : State) : Out :=
  phreg a false (fun e off p => .ok fun b => b.setSbNat off 16 ({ p with wait := p.wait ||| 2 ^ e.g.gid } : Phaser).word) s

/-- `PHREG.unwait`. -/
def execPhregUnwait (a : Reg) (s : State) : Out :=
  phreg a false (fun e off p =>
    .ok fun b => b.setSbNat off 16 ({ p with wait := if bitOf p.wait e.g.gid then p.wait - 2 ^ e.g.gid else p.wait } : Phaser).word) s

/-- `PHARV`. -/
def execPharv (pd : Nat) (a : Reg) (s : State) : Out :=
  onSync s fun e =>
    if !e.quiet then stall s
    else match e.wholeCheck [(2, a, 1)] [] with
      | some ev => .next (raise s ev)
      | none =>
        match e.phaserAt a with
        | .error ev => .next (raise s ev)
        | .ok (off, p) =>
          if !bitOf p.sig e.g.gid then .next (raise s (e.misuse 1 off))
          else if p.pending == 0 then .next (raise s (e.misuse 2 off))
          else e.seeWords [] [sectorOf off] fun e => .next (retireWith (e.s.setBlock (arrive e.s.cycle e.b off p)) (e.putPred pd p.phase))

/-- The phaser of a wait or a test, and whether its phase has moved on from the predicate. -/
def Env.phaseMoved (e : Env) (a : Reg) (pb : Nat) : Except Raised (Nat × Bool) :=
  match (e.wholeCheck [(2, a, 1)] []).or ((e.predErr 3 (maskOf [e.lead])).map e.inWhole) with
  | some ev => .error ev
  | none =>
    match e.phaserAt a with
    | .error ev => .error ev
    | .ok (off, p) => if !bitOf p.wait e.g.gid then .error (e.misuse 4 off) else .ok (off, p.phase != pget e.g e.lead pb)

/-- `PHWAIT`. -/
def execPhwait (a : Reg) (pb : Nat) (s : State) : Out :=
  onSync s fun e =>
    match e.phaseMoved a pb with
    | .error ev => .next (raise s ev)
    | .ok (off, moved) => e.seeWords [sectorOf off] [] fun e =>
      if moved then .next (retire e.s) else e.blockIn (.blocked (.phaser off (pget e.g e.lead pb)) e.s.cycle)

/-- `PHTEST`. -/
def execPhtest (pd : Nat) (a : Reg) (pb : Nat) (s : State) : Out :=
  onSync s fun e =>
    match e.phaseMoved a pb with
    | .error ev => .next (raise s ev)
    | .ok (off, moved) => e.seeWords [sectorOf off] [] fun e => .next (retireWith e.s (e.putPred pd moved))

/-! ### Queues (R108, R263, R264) -/

/-- The fields of a queue header. -/
structure QHead where
  ring  : Nat
  cap   : Nat
  kind  : Bool
  head  : Nat
  tail  : Nat
  allow : Nat
  deriving DecidableEq, Repr

/-- The header in 16 bytes. -/
def qheadOf (x : Nat) : QHead :=
  { ring := fld x 0 20, cap := fld x 32 16, kind := bitOf x 48, head := fld x 64 16, tail := fld x 80 16, allow := fld x 96 16 }

/-- The 16 bytes of a header. -/
def QHead.word (q : QHead) : Nat :=
  q.ring % 2 ^ 20 + q.cap % 2 ^ 16 * 2 ^ 32 + (if q.kind then 2 ^ 48 else 0) + q.head % 2 ^ 16 * 2 ^ 64 + q.tail % 2 ^ 16 * 2 ^ 80 + q.allow % 2 ^ 16 * 2 ^ 96

/-- R353, sub-cause 6, for a header. -/
def qheadBad (x : Nat) : Bool :=
  let q := qheadOf x
  fld x 20 12 != 0 || fld x 49 15 != 0 || fld x 112 16 != 0 || decide (q.cap ≤ q.head) || decide (q.cap ≤ q.tail) || decide (q.cap < q.allow)

/-- The queue an instruction names, or the event of its checks. -/
def Env.queueAt (e : Env) (a : Reg) : Except Raised (Nat × QHead) :=
  let off := (e.r32 a).toNat
  match (e.offCheck 2 off 16 16).or (e.soundCheck off 16) with
  | some ev => .error ev
  | none =>
    let x := e.b.sbNat off 16
    let q := qheadOf x
    match e.offCheck 2 q.ring (4 * q.cap) 4 with
    | some ev => .error ev
    | none =>
      if q.cap == 0 then .error (e.misuse 7 off)
      else if qheadBad x then .error (e.misuse 6 off)
      else .ok (off, q)

/-- A wait in `QPUSH` on a header. -/
def pushWait (off : Nat) : Wait → Bool
  | .push o => o == off
  | _ => false

/-- A wait in `QPOP` on a header. -/
def popWait (off : Nat) : Wait → Bool
  | .pop o => o == off
  | _ => false

/-- R264: another fragment waits for its turn before the issuing one. -/
def Env.behind (e : Env) (p : Wait → Bool) : Bool :=
  let me : Nat × Nat × Nat := match e.f.st with | .blocked _ since => (since, e.g.gid, e.f.fid) | _ => (e.s.cycle + 1, e.g.gid, e.f.fid)
  (waitersOf e.b p).any fun w => before w me && (w.2.1 != e.g.gid || w.2.2 != e.f.fid)

/-- R264, R362: the fragment is blocked in the instruction and is not served yet: the queue has nothing for it, or others
blocked before it. -/
def Env.unserved (e : Env) : Bool :=
  match e.f.st with
  | .blocked (.push off) _ => (qheadOf (e.b.sbNat off 16)).allow == 0 || e.behind (pushWait off)
  | .blocked (.pop off) _ => (let q := qheadOf (e.b.sbNat off 16); q.allow == q.cap) || e.behind (popWait off)
  | _ => false

/-- `QINIT`. -/
def execQinit (a b c : Reg) (s : State) : Out :=
  onSync s fun e =>
    match e.wholeCheck [(2, a, 1), (3, b, 1), (4, c, 1)] [] with
    | some ev => .next (raise s ev)
    | none =>
      let off := (e.r32 a).toNat
      let ring := (e.r32 b).toNat
      let x := (e.r32 c).toNat
      let cap := fld x 0 16
      match (e.offCheck 2 off 16 16).or (e.offCheck 3 ring (4 * cap) 4) with
      | some ev => .next (raise s ev)
      | none =>
        if cap == 0 || fld x 17 15 != 0 then .next (raise s (e.misuse 8 off 4))
        else if !(waitersOf e.b fun w => pushWait off w || popWait off w).isEmpty then .next (raise s (e.misuse 8 off))
        else
          let q : QHead := { ring := ring, cap := cap, kind := bitOf x 16, head := 0, tail := 0, allow := cap }
          e.seeWords [] [sectorOf off] fun e => .next (retire (setScratch e.s e.b.bid off 16 q.word))

/-- R400: the entry of the tile table that an instruction reads is sound. -/
def Env.tileCheck (e : Env) (h : Nat) : Option Raised := e.soundCheck (tileOff e.b h) 16

/-- R353, sub-cause 9: a handle pushed to a queue of tiles. -/
def Env.handleBad (e : Env) (q : QHead) (v : Nat) : Bool :=
  q.kind && (v / 64 != 0 || (match e.b.tile? (v % 64) with | some t => !t.defined | none => true))

/-- R263: one push. The entry's word takes no tag: the mill writes it for the queue, and no access of R142's table does
(log entry 61). -/
def pushEntry (b : Block) (off : Nat) (q : QHead) (v : Nat) : Block :=
  let b1 := b.setSbNat (q.ring + 4 * q.tail) 4 (if q.kind then v % 64 else v)
  let b2 := b1.setSbNat off 16 ({ q with tail := (q.tail + 1) % q.cap, allow := q.allow - 1 } : QHead).word
  if q.kind && b.kernel.checked then (match b.tile? (v % 64) with | some t => clearTags b2 t.base t.size | none => b2) else b2

/-- `QPUSH` and `QPUSH.nb`: `nb` is the predicate of the form that does not block. -/
def pushExec (nb : Option Nat) (a b : Reg) (s : State) : Out :=
  onSync s fun e =>
    if !e.quiet || e.unserved then stall s
    else match e.wholeCheck [(2, a, 1), (3, b, 1)] [] with
      | some ev => .next (raise s ev)
      | none =>
        match e.queueAt a with
        | .error ev => .next (raise s ev)
        | .ok (off, q) =>
          let v := (e.r32 b).toNat
          match (if q.kind && v / 64 == 0 then e.tileCheck v else none) with
          | some ev => .next (raise s ev)
          | none =>
          if e.handleBad q v then .next (raise s (e.misuse 9 off 3))
          else if q.allow == 0 then
            (match nb with
             | some pd => e.seeWords [sectorOf off] [] fun e => .next (retireWith e.s (e.putPred pd false))
             | none => e.blockIn (.blocked (.push off) s.cycle))
          else if e.behind (pushWait off) then stall s
          else e.seeWords (if q.kind then [sectorOf (tileOff e.b v)] else []) [sectorOf off, sectorOf (q.ring + 4 * q.tail)] fun e =>
            let at_ := q.ring + 4 * q.tail
            .next (retireWith (healScratch (e.s.setBlock (pushEntry e.b off q v)) e.b.bid (span at_ 4)) (match nb with | some pd => e.putPred pd true | none => []))

/-- `QPUSH`. -/
def execQpush (a b : Reg) (s : State) : Out := pushExec none a b s

/-- `QPUSH.nb`. -/
def execQpushNb (pd : Nat) (a b : Reg) (s : State) : Out := pushExec (some pd) a b s

/-- R263: one pop: the entry, and the block. -/
def popEntry (b : Block) (off : Nat) (q : QHead) : W32 × Block :=
  (BitVec.ofNat 32 (b.sbNat (q.ring + 4 * q.head) 4),
   b.setSbNat off 16 ({ q with head := (q.head + 1) % q.cap, allow := q.allow + 1 } : QHead).word)

/-- R400: the entry a pop reads is sound. -/
def Env.entryCheck (e : Env) (q : QHead) : Option Raised := e.soundCheck (q.ring + 4 * q.head) 4

/-- `QPOP` and `QPOP.nb`. -/
def popExec (nb : Option Nat) (d a : Reg) (s : State) : Out :=
  onSync s fun e =>
    if e.unserved then stall s
    else match e.wholeCheck [(2, a, 1)] [(1, d, 1)] with
      | some ev => .next (raise s ev)
      | none =>
        match e.queueAt a with
        | .error ev => .next (raise s ev)
        | .ok (off, q) =>
          if q.allow == q.cap then
            (match nb with
             | some pc => e.seeWords [sectorOf off] [] fun e => .next (retireWith e.s (e.putPred pc false))
             | none => e.blockIn (.blocked (.pop off) s.cycle))
          else if e.behind (popWait off) then stall s
          else match e.entryCheck q with
            | some ev => .next (raise s ev)
            | none => e.seeWords [sectorOf (q.ring + 4 * q.head)] [sectorOf off] fun e =>
              let r := popEntry e.b off q
              .next (retireWith (e.s.setBlock r.2)
                (put32 d e.f.exm (fun _ => r.1) ++ (match nb with | some pc => e.putPred pc true | none => [])))

/-- `QPOP`. -/
def execQpop (d a : Reg) (s : State) : Out := popExec none d a s

/-- `QPOP.nb`. -/
def execQpopNb (d : Reg) (pc : Nat) (a : Reg) (s : State) : Out := popExec (some pc) d a s

/-! ### Tiles (R109, R265) -/

/-- R353, sub-cause 10: the operand that fails: none where the block has no table, the size, or the base for a tile that
reaches the table. -/
def tileBad (b : Block) (base size : Nat) : Option Nat :=
  if b.kernel.scratch < 1024 then some 0
  else if size == 0 || size % 16 != 0 then some 3
  else if b.kernel.scratch - 1024 < base + size then some 2
  else none

/-- `TDEF` and `TDEF.att`. -/
def tdefExec (h : Nat) (a b : Reg) (c : Option Reg) (s : State) : Out :=
  onSync s fun e =>
    match e.wholeCheck ([(2, a, 1), (3, b, 1)] ++ (match c with | some r => [(4, r, 1)] | none => [])) [] with
    | some ev => .next (raise s ev)
    | none =>
      let base := (e.r32 a).toNat
      let size := (e.r32 b).toNat
      let ph := match c with | some r => (e.r32 r).toNat | none => 0
      match (e.offCheck 2 base size 16).or (match c with | some _ => e.offCheck 4 ph 16 16 | none => none) with
      | some ev => .next (raise s ev)
      | none =>
        match tileBad e.b base size with
        | some k => .next (raise s (e.misuse 10 (tileOff e.b h) k))
        | none =>
          let old := tileOf (e.b.sbNat (tileOff e.b h) 16)
          let t : Tile := match c with
            | some _ => { base := base, size := size, phaser := ph, defined := true, attached := true }
            | none => { old with base := base, size := size, defined := true, attached := false }
          match (if c.isNone then e.tileCheck h else none) with
          | some ev => .next (raise s ev)
          | none => e.seeWords [] [sectorOf (tileOff e.b h)] fun e => .next (retire (setScratch e.s e.b.bid (tileOff e.b h) 16 t.word))

/-- `TDEF`. -/
def execTdef (h : Nat) (a b : Reg) (s : State) : Out := tdefExec h a b none s

/-- `TDEF.att`. -/
def execTdefAtt (h : Nat) (a b c : Reg) (s : State) : Out := tdefExec h a b (some c) s

/-- `TDEF.undef`. -/
def execTdefUndef (h : Nat) (s : State) : Out :=
  onSync s fun e =>
    if e.b.kernel.scratch < 1024 then .next (raise s (e.misuse 10 (tileOff e.b h)))
    else
      let old := tileOf (e.b.sbNat (tileOff e.b h) 16)
      match e.tileCheck h with
      | some ev => .next (raise s ev)
      | none => e.seeWords [] [sectorOf (tileOff e.b h)] fun e => .next (retire (setScratch e.s e.b.bid (tileOff e.b h) 16 ({ old with defined := false, attached := false } : Tile).word))

/-! ### The extended-register lock (R67, R266) -/

/-- R353, sub-cause 11: no set, or a handler run. -/
def Env.noSet (e : Env) : Bool := e.b.kernel.ext == 0 || e.g.handler.isSome

/-- The set taken by a group. -/
def takeSet (b : Block) (gid : Nat) : Block :=
  { b with exts := updIf (·.pair == gid / 2) (fun x => { x with holder := some gid }) b.exts }

/-- `REGX.acq`. -/
def execRegxAcq (s : State) : Out :=
  onIss s fun e =>
    if e.noSet then .next (raise s (e.misuse 11 0))
    else match (e.b.extSet e.g.gid).holder with
      | none => .next (retire (s.setBlock (takeSet e.b e.g.gid)))
      | some h =>
        if h == e.g.gid then .next (retire s)
        else .next (trapHolder (blockOn s (.blocked .regx s.cycle)) e.b.bid h e.g.gid)

/-- `REGX.rel`. -/
def execRegxRel (s : State) : Out :=
  onIss s fun e =>
    if e.noSet || !e.b.holdsExt e.g then .next (raise s (e.misuse 11 0))
    else if extBusy s e.b.bid e.g.gid then stall s
    else .next (retire (s.setBlock (regxPass e.b e.g.gid s.cycle)))

/-! ### The device barrier (R267, R317, R386) -/

/-- The fragment is blocked in `DBAR`. -/
def inDbarF (f : Frag) : Bool := match f.st with | .inDbar _ _ => true | _ => false

/-- A fragment waits in a domain barrier. -/
def inDomF (f : Frag) : Bool := match f.st with | .inDbar d _ => d | _ => false

/-- R267: the group has arrived or ended. -/
def groupArrived (g : Group) : Bool := g.ended || (!g.frags.isEmpty && g.waits && g.frags.all inDbarF)

/-- Some group waits in the barrier, and every one has arrived or ended. -/
def barrierFull (s : State) (lid : Nat) : Bool :=
  let bs := s.blocksOf lid
  (bs.all fun b => (b.resident || b.ended) && b.groups.all groupArrived) && bs.any fun b => b.groups.any fun g => g.frags.any inDbarF

/-- The barrier is one of the domain. -/
def barrierDom (s : State) (lid : Nat) : Bool :=
  (s.blocksOf lid).any fun b => b.groups.any fun g => g.frags.any inDomF

/-- R313: the lowest block index that has not exited. -/
def headOf (s : State) (lid n : Nat) : Nat := (s.blocksOf lid).foldl (fun m b => if b.ended then m else min m b.index.toNat) n

/-- R143, R267: a block of the gang as the barrier completes; the barrier's blocks are the gang's, and so are those whose
tags it clears (log entry 61). -/
def barrierBlock (cycle : Nat) (b : Block) : Block :=
  let b1 := clearAllTags b
  { b1 with groups := b1.groups.map fun g => { g with frags := updIf inDbarF (fun f => f.wake cycle) g.frags } }

/-- R267: the barrier completes: acquires, the epoch, the tags, the generation, and the fragments go on. -/
def barrierComplete (s : State) (l : Launch) : State :=
  let sc : Scope := if barrierDom s l.id then .domain else .device
  let s1 := (s.blocksOf l.id).foldl (fun acc b => acquireAt acc b.mill sc) s
  let s2 := advanceEpoch s1
  let s3 := { s2 with blocks := updIf (fun b => b.launch == some l.id) (barrierBlock s.cycle) s2.blocks }
  s3.onLaunch l.id fun x =>
    { x with barGen := x.barGen + 1, domSent := false, domArr := [], head := headOf s l.id x.head }

/-- R267, R317: the barrier of a launch completes if it can; a member of a domain first says that its groups
have arrived. -/
def barrierCheck (s : State) (lid : Nat) : State :=
  match s.launch? lid with
  | none => s
  | some l =>
    if !barrierFull s lid || (s.blocksOf lid).any fun b => !b.staged.isEmpty then s
    else if !barrierDom s lid || l.nrank == 0 then barrierComplete s l
    else if l.others.all fun r => l.domArr.contains r then
      barrierComplete { s with spurOut := s.spurOut ++ [.barrier lid .completed] } l
    else if l.domSent then s
    else ({ s with spurOut := s.spurOut ++ [.barrier lid (.arrived l.rank)] } : State).onLaunch lid fun x =>
      { x with domSent := true, domSince := s.gtime, domAcks := [] }

/-- The barrier check of a block's launch. -/
def barrierCheckOf (s : State) (bid : Nat) : State :=
  match (s.block? bid).bind (·.launch) with
  | none => s
  | some lid => barrierCheck s lid

/-- `DBAR`. -/
def dbarExec (dom : Bool) (s : State) : Out :=
  onIss s fun e =>
    match s.launchOf e.b with
    | none => .next (raise s (e.misuse 12 0))
    | some l =>
      if !l.gang then .next (raise s (e.misuse 12 0))
      else if !e.quiet then stall s
      else match lockPartner e.b e.g with
        | some h => .next (raise s (e.wev 0x06 0 0 h.gid))
        | none => .next (barrierCheck (blockOn (releaseAt s e.b.mill (if dom then .domain else .device)) (.inDbar dom e.i.next)) l.id)

/-- `DBAR.dev`. -/
def execDbarDev (s : State) : Out := dbarExec false s

/-- `DBAR.dom`. -/
def execDbarDom (s : State) : Out := dbarExec true s

/-- `DOMAIN_BARRIER_MESSAGE` (R267): a remote member's arrival or completion. -/
def execDomainBarrierMessage (lid : Nat) (m : BarMsg) (s : State) : Out :=
  match s.launch? lid with
  | none => .fault .notEnabled
  | some l =>
    match m with
    | .arrived r =>
      if l.others.contains r && !l.domArr.contains r then
        .next (barrierCheck (s.onLaunch lid fun x => { x with domArr := x.domArr ++ [r] }) lid)
      else .fault .notEnabled
    | .completed => if barrierFull s lid && barrierDom s lid && l.domSent then .next (barrierComplete s l) else .fault .notEnabled

/-! ### The write-pointer wait (R269) -/

/-- The pointer word and the count of an `LWAIT`, or the event of its checks. -/
def Env.pointerAt (e : Env) (a b : Reg) : Except Raised (Nat × W32 × Bool) :=
  match e.wholeCheck [(2, a, 1), (3, b, 1)] [] with
  | some ev => .error ev
  | none =>
    let off := (e.r32 a).toNat
    match (e.offCheck 2 off 4 4).or (e.soundCheck off 4) with
    | some ev => .error ev
    | none => .ok (off, e.r32 b, decide ((e.r32 b).toNat ≤ e.b.sbNat off 4))

/-- `LWAIT`. -/
def execLwait (a b : Reg) (s : State) : Out :=
  onSync s fun e =>
    match e.pointerAt a b with
    | .error ev => .next (raise s ev)
    | .ok (off, n, met) => e.seeWords [sectorOf off] [] fun e =>
      if met then .next (retire e.s) else .next (blockOn e.s (.blocked (.pointer off n) e.s.cycle))

/-- `LWAIT.nb`. -/
def execLwaitNb (pd : Nat) (a b : Reg) (s : State) : Out :=
  onSync s fun e =>
    match e.pointerAt a b with
    | .error ev => .next (raise s ev)
    | .ok (off, _, met) => e.seeWords [sectorOf off] [] fun e => .next (retireWith e.s (e.putPred pd met))

/-! ### The end of in-flight instructions and groups -/

/-- `LONG_LATENCY_COMPLETE` (R72). -/
def execLongLatencyComplete (op : Nat) (s : State) : Out :=
  match s.op? op with
  | none => .fault .notEnabled
  | some o => if o.accs.isEmpty && finReady s o && (s.block? o.bid).any (·.resident) then .next (barrierCheckOf (completeOp s o) o.bid) else .fault .notEnabled

end Sys2Proof.Machine
end

