-- ==== Sys2Proof/Machine/Access.lean ====
section
/-! DEFINITION. What every memory instruction does before its accesses are in flight: address formation,
translation and protection, alignment, poison, host pages, stamps, tags and the divergence filter; and the
staging of a deterministic block's writes (R94, R104, R114, R133, R142 to R145, R313 to R315, R334, R369 to R376,
R381, R400). -/

namespace Sys2Proof.Machine

/-! ### Pieces of an access -/

/-- A contiguous piece of a lane's access: its operand's position, its lane, the address a record shows, the
virtual address, its bytes and its place within the lane's value. -/
structure Piece where
  pos   : Nat
  lane  : Nat
  shown : Nat
  va    : Nat
  n     : Nat
  idx   : Nat
  deriving DecidableEq, Repr

/-- A piece with its translation. -/
structure Placed where
  p : Piece
  x : Xlat
  deriving DecidableEq, Repr

/-- What an instruction does to the pages it reaches. -/
structure Form where
  use     : Use
  touch   : Touch
  ordered : Bool
  priv    : Bool
  staged  : Bool
  deriving DecidableEq, Repr

/-- The bytes of a placed piece. -/
def Placed.bytes (a : Placed) : List Nat := span a.x.pa a.p.n

/-- The event of a cause among some verdicts: the failing lanes of the first failing piece's operand. -/
def pick (cause : Nat) (xs : List (Piece × Option (Nat × Nat))) : Option Raised :=
  let bad := xs.filterMap fun (x : Piece × Option (Nat × Nat)) =>
    match x.2 with | some (c, k) => if c == cause then some (x.1, k) else none | none => none
  match bad with
  | [] => none
  | (p, k) :: _ =>
    let mine := bad.filter fun y => y.1.pos == p.pos
    some { mkEv cause k p.pos (maskOf (mine.map (·.1.lane))) p.shown with
      pages := if cause == 0x20 then nub (mine.map fun y => y.1.va / 65536) else [] }

/-- R334 steps 4 and 5 for one piece: its translation, or cause and code. -/
def Env.placeOne (e : Env) (f : Form) (p : Piece) : Except (Nat × Nat) Xlat :=
  if !f.priv && decide (2 ^ 56 ≤ p.va) then .error (0x22, 2)
  else reach e.s e.b.mill e.b.ctx f.use f.ordered (e.s.detBlock e.b) p.va

/-- R334 steps 4 and 5: every piece placed, or the first check that fails. -/
def Env.placeAll (e : Env) (f : Form) (ps : List Piece) : Except Raised (List Placed) :=
  let rs := ps.map fun p => (p, e.placeOne f p)
  let bad := rs.map fun (r : Piece × Except (Nat × Nat) Xlat) => (r.1, match r.2 with | .error k => some k | .ok _ => none)
  match (((pick 0x22 bad).or (pick 0x20 bad)).or (pick 0x21 bad)).or (pick 0x60 bad) with
  | some ev => .error ev
  | none => .ok (rs.filterMap fun (r : Piece × Except (Nat × Nat) Xlat) => match r.2 with | .ok x => some ⟨r.1, x⟩ | .error _ => none)

/-! ### Poison and host pages -/

/-- R400: the code of a byte's uncorrectable error: in a word of a dirty L1 line, in L2 or in HBM. -/
def poisonCode (s : State) (mill a : Nat) : Option Nat :=
  match l1Find s mill (lineOf a) with
  | none => byteCode s a
  | some x => if (x.cell a).isSome && l1Broken s mill a then some 3 else if x.isDirty a then none else byteCode s a

/-- R398: a block reads its own staged bytes, and they hold an error. -/
def stagedBroken (e : Env) (a : Nat) : Option Nat :=
  match e.b.staged.reverse.findSome? fun o => match o.body with
    | .access accs _ => ((accs.flatMap Acc.touches).idxOf? a).map fun i => o.off + i
    | _ => none with
  | some at' => if e.s.errs.contains (.staged e.b.bid (at' / 32)) then some 6 else none
  | none => none

/-- R400: a read or atomic of a poisoned word. -/
def Env.poisonCheck (e : Env) (ps : List Placed) : Option Raised :=
  if e.s.poison.isEmpty && e.s.errs.isEmpty then none
  else pick 0x60 (ps.map fun a =>
    (a.p, (a.bytes.findSome? fun i => (stagedBroken e i).or (poisonCode e.s e.b.mill i)).map fun k => (0x60, k)))

/-- The pieces on host pages. -/
def hostPieces (ps : List Placed) : List Placed := ps.filter fun a => inHost a.x.pa

/-- R381: cause 0x28 for the lanes that reach host pages. -/
def hostFault (ps : List Placed) (code : Nat) : Raised :=
  let hs := hostPieces ps
  mkEv 0x28 code ((hs.map (·.p.pos)).headD 2) (maskOf (hs.map (·.p.lane))) ((hs.map (·.p.shown)).headD 0)

/-- R381: the access waits for the host's answer. -/
def awaitHost (e : Env) (write : Bool) (ps : List Placed) : State :=
  let id := e.s.nextId
  let s1 := blockOn e.s (.awaiting id)
  { s1 with
    nextId := id + 1
    awaits := s1.awaits ++ [{ id := id, f := e.i.f, rank := none, since := e.s.gtime, req := none, got := none, ev := some (hostFault ps 0), ext := true }]
    felmirOut := s1.felmirOut ++ [.access id write ((hostPieces ps).map (·.x.pa))] }

/-! ### The filter, stamps and tags (R334 step 7) -/

/-- The first virtual address of each sector a placed piece touches. -/
def sectorVas (a : Placed) : List (Nat × Nat) :=
  (nub (a.bytes.map sectorOf)).map fun sec => (a.p.va + (sec * 16 - a.x.pa), max (sec * 16) a.x.pa)

/-- The sectors on checked pages. -/
def checkedTouches (ps : List Placed) : List SectorTouch :=
  (ps.filter fun a => leafChecked a.x.leaf).flatMap fun a => (sectorVas a).map fun v => { lane := a.p.lane, va := v.1, pa := v.2 }

/-- The sectors the divergence filter sees. -/
def filtTouches (ps : List Placed) : List FiltTouch :=
  ps.flatMap fun a => (sectorVas a).map fun v => { scratch := false, sector := sectorOf v.2, lane := a.p.lane, va := v.1 }

/-- The translations of the pages reached are held by the mill and its die (R370). -/
def fillAll (s : State) (mill c : Nat) (vas : List Nat) : State :=
  (nub (vas.map fun a => a / 65536 * 65536)).foldl (fun acc a => tlbFill acc mill c a) s

/-- What the checks of an instruction come to. -/
inductive Gate where
  /-- Every check passes: the state with stamps, tags, filter and translations brought up to date. -/
  | go (s : State) (ps : List Placed)
  | stop (ev : Raised)
  /-- The divergence filter is full (R145). -/
  | filter
  /-- The host must answer first (R381). -/
  | host (ps : List Placed)

/-- A touch that writes or is an atomic. -/
def Touch.modifies : Touch → Bool
  | .read => false
  | _ => true

/-- The filter's verdict and then a check that may fail or give a state: the filter's wait comes first, its conflict
last (R334). -/
def FiltGate.gate (e : Env) (fg : FiltGate) (ps : List Placed) (check : Except Raised State) : Gate :=
  match fg with
  | .wait => .filter
  | _ =>
    match check with
    | .error ev => .stop ev
    | .ok s1 =>
      match fg with
      | .pass x => .go (setFilter e x s1) ps
      | .alone => .go (setSolo e s1) ps
      | .conflict ev => .stop ev
      | .wait => .filter

/-- R114: the sectors of checked pages that an instruction reads are seen. -/
def Env.seeReads (e : Env) (f : Form) (ts : List SectorTouch) (s : State) : State :=
  if f.touch.modifies then s else seeSectors s e.b.mill e.b.ident.key (nub (ts.map (·.sec)))

/-- R334 step 7 for global accesses: filter, stamps, translations. -/
def Env.recordAll (e : Env) (f : Form) (ps : List Placed) : Gate :=
  let ts := if f.priv || f.staged then [] else checkedTouches ps
  (e.filtGate f.touch.modifies (if f.priv then [] else filtTouches ps)).gate e ps
    ((stampAll e.s e.b.ident f.touch ts).map fun s1 =>
      fillAll (e.seeReads f ts s1) e.b.mill e.b.ctx (ps.map (·.p.va)))

/-- R114: an in-flight instruction with what it touches on checked pages. -/
def LongOp.marked (op : LongOp) (ps : List Placed) : LongOp := { op with marks := checkedTouches ps }

/-- R334 steps 4 to 7 for global and private accesses; `late` is the alignment check of the placed pieces. -/
def Env.gate (e : Env) (f : Form) (late : List Placed → Option Raised) (ps : List Piece) : Gate :=
  match e.placeAll f ps with
  | .error ev => .stop ev
  | .ok as =>
    match (late as).or (if f.touch == .write then none else e.poisonCheck as) with
    | some ev => .stop ev
    | none =>
      if (hostPieces as).isEmpty || f.staged then e.recordAll f as
      else match e.f.reply with
        | some (.host .ok) => e.recordAll f as
        | some (.host .error) => .stop (hostFault as 0)
        | some .timeout => .stop (hostFault as 1)
        | _ => .host as

/-- An instruction goes on past its checks, or raises, or waits. -/
def Env.after (e : Env) (f : Form) (x : Gate) (k : State → List Placed → Out) : Out :=
  match x with
  | .go s ps => k s ps
  | .stop ev => .next (raise e.s ev)
  | .filter => .next (blockOn e.s (.blocked .filter e.s.cycle))
  | .host ps => .next (awaitHost e f.touch.modifies ps)

/-- The alignment check of some pieces. -/
def alignCheck (align : Nat) (ps : List Piece) : Option Raised :=
  pick 0x22 (ps.map fun p => (p, if p.va % align == 0 then none else some (0x22, 0)))

/-- R415: the alignment check of a plain load or store; a misaligned access to register space raises nothing. -/
def plainAlign (align : Nat) (as : List Placed) : Option Raised := alignCheck align ((as.filter fun a => !inRegs a.x.pa).map (·.p))

/-- No alignment check. -/
def noAlign (_ : List Placed) : Option Raised := none

/-! ### Scratchpad accesses -/

/-- R371: the event of the first lane whose scratchpad access fails; the record shows no address. -/
def Env.scratchCheck (e : Env) (align : Nat) (ps : List Piece) : Option Raised :=
  pick 0x22 (ps.map fun p => ({ p with shown := 0 }, (scratchCode e.b p.va p.n align).map fun k => (0x22, k)))

/-- R400: the lanes that read a scratchpad word with an error. -/
def Env.scratchSound (e : Env) (ps : List Piece) : Option Raised :=
  if e.s.errs.isEmpty then none
  else pick 0x60 (ps.map fun p => ({ p with shown := 0 }, if scratchBroken e.s e.b.bid p.va p.n then some (0x60, 2) else none))

/-- The sectors of scratchpad pieces. -/
def scratchSectors (ps : List Piece) : List (Nat × Nat) := ps.flatMap fun p => sectorsIn p
where
  /-- The sectors of one piece, with its lane. -/
  sectorsIn (p : Piece) : List (Nat × Nat) := (nub ((span p.va p.n).map sectorOf)).map fun x => (p.lane, x)

/-- R334 steps 6 and 7 for scratchpad accesses; `tag` says that sector tags are kept (R142). -/
def Env.scratchGate (e : Env) (align : Nat) (touch : Touch) (tag : Bool) (ps : List Piece) : Gate :=
  match (e.scratchCheck align ps).or (if touch == .write then none else e.scratchSound ps) with
  | some ev => .stop ev
  | none =>
    let secs := scratchSectors ps
    (e.filtGate touch.modifies (scratchTouches secs)).gate e []
      ((if tag then tagAll e.b e.g.gid touch.modifies secs else .ok e.b).map e.s.setBlock)

/-! ### The order an instruction keeps (R131, R132, R313 to R315) -/

/-- The block is deterministic and not the head of its launch. -/
def Env.nonHead (e : Env) : Bool := e.s.detBlock e.b && !e.s.isHead e.b

/-- R314: the block has become the head, and its staged ops are not all performed. -/
def Env.releasing (e : Env) : Bool := e.s.detBlock e.b && e.s.isHead e.b && !e.b.staged.isEmpty

/-- A staged op waits for its turn: earlier accesses of the fragment, or the release of the block's staged ops. -/
def Env.stageWait (e : Env) : Bool := e.releasing || (e.nonHead && !e.quiet)

/-- The bytes of a block's staging area in use (R315; log entry 17). -/
def Block.stagedBytes (b : Block) : Nat := b.staged.foldl (fun n o => n + o.size) 0

/-- R315: a staging area holds 256 KiB. -/
def stageArea : Nat := 256 * 1024

/-- R313: the op enters the staging area, and completes for its flag; a full area makes it wait. -/
def Env.stageOp (e : Env) (s : State) (fl : Option FlagSel) (lanes : LaneMask) (size : Nat) (body : StagedBody) : Out :=
  if stageArea < e.b.stagedBytes + size then stall e.s
  else
    let op : StagedOp := { gid := e.g.gid, fid := e.f.fid, pc := e.i.pc, word := e.i.word, lanes := lanes, size := size, off := e.b.stagedEnd, seq := s.nextId, leat := false, body := body }
    let s1 := ({ s with nextId := s.nextId + 1 } : State).onBlock e.b.bid fun b => { b with staged := b.staged ++ [op] }
    match fl with
    | some x => .next (launchOp s1 (e.op x []))
    | none => .next (retire s1)

/-! ### The skeleton of a per-lane memory instruction -/

/-- The waits, the lanes that act, the register checks, and an instruction with no active lane. `uni` is a
destination that takes one lane's access where it is uniform (R249). -/
def memExec (g : Guard) (fl : FlagSel) (uses : List RegUse) (srcs : List Opnd) (dst : List RegUse) (uni : Option Reg)
    (hold : Env → Bool) (go : Env → LaneMask → Out) (s : State) : Out :=
  onIss s fun e =>
    let act0 := e.active g
    let act := match uni with | some (.s _) => maskOf ((lanesOf act0).take 1) | _ => act0
    let all := uses ++ srcs.flatMap Opnd.regs
    if e.flagFull fl || e.acqPending || e.mapBusy srcs || hold e then stall s
    else
      let check := ((((heldCheck e.b e.g (e.recLanes act0) (all ++ dst)).or (e.guardErr g)).or (e.regErr act all)).or
        (srcs.findSome? (e.mapCheck act0))).or (srcs.findSome? e.oddErr)
      match check with
      | some ev => .next (raise s ev)
      | none => if act == 0 then .next (launchOp s (e.op fl [])) else go e act

end Sys2Proof.Machine
end

