-- ==== Sys2Proof/Machine/Flags.lean ====
section
/-! DEFINITION. The conditions an instruction turns into predicates: integer and floating-point compares,
truth tables, class tests (R193, R200, R204, R238, R239). Beybry has no other condition flags; its
completion flags are counters of the group (R71), kept by the operations of Ops. -/

namespace Sys2Proof.Machine

/-- R200: the condition of `ICMP` on two exact values. -/
def icondHolds (c : ICond) (a b : Int) : Bool :=
  match c with
  | .eq => decide (a = b)
  | .ne => decide (a ≠ b)
  | .lt => decide (a < b)
  | .le => decide (a ≤ b)
  | .gt => decide (b < a)
  | .ge => decide (b ≤ a)
  | .f => false
  | .t => true

/-- R238: the condition of `FCMP` on two binary32 patterns. -/
def fcondHolds (c : FCond) (a b : Nat) : Bool :=
  let o := f32.compare a b
  match c with
  | .eq => o == some .eq
  | .ne => o != some .eq
  | .lt => o == some .lt
  | .le => o == some .lt || o == some .eq
  | .gt => o == some .gt
  | .ge => o == some .gt || o == some .eq
  | .un => o == none
  | .ordered => o != none

/-- R193, R204: entry of an 8-bit truth table for three bits, `a` the least significant. -/
def tableBit (f : BitVec 8) (a b c : Bool) : Bool :=
  f.getLsbD ((if a then 1 else 0) + (if b then 2 else 0) + (if c then 4 else 0))

/-- R239: the class mask of a binary32 pattern meets a mask. -/
def classMeets (x : Nat) (mask : W32) : Bool := (BitVec.ofNat 32 (class32 x)) &&& mask != 0

end Sys2Proof.Machine
end

