-- ==== Sys2Proof/Machine/Int.lean ====
section
/-! DEFINITION. Row 0x1: integer and address arithmetic (R187, R190, R191). -/

namespace Sys2Proof.Machine

/-- The width of an integer type (R187). -/
def tyBits : IntTy → Nat
  | .i8 | .n8 => 8
  | .i16 | .n16 => 16
  | .i32 | .n32 => 32
  | .i64 | .n64 => 64

/-- The type is signed (R187). -/
def tySigned : IntTy → Bool
  | .i8 | .i16 | .i32 | .i64 => true
  | _ => false

/-- R187: In. -/
def intIn (t : IntTy) (x : W64) : Int :=
  if tySigned t then signed (tyBits t) x.toNat else ((x.toNat % 2 ^ tyBits t : Nat) : Int)

/-- R187: Put: a result reduced modulo 2^n and, at 8 and 16 bits, extended to a register. -/
def intOut (t : IntTy) (r : Int) : W64 := w64 (intIn t (w64 r))

/-- The writes of a typed result in the active lanes. -/
def putInt (t : IntTy) (d : Reg) (act : LaneMask) (f : Nat → Int) : List RegWrite :=
  if t.wide then put64 d act fun l => intOut t (f l) else put32 d act fun l => lo32 (intOut t (f l))

/-- R190: the skeleton of the arithmetic instructions with one source. -/
def int1 (g : Guard) (all : Bool) (t : IntTy) (d : Reg) (a : Src) (op : Int → Int) (s : State) : Out :=
  laneExec g all [opA .int t.wide a] [] (useD t.wide d)
    (fun _ act v => putInt t d act fun l => op (intIn t (v 0 l))) s

/-- R190: with two sources. -/
def int2 (g : Guard) (all : Bool) (t : IntTy) (d : Reg) (a b : Src) (op : Int → Int → Int) (s : State) : Out :=
  laneExec g all [opA .int t.wide a, opB .int t.wide b] [] (useD t.wide d)
    (fun _ act v => putInt t d act fun l => op (intIn t (v 0 l)) (intIn t (v 1 l))) s

/-- R190: with three sources. -/
def int3 (g : Guard) (all : Bool) (t : IntTy) (d : Reg) (a b c : Src) (op : Int → Int → Int → Int) (s : State) : Out :=
  laneExec g all [opA .int t.wide a, opB .int t.wide b, opC .int t.wide c] [] (useD t.wide d)
    (fun _ act v => putInt t d act fun l => op (intIn t (v 0 l)) (intIn t (v 1 l)) (intIn t (v 2 l))) s

/-- `IADD`. -/
def execIadd (g : Guard) (all : Bool) (t : IntTy) (d : Reg) (a b : Src) (s : State) : Out :=
  int2 g all t d a b (fun x y => x + y) s

/-- `IADD3`. -/
def execIadd3 (g : Guard) (all : Bool) (t : IntTy) (d : Reg) (a b c : Src) (s : State) : Out :=
  int3 g all t d a b c (fun x y z => x + y + z) s

/-- `ISUB`. -/
def execIsub (g : Guard) (all : Bool) (t : IntTy) (d : Reg) (a b : Src) (s : State) : Out :=
  int2 g all t d a b (fun x y => x - y) s

/-- `IMUL`. -/
def execImul (g : Guard) (all : Bool) (t : IntTy) (d : Reg) (a b : Src) (s : State) : Out :=
  int2 g all t d a b (fun x y => x * y) s

/-- `IMULH`: the floor of the product over 2^n. -/
def execImulh (g : Guard) (all : Bool) (t : IntTy) (d : Reg) (a b : Src) (s : State) : Out :=
  int2 g all t d a b (fun x y => Int.fdiv (x * y) ((2 ^ tyBits t : Nat) : Int)) s

/-- `IMAD`. -/
def execImad (g : Guard) (all : Bool) (t : IntTy) (d : Reg) (a b c : Src) (s : State) : Out :=
  int3 g all t d a b c (fun x y z => x * y + z) s

/-- `IMIN`. -/
def execImin (g : Guard) (all : Bool) (t : IntTy) (d : Reg) (a b : Src) (s : State) : Out :=
  int2 g all t d a b (fun x y => min x y) s

/-- `IMAX`. -/
def execImax (g : Guard) (all : Bool) (t : IntTy) (d : Reg) (a b : Src) (s : State) : Out :=
  int2 g all t d a b (fun x y => max x y) s

/-- `IABS`. -/
def execIabs (g : Guard) (all : Bool) (t : IntTy) (d : Reg) (a : Src) (s : State) : Out :=
  int1 g all t d a (fun x => ((x.natAbs : Nat) : Int)) s

/-- `INEG`. -/
def execIneg (g : Guard) (all : Bool) (t : IntTy) (d : Reg) (a : Src) (s : State) : Out :=
  int1 g all t d a (fun x => -x) s

/-- `LEA` (R191). -/
def execLea (g : Guard) (sgn : Bool) (sh : Nat) (d : Reg) (a : Reg) (b : Src) (s : State) : Out :=
  laneExec g false [opA .int true (.reg a), opB .int false b] [] (useD true d)
    (fun _ act v => put64 d act fun l =>
      v 0 l + w64 ((if sgn then intIn .i32 (v 1 l) else intIn .n32 (v 1 l)) * ((2 ^ sh : Nat) : Int))) s

end Sys2Proof.Machine
end

