-- ==== Sys2Proof/Machine/Logic.lean ====
section
/-! DEFINITION. Row 0x2: logic, shifts, bit fields, bytes and counts (R192 to R199). -/

namespace Sys2Proof.Machine

/-- R192: the bitwise operations. -/
def lopOf2 (op : LopOp) (a b : W64) : W64 :=
  match op with
  | .and => a &&& b
  | .or => a ||| b
  | .xor => a ^^^ b
  | .andn => a &&& ~~~b
  | .orn => a ||| ~~~b
  | .xnor => ~~~(a ^^^ b)

/-- A result of one or two registers. -/
def putW (wide : Bool) (d : Reg) (act : LaneMask) (f : Nat → W64) : List RegWrite :=
  if wide then put64 d act f else put32 d act fun l => lo32 (f l)

/-- `LOP` (R192). -/
def execLop (g : Guard) (op : LopOp) (b64 : Bool) (d : Reg) (a : Reg) (b : Src) (s : State) : Out :=
  laneExec g false [opA .int b64 (.reg a), opB .int b64 b] [] (useD b64 d)
    (fun _ act v => putW b64 d act fun l => lopOf2 op (v 0 l) (v 1 l)) s

/-- A word from its bits. -/
def bitsWord (f : Nat → Bool) : W32 :=
  BitVec.ofNat 32 ((List.range 32).foldl (fun x i => x + if f i then 2 ^ i else 0) 0)

/-- `BITS3` (R193). -/
def execBits3 (g : Guard) (f : BitVec 8) (d a b c : Reg) (s : State) : Out :=
  laneExec g false [opA .int false (.reg a), opB .int false (.reg b), opC .int false (.reg c)] [] (useD false d)
    (fun _ act v => put32 d act fun l =>
      bitsWord fun i => tableBit f ((v 0 l).getLsbD i) ((v 1 l).getLsbD i) ((v 2 l).getLsbD i)) s

/-- A shift count: 32 bits, unsigned (R194). -/
def countOf (x : W64) : Nat := (lo32 x).toNat

/-- `SHL` (R194). -/
def execShl (g : Guard) (t : IntTy) (d : Reg) (a : Reg) (b : Src) (s : State) : Out :=
  laneExec g false [opA .int t.wide (.reg a), opB .int false b] [] (useD t.wide d)
    (fun _ act v => putInt t d act fun l =>
      if tyBits t ≤ countOf (v 1 l) then 0 else intIn t (v 0 l) * ((2 ^ countOf (v 1 l) : Nat) : Int)) s

/-- `SHR` (R194): zeros shifted in. -/
def execShr (g : Guard) (t : IntTy) (d : Reg) (a : Reg) (b : Src) (s : State) : Out :=
  laneExec g false [opA .int t.wide (.reg a), opB .int false b] [] (useD t.wide d)
    (fun _ act v => putInt t d act fun l =>
      if tyBits t ≤ countOf (v 1 l) then 0
      else (((v 0 l).toNat % 2 ^ tyBits t / 2 ^ countOf (v 1 l) : Nat) : Int)) s

/-- `SAR` (R194): copies of bit n-1 shifted in. -/
def execSar (g : Guard) (t : IntTy) (d : Reg) (a : Reg) (b : Src) (s : State) : Out :=
  laneExec g false [opA .int t.wide (.reg a), opB .int false b] [] (useD t.wide d)
    (fun _ act v => putInt t d act fun l =>
      Int.fdiv (signed (tyBits t) (v 0 l).toNat) ((2 ^ min (countOf (v 1 l)) (tyBits t) : Nat) : Int)) s

/-- R195: the funnel shift of B over A. -/
def funnel (left clamp : Bool) (a b : W32) (c : Nat) : W32 :=
  let x := b.toNat * 2 ^ 32 + a.toNat
  let k := if clamp then min c 32 else c % 32
  BitVec.ofNat 32 (if left then x * 2 ^ k / 2 ^ 32 else x / 2 ^ k)

/-- `FSH` (R195). -/
def execFsh (g : Guard) (left clamp : Bool) (d : Reg) (a b : Reg) (c : Src) (s : State) : Out :=
  laneExec g false [opA .int false (.reg a), opB .int false (.reg b), opC .int false c] [] (useD false d)
    (fun _ act v => put32 d act fun l => funnel left clamp (lo32 (v 0 l)) (lo32 (v 1 l)) (countOf (v 2 l))) s

/-- R196: the field of `n`-bit `a` at `pos` of length `len`. -/
def bitField (n : Nat) (sgn : Bool) (a : Nat) (pos len : Nat) : Int :=
  let ext := if sgn then signed n a else ((a % 2 ^ n : Nat) : Int)
  let m := min len n
  let f := (Int.fdiv ext ((2 ^ pos : Nat) : Int) % ((2 ^ m : Nat) : Int)).toNat
  if m == 0 then 0 else if sgn then signed m f else ((f : Nat) : Int)

/-- `BFE` (R196). -/
def execBfe (g : Guard) (t : IntTy) (d : Reg) (a : Reg) (b : Src) (s : State) : Out :=
  laneExec g false [opA .int t.wide (.reg a), opB .int false b] [] (useD t.wide d)
    (fun _ act v => putInt t d act fun l =>
      bitField (tyBits t) (tySigned t) (v 0 l).toNat (fld (v 1 l).toNat 0 8) (fld (v 1 l).toNat 8 8)) s

/-- R197: the base value with a field replaced. -/
def fieldInto (n : Nat) (a c pos len : Nat) : Nat :=
  (List.range n).foldl (fun x i => x + (if (if pos ≤ i && i < pos + len then bitOf a (i - pos) else bitOf c i) then 2 ^ i else 0)) 0

/-- `BFI` (R197). -/
def execBfi (g : Guard) (t : IntTy) (d : Reg) (a b : Reg) (c : Src) (s : State) : Out :=
  laneExec g false [opA .int t.wide (.reg a), opB .int false (.reg b), opC .int t.wide c] [] (useD t.wide d)
    (fun _ act v => putW t.wide d act fun l =>
      BitVec.ofNat 64 (fieldInto (tyBits t) (v 0 l).toNat (v 2 l).toNat (fld (v 1 l).toNat 0 8) (fld (v 1 l).toNat 8 8))) s

/-- Bit reversal of a number of `n` bits. -/
def revBits (n x : Nat) : Nat := (List.range n).foldl (fun y i => y + if bitOf x (n - 1 - i) then 2 ^ i else 0) 0

/-- R198: one result byte of `BYSEL`, from its code and the 64-bit source. -/
def byteSel (x k : Nat) : Nat :=
  let y := fld x (8 * fld k 0 3) 8
  let z := match fld k 3 2 with
    | 0 => y
    | 1 => 0
    | 2 => 255
    | _ => if bitOf y 7 then 255 else 0
  if bitOf k 5 then revBits 8 z else z

/-- `BYSEL` (R198). -/
def execBysel (g : Guard) (d : Reg) (a b : Reg) (c : Src) (s : State) : Out :=
  laneExec g false [opA .int false (.reg a), opB .int false (.reg b), opC .int false c] [] (useD false d)
    (fun _ act v => put32 d act fun l =>
      let x := (v 1 l).toNat % 2 ^ 32 * 2 ^ 32 + (v 0 l).toNat % 2 ^ 32
      BitVec.ofNat 32 ((List.range 4).foldl (fun r i => r + byteSel x (fld (v 2 l).toNat (6 * i) 6) * 2 ^ (8 * i)) 0)) s

/-- R199: the number of 1 bits of the low `n` bits. -/
def ones (n x : Nat) : Nat := ((List.range n).filter fun i => bitOf x i).length

/-- R199: the number of 0 bits above the highest 1 of the low `n` bits. -/
def leadZeros (n x : Nat) : Nat := ((List.range n).takeWhile fun i => !bitOf x (n - 1 - i)).length

/-- `POPC` (R199). -/
def execPopc (g : Guard) (t : IntTy) (d : Reg) (a : Src) (s : State) : Out :=
  laneExec g false [opA .int t.wide a] [] (useD false d)
    (fun _ act v => put32 d act fun l => BitVec.ofNat 32 (ones (tyBits t) (v 0 l).toNat)) s

/-- `CLZ` (R199). -/
def execClz (g : Guard) (t : IntTy) (d : Reg) (a : Src) (s : State) : Out :=
  laneExec g false [opA .int t.wide a] [] (useD false d)
    (fun _ act v => put32 d act fun l => BitVec.ofNat 32 (leadZeros (tyBits t) (v 0 l).toNat)) s

/-- `BREV` (R199). -/
def execBrev (g : Guard) (t : IntTy) (d : Reg) (a : Src) (s : State) : Out :=
  laneExec g false [opA .int t.wide a] [] (useD t.wide d)
    (fun _ act v => putW t.wide d act fun l => BitVec.ofNat 64 (revBits (tyBits t) (v 0 l).toNat)) s

end Sys2Proof.Machine
end

