-- ==== Sys2Proof/Machine/Pred.lean ====
section
/-! DEFINITION. Row 0x3: compare, select, move, predicates, the execution mask, the lane shuffle
(R200 to R209). -/

namespace Sys2Proof.Machine

/-- `ICMP` (R200). -/
def execIcmp (g : Guard) (all : Bool) (cc : ICond) (t : IntTy) (pd : Nat) (a b : Src) (s : State) : Out :=
  laneExec g all [opA .int t.wide a, opB .int t.wide b] [] []
    (fun _ act v => putP pd act fun l => icondHolds cc (intIn t (v 0 l)) (intIn t (v 1 l))) s

/-- `SEL` (R201). -/
def execSel (g : Guard) (all : Bool) (t : IntTy) (d : Reg) (a b : Src) (pc : Nat) (s : State) : Out :=
  laneExec g all [opA .int t.wide a, opB .int t.wide b] [4] (useD t.wide d)
    (fun e act v => putInt t d act fun l => intIn t (if pget e.g l pc then v 0 l else v 1 l)) s

/-- `MOV` (R202). -/
def execMov (g : Guard) (t : IntTy) (d : Reg) (a : Src) (s : State) : Out :=
  laneExec g false [opA .int t.wide a] [] (useD t.wide d)
    (fun _ act v => putInt t d act fun l => intIn t (v 0 l)) s

/-- `MOVI` (R203). -/
def execMovi (g : Guard) (t : IntTy) (d : Reg) (x : BitVec 36) (s : State) : Out :=
  laneExec g false [] [] (useD t.wide d) (fun _ act _ => putInt t d act fun _ => x.toInt) s

/-- `PLOP` (R204). -/
def execPlop (g : Guard) (f : BitVec 8) (pd pa pb pc : Nat) (s : State) : Out :=
  laneExec g false [] [2, 3, 4] []
    (fun e act _ => putP pd act fun l => tableBit f (pget e.g l pa) (pget e.g l pb) (pget e.g l pc)) s

/-- `PMOV.pack` (R205). -/
def execPmovPack (g : Guard) (d : Reg) (s : State) : Out :=
  laneExec g false [] [0] (useD false d) (fun e act _ => put32 d act fun l => (sget 0 e.g.p l).setWidth 32) s

/-- `PMOV.unpack` (R205). -/
def execPmovUnpack (g : Guard) (a : Reg) (b : Src) (s : State) : Out :=
  laneExec g false [opA .int false (.reg a), opB .int false b] [] []
    (fun _ act v => (lanesOf act).flatMap fun l =>
      ((List.range 12).filter fun k => (v 1 l).getLsbD k).map fun k => RegWrite.p l k ((v 0 l).getLsbD k)) s

/-- `PMOV.copy` (R205). -/
def execPmovCopy (g : Guard) (pd pa : Nat) (s : State) : Out :=
  laneExec g false [] [2] [] (fun e act _ => putP pd act fun l => pget e.g l pa) s

/-- The active lanes in which a predicate is 1. -/
def setLanes (g : Group) (act : LaneMask) (p : Nat) : List Nat := (lanesOf act).filter fun l => pget g l p

/-- R206: what `POLL` writes. -/
def pollWrites (op : PollOp) (g : Group) (act : LaneMask) (p : Nat) : List RegWrite :=
  let yes := setLanes g act p
  let n := (lanesOf act).length
  match op with
  | .every pd => putP pd act fun _ => yes.length == n
  | .some pd => putP pd act fun _ => !yes.isEmpty
  | .same pd => putP pd act fun _ => yes.isEmpty || yes.length == n
  | .bits d => put64 d act fun _ => maskOf yes
  | .count d => put32 d act fun _ => BitVec.ofNat 32 yes.length
  | .first d => put32 d act fun _ => match yes with | [] => 0xFFFFFFFF | l :: _ => BitVec.ofNat 32 l

/-- The destination registers of `POLL`. -/
def pollDest : PollOp → List RegUse
  | .bits d => useD true d
  | .count d => useD false d
  | .first d => useD false d
  | _ => []

/-- `POLL` (R206). -/
def execPoll (g : Guard) (op : PollOp) (pa : Nat) (s : State) : Out :=
  laneExec g false [] [2] (pollDest op) (fun e act _ => pollWrites op e.g act pa) s

/-- `MASK.rd` (R207). -/
def execMaskRd (g : Guard) (d : Reg) (s : State) : Out :=
  laneExec g false [] [] (useD true d) (fun e act _ => put64 d act fun _ => e.f.exm) s

/-- `MASK.rd.held` (R207). -/
def execMaskRdHeld (g : Guard) (d : Reg) (s : State) : Out :=
  laneExec g false [] [] (useD true d) (fun e act _ => put64 d act fun _ => e.f.held) s

/-- R208: the new execution mask. -/
def maskResult (op : MaskOp) (exm x : LaneMask) : LaneMask :=
  match op with
  | .set => x
  | .and => exm &&& x
  | .or => exm ||| x
  | .andn => exm &&& ~~~x

/-- R30: `$exm` of the issuing fragment set, within its held mask; lanes of a pending side are held too (log entry
12). -/
def setExm (s : State) (m : LaneMask) : State :=
  match s.cur with
  | none => s
  | some i => s.onFrag i.f fun f => { f with exm := m &&& f.held }

/-- R208, R400: an error in what `MASK.wr` reads: its guard, or its source in the lane that supplies it. -/
def maskErr (e : Env) (g : Guard) (o : Opnd) (pass : LaneMask) : Option Raised :=
  (if g.idx < 12 then e.predErr 0 e.f.held else none).or (e.regErr (maskOf ((lanesOf pass).take 1)) o.regs)

/-- `MASK.wr` (R208). -/
def execMaskWr (g : Guard) (op : MaskOp) (a : Src) (s : State) : Out :=
  onIss s fun e =>
    let o := opA .int true a
    let pass := guarded e.g e.f.held g
    match (heldCheck e.b e.g e.whole o.regs).or (maskErr e g o pass) with
    | some ev => .next (raise s ev)
    | none =>
      if pass == 0 then .next (retire s)
      else .next (retire (setExm s (maskResult op e.f.exm (e.srcVals 0 o (lowLane pass)))))

/-- R209: the lane a lane reads. -/
def laneFrom (m : LaneMode) (w l : Nat) (b : W32) : Int :=
  match m with
  | .idx => (b.toNat : Int)
  | .off => (l : Int) + b.toInt
  | .rot => ((l : Int) + b.toInt) % (w : Int)
  | .flip => ((l ^^^ b.toNat : Nat) : Int)
  | .rev => (w : Int) - 1 - l

/-- R209: the lane whose A a lane receives: the named lane where it is active, else its own. -/
def laneSource (m : LaneMode) (w : Nat) (act : LaneMask) (l : Nat) (b : W32) : Nat :=
  let j := laneFrom m w l b
  if 0 ≤ j ∧ j < (w : Int) ∧ hasLane act j.toNat = true then j.toNat else l

/-- The sources of `LANEX`: `.rev` reads no B. -/
def lanexSrcs (m : LaneMode) (b64 : Bool) (a : Reg) (b : Src) : List Opnd :=
  opA .int b64 (.reg a) :: (if m = .rev then [] else [opB .int false b])

/-- `LANEX` (R209). -/
def execLanex (g : Guard) (m : LaneMode) (b64 : Bool) (d : Reg) (a : Reg) (b : Src) (s : State) : Out :=
  laneExec g false (lanexSrcs m b64 a b) [] (useD b64 d)
    (fun e act v => putW b64 d act fun l => v 0 (laneSource m e.b.width act l (lo32 (v 1 l)))) s

end Sys2Proof.Machine
end

