-- ==== Sys2Proof/Machine/System.lean ====
section
/-! DEFINITION. Row 0xC: child launches, signals and special registers (R75, R76, R291 to R295, R356). -/

namespace Sys2Proof.Machine

/-! ### Child launches (R291, R317) -/

/-- R47: the ring is full. -/
def ringFull (s : State) (c q : Nat) : Bool := (s.writeIdx c q + 1) % s.ringSize c q == s.readIdx c q

/-- The virtual address of the slot the next packet takes. -/
def nextSlot (s : State) (c q : Nat) : Nat := s.ringSlot c q (s.writeIdx c q)

/-- The packet of 16 uniform registers. -/
def packetOf (g : Group) (n : Nat) : List W64 := (List.range 8).map fun i => pair64 (uget g (n + 2 * i)) (uget g (n + 2 * i + 1))

/-- R291: a packet written into a slot at its home, and the doorbell's write index raised by 1, in one step. -/
def ringPush (s : State) (b : Block) (gid q pa : Nat) (pkt : List W64) : State :=
  let s1 := storeThrough s b.mill b.ctx (s.storerOf b gid) (lineOf pa) (List.zip (span pa 64) (wordBytes pkt))
  let w := (s.writeIdx b.ctx q + 1) % s.ringSize b.ctx q
  s1.onCtx b.ctx fun y => y.setReg (oDB q) (BitVec.ofNat 64 w)

/-- R351: the same of what checks come to. -/
def Env.gateWhole (e : Env) (g : Gate) : Gate := match g with | .stop ev => .stop (e.inWhole ev) | x => x

/-- What `LAUNCH` does to its ring slot's page: a store that register space refuses. -/
def ringForm : Form := { use := .mxstore, touch := .write, ordered := false, priv := false, staged := false }

/-- The access of `LAUNCH` to the slot. -/
def Env.ringPiece (e : Env) (q : Nat) : Piece :=
  let va := nextSlot e.s e.b.ctx q
  { pos := 2, lane := e.lead, shown := va, va := va, n := 64, idx := 0 }

/-- R139: an earlier checked access to the slot's line comes first. -/
def Env.ringOwed (e : Env) (q : Nat) : Bool :=
  !e.s.ops.isEmpty && match e.placeAll ringForm [e.ringPiece q] with | .ok as => linesOwed e.s (checkedTouches as) | .error _ => false

/-- R144: what the divergence filter says of a staged `LAUNCH`: the sectors of the slot it would take now, where that
translates (log entry 65). -/
def Env.ringSeen (e : Env) (q : Nat) : FiltGate :=
  match e.filtGate true (match e.placeAll ringForm [e.ringPiece q] with | .ok as => filtTouches as | .error _ => []) with
  | .conflict ev => .conflict (e.inWhole ev)
  | x => x

/-- `LAUNCH` (R291). -/
def execLaunch (prio : Nat) (n : Nat) (s : State) : Out :=
  onIss s fun e =>
    if e.acqPending || e.releasing || !e.quiet then stall s
    else match e.wholeCheck [(2, .s n, 16)] [] with
      | some ev => .next (raise s ev)
      | none =>
        let pkt := packetOf e.g n
        if e.nonHead then (e.ringSeen prio).andThen e fun s1 => e.stageOp s1 none e.whole 64 (.launch prio pkt)
        else if ringFull s e.b.ctx prio || e.ringOwed prio then stall s
        else e.after ringForm (e.gateWhole (e.gate ringForm noAlign [e.ringPiece prio])) fun s1 as =>
          .next (retire (ringPush (releaseAt s1 e.b.mill .system) e.b e.g.gid prio ((as.map (·.x.pa)).headD 0) pkt))

/-! ### `SIGNAL` (R292) -/

/-- The counter's access. -/
def signalPiece (e : Env) (a : Reg) : Piece :=
  let x := (e.r64 a).toNat
  { pos := 2, lane := e.lead, shown := x, va := x, n := 8, idx := 0 }

/-- R292, R381: an access that does not wait for the host: a host that fails it at issue raises 0x28. -/
def Env.gateNow (e : Env) (f : Form) (g : Gate) : Gate :=
  match g with
  | .host as => (match e.s.hostFails with | some k => .stop (hostFault as k) | none => e.recordAll f as)
  | x => x

/-- The add in flight: an atomic with release at system scope that counts no flag. -/
def signalOp (e : Env) (pa : Nat) (x : W64) : LongOp :=
  let acc : Acc := { space := .global, lanes := e.whole, body := .atom pa .add .b64 none [(e.lead, x, 0)] }
  { e.op .A [acc] with flag := none, hold := 0, scope := .system, rel := true }

/-- `SIGNAL` (R292). -/
def execSignal (a b : Reg) (s : State) : Out :=
  onIss s fun e =>
    if e.acqPending || e.stageWait then stall s
    else match e.wholeCheck [(2, a, 2), (3, b, 2)] [] with
      | some ev => .next (raise s ev)
      | none =>
        let f : Form := { use := .atomic, touch := .atomic, ordered := false, priv := false, staged := e.nonHead }
        let p := signalPiece e a
        e.after f (e.gateWhole (e.gateNow f (e.gate f (fun _ => alignCheck 8 [p]) [p]))) fun s1 as =>
          if e.nonHead then e.stageOp s1 none e.whole 16 (.signal (BitVec.ofNat 64 p.va) (e.r64 b))
          else .next (launchOp s1 ((signalOp e ((as.map (·.x.pa)).headD 0) (e.r64 b)).marked as))

/-! ### Special registers (R75, R293, R294) -/

/-- A 32-bit special register of a lane; none where the index names none. -/
def special32 (e : Env) (r lane : Nat) : Option W32 :=
  match r with
  | 0x00 => some (BitVec.ofNat 32 lane)
  | 0x01 => some (BitVec.ofNat 32 e.g.gid)
  | 0x02 => some e.b.index
  | 0x03 => some (BitVec.ofNat 32 e.g.role)
  | 0x04 => some (BitVec.ofNat 32 e.b.width)
  | 0x05 => some (match e.s.launchOf e.b with | none => 0 | some l => hi32 (l.packet.getD 0 0))
  | 0x0A => some (sget ownerNone e.g.xowner lane)
  | 0x0B => some (BitVec.ofNat 32 e.f.fid)
  | 0x0C => some (match e.s.launchOf e.b with | none => 0 | some l => BitVec.ofNat 32 l.rank)
  | 0x0D => some (match e.s.launchOf e.b with | none => 0 | some l => BitVec.ofNat 32 l.nrank)
  | 0x0E => some (BitVec.ofNat 32 e.b.ctx)
  | 0x0F => some (BitVec.ofNat 32 e.b.depth)
  | _ => none

/-- R294, R339: the argument pointer: the trap image in a handler run, else the packet's or the watch's. -/
def kargOf (e : Env) : W64 :=
  match e.g.handler with
  | some h => h.image
  | none =>
    match e.b.trig with
    | some t => t.arg
    | none => match e.s.launchOf e.b with | none => 0 | some l => keepBits (l.packet.getD 1 0) 55 0

/-- A 64-bit special register; none where the index names none. -/
def special64 (e : Env) (r : Nat) : Option W64 :=
  match r with
  | 0x06 => some e.f.exm
  | 0x07 => some (kargOf e)
  | 0x08 => some (match e.g.handler with | some h => h.kimg | none => e.b.kernel.image)
  | 0x09 => some e.s.gtime
  | _ => if 0x40 ≤ r ∧ r ≤ 0x47 then some (sget 0 e.g.ctr (r - 0x40)) else none

/-- What `SRD` writes. -/
def srdWrites (r : Nat) (d : Reg) (e : Env) (act : LaneMask) : List RegWrite :=
  match special64 e r with
  | some x => put64 d act fun _ => x
  | none => put32 d act fun l => (special32 e r l).getD 0

/-- The register is 64 bits wide (R76). -/
def wideSpecial (r : Nat) : Bool := (decide (0x06 ≤ r) && decide (r ≤ 0x09)) || (decide (0x40 ≤ r) && decide (r ≤ 0x47))

/-- `SRD` (R293). -/
def execSrd (g : Guard) (d : Reg) (r : Nat) (s : State) : Out :=
  laneExec g false [] [] (useD (wideSpecial r) d) (fun e act _ => srdWrites r d e act) s

/-- `SWR` (R293, R356): `$exm` as `MASK.wr.set` does; any other index is fault 0x02, sub-cause 5. -/
def execSwr (g : Guard) (r : Nat) (a : Reg) (s : State) : Out :=
  if r = 0x06 then execMaskWr g .set (.reg a) s
  else onIss s fun e => .next (raise s (mkEv 0x02 5 1 (e.recLanes (e.active g))))

end Sys2Proof.Machine
end

