-- ==== Sys2Proof/Machine/Watch.lean ====
section
/-! DEFINITION. Watches: arming, disarming and reading a trigger record (R281 to R286, R366, R390). -/

namespace Sys2Proof.Machine

/-! ### The arm descriptor (R281) -/

/-- The fields of an arm descriptor. -/
structure WatchDesc where
  base   : Nat
  lg     : Nat
  depth  : Nat
  kernel : Nat
  budget : Nat
  arg    : W64
  deriving DecidableEq, Repr

/-- The descriptor of eight words. -/
def watchDesc (ws : List Nat) : WatchDesc :=
  let w := fun i => ws.getD i 0
  { base := w 0 + fld (w 1) 0 24 * 2 ^ 32
    lg := fld (w 1) 24 5
    depth := fld (w 1) 29 3
    kernel := fld (w 2) 0 16
    budget := fld (w 3) 0 16
    arg := BitVec.ofNat 64 (w 4 + w 5 * 2 ^ 32) }

/-- R350, R366: the lowest word of an arm descriptor that holds a reserved value. -/
def watchBad (ws : List Nat) : Option Nat :=
  let d := watchDesc ws
  let w := fun i => ws.getD i 0
  let lgBad := decide (d.lg < 6) || decide (24 < d.lg)
  if fld (w 0) 0 6 != 0 || (!lgBad && d.base % 2 ^ d.lg != 0) then some 0
  else if lgBad || d.depth == 0 then some 1
  else if fld (w 2) 16 16 != 0 then some 2
  else if d.budget == 0 || fld (w 3) 16 16 != 0 then some 3
  else if w 6 != 0 then some 6
  else if w 7 != 0 then some 7
  else none

/-- R366: the address of the page that holds an address; where none is mapped, of the smallest page (R95). -/
def pageBase (s : State) (mill c va : Nat) : Nat :=
  match translate s mill c va with
  | .ok x => va / 2 ^ x.bits * 2 ^ x.bits
  | .error _ => va / 65536 * 65536

/-- R282: the 4 KiB regions of a range, each with the physical number it maps to now; on failure cause, code
and the page's address. -/
def watchPages (s : State) (mill c : Nat) (det : Bool) (base : Nat) : List Nat → Except BindErr (List (Nat × W64))
  | [] => .ok []
  | i :: is =>
    let va := (base / 4096 + i) * 4096
    match reach s mill c .watch false det va with
    | .error e => .error (e.1, e.2, pageBase s mill c va)
    | .ok x =>
      match watchPages s mill c det base is with
      | .error e => .error e
      | .ok l => .ok ((x.pa / 4096, BitVec.ofNat 64 va) :: l)

/-- The number of 4 KiB regions a range reaches. -/
def regionCount (d : WatchDesc) : Nat := 2 ^ (d.lg - 12)

/-! ### The entry (R282, R390) -/

/-- The entries a context holds. -/
def watchesHeld (s : State) (c : Nat) : Nat := (s.watches.filter (·.ctx == c)).length

/-- The entry indices free on every die. -/
def freeWatches (s : State) : List Nat := (List.range 1024).filter fun i => !(s.watches.any (·.idx == i))

/-- R390: the code of fault 0x43. -/
def watchFull (s : State) (c : Nat) : Option Nat :=
  if fld (s.creg c oWQUOTA) 0 11 ≤ watchesHeld s c then some 0 else if (freeWatches s).isEmpty then some 1 else none

/-- The free index the device takes: a free choice (log entry 19). -/
def pickWatch (s : State) : Nat :=
  let free := freeWatches s
  free.getD (Config.watchPick s.nextId % free.length) 0

/-- The new entry, not yet armed. -/
def newWatch (e : Env) (idx : Nat) (d : WatchDesc) (pages : List (Nat × W64)) : Watch where
  idx := idx
  ctx := e.b.ctx
  base := BitVec.ofNat 64 d.base
  lg := d.lg
  depth := d.depth
  kernel := d.kernel
  budget := d.budget
  arg := d.arg
  wid := (sget 0 e.s.arms idx).setWidth 32 <<< 10 ||| BitVec.ofNat 32 idx
  pages := pages
  armed := false
  live := []
  gone := []
  susp := false
  held := none
  window := 0
  entered := 0
  sent := 0

/-- R319, R366: the trigger kernel's index names a valid entry. -/
def Env.watchKernel (e : Env) (d : WatchDesc) : Option Raised :=
  match kernelEntry e.s e.b.ctx d.kernel with
  | .ok _ => none
  | .error (c, k, a) => some (mkEv c k 2 e.whole a)

/-- R282, R366, R390: the checks of an arm, and the pages of its range. -/
def Env.watchGate (e : Env) (ws : List Nat) : Except Raised (List (Nat × W64)) :=
  let d := watchDesc ws
  match ((watchBad ws).map fun w => e.wev 0x02 4 2 w).or (e.watchKernel d) with
  | some ev => .error ev
  | none =>
    match watchPages e.s e.b.mill e.b.ctx (e.s.detBlock e.b) d.base (List.range (regionCount d)) with
    | .error (c, k, a) => .error (mkEv c k 2 e.whole a)
    | .ok pages =>
      match watchFull e.s e.b.ctx with
      | some k => .error (e.wev 0x43 k 0)
      | none => .ok pages

/-- `WATCH` (R282). -/
def execWatch (d : Reg) (n : Nat) (s : State) : Out :=
  onIss s fun e =>
    if e.acqPending then stall s
    else match e.wholeCheck [(2, .s n, 8)] [(1, d, 1)] with
      | some ev => .next (raise s ev)
      | none =>
        let ws := (List.range 8).map fun i => (uget e.g (n + i)).toNat
        match e.watchGate ws with
        | .error ev => .next (raise s ev)
        | .ok pages =>
          let idx := pickWatch s
          let s1 := { s with nextId := s.nextId + 1, watches := s.watches ++ [newWatch e idx (watchDesc ws) pages] }
          .next (blockOn s1 (.blocked (.arming idx d) s.cycle))

/-- A fragment that waits in its instruction; one of a handler run, or of a group that drains, completes it too (R53, R340). -/
def waitingEnv (s : State) (r : FragRef) : Option (Block × Group × Frag) :=
  match s.frag? r with
  | some (b, g, f) => if g.frozen.isNone then some (b, g, f) else none
  | none => none

/-- R282, R297: the fragment's earlier accesses are all performed, its staged writes with them. -/
def fragQuiet (s : State) (r : FragRef) (b : Block) (f : Frag) : Bool :=
  ((s.opsOf r.bid r.gid).all fun o => o.served || !(o.fid == r.fid || o.lanes &&& f.held != 0)) &&
    b.staged.all fun o => !(o.gid == r.gid && (o.fid == r.fid || o.lanes &&& f.held != 0))

/-- R282: the arm takes effect: its id is in the destination and the fragment goes on. -/
def armWatch (s : State) (r : FragRef) (b : Block) (f : Frag) (idx : Nat) (d : Reg) : State :=
  let s1 := releaseAt s b.mill .device
  let wid := match s.watch? idx with | some w => w.wid | none => 0
  let s2 := s1.onWatch idx fun w => { w with armed := true, live := [] }
  let s3 := { s2 with arms := sset 0 s2.arms idx (sget 0 s2.arms idx + 1) }
  (s3.regWrites r.bid r.gid (put32 d (if f.exm != 0 then f.exm else 0) fun _ => wid)).onFrag r fun f => f.wake s.cycle

/-- `WATCH_ARM_EFFECTIVE` (R282). -/
def execWatchArmEffective (r : FragRef) (s : State) : Out :=
  match waitingEnv s r with
  | none => .fault .notEnabled
  | some (b, _, f) =>
    match f.st with
    | .blocked (.arming idx d) _ => if fragQuiet s r b f then .next (armWatch s r b f idx d) else .fault .notEnabled
    | _ => .fault .notEnabled

/-- A fragment of a group is arming an entry, and its earlier accesses are performed. -/
def armsNow (s : State) (idx : Nat) (b : Block) (g : Group) (f : Frag) : Bool :=
  match f.st with
  | .blocked (.arming i _) _ => i == idx && fragQuiet s { bid := b.bid, gid := g.gid, fid := f.fid } b f
  | _ => false

/-- The block that is arming an entry, its earlier accesses performed. -/
def armingBlock (s : State) (idx : Nat) : Option Block :=
  s.blocks.find? fun b => b.groups.any fun g => g.frozen.isNone && g.frags.any (armsNow s idx b g)

/-- R282, R297: a home slice takes the arm, before it is complete; the fragment's earlier stores go home first. -/
def armSlice (s : State) (idx slice : Nat) : Option State :=
  (armingBlock s idx).map fun b => (releaseAt s b.mill .device).onWatch idx fun w => { w with live := nub (w.live ++ [slice]) }

/-! ### Disarming (R283, R366) -/

/-- The armed entry of a context that an id names. -/
def armedBy (s : State) (c : Nat) (wid : W32) : Option Watch := s.watches.find? fun w => w.ctx == c && w.armed && w.wid == wid

/-- `UNWATCH` (R283, R366). -/
def execUnwatch (a : Reg) (s : State) : Out :=
  onIss s fun e =>
    match e.wholeCheck [(2, a, 1)] [] with
    | some ev => .next (raise s ev)
    | none =>
      match armedBy s e.b.ctx (e.r32 a) with
      | none => .next (retire s)
      | some w => .next (blockOn s (.blocked (.disarming w.idx) s.cycle))

/-- The fragment waits for an entry to be disarmed. -/
def waitsDisarm (idx : Nat) (f : Frag) : Bool :=
  match f.st with
  | .blocked (.disarming i) _ => i == idx
  | _ => false

/-- R283: a disarmed entry is freed once the last of its records has dispatched. -/
def freeWatch (s : State) (idx : Nat) : State :=
  match s.watch? idx with
  | none => s
  | some w =>
    if w.armed || (s.ctx w.ctx).trig.any (fun t => t.widx == idx && t.wid == w.wid) ||
        s.blocks.any (fun b => b.groups.any fun g => g.frags.any fun f => match f.st with | .blocked (.arming i _) _ => i == idx | _ => false)
    then s
    else { s with watches := s.watches.filter (·.idx != idx) }

/-- R283, R392: the entry is disarmed, its held record dropped, and the fragments that waited go on. -/
def disarmWatch (s : State) (idx : Nat) : State :=
  let s1 := s.onWatch idx fun w => { w with armed := false, live := [], gone := [], susp := false, held := none }
  let wake := fun (g : Group) => { g with frags := updIf (waitsDisarm idx) (fun f => f.wake s.cycle) g.frags }
  freeWatch { s1 with blocks := s1.blocks.map fun b => { b with groups := b.groups.map wake } } idx

/-- R283: a home slice disarms the entry, before the last of them has. -/
def disarmSlice (s : State) (idx slice : Nat) : Option State :=
  if s.blocks.any fun b => b.groups.any fun g => g.frags.any (waitsDisarm idx) then
    some (s.onWatch idx fun w => { w with gone := nub (w.gone ++ [slice]) })
  else none

/-- `UNWATCH_DONE` (R283). -/
def execUnwatchDone (r : FragRef) (s : State) : Out :=
  match waitingEnv s r with
  | none => .fault .notEnabled
  | some (_, _, f) =>
    match f.st with
    | .blocked (.disarming idx) _ => .next (disarmWatch s idx)
    | _ => .fault .notEnabled

/-! ### `TRIGI` (R286) -/

/-- The value of a field is 64 bits wide. -/
def TrigField.wide : TrigField → Bool
  | .addr => true
  | .arg => true
  | _ => false

/-- The record's changed sector a lane reads; a lane beyond the last one reads a free value (log entry 20). -/
def laneSector (s : State) (t : TrigRec) (g : Group) (lane : Nat) : Nat :=
  t.sectors.getD (8 * g.gid + lane) ((Config.openValue (s.nextId + lane)).toNat % 256)

/-- What `TRIGI` reads in a lane. -/
def trigValue (s : State) (t : TrigRec) (g : Group) (k : TrigField) (lane : Nat) : W64 :=
  match k with
  | .wid => t.wid.setWidth 64
  | .addr => t.region + BitVec.ofNat 64 (16 * laneSector s t g lane)
  | .sector => BitVec.ofNat 64 (laneSector s t g lane)
  | .sblk => (storerBlk t.storer).setWidth 64
  | .origin => (fromCode t.storer).setWidth 64
  | .depth => BitVec.ofNat 64 t.depth
  | .arg => t.arg
  | .count => BitVec.ofNat 64 t.sectors.length

/-- `TRIGI` (R286): zeros in a group that is not a trigger group. -/
def execTrigi (g : Guard) (k : TrigField) (d : Reg) (s : State) : Out :=
  laneExec g false [] [] (useD (TrigField.wide k) d) (fun e act _ =>
    let v := fun l => match e.b.trig with | some t => trigValue s t e.g k l | none => 0
    if TrigField.wide k then put64 d act v else put32 d act fun l => lo32 (v l)) { s with nextId := s.nextId + 64 }

end Sys2Proof.Machine
end

