-- ==== Sys2Proof/Machine/Sched.lean ====
section
/-! DEFINITION. Launch queues, dispatch, the end of blocks and launches, trigger blocks, and the retirement of
images (R43 to R52, R134, R215, R303, R308, R314, R316, R319, R321, R332, R348, R367, R395). -/

namespace Sys2Proof.Machine

/-! ### Host writes to a queue's registers (R45, R47) -/

/-- `DOORBELL_WRITE` (R45). -/
def execDoorbellWrite (ctx q : Nat) (x : W64) (s : State) : Out :=
  if ctx < 1024 ∧ q < 8 then .next (writeDoorbell s ctx q x) else .fault .notEnabled

/-- `RING_CONTROL_WRITE` (R47): RCTLq, or RINGq. -/
def execRingControlWrite (ctx q : Nat) (ctl : Bool) (x : W64) (s : State) : Out :=
  if ctx < 1024 ∧ q < 8 then .next (if ctl then writeRctl s ctx q x else writeRing s ctx q x) else .fault .notEnabled

/-! ### The head of a queue (R48, R303, R367) -/

/-- The context is there and is not leaving. -/
def ctxOpen (s : State) (c : Nat) : Bool := decide (c < 1024) && (s.ctx c).present && !(s.ctx c).leaving

/-- The queue reads and dispatches. -/
def queueOpen (s : State) (c q : Nat) : Bool := ctxOpen s c && decide (q < 8) && ((s.ctx c).queue q).frozen.isNone

/-- The launch at the head of a queue. -/
def headLaunch (s : State) (c q : Nat) : Option Launch := ((s.ctx c).queue q).head.bind s.launch?

/-- A packet as one number. -/
def packetNat (p : List W64) : Nat := leNat (wordBytes p)

/-- The next packet of a queue, with whether it is a replica; or why it cannot be read. -/
def nextPacket (s : State) (c q : Nat) : Option (Except BindErr (Bool × List W64)) :=
  match replicaDue s c q with
  | some p => some (.ok (true, p))
  | none =>
    if queueEmpty s c q then none
    else
      let va := s.ringSlot c q (s.readIdx c q)
      match devGet s c false va 64 with
      | .error e => some (.error (e.1, e.2, va))
      | .ok pa => some (.ok (false, (List.range 8).map fun i => BitVec.ofNat 64 (s.rdNat (pa + 8 * i) 8)))

/-- R348, R367: the queue's entry cannot run: its fault record, and the freeze. -/
def freezeEntry (s : State) (c q : Nat) (why : QStop) (launch : W32) (packet : List W64) (cause code detail addr : Nat) : State :=
  let r0 := Rec.bare c 6 1 cause s.gtime
  let r := { r0 with
    queue := q
    launch := launch
    kernel := fld (packet.getD 0 0).toNat 16 16
    code := BitVec.ofNat 32 code
    detail := BitVec.ofNat 32 detail
    addr := BitVec.ofNat 64 addr }
  freezeLaunchQueue (emitRecord s r (.queue q)) q why r packet

/-- A packet bit of a launch. -/
def packetBit (p : List W64) (i : Nat) : Bool := bitOf (p.getD 0 0).toNat i

/-- A launch read from a packet (R44, R305). -/
def launchOf (s : State) (id c q : Nat) (replica sent : Bool) (p : List W64) : Launch where
  id := id
  ctx := c
  queue := q
  count := ((s.ctx c).queue q).read
  packet := p
  replica := replica
  phase := .waiting
  kernel := none
  next := 0
  head := 0
  dropped := false
  added := false
  rank := if packetBit p 10 then s.rankOf c else 0
  nrank := if packetBit p 10 then s.domSize c else 0
  barGen := 0
  domSent := false
  domSince := 0
  domArr := []
  arrTime := 0
  sent := sent
  relStop := none
  adopted := false
  killed := false
  acks := []
  domAcks := []

/-- R303: an origin's packet goes to every other member. -/
def sendReplicas (s : State) (l : Launch) : State :=
  if l.replica || l.sent || !packetBit l.packet 10 then s
  else
    let s1 : State := { s with spurOut := s.spurOut ++ l.others.map fun r => .replica r l.ctx l.queue l.packet }
    (s1.onLaunch l.id fun l => { l with sent := true }).onCtx l.ctx fun y => y.setQueue l.queue { y.queue l.queue with origin := true }

/-- A packet that has passed its check stands at the head; `old` is the launch it was before a retry. -/
def headPacket (s : State) (c q : Nat) (old : Option Launch) (replica : Bool) (p : List W64) : State :=
  match old with
  | some l => let l' := launchOf s l.id c q replica l.sent p; sendReplicas (s.setLaunch l') l'
  | none =>
    let l := launchOf s s.nextId c q replica false p
    let s1 := { s with nextId := s.nextId + 1, launches := s.launches ++ [l] }
    sendReplicas (s1.onCtx c fun y => y.setQueue q { y.queue q with head := some l.id }) l

/-- A skip packet is consumed and does nothing (R44). -/
def skipPacket (s : State) (c q : Nat) (old : Option Launch) (replica : Bool) : State :=
  let s1 := match old with
    | some l => ({ s with launches := s.launches.filter (·.id != l.id) } : State).onCtx c fun y => y.setQueue q { y.queue q with head := none }
    | none => s
  consumeAs s1 c q replica

/-- R303: an origin reads no further packet while a target of its replicas has no room for one. -/
def originHeld (s : State) (c q : Nat) (p : List W64) : Bool :=
  (((s.ctx c).queue q).origin || packetBit p 10) && s.fullAt.any fun x => x.1 == c

/-- R367: the packet at the head of a queue is read and checked. -/
def readHead (s : State) (c q : Nat) (old : Option Launch) : Out :=
  let n := ((s.ctx c).queue q).read
  match nextPacket s c q with
  | none => .fault .notEnabled
  | some (.error (x, k, a)) => .next (freezeEntry s c q .entry n [] x k 0 a)
  | some (.ok (replica, p)) =>
    if !replica && originHeld s c q p then .fault .notEnabled
    else match packetBad (packetNat p) with
    | some w => .next (freezeEntry s c q .entry n p 0x02 4 w 0)
    | none => if fld (p.getD 0 0).toNat 0 8 = 0 then .next (skipPacket s c q old replica) else .next (headPacket s c q old replica p)

/-- R48: what the read of a launch's dependence counter gives. -/
inductive Depend where
  | met
  | wait
  | fail (cause code addr : Nat)

/-- R48: the dependence of a launch. -/
def dependence (s : State) (l : Launch) : Depend :=
  let ctr := fld (l.packet.getD 2 0).toNat 0 56
  if ctr == 0 then .met
  else match devGet s l.ctx false ctr 8 with
    | .error e => .fail e.1 e.2 ctr
    | .ok pa => if (l.packet.getD 3 0).toNat ≤ s.rdNat pa 8 then .met else .wait

/-- The kernel index of a launch's packet. -/
def Launch.kindex (l : Launch) : Nat := fld (l.packet.getD 0 0).toNat 16 16

/-- The kernel a launch's next block runs: the one its index names now for its first block, else the bound one
(R319). -/
def kernelNow (s : State) (l : Launch) : Except BindErr Kernel :=
  match l.next, l.kernel with
  | _ + 1, some k => .ok k
  | _, _ => bindKernel s l.ctx l.kindex

/-- R319, R367: a launch binds its image, or its queue freezes. -/
def bindLaunch (s : State) (l : Launch) : Except State (Kernel × State) :=
  match kernelNow s l with
  | .error (x, k, a) => .error (freezeEntry s l.ctx l.queue .entry l.count l.packet x k 0 a)
  | .ok k => .ok (k, s.onLaunch l.id fun l => { l with kernel := some k })

/-- `LAUNCH_PACKET_HEAD` (R43, R44, R48, R303, R367): the image is bound later, with the first block (R319). -/
def execLaunchPacketHead (ctx q : Nat) (s : State) : Out :=
  if !queueOpen s ctx q then .fault .notEnabled
  else match headLaunch s ctx q with
    | none => readHead s ctx q none
    | some l =>
      if l.packet.isEmpty then readHead s ctx q (some l)
      else if l.phase != .waiting then .fault .notEnabled
      else match dependence s l with
        | .wait => .fault .notEnabled
        | .fail x k a => .next (freezeEntry s ctx q .entry l.count l.packet x k 0 a)
        | .met => .next (s.onLaunch l.id fun l => { l with phase := .met })

/-! ### Which launch dispatches next (R50 to R52, R308) -/

/-- A gang that has met its dependence and is not placed; a freeze of its queue ends no hold. -/
def gangWaits (s : State) (l : Launch) : Bool :=
  l.gang && l.next == 0 && !l.dropped && ctxOpen s l.ctx &&
    (match l.phase with | .met => true | .arrived => true | .starting _ => true | .dispatching => true | _ => false)

/-- R51: a waiting gang holds back a launch of equal or lower priority; of two gangs of one priority, the
earlier holds the later (log entry 21). -/
def gangHeld (s : State) (l : Launch) : Bool :=
  s.launches.any fun m => m.id != l.id && gangWaits s m && (decide (l.queue < m.queue) || (l.queue == m.queue && (!l.gang || decide (m.id < l.id))))

/-- The launch may dispatch a block, room apart (R48, R50, R304, R308). -/
def launchReady (s : State) (l : Launch) : Bool :=
  queueOpen s l.ctx l.queue && ((s.ctx l.ctx).queue l.queue).head == some l.id && !l.dropped && ownsSlice s l.ctx && !gangHeld s l &&
    (match l.phase with | .met => !packetBit l.packet 10 | .dispatching => true | _ => false)

/-- The launch runs deterministic (R313). -/
def launchDet (l : Launch) (k : Kernel) : Bool := packetBit l.packet 11 || k.det

/-- An aligned free stretch of an area. -/
def firstFit (base size : Nat) (taken : List Span) (n : Nat) : Option Nat :=
  (roundUp base 64 :: taken.map fun t => roundUp (t.base + t.size) 64).find? fun a => fitsAt base size taken a n

/-- A placement by positions on a mill, with the first free stretch of each area. -/
def areasAt (s : State) (c : Nat) (k : Kernel) (p : List GroupPlan) (det : Bool) : Option (Nat → List Held → Placement) :=
  let priv := if privSize k p == 0 then some 0 else firstFit (s.arena c).1 (s.arena c).2 (s.ctx c).arena (privSize k p)
  let save := firstFit (s.saveArea c).1 (s.saveArea c).2 (s.ctx c).saves (saveSize k p)
  let stage := if det then firstFit (s.stagePool c).1 (s.stagePool c).2 (s.ctx c).stages (stageSize det) else some 0
  match priv, save, stage with
  | some a, some b, some d => some fun m gs => { mill := m, pos := gs.map (·.2.2), priv := BitVec.ofNat 64 a, save := b, stage := d }
  | _, _, _ => none

/-- The mills tried for groups: those of the one die, or of the first die with room (R50). -/
def millsFor (s : State) (k : Kernel) (gs : List (Nat × Nat)) (die : Option Nat) : List Nat :=
  match die.or ((List.range 4).find? fun d => dieRoom s k gs d) with | some d => span (96 * d) 96 | none => []

/-- Placements of a plan tried in order until `next` answers. -/
def tryPlacement (s : State) (c : Nat) (k : Kernel) (p : List GroupPlan) (det : Bool) (die : Option Nat)
    (next : Placement → Option α) : Option α :=
  match areasAt s c k p det with
  | none => none
  | some place => (millsFor s k (planBases p) die).findSome? fun m => tryPlaces s m k (fun gs => next (place m gs)) (planBases p) []

/-- The origin of a launch's next block. -/
def Launch.origin (l : Launch) (k : Kernel) : Origin :=
  { ctx := l.ctx, launch := some l.id, trig := none, index := BitVec.ofNat 32 l.next, det := launchDet l k }

/-- Placements for the next `n` blocks of a launch, if they can be placed. -/
def seekBlocks (k : Kernel) : Nat → Launch → State → Option (List Placement)
  | 0, _, _ => some []
  | n + 1, l, s => tryPlacement s l.ctx k (planGroups k none) (launchDet l k) none fun x =>
      (seekBlocks k n { l with next := l.next + 1 } (startBlock s (l.origin k) k x)).map fun xs => x :: xs

/-- The number of blocks of a launch. -/
def Launch.blocks (l : Launch) : Nat := fld (l.packet.getD 0 0).toNat 32 32 + 1

/-- Placements for a launch's next block, or for all blocks of a gang. -/
def seekLaunch (s : State) (l : Launch) (k : Kernel) : Option (List Placement) := seekBlocks k (if l.gang then l.blocks else 1) l s

/-- R48, R50: the launch has room for its next block, or a gang for all its blocks; one whose image cannot be bound
needs none (R367). -/
def launchRoom (s : State) (l : Launch) : Bool := match kernelNow s l with | .error _ => true | .ok k => (seekLaunch s l k).isSome

/-- The contexts present. -/
def presentCtxs (s : State) : List Nat := (s.ctxs.filter fun p => p.2.present).map (·.1)

/-- The first record of a context's trigger queue, where it may dispatch. -/
def headRecord (s : State) (c : Nat) : Option TrigRec :=
  if !ctxOpen s c || (s.ctx c).trigStop.isSome || !ownsSlice s c then none else (s.ctx c).trig.head?

/-- The context's launch of a priority may dispatch now; its trigger queue goes first (R52). A head packet that is ready
but finds no room holds no lower priority back, which R50 leaves open (log entry 61). -/
def ctxReady (s : State) (c q : Nat) : Bool :=
  match headLaunch s c q with
  | none => false
  | some l => (headRecord s c).isNone && launchReady s l && launchRoom s l

/-- R50: the context whose turn it is at a priority: the one after the context served last. -/
def turnAt (s : State) (q : Nat) : Option Nat :=
  let cs := (presentCtxs s).filter fun c => ctxReady s c q
  let last := sget 0 s.turns q
  (cs.find? fun c => decide (last ≤ c)).or cs.head?

/-- R50: no higher priority may dispatch, and it is the context's turn. -/
def queueTurn (s : State) (c q : Nat) : Bool :=
  turnAt s q == some c && (span (q + 1) (7 - q)).all fun p => (presentCtxs s).all fun d => !ctxReady s d p

/-- R304: a gang whose placement is held for it. -/
def reserved (l : Launch) : Bool :=
  l.gang && packetBit l.packet 10 && l.next == 0 && !l.dropped &&
    (match l.phase with | .arrived => true | .starting _ => true | .dispatching => true | _ => false)

/-- The launch as it stands in another state. -/
def Launch.inState (s : State) (l : Launch) : Launch := (s.launch? l.id).getD l

/-- R304: every gang but the one named that has its room held keeps it. -/
def roomKept (s0 s : State) (but : Option Nat) : Bool :=
  s0.launches.all fun m => some m.id == but || !reserved m || !launchRoom s0 m || launchRoom s (m.inState s)

/-- A placement made, where it leaves the room that is held; `but` is the launch placed. -/
def placedOut (s0 s : State) (but : Option Nat) : Out := if roomKept s0 s but && restKept s0 but then .next s else .fault .notEnabled

/-- A trigger block placed: a gang's start barrier never holds it (R51, R62; log entry 61). -/
def recordOut (s0 s : State) : Out := if restKept s0 none then .next s else .fault .notEnabled

/-! ### Dispatch (R50, R51) -/

/-- A block of the launch is placed. -/
def placeNext (s : State) (l : Launch) (k : Kernel) (x : Placement) : State :=
  let s1 := if l.next == 0 then consumePacket s l else s
  let s2 := startBlock s1 (l.origin k) k x
  let last := l.next + 1 == l.blocks
  let s3 := s2.onLaunch l.id fun l => { l with next := l.next + 1, phase := if last then .dispatched else .dispatching }
  let s4 := { s3 with turns := sset 0 s3.turns l.queue (l.ctx + 1) }
  if last then s4.onCtx l.ctx fun y => y.setQueue l.queue { y.queue l.queue with head := none } else s4

/-- R50: the placement is on the first die with room. -/
def firstDie (s : State) (k : Kernel) (x : Placement) : Bool :=
  (List.range (dieOf x.mill)).all fun d => !dieRoom s k (planBases (planGroups k none)) d

/-- `BLOCK_DISPATCH` (R50). -/
def execBlockDispatch (ctx q : Nat) (p : Placement) (s : State) : Out :=
  match headLaunch s ctx q with
  | none => .fault .notEnabled
  | some l =>
    if l.gang || !launchReady s l || !queueTurn s ctx q then .fault .notEnabled
    else match bindLaunch s l with
      | .error s1 => .next s1
      | .ok (k, s1) =>
        if firstDie s1 k p && placeable s1 ctx k (planGroups k none) (launchDet l k) p then
          placedOut s (placeNext s1 l k p) (some l.id)
        else .fault .notEnabled

/-- Blocks of a gang placed one after another, as their placements say, each on the first die with room (R50). -/
def placeGang (k : Kernel) : List Placement → Nat → State → Option State
  | [], _, s => some s
  | x :: xs, lid, s =>
    match s.launch? lid with
    | none => none
    | some l =>
      if firstDie s k x && placeable s l.ctx k (planGroups k none) (launchDet l k) x then placeGang k xs lid (placeNext s l k x) else none

/-- `GANG_DISPATCH` (R51, R61). -/
def execGangDispatch (ctx q : Nat) (ps : List Placement) (s : State) : Out :=
  match headLaunch s ctx q with
  | none => .fault .notEnabled
  | some l =>
    if !l.gang || !launchReady s l || l.next != 0 || !queueTurn s ctx q then .fault .notEnabled
    else match bindLaunch s l with
      | .error s1 => .next s1
      | .ok (k, s1) =>
        if ps.length != l.blocks then .fault .notEnabled
        else match placeGang k ps l.id s1 with
          | none => .fault .notEnabled
          | some s2 => placedOut s s2 (some l.id)

/-! ### Trigger blocks (R52, R332, R395) -/

/-- R395: a record that cannot dispatch freezes the trigger queue. -/
def recordFail (s : State) (t : TrigRec) (cause code addr : Nat) : State :=
  let r := { Rec.bare t.ctx 7 1 cause s.gtime with
    die := t.die, kernel := t.kernel, trigger := true, code := BitVec.ofNat 32 code, addr := BitVec.ofNat 64 addr }
  freezeTrigQueue (emitRecord s r .trigger) .head r t

/-- R168: how many records a watch has dispatched before. -/
def recordsSent (s : State) (t : TrigRec) : Nat := match s.watch? t.widx with | some w => if w.wid == t.wid then w.sent else 0 | none => 0

/-- The first record becomes a block (R52). -/
def placeRecord (s : State) (t : TrigRec) (k : Kernel) (x : Placement) : State :=
  let o : Origin := { ctx := t.ctx, launch := none, trig := some t, index := BitVec.ofNat 32 (recordsSent s t), det := false }
  let s1 := (startBlock s o k x).onCtx t.ctx fun y => { y with trig := y.trig.drop 1 }
  freeWatch (s1.onWatch t.widx fun w => if w.wid == t.wid then { w with sent := w.sent + 1 } else w) t.widx

/-- `TRIGGER_BLOCK_DISPATCH` (R52, R332, R395). -/
def execTriggerBlockDispatch (ctx : Nat) (p : Placement) (s : State) : Out :=
  match headRecord s ctx with
  | none => .fault .notEnabled
  | some t =>
    match bindKernel s ctx t.kernel with
    | .error (x, k, a) => .next (recordFail s t x k a)
    | .ok k =>
      if k.width != 8 then .next (recordFail s t 0x47 0 0)
      else if dieOf p.mill == t.die && placeable s ctx k (planGroups k (some t.sectors.length)) false p then recordOut s (placeRecord s t k p)
      else .fault .notEnabled

/-! ### The end of a block (R49, R105, R215, R314) -/

/-- A block of a deterministic launch that ends without release gives its staging area back (R316). -/
def freeStage (s : State) (b : Block) : State :=
  { s.onCtx b.ctx fun y => { y with stages := y.stages.filter (·.bid != b.bid) } with blocks := s.blocks.filter (·.bid != b.bid) }

/-- A block that has ended leaves: at once, or, one of a deterministic launch that is not killed, when the sequencer releases
it (R314, R316). -/
def settleBlock (s : State) (b : Block) : State :=
  match b.launch with
  | none => { s with blocks := s.blocks.filter (·.bid != b.bid) }
  | some lid =>
    if s.detBlock b then
      releaseHeads lid (s.blocks.length + (match s.launch? lid with | some l => l.next | none => 0) + 1) (if b.killed then freeStage s b else s)
    else { s with blocks := s.blocks.filter (·.bid != b.bid) }

/-- R215: every group of the block has ended, and its leats have completed; a frozen one counts as complete. A `COLL` or an
`XEND` that counts no flag and is still in flight holds the block, which R215 leaves open (log entry 65). -/
def blockOver (s : State) (b : Block) : Bool :=
  !b.ended && b.groups.all (·.ended) && !(s.ops.any (·.bid == b.bid)) &&
    s.leats.all fun l => l.bid != b.bid || l.frozen.isSome

/-- R105, R215: the mill writes back its dirty global lines and drops the block's private lines. -/
def flushMill (s : State) (b : Block) : State :=
  let s1 := (s.l1.filter fun x => x.mill == b.mill && x.priv.isNone).foldl writeBack s
  let s2 := { s1 with l1 := s1.l1.filter fun x => x.priv != some b.bid }
  { s2 with errs := s2.errs.filter fun x => match x with | .l1 m a => l1Has s2 m a | _ => true }

/-- The block's region, save image and frozen leats are given up (R103, R316). -/
def freeBlock (s : State) (b : Block) : State :=
  let s1 := s.onCtx b.ctx fun y => { y with arena := y.arena.filter (·.bid != b.bid), saves := y.saves.filter (·.bid != b.bid) }
  { s1 with leats := s1.leats.filter (·.bid != b.bid) }

/-- `BLOCK_END` (R49, R105, R215, R314). -/
def execBlockEnd (bid : Nat) (s : State) : Out :=
  match s.block? bid with
  | none => .fault .notEnabled
  | some b =>
    if !blockOver s b then .fault .notEnabled
    else
      let s1 := freeBlock (if b.resident then flushMill s b else s) b
      let s2 := s1.onBlock bid fun b => { b with ended := true, resident := false }
      .next (settleBlock s2 b)

/-! ### The end of a launch (R49, R134, R321) -/

/-- A launch that is over leaves once its add is made or dropped. -/
def settleLaunch (s : State) (lid : Nat) : State := { s with launches := s.launches.filter fun l => !(l.id == lid && l.added) }

/-- `LAUNCH_COMPLETION` (R49, R134): a killed launch never completes; it only leaves, as one of another
member does here (R56). -/
def execLaunchCompletion (lid : Nat) (s : State) : Out :=
  match s.launch? lid with
  | none => .fault .notEnabled
  | some l =>
    if s.blocks.any (·.launch == some lid) then .fault .notEnabled
    else if l.dropped || l.adopted || (l.killed && l.phase == .dispatched) then
      .next { s with launches := s.launches.filter (·.id != lid) }
    else match l.phase with
      | .dispatched =>
        let s1 := advanceEpoch (s.onLaunch lid fun l => { l with phase := .complete })
        .next (settleLaunch (completionAdd s1 { l with phase := .complete }) lid)
      | .complete => if l.added then .next (settleLaunch s lid) else .fault .notEnabled
      | _ => .fault .notEnabled

/-- R321: nothing of a context runs an image any more. -/
def imageIdle (s : State) (ctx : Nat) (image : W64) : Bool :=
  (s.launches.all fun l => l.ctx != ctx || l.phase == .complete ||
    (match l.kernel with | some k => k.image != image || l.next == 0 | none => true)) &&
    s.blocks.all fun b => b.ctx != ctx || b.kernel.image != image

/-- `IMAGE_RETIRE` (R321). A counter that does not translate then is not added to, which R321 leaves open (log entry 65). -/
def execImageRetire (ctx : Nat) (image : W64) (s : State) : Out :=
  match (s.ctx ctx).images.find? (·.image == image) with
  | none => .fault .notEnabled
  | some u =>
    if !imageIdle s ctx image then .fault .notEnabled
    else
      let s1 := s.onCtx ctx fun y => { y with images := y.images.erase u }
      match devGet s ctx true u.counter.toNat 8 with
      | .error _ => .next s1
      | .ok pa => .next (homeAdd64 s1 (some ctx) .host pa 1)

end Sys2Proof.Machine
end

