-- ==== Sys2Proof/Machine/Slices.lean ====
section
/-! DEFINITION. Pre-emption: gang slices, saving a block and restoring it (R53 to R58, R105, R146, R279, R308,
R345, R383 to R385). -/

namespace Sys2Proof.Machine

/-! ### Slice instants (R58, R308) -/

/-- The schedule a write made while slicing was on comes into force. -/
def adoptSchedule (s : State) : State :=
  match s.slNext with
  | none => s
  | some (t0, per) => { s with slt0 := t0, slper := per, slNext := none }

/-- R58: every block of a context that does not own the slice is to be saved. -/
def startSaves (s : State) : State :=
  { s with blocks := updIf (fun b => b.resident && !b.ended && !ownsSlice s b.ctx) (fun b => { b with saving := true }) s.blocks }

/-- `SLICE_INSTANT` (R58, R308): slice `n` of the schedule in force begins. -/
def execSliceInstant (n : Nat) (s : State) : Out :=
  let begun := slicesBegun s.gtime s.slt0 s.slper
  if !bitOf s.slper.toNat 20 || n + 1 != begun || begun ≤ s.slBegun then .fault .notEnabled
  else
    let s1 := adoptSchedule s
    .next (startSaves { s1 with slBegun := slicesBegun s1.gtime s1.slt0 s1.slper })

/-! ### Saving (R53, R54, R55, R105, R146) -/

/-- R53, R383: nothing of a group holds up a save; a fault met while it drains freezes it first. -/
def groupSavable (s : State) (b : Block) (g : Group) : Bool :=
  groupDrained s b.bid g && (match g.stop with | none => true | some x => classOf x.ev.cause == 0)

/-- R53 step 3: no leat of the block is at work; a frozen one counts as complete. -/
def leatsSavable (s : State) (b : Block) : Bool := s.leats.all fun l => l.bid != b.bid || l.frozen.isSome

/-- R53 step 4: dirty lines of the mill go home, and the block's private lines are dropped. -/
def saveLines (s : State) (b : Block) : State :=
  let s1 := (s.l1.filter fun x => x.mill == b.mill && (x.priv.isNone || x.priv == some b.bid)).foldl writeBack s
  pruneL1 { s1 with l1 := s1.l1.filter fun x => x.priv != some b.bid }

/-- `BLOCK_SAVE_COMPLETE` (R53 to R55). The image is written, and the block keeps every item of R55 for its restore
(log entry 23). -/
def execBlockSaveComplete (bid : Nat) (s : State) : Out :=
  match s.block? bid with
  | none => .fault .notEnabled
  | some b =>
    if !(b.saving && b.resident && !b.ended && b.groups.all (groupSavable s b) && leatsSavable s b) then .fault .notEnabled
    else .next ((writeSave (saveLines s b) b).onBlock bid fun b => { b with resident := false, saving := false })

/-! ### Restoring (R54, R56, R279, R384, R385) -/

/-- R384: the restore fails: its record, and the freeze of the block's queue; the block waits for an FCMD. -/
def restoreFail (s : State) (b : Block) (code : Nat) : State :=
  let pc := match (b.group? 0).bind (·.frags.head?) with | some f => f.pc | none => 0
  let r := Rec.ofBlock s b { Rec.bare b.ctx (if b.trig.isSome then 7 else 6) 1 0x46 s.gtime with
    pc := pc, code := BitVec.ofNat 32 code }
  let s := s.onBlock b.bid fun b => { b with stuck := true }
  match b.trig with
  | some t => freezeTrigQueue (emitRecord s r .trigger) (.restore b.bid) r t
  | none =>
    match s.launchOf b with
    | none => s
    | some l => freezeLaunchQueue (emitRecord s r (.queue l.queue)) l.queue (.restore b.bid) r l.packet

/-- R56, R384: why the image cannot be restored: it is broken, foreign, or of a launch whose domain this device is
not in. -/
def restoreCode (s : State) (b : Block) : Option Nat :=
  if imageBroken s b then some 0
  else if imageForeign s b then some 1
  else if b.taken && s.domSize b.ctx == 0 then some 2
  else match s.launchOf b with
    | some l => if decide (l.nrank < l.rank) || (b.taken && l.nrank != 0 && s.domSize b.ctx != l.nrank) then some 2 else none
    | none => none

/-- R57, R385: a gang is restored only where all of it can be. -/
def gangFits (s : State) (b : Block) : Bool :=
  match s.launchOf b with
  | none => true
  | some l => !l.gang || gangRoom s l.id

/-- `BLOCK_RESTORE` (R54, R56, R57, R384, R385). -/
def execBlockRestore (bid : Nat) (p : Placement) (s : State) : Out :=
  match s.block? bid with
  | none => .fault .notEnabled
  | some b =>
    if !b.saved || b.stuck || !ctxOpen s b.ctx || !ownsSlice s b.ctx then .fault .notEnabled
    else match restoreCode s b with
      | some code => .next (restoreFail s b code)
      | none =>
        let s1 := restoreBlock s b p
        if restorable s b p && gangFits s1 b then placedOut s s1 b.launch else .fault .notEnabled

/-! ### The schedule's registers (R307) -/

/-- `SLICE_SCHEDULE_WRITE` (R307, R308). -/
def execSliceScheduleWrite (r : SliceReg) (x : W64) (s : State) : Out := .next (writeSlice s r x)

end Sys2Proof.Machine
end

