-- ==== Sys2Proof/Machine/Adopt.lean ====
section
/-! DEFINITION. A block restored on another member of its launch domain: its image sent away, taken in, and its end told
to the member that launched it (R53, R56, R57, R172, R318, R384; log entry 39). -/

namespace Sys2Proof.Machine

/-! ### Sending a saved block away (R53, R56) -/

/-- R53: an `XEND` that waits for its deal set goes with its block. -/
def LongOp.leaves (o : LongOp) : Bool := o.accs.isEmpty && o.fail.isNone && match o.fin with | .xend _ _ _ => true | _ => false

/-- R53: a saved block may go to any other member but while a collective or a conflict holds it, or the release of its staged
ops is at one that waits. -/
def mayLeave (s : State) (b : Block) : Bool :=
  b.saved && !b.stuck && (match s.launchOf b with | some l => l.relStop != some b.bid | none => true) && (s.ops.all fun o => o.bid != b.bid || o.leaves) && s.awaits.all fun a => a.f.bid != b.bid

/-- The record names a group or a leat of the block as its frozen master. -/
def masterOf (s : State) (bid : Nat) : Master → Bool
  | .group b _ => b == bid
  | .leat m idx => s.leats.any fun l => l.mill == m && l.idx == idx && l.bid == bid
  | _ => false

/-- What the device keeps of a saved block beside its image. -/
def keptOf (s : State) (b : Block) : Kept where
  block := b
  ops := s.ops.filter (·.bid == b.bid)
  leats := s.leats.filter (·.bid == b.bid)
  masters := (s.ctx b.ctx).masters.filter fun p => masterOf s b.bid p.2

/-- A saved block goes to another member, with all that this one keeps of it. -/
def sendAway (s : State) (bid : Nat) : Option State :=
  match s.block? bid with
  | none => none
  | some b =>
    if !mayLeave s b then none
    else
      let s1 := s.onCtx b.ctx fun x => { x with masters := x.masters.filter fun p => !masterOf s bid p.2 }
      let s2 := { s1 with ops := s1.ops.filter (·.bid != bid), leats := s1.leats.filter (·.bid != bid) }
      some (s2.onBlock bid fun b => { b with away := true, staged := [] })

/-- A block that went away has ended, or been discarded, where it was restored: its areas are given up, and it leaves. -/
def awayEnded (s : State) (bid : Nat) : Option State :=
  match s.block? bid with
  | none => none
  | some b =>
    if !b.away || b.ended then none
    else some (settleBlock ((freeBlock s b).onBlock bid fun b => { b with away := false, ended := true }) b)

/-! ### Taking one in (R56) -/

/-- The kernel of a block header at an address (log entry 62). -/
def headerKernel (s : State) (a : Nat) : Option Kernel :=
  let x := s.rdNat (a + 128) 128
  if headerBad x then none else some (kernelOf (s.rdNat (a + 16) 8) (s.rdNat (a + 24) 4) x)

/-- A group's storage is in canonical form, and its fragments and tokens are told apart by ids given out. -/
def Group.sound (g : Group) : Bool :=
  swf 0 g.v && swf 0 g.u && swf 0 g.p && swf 0 g.flags && swf 0 g.draws && swf ownerNone g.xowner && swf 0 g.ctr && swf 0 g.aside &&
    decide (g.frags.map (·.fid)).Nodup && decide (g.toks.map (·.id)).Nodup && (g.toks.all fun t => decide (t.id < g.nextTok)) &&
    match g.handler with
    | none => true
    | some h => decide (h.frags.map (·.fid)).Nodup && decide (h.toks.map (·.id)).Nodup && h.toks.all fun t => decide (t.id < g.nextTok)

/-- An expansion's storage is in canonical form. -/
def Expansion.sound (x : Expansion) : Bool :=
  swf 0 x.start && swf 0 x.len && swf (foldIdentity x.op) x.acc && x.slots.all fun y => swf 0 y.contrib

/-- A block's storage is in canonical form. -/
def Block.sound (b : Block) : Bool :=
  b.groups.all Group.sound && (b.exts.all fun x => swf 0 x.regs) && swf 0 b.scratch && swf 0 b.tags && (b.slots.all fun m => swf 0 m.image) &&
    b.xus.all Expansion.sound

/-- What may come with a saved block: an `XEND` that waits for its deal set, and frozen leats (R53). -/
def Kept.sound (k : Kept) : Bool :=
  k.block.sound && k.ops.all LongOp.leaves && k.leats.all (·.frozen.isSome)

/-- The block as it is held here, saved, under a fresh number. -/
def Kept.blockAs (k : Kept) (bid c save stage : Nat) (lid : Option Nat) (det : Bool) : Block :=
  { k.block with
    bid := bid
    ctx := c
    launch := lid
    mill := 0
    resident := false
    saving := false
    save := save
    stage := if det then some stage else none
    ident := { k.block.ident with key := bid, launch := lid }
    ended := false
    away := false
    stuck := false
    taken := true }

/-- A frozen leat of a block taken in stands on no mill until the restore; 384 and the block's number stand for none. -/
def waitingLeat (bid : Nat) (l : Leat) : Leat := { l with mill := 384 + bid, bid := bid }

/-- A master of a block taken in, under its number here. -/
def takenMaster (bid : Nat) (p : BitVec 16 × Master) : BitVec 16 × Master :=
  match p.2 with
  | .group _ gid => (p.1, .group bid gid)
  | .leat _ idx => (p.1, .leat (384 + bid) idx)
  | _ => p

/-- One saved block taken in: its image is written to the save area, and a restore follows, or fails (R384). -/
def adoptOne (c : Nat) (l : Option Launch) (x : Nat × Nat × List Byte × Kept) (s : State) : Option State :=
  match x with
  | (save, stage, image, k) =>
    let b := k.block
    let plan := planGroups b.kernel (b.trig.map (·.sectors.length))
    let size := saveSize b.kernel plan
    let det := match l with | some l => launchDet l b.kernel | none => false
    let s1 := rawWrite s save image
    if image.length < 256 || size < roundUp image.length 64 || !fitsAt (s.saveArea c).1 (s.saveArea c).2 (s.ctx c).saves save size ||
        (det && !fitsAt (s.stagePool c).1 (s.stagePool c).2 (s.ctx c).stages stage (stageSize det)) ||
        headerKernel s1 save != some b.kernel || !k.sound || b.trig.isSome != l.isNone then none
    else
      let bid := s.nextId
      let s2 := s1.onCtx c fun y => { y with
        saves := y.saves ++ [{ base := save, size := size, bid := bid }]
        stages := if det then y.stages ++ [{ base := stage, size := stageSize det, bid := bid }] else y.stages
        masters := y.masters ++ k.masters.map (takenMaster bid) }
      some { s2 with
        nextId := bid + 1 + k.ops.length
        blocks := s2.blocks ++ [k.blockAs bid c save stage (l.map (·.id)) det]
        ops := s2.ops ++ (numbered k.ops).map fun p => { p.2 with id := bid + 1 + p.1, bid := bid }
        leats := s2.leats ++ k.leats.map (waitingLeat bid) }

/-- Some saved blocks taken in, one after another. -/
def adoptAll (c : Nat) (l : Option Launch) : List (Nat × Nat × List Byte × Kept) → State → Option State
  | [], s => some s
  | x :: xs, s => (adoptOne c l x s).bind (adoptAll c l xs)

/-- The launch under which blocks are held here: one of it taken in before, or a new entry; a gang comes as a whole (R57). -/
def adoptLaunch (s : State) (c : Nat) (l : Launch) : Launch × State :=
  match s.launches.find? fun m => m.adopted && !l.gang && m.ctx == c && m.queue == l.queue && m.rank == l.rank && m.count == l.count with
  | some m => (m, s)
  | none =>
    let m := { l with id := s.nextId, ctx := c, replica := true, phase := .dispatched, dropped := false, added := false, relStop := none,
                      adopted := true, killed := false }
    (m, { s with nextId := s.nextId + 1, launches := s.launches ++ [m] })

/-- R56, R57, R384: another member's saved blocks of a launch, or a trigger block, are given to this one (log entry 39). -/
def adopt (s : State) (c : Nat) (l : Option Launch) (xs : List (Nat × Nat × List Byte × Kept)) : Option State :=
  if !ctxOpen s c || xs.isEmpty then none
  else match l with
    | none => adoptAll c none xs s
    | some l => let r := adoptLaunch s c l; adoptAll c (some r.1) xs r.2

/-- R314, R318: the head of a launch of another member, as that member tells it. -/
def headTold (s : State) (lid h : Nat) : Option State :=
  match s.launch? lid with
  | none => none
  | some l =>
    if !l.adopted || h < l.head then none
    else some (releaseHeads lid 1 (s.onLaunch lid fun l => { l with head := h }))

end Sys2Proof.Machine
end

