-- ==== Sys2Proof/Machine/Copy.lean ====
section
/-! DEFINITION. `CPY`, `CPYW` and the leats (R115 to R121, R268, R364, R375, R379). -/

namespace Sys2Proof.Machine

/-! ### Descriptors (R115, R116, R364) -/

/-- The eight words of a descriptor in uniform registers. -/
def descWords (g : Group) (n : Nat) : List Nat := (List.range 8).map fun i => (uget g (n + i)).toNat

/-- The descriptor of eight words. -/
def copyDesc (ws : List Nat) : CopyDesc :=
  let w := fun i => ws.getD i 0
  { g := BitVec.ofNat 64 (w 0 + fld (w 1) 0 24 * 2 ^ 32)
    e := 2 ^ fld (w 1) 29 2
    dir := bitOf (w 1) 28
    kind := fld (w 1) 24 4
    d := fld (w 2) 0 20
    n0 := fld (w 3) 0 16
    n1 := fld (w 3) 16 16
    n2 := fld (w 4) 0 16
    wptr := 16 * fld (w 4) 16 16
    st1 := signed 32 (w 5)
    st2 := signed 32 (w 6)
    shape := BitVec.ofNat 32 (w 7) }

/-- Byte `i` of the shape word. -/
def CopyDesc.byte (d : CopyDesc) (i : Nat) : Nat := fld d.shape.toNat (8 * i) 8
/-- Pad top. -/
def CopyDesc.padT (d : CopyDesc) : Nat := fld d.shape.toNat 28 4
/-- Pad left. -/
def CopyDesc.padL (d : CopyDesc) : Nat := fld d.shape.toNat 24 4
/-- Row step. -/
def CopyDesc.stepY (d : CopyDesc) : Nat := fld d.shape.toNat 20 4
/-- Column step. -/
def CopyDesc.stepX (d : CopyDesc) : Nat := fld d.shape.toNat 16 4
/-- R118: output columns of a window. -/
def CopyDesc.outW (d : CopyDesc) : Nat := (d.n0 + 2 * d.padL - d.byte 0) / d.stepX + 1
/-- R118: output rows of a window. -/
def CopyDesc.outH (d : CopyDesc) : Nat := (d.n1 + 2 * d.padT - d.byte 1) / d.stepY + 1

/-- R120: the bytes a copy moves. -/
def CopyDesc.total (d : CopyDesc) : Nat :=
  if d.kind = 3 then d.outH * d.outW * d.byte 1 * d.byte 0 * d.n2 * d.e else d.n0 * d.n1 * d.n2 * d.e

/-- R364: a shape word whose fields are out of range. -/
def CopyDesc.shapeBad (d : CopyDesc) : Bool :=
  match d.kind with
  | 0 => d.shape != 0
  | 1 => fld d.shape.toNat 16 16 != 0 || d.byte 0 == 0 || d.byte 1 == 0
  | 2 => d.byte 0 == 0 || d.byte 1 == 0 || d.byte 2 == 0 || d.byte 3 == 0
  | _ => d.byte 0 == 0 || d.byte 1 == 0 || d.stepX == 0 || d.stepY == 0

/-- R116, R118: counts that are not divisible, or a window that does not fit. -/
def CopyDesc.countsBad (d : CopyDesc) : Bool :=
  match d.kind with
  | 0 => false
  | 1 => d.n0 % d.byte 0 != 0 || d.n1 % d.byte 1 != 0
  | 2 => d.n0 % d.byte 0 != 0 || d.n1 % d.byte 1 != 0 || d.n0 / d.byte 0 % d.byte 2 != 0 || d.n1 / d.byte 1 % d.byte 3 != 0
  | _ => decide (d.n0 + 2 * d.padL < d.byte 0) || decide (d.n1 + 2 * d.padT < d.byte 1)

/-- R350, R364: the lowest word of a descriptor that holds a reserved value. -/
def descBad (window : Bool) (ws : List Nat) : Option Nat :=
  let d := copyDesc ws
  let w := fun i => ws.getD i 0
  if bitOf (w 1) 31 || decide (3 < d.kind) || (d.kind == 3) != window || (window && d.dir) then some 1
  else if fld (w 2) 20 12 != 0 then some 2
  else if d.n0 == 0 || d.n1 == 0 || (!d.shapeBad && d.countsBad) then some 3
  else if d.n2 == 0 then some 4
  else if d.shapeBad then some 7
  else none

/-- R364: alignment, then extent, of a descriptor's addresses. -/
def descCode (b : Block) (d : CopyDesc) : Option Nat :=
  if d.g.toNat % d.e != 0 || d.d % d.e != 0 || d.st1 % (d.e : Int) != 0 || d.st2 % (d.e : Int) != 0 then some 0
  else if b.kernel.scratch < d.d + d.total || b.kernel.scratch < d.wptr + 4 then some 1
  else none

/-! ### Issue (R121, R268) -/

/-- The lowest-numbered free leat of a mill. -/
def freeLeat (s : State) (mill : Nat) : Option Nat :=
  (List.range 16).find? fun i => !(s.leats.any fun l => l.mill == mill && l.idx == i)

/-- R120, R121: a leat accepts a copy and writes 0 to its pointer word, whose tag `b` holds; those whom the word
satisfied before go on (R270). -/
def acceptCopy (e : Env) (idx : Nat) (d : CopyDesc) (b : Block) (s : State) : State :=
  let l : Leat := { mill := e.b.mill, idx := idx, bid := e.b.bid, gid := e.g.gid, fid := e.f.fid, ctx := e.b.ctx, pc := e.i.pc, word := e.i.word, desc := d, done := 0, seq := s.nextId, frozen := none }
  let s1 := setScratch (wakePointers (s.setBlock b) e.b.bid) e.b.bid d.wptr 4 0
  { s1 with leats := s1.leats ++ [l], errs := s1.errs.filter (· != .leat e.b.mill idx) }

/-- `CPY` and `CPYW`. -/
def copyExec (window : Bool) (g : Guard) (fl : FlagSel) (n : Nat) (s : State) : Out :=
  onIss s fun e =>
    let act := e.active g
    if e.flagFull fl || e.acqPending then stall s
    else match e.guardErr g with
      | some ev => .next (raise s ev)
      | none =>
        if act == 0 then .next (launchOp s (e.op fl []))
        else match e.wholeCheck [(2, .s n, 8)] [] with
          | some ev => .next (raise s ev)
          | none =>
            let ws := descWords e.g n
            match freeLeat s e.b.mill with
            | none => stall s
            | some i =>
              match descBad window ws with
              | some w => .next (raise s (e.wev 0x02 4 2 w))
              | none =>
                match descCode e.b (copyDesc ws) with
                | some c => .next (raise s (e.wev 0x22 c 2))
                | none =>
                  match tagAll e.b e.g.gid true [(lowLane e.whole, sectorOf (copyDesc ws).wptr)] with
                  | .error ev => .next (raise s { ev with lanes := e.whole })
                  | .ok b => .next (launchOp (acceptCopy e i (copyDesc ws) b s) (e.op fl []))

/-- `CPY` (R268). -/
def execCpy (g : Guard) (fl : FlagSel) (n : Nat) (s : State) : Out := copyExec false g fl n s

/-- `CPYW` (R268). -/
def execCpyw (g : Guard) (fl : FlagSel) (n : Nat) (s : State) : Out := copyExec true g fl n s

/-! ### Elements (R117, R118) -/

/-- R117: the plane, row and column of the scratchpad element `k`, the inverse of `Index`. -/
def CopyDesc.place (d : CopyDesc) (k : Nat) : Nat × Nat × Nat :=
  let plane := k / (d.n0 * d.n1)
  let r := k % (d.n0 * d.n1)
  let tile := d.byte 0 * d.byte 1
  let inner := r % tile
  let at_ := fun t1 t0 => (plane, t1 * d.byte 1 + inner / d.byte 0, t0 * d.byte 0 + inner % d.byte 0)
  match d.kind with
  | 0 => (plane, r / d.n0, r % d.n0)
  | 1 => at_ (r / tile / (d.n0 / d.byte 0)) (r / tile % (d.n0 / d.byte 0))
  | _ =>
    let u := r / tile / (d.byte 2 * d.byte 3)
    let v := r / tile % (d.byte 2 * d.byte 3)
    let wide := d.n0 / d.byte 0 / d.byte 2
    at_ (u / wide * d.byte 3 + v / d.byte 2) (u % wide * d.byte 2 + v % d.byte 2)

/-- R118: the plane, row and column of window element `k`; none for padding. -/
def CopyDesc.window (d : CopyDesc) (k : Nat) : Option (Nat × Nat × Nat) :=
  let kx := k % d.byte 0
  let ky := k / d.byte 0 % d.byte 1
  let o := k / d.byte 0 / d.byte 1
  let y : Int := (o / d.outW % d.outH * d.stepY + ky : Nat) - (d.padT : Int)
  let x : Int := (o % d.outW * d.stepX + kx : Nat) - (d.padL : Int)
  if 0 ≤ y ∧ y < (d.n1 : Int) ∧ 0 ≤ x ∧ x < (d.n0 : Int) then some (o / d.outW / d.outH, y.toNat, x.toNat) else none

/-- The global address of element `k`, none for padding. -/
def CopyDesc.addr (d : CopyDesc) (k : Nat) : Option Nat :=
  let p := if d.kind = 3 then d.window k else some (d.place k)
  p.map fun (q : Nat × Nat × Nat) =>
    (w64 ((d.g.toNat : Int) + (q.1 : Int) * d.st2 + (q.2.1 : Int) * d.st1 + ((q.2.2 * d.e : Nat) : Int))).toNat

/-- R120: the pointer word while `done` bytes are complete. -/
def CopyDesc.pointer (d : CopyDesc) (done : Nat) : Nat := if d.dir || done == d.total then done else done / 16 * 16

/-! ### The transfer of one element (R119, R120, R379) -/

/-- A leat at work. -/
def State.leat? (s : State) (mill idx : Nat) : Option Leat := s.leats.find? fun l => l.mill == mill && l.idx == idx

/-- A leat written. -/
def State.setLeat (s : State) (l : Leat) : State :=
  { s with leats := updIf (fun x => x.mill == l.mill && x.idx == l.idx) (fun _ => l) s.leats }

/-- R375, R379: the leat's first failure: its record, and the leat frozen. -/
def leatFault (s : State) (b : Block) (l : Leat) (cause detail addr : Nat) : State :=
  let r := Rec.ofBlock s b
    { Rec.bare l.ctx 1 1 cause s.gtime with
      operand := 7
      gid := l.gid
      fid := l.fid
      leat := l.idx
      pc := l.pc
      word := l.word
      addr := BitVec.ofNat 64 addr
      detail := BitVec.ofNat 32 detail
      code := BitVec.ofNat 32 (l.desc.pointer l.done) }
  let seq := (takeSeq s l.ctx).1
  (emitRecord s r (.leat l.mill l.idx)).setLeat { l with frozen := some seq }

/-- R119, R120: an element is complete: the pointer word, and the leat freed at the end. -/
def leatStep (s : State) (l : Leat) : State :=
  let d := l.desc
  let done := l.done + d.e
  let s1 := wakePointers (setScratch s l.bid d.wptr 4 (d.pointer done)) l.bid
  if d.total ≤ done then { s1 with leats := s1.leats.filter fun x => !(x.mill == l.mill && x.idx == l.idx) }
  else s1.setLeat { l with done := done }

/-- The placed piece of a leat's element. -/
def leatPiece (l : Leat) (va : Nat) (x : Xlat) : Placed :=
  { p := { pos := 7, lane := 0, shown := va, va := va, n := l.desc.e, idx := 0 }, x := x }

/-- R119, R334: the checks of an element's global access: its translation, or cause and detail. -/
def leatReach (s : State) (b : Block) (l : Leat) (va : Nat) : Except (Nat × Nat) Xlat :=
  if 2 ^ 56 ≤ va then .error (0x22, 0)
  else match reach s l.mill l.ctx (if l.desc.dir then .leatStore else .leatLoad) false (s.detBlock b) va with
    | .error k => .error (k.1, 0)
    | .ok x =>
      if !l.desc.dir && (span x.pa l.desc.e).any (fun a => (poisonCode s l.mill a).isSome) then .error (0x60, 0) else .ok x

/-- R119: the stamps of an element's sector, under the block's identity. -/
def leatStamp (s : State) (b : Block) (l : Leat) (va : Nat) (x : Xlat) : Except Raised State :=
  stampAll s b.ident (if l.desc.dir then .write else .read) (checkedTouches [leatPiece l va x])

/-- R120: the pointer word's sector, where the next element changes the word. -/
def pointerSector (l : Leat) : List (Nat × Nat) :=
  if l.desc.pointer (l.done + l.desc.e) == l.desc.pointer l.done then [] else [(0, sectorOf l.desc.wptr)]

/-- R142: the tags of a leat's scratchpad writes: the element's, with dir 0, and the pointer word's. -/
def leatTags (b : Block) (l : Leat) : Except Raised Block :=
  tagAll b l.gid true ((if l.desc.dir then [] else [(0, sectorOf (l.desc.d + l.done))]) ++ pointerSector l)

/-- R118, R379: padding never faults: a tag that refuses it stays as it is. -/
def padTags (b : Block) (l : Leat) : Block := match leatTags b l with | .ok b1 => b1 | .error _ => b

/-- An element's bytes in the scratchpad, and the copy one element on. -/
def leatPut (s : State) (b : Block) (l : Leat) (bytes : List Byte) : State :=
  let at_ := span (l.desc.d + l.done) bytes.length
  leatStep (healScratch (s.setBlock (b.setSb (List.zip at_ bytes))) b.bid at_) l

/-- R119: an element of global memory copied into the scratchpad. -/
def leatIn (s : State) (b : Block) (l : Leat) (va : Nat) (x : Xlat) : State :=
  match leatStamp s b l va x with
  | .error ev => leatFault s b l ev.cause ev.detail.toNat va
  | .ok s1 =>
    match leatTags b l with
    | .error ev => leatFault s b l ev.cause ev.detail.toNat va
    | .ok b1 =>
      let src := span x.pa l.desc.e
      let bytes := loadBytes s1 b (servedAt s1 l.mill 2 src) src
      leatPut (fillCaches (tlbFill s1 l.mill l.ctx va) l.mill .device (servedAt s1 l.mill 2 src) none l.ctx src) b1 l bytes

/-- R313, R314: a leat's write staged, in its copy's place in issue order. -/
def leatStage (s : State) (b : Block) (l : Leat) (va : Nat) (x : Xlat) (bytes : List (Nat × Byte)) : State :=
  let acc : Acc := { space := .global, lanes := 0, body := .store bytes }
  let checks := (checkedTouches [leatPiece l va x]).map fun t => (BitVec.ofNat 64 t.va, t.pa, false)
  let op : StagedOp := { gid := l.gid, fid := l.fid, pc := l.pc, word := l.word, lanes := 0, size := bytes.length, off := b.stagedEnd, seq := l.seq, leat := true, body := .access [acc] checks }
  s.onBlock l.bid fun b => { b with staged := (b.staged.filter fun o => o.seq ≤ l.seq) ++ [op] ++ b.staged.filter fun o => decide (l.seq < o.seq) }

/-- The block is deterministic and not the head of its launch. -/
def stagesNow (s : State) (b : Block) : Bool := s.detBlock b && !s.isHead b

/-- R119: an element of the scratchpad written to global memory; a killed block stages nothing more (R316). -/
def leatOut (s : State) (b : Block) (l : Leat) (va : Nat) (x : Xlat) : State :=
  let off := l.desc.d + l.done
  let bytes := List.zip (span x.pa l.desc.e) ((span off l.desc.e).map b.sb)
  let fill := tlbFill s l.mill l.ctx va
  if scratchBroken s b.bid off l.desc.e then leatFault s b l 0x60 0 va
  else match leatTags b l with
    | .error ev => leatFault s b l ev.cause ev.detail.toNat va
    | .ok b1 =>
      let s0 := fill.setBlock b1
      if stagesNow s b then leatStep (if b.killed then s0 else leatStage s0 b l va x bytes) l
      else match leatStamp s0 b l va x with
        | .error ev => leatFault s b l ev.cause ev.detail.toNat va
        | .ok s1 => leatStep (writePast s1 l.mill l.ctx (s.storerOf b l.gid) (lineOf x.pa) bytes) l

/-- R381: the leat waits for the host; the await names leat *i* as fragment 8 + *i* of the issuing group. -/
def leatAwait (s : State) (l : Leat) (pa : Nat) : State :=
  { s with
    nextId := s.nextId + 1
    awaits := s.awaits ++ [{ id := s.nextId, f := { bid := l.bid, gid := l.gid, fid := 8 + l.idx }, rank := none, since := s.gtime, req := none, got := none, ev := none, ext := false }]
    felmirOut := s.felmirOut ++ [.access s.nextId l.desc.dir [pa]] }

/-- The leat waits for the host's answer. -/
def leatWaits (s : State) (l : Leat) : Bool :=
  s.awaits.any fun a => a.f.bid == l.bid && a.f.gid == l.gid && a.f.fid == 8 + l.idx

/-- R139: an earlier checked access to the element's line comes first, where the element is checked as it is transferred. -/
def leatOwed (s : State) (b : Block) (l : Leat) : Bool :=
  !s.ops.isEmpty && !(l.desc.dir && stagesNow s b) && match l.desc.addr (l.done / l.desc.e) with
    | none => false
    | some va => match leatReach s b l va with | .error _ => false | .ok x => linesOwed s (checkedTouches [leatPiece l va x])

/-- R139, R313, R315: an element waits for earlier checked accesses, and a write for the release of the block's staged ops,
or for room. -/
def leatHeld (s : State) (b : Block) (l : Leat) : Bool :=
  leatOwed s b l || l.desc.dir && s.detBlock b && (if s.isHead b then !b.staged.isEmpty else decide (stageArea < b.stagedBytes + l.desc.e))

/-- The transfer of a leat's next element; `answered` says that the host has answered for it. -/
def leatTransfer (s : State) (b : Block) (l : Leat) (answered : Bool) : State :=
  match l.desc.addr (l.done / l.desc.e) with
  | none => leatPut s (padTags b l) l (List.replicate l.desc.e 0)
  | some va =>
    match leatReach s b l va with
    | .error k => leatFault s b l k.1 k.2 (va % 2 ^ 56)
    | .ok x =>
      if inHost x.pa && !answered && !(stagesNow s b && l.desc.dir) then leatAwait s l x.pa
      else if l.desc.dir then leatOut s b l va x else leatIn s b l va x

/-- `LEAT_ELEMENT_TRANSFER` (R119, R120, R379). -/
def execLeatElementTransfer (mill leat : Nat) (s : State) : Out :=
  match s.leat? mill leat with
  | none => .fault .notEnabled
  | some l =>
    match s.block? l.bid with
    | none => .fault .notEnabled
    | some b =>
      if l.frozen.isSome || !b.resident || leatWaits s l || leatHeld s b l then .fault .notEnabled
      else if s.errs.contains (.leat mill leat) then .next (leatFault s b l 0x60 0 0)
      else .next (leatTransfer s b l false)

/-- R381: the host has answered a leat's access, or has failed it. -/
def leatAnswer (s : State) (b : Block) (l : Leat) (r : Option HostReply) : State :=
  let va := ((l.desc.addr (l.done / l.desc.e)).getD 0) % 2 ^ 56
  match r with
  | some .ok => leatTransfer s b l true
  | _ => leatFault s b l 0x28 0 va

end Sys2Proof.Machine
end

