-- ==== Sys2Proof/Machine/MemOps.lean ====
section
/-! DEFINITION. Rows 0x7 and 0x8: loads, stores, MX transfers, cache control, fences and atomics
(R132, R248 to R258, R361). -/

namespace Sys2Proof.Machine

/-! ### Addresses and values -/

/-- The bytes of a data type (R250). -/
def dtBytes : DType → Nat
  | .n8 => 1 | .i8 => 1 | .n16 => 2 | .i16 => 2 | .w32 => 4 | .w64 => 8 | .b128 => 16

/-- The registers of a data type. -/
def dtRegs : DType → Nat
  | .w64 => 2 | .b128 => 4 | _ => 1

/-- R94: a lane's global address. -/
def Env.globalAddr (e : Env) (a : Reg) (off : BitVec 12) (lane : Nat) : Nat := (rget64 e.b e.g lane a + off.signExtend 64).toNat

/-- R94: a lane's scratchpad or private offset. -/
def Env.localAddr (e : Env) (a : Reg) (off : BitVec 12) (lane : Nat) : Nat := (rget e.b e.g lane a + off.signExtend 32).toNat

/-- The pieces of a global access of `n` bytes in each lane. -/
def Env.globalPieces (e : Env) (a : Reg) (off : BitVec 12) (n : Nat) (act : LaneMask) : List Piece :=
  (lanesOf act).map fun l => let x := e.globalAddr a off l; { pos := 2, lane := l, shown := x, va := x, n := n, idx := 0 }

/-- The pieces of a scratchpad access. -/
def Env.scratchPieces (e : Env) (a : Reg) (off : BitVec 12) (n : Nat) (act : LaneMask) : List Piece :=
  (lanesOf act).map fun l => let x := e.localAddr a off l; { pos := 2, lane := l, shown := x, va := x, n := n, idx := 0 }

/-- R104: the global address of a private offset's byte. -/
def privAddr (b : Block) (g : Group) (lane o : Nat) : Nat :=
  (b.priv.toNat + g.gid * b.width * b.kernel.priv + 4 * (o / 4 * b.width + lane) + o % 4) % 2 ^ 56

/-- R104: the pieces of a private access: its words, each at its own address. -/
def Env.privPieces (e : Env) (a : Reg) (off : BitVec 12) (n : Nat) (act : LaneMask) : List Piece :=
  (lanesOf act).flatMap fun l =>
    let o := e.localAddr a off l
    (List.range (ceilDiv n 4)).map fun i =>
      let x := privAddr e.b e.g l (o + 4 * i)
      { pos := 2, lane := l, shown := x, va := x, n := min n 4, idx := 4 * i }

/-- R372: alignment, then the private limit, made on the offset. -/
def Env.privCheck (e : Env) (a : Reg) (off : BitVec 12) (n : Nat) (act : LaneMask) : Option Raised :=
  let ps := (lanesOf act).map fun l => (l, e.localAddr a off l)
  let at_ := fun (p : Nat × Nat) => ({ pos := 2, lane := p.1, shown := p.2, va := p.2, n := n, idx := 0 } : Piece)
  (pick 0x22 (ps.map fun (p : Nat × Nat) => (at_ p, if p.2 % n == 0 then none else some (0x22, 0)))).or
    (pick 0x23 (ps.map fun (p : Nat × Nat) => (at_ p, if e.b.kernel.priv < p.2 + n then some (0x23, e.b.kernel.priv) else none)))

/-- The number a store's lane supplies: the low bytes of B, of a pair or of four registers (R250). -/
def Env.storeValue (e : Env) (t : DType) (b : Opnd) (lane : Nat) : Nat :=
  match t, b.src with
  | .w64, .reg r => (rget64 e.b e.g lane r).toNat
  | .b128, .reg r => (List.range 4).foldl (fun n i => n + (rget e.b e.g lane (regUp r i)).toNat * 2 ^ (32 * i)) 0
  | _, .reg r => (rget e.b e.g lane r).toNat
  | _, _ => 0

/-- The space a placed piece lies in. -/
def Placed.space (priv : Bool) (a : Placed) : Space := if inRegs a.x.pa then .regs else if priv then .priv else .global

/-! ### The accesses of an instruction -/

/-- The access of one piece of a load. -/
def loadAcc (priv : Bool) (d : Reg) (t : DType) (a : Placed) : Acc :=
  let part := decide (a.p.n < dtBytes t)
  { space := a.space priv, lanes := maskOf [a.p.lane]
    body := .load a.p.lane (if part then regUp d (a.p.idx / 4) else d) (if part then .w32 else t) a.bytes }

/-- R127: the pieces whose bytes stay: for each address, those of the highest lane. -/
def lastPieces : List (Nat × Nat × Nat) → List (Nat × Nat × Nat)
  | [] => []
  | x :: xs => if xs.any fun y => y.2.1 == x.2.1 then lastPieces xs else x :: lastPieces xs

/-- The stores of some pieces of one size, each with its lane, address and value: one access for each line, or
for each register of register space. -/
def storeAccs (sp : Space) (n : Nat) (ws : List (Nat × Nat × Nat)) : List Acc :=
  let kept := lastPieces ws
  if sp == .regs then kept.map fun w => { space := sp, lanes := maskOf [w.1], body := .store (bytesAt w.2.1 n w.2.2) }
  else (nub (kept.map fun w => lineOf w.2.1)).map fun ln =>
    { space := sp
      lanes := maskOf ((ws.filter fun w => lineOf w.2.1 == ln).map (·.1))
      body := .store ((kept.filter fun w => lineOf w.2.1 == ln).flatMap fun w => bytesAt w.2.1 n w.2.2) }

/-- The accesses of a store's placed pieces, by space. -/
def placedStores (priv : Bool) (n : Nat) (value : Nat → Nat) (ps : List Placed) : List Acc :=
  let ws := fun (sp : Space) => (ps.filter fun a => a.space priv == sp).map fun a =>
    (a.p.lane, a.x.pa, value a.p.lane / 2 ^ (8 * a.p.idx) % 2 ^ (8 * n))
  storeAccs .global n (ws .global) ++ storeAccs .priv n (ws .priv) ++ storeAccs .regs n (ws .regs)

/-- The accesses of an atomic: one for each address (R257). With a uniform destination, the lowest active lane's
value is returned (R69). -/
def atomAccs (sp : Space) (op : AtomOp) (w : AtomWidth) (d : Option Reg) (low : Nat) (vals : Nat → W64 × W64)
    (xs : List (Nat × Nat)) : List Acc :=
  (nub (xs.map fun (x : Nat × Nat) => x.2)).map fun a =>
    let ls := (xs.filter fun (x : Nat × Nat) => x.2 == a).map fun (x : Nat × Nat) => x.1
    let dst := match d with | some (.s n) => if ls.contains low then some (.s n) else none | o => o
    { space := sp, lanes := maskOf ls, body := .atom a op w dst (ls.map fun l => (l, vals l)) }

/-! ### Loads and stores -/

/-- The in-flight instruction of a load: the registers it names, its scope and acquire. -/
def Env.loadOp (e : Env) (fl : FlagSel) (uses : List RegUse) (sc : Scope) (acq : Bool) (accs : List Acc) : LongOp :=
  { e.op fl accs with scope := sc, acq := acq, ext := extUses uses }

/-- The in-flight instruction of a store. -/
def Env.storeOp (e : Env) (fl : FlagSel) (uses : List RegUse) (sc : Scope) (rel : Bool) (accs : List Acc) : LongOp :=
  { e.op fl accs with scope := sc, rel := rel, ext := extUses uses }

/-- A global load (R250 to R252). -/
def loadExec (acq : Bool) (g : Guard) (fl : FlagSel) (t : DType) (sc : Scope) (d a : Reg) (off : BitVec 12) (s : State) : Out :=
  memExec g fl [(2, a, 2)] [] [(1, d, dtRegs t)] (some d) (fun _ => false) (fun e act =>
    let f : Form := { use := .load, touch := .read, ordered := acq, priv := false, staged := false }
    let ps := e.globalPieces a off (dtBytes t) act
    e.after f (e.gate f (plainAlign (dtBytes t)) ps) fun s1 as =>
      .next (launchOp s1 ((e.loadOp fl [(2, a, 2), (1, d, dtRegs t)] sc acq (as.map (loadAcc false d t))).marked as))) s

/-- `LD`. -/
def execLd (g : Guard) (fl : FlagSel) (t : DType) (sc : Scope) (d a : Reg) (off : BitVec 12) (s : State) : Out :=
  loadExec false g fl t sc d a off s

/-- `LD.acq`. -/
def execLdAcq (g : Guard) (fl : FlagSel) (t : DType) (sc : Scope) (d a : Reg) (off : BitVec 12) (s : State) : Out :=
  loadExec true g fl t sc d a off s

/-- B of a store, read as 32 bits where it is mapped. -/
def storeSrc (b : Src) : Opnd := opB .int false b

/-- The registers B of a store names beyond what `Opnd.regs` counts. -/
def storeUses (t : DType) (b : Src) : List RegUse :=
  match b with
  | .reg r => [(3, r, dtRegs t)]
  | _ => []

/-- A store's mapped source; a register source is checked by `storeUses`. -/
def mappedSrcs (b : Src) : List Opnd :=
  match b with
  | .map _ _ => [storeSrc b]
  | _ => []

/-- The value each lane stores. -/
def Env.storeVals (e : Env) (act : LaneMask) (t : DType) (b : Src) : Nat → Nat :=
  match b with
  | .map _ _ => let v := e.srcVals act (storeSrc b); fun l => (v l).toNat
  | _ => e.storeValue t (storeSrc b)

/-- Every register a store names. -/
def storeRegs (wideA : Bool) (t : DType) (a : Reg) (b : Src) : List RegUse :=
  (2, a, if wideA then 2 else 1) :: (storeUses t b ++ (mappedSrcs b).flatMap Opnd.regs)

/-- A global store (R250, R252). -/
def storeExec (rel : Bool) (g : Guard) (fl : FlagSel) (t : DType) (sc : Scope) (a : Reg) (off : BitVec 12) (b : Src) (s : State) : Out :=
  memExec g fl ((2, a, 2) :: storeUses t b) (mappedSrcs b) [] none Env.stageWait (fun e act =>
    let n := dtBytes t
    let f : Form := { use := .store, touch := .write, ordered := rel, priv := false, staged := e.nonHead }
    let ps := e.globalPieces a off n act
    e.after f (e.gate f (plainAlign n) ps) fun s1 as =>
      let accs := placedStores false n (e.storeVals act t b) as
      let s2 := countMapped s1 (mappedSrcs b)
      if e.nonHead then
        e.stageOp s2 (some fl) act (n * popCount act) (.access accs ((checkedTouches as).map fun x => (BitVec.ofNat 64 x.va, x.pa, false)))
      else .next (launchOp s2 ((e.storeOp fl (storeRegs true t a b) sc rel accs).marked as))) s

/-- `ST`. -/
def execSt (g : Guard) (fl : FlagSel) (t : DType) (sc : Scope) (a : Reg) (off : BitVec 12) (b : Src) (s : State) : Out :=
  storeExec false g fl t sc a off b s

/-- `ST.rel`. -/
def execStRel (g : Guard) (fl : FlagSel) (t : DType) (sc : Scope) (a : Reg) (off : BitVec 12) (b : Src) (s : State) : Out :=
  storeExec true g fl t sc a off b s

/-- `LDS` (R250). -/
def execLds (g : Guard) (fl : FlagSel) (t : DType) (d a : Reg) (off : BitVec 12) (s : State) : Out :=
  memExec g fl [(2, a, 1)] [] [(1, d, dtRegs t)] (some d) (fun _ => false) (fun e act =>
    let f : Form := { use := .load, touch := .read, ordered := false, priv := false, staged := false }
    let ps := e.scratchPieces a off (dtBytes t) act
    e.after f (e.scratchGate (dtBytes t) .read true ps) fun s1 _ =>
      let accs := ps.map fun p => ({ space := .scratch, lanes := maskOf [p.lane], body := .load p.lane d t (span p.va p.n) } : Acc)
      .next (launchOp s1 (e.loadOp fl [(2, a, 1), (1, d, dtRegs t)] .group false accs))) s

/-- The stores of a scratchpad instruction: one access for each address (R127). -/
def scratchStores (n : Nat) (value : Nat → Nat) (ps : List Piece) : List Acc :=
  (lastPieces (ps.map fun p => (p.lane, p.va, value p.lane % 2 ^ (8 * n)))).map fun w =>
    { space := .scratch
      lanes := maskOf ((ps.filter fun p => p.va == w.2.1).map (·.lane))
      body := .store (bytesAt w.2.1 n w.2.2) }

/-- `STS` (R250). -/
def execSts (g : Guard) (fl : FlagSel) (t : DType) (a : Reg) (off : BitVec 12) (b : Src) (s : State) : Out :=
  memExec g fl ((2, a, 1) :: storeUses t b) (mappedSrcs b) [] none (fun _ => false) (fun e act =>
    let f : Form := { use := .store, touch := .write, ordered := false, priv := false, staged := false }
    let n := dtBytes t
    let ps := e.scratchPieces a off n act
    e.after f (e.scratchGate n .write true ps) fun s1 _ =>
      .next (launchOp (countMapped s1 (mappedSrcs b)) (e.storeOp fl (storeRegs false t a b) .group false (scratchStores n (e.storeVals act t b) ps)))) s

/-- The gate of a private access. -/
def Env.privGate (e : Env) (f : Form) (a : Reg) (off : BitVec 12) (n : Nat) (act : LaneMask) : Gate :=
  match e.privCheck a off n act with
  | some ev => .stop ev
  | none => e.gate f noAlign (e.privPieces a off n act)

/-- `LDL` (R104, R250). -/
def execLdl (g : Guard) (fl : FlagSel) (t : DType) (d a : Reg) (off : BitVec 12) (s : State) : Out :=
  memExec g fl [(2, a, 1)] [] [(1, d, dtRegs t)] (some d) (fun _ => false) (fun e act =>
    let f : Form := { use := .load, touch := .read, ordered := false, priv := true, staged := false }
    e.after f (e.privGate f a off (dtBytes t) act) fun s1 as =>
      .next (launchOp s1 (e.loadOp fl [(2, a, 1), (1, d, dtRegs t)] .group false (as.map (loadAcc true d t))))) s

/-- `STL` (R104, R250). -/
def execStl (g : Guard) (fl : FlagSel) (t : DType) (a : Reg) (off : BitVec 12) (b : Src) (s : State) : Out :=
  memExec g fl ((2, a, 1) :: storeUses t b) (mappedSrcs b) [] none (fun _ => false) (fun e act =>
    let f : Form := { use := .store, touch := .write, ordered := false, priv := true, staged := false }
    let n := dtBytes t
    e.after f (e.privGate f a off n act) fun s1 as =>
      .next (launchOp (countMapped s1 (mappedSrcs b)) (e.storeOp fl (storeRegs false t a b) .group false (placedStores true (min n 4) (e.storeVals act t b) as)))) s

/-! ### MX transfers (R253) -/

/-- The bytes of scales an MX transfer moves. -/
def mxScales (w e : Nat) : Nat := ceilDiv (w * e) 32

/-- The smallest power of two that is at least `n`. -/
def powerUp (n : Nat) : Nat := if n ≤ 1 then 1 else 2 ^ (Nat.log2 (n - 1) + 1)

/-- An operand's address, the same in every lane. -/
def Env.uniAddr (e : Env) (r : Reg) : Nat := (rget64 e.b e.g 0 r).toNat

/-- The pieces of an MX transfer: each lane's word, and the scale bytes. -/
def mxPieces (act : LaneMask) (ea sa nb scalePos : Nat) : List Piece :=
  ((lanesOf act).map fun l => { pos := 2, lane := l, shown := ea + 4 * l, va := ea + 4 * l, n := 4, idx := 0 }) ++
    (lanesOf act).map fun l => { pos := scalePos, lane := l, shown := sa, va := sa, n := nb, idx := 1 }

/-- R361: the alignment of an MX transfer. -/
def mxAlign (act : LaneMask) (ea sa nb scalePos : Nat) : Option Raised :=
  if ea % 32 != 0 then some (mkEv 0x22 0 2 act (ea + 4 * lowLane act))
  else if sa % powerUp nb != 0 then some (mkEv 0x22 0 scalePos act sa)
  else none

/-- The words among placed pieces, each with its lane. -/
def mxWords (as : List Placed) : List (Nat × Nat) := (as.filter fun a => a.p.idx == 0).map fun a => (a.p.lane, a.x.pa)

/-- The physical address of the first scale byte. -/
def mxScaleAt (as : List Placed) : Nat := ((as.filter fun a => a.p.idx == 1).map (·.x.pa)).headD 0

/-- R146, R253: the single-copy-atomic units of a load: words by lane, scale bytes by block. -/
def mxUnits (w per nb sa : Nat) (ws : List (Nat × Nat)) : List (List (Nat × Nat) × List (Nat × Nat)) :=
  let wide := if per == 5 then 32 else 32 / per
  let blocks := if per == 5 then 5 else 1
  (List.range (ceilDiv w wide)).map fun u =>
    (ws.filter fun p => p.1 / wide == u, ((List.range blocks).map fun i => u * blocks + i).filterMap fun c => if c < nb then some (c, sa + c) else none)

/-- `MXLD` (R253). -/
def execMxld (g : Guard) (fl : FlagSel) (fmt : MxFmt) (sc : Scope) (d a b : Reg) (off : BitVec 12) (s : State) : Out :=
  memExec g fl [(2, a, 2), (3, b, 2)] [] [(1, d, 2)] (some d) (fun _ => false) (fun e act =>
    let f : Form := { use := .mxload, touch := .read, ordered := false, priv := false, staged := false }
    let per := perWord (mxCode fmt)
    let nb := mxScales e.b.width per
    let ea := e.globalAddr a off 0
    let sa := e.uniAddr b
    e.after f (e.gate f (fun _ => mxAlign act ea sa nb 3) (mxPieces act ea sa nb 3)) fun s1 as =>
      let accs := (mxUnits e.b.width per nb (mxScaleAt as) (mxWords as)).map fun u =>
        ({ space := .global, lanes := act, body := .mxload d u.1 u.2 } : Acc)
      .next (launchOp s1 { (e.loadOp fl [(2, a, 2), (3, b, 2), (1, d, 2)] sc false accs).marked as with fin := .scales d act })) s

/-- R253: the bytes an `MXST` writes, scale bytes last, the highest lane's value in each byte (R127). -/
def mxBytes (e : Env) (b : Reg) (nb sa : Nat) (ws : List (Nat × Nat)) : List (Nat × Byte) :=
  let words := ws.flatMap fun p => (bytesAt p.2 4 (rget e.b e.g p.1 b).toNat).map fun q => (p.1, q)
  let scales := (List.range nb).map fun c =>
    (c / 4, sa + c, BitVec.ofNat 8 (fld (rget e.b e.g (c / 4) (regUp b 1)).toNat (8 * (c % 4)) 8))
  let all := words ++ scales
  let beaten := fun (x : Nat × Nat × Byte) => all.any fun y => y.2.1 == x.2.1 && decide (x.1 < y.1)
  (ssetAll none [] ((all.filter fun x => !beaten x).map fun x => (x.2.1, some x.2.2))).filterMap fun p => p.2.map fun v => (p.1, v)

/-- R253, R400: the scale words that an `MXST` stores, whatever lanes are active, are sound. -/
def Env.scaleCheck (e : Env) (b : Reg) (nb : Nat) : Option Raised := e.regErr (maskOf (List.range (ceilDiv nb 4))) [(3, regUp b 1, 1)]

/-- `MXST` (R253, R330): all of it is one write at each line's home, and one single-copy-atomic unit. -/
def execMxst (g : Guard) (fl : FlagSel) (fmt : MxFmt) (sc : Scope) (a b c : Reg) (s : State) : Out :=
  memExec g fl [(2, a, 2), (3, b, 2), (4, c, 2)] [] [] none Env.stageWait (fun e act =>
    let f : Form := { use := .mxstore, touch := .write, ordered := false, priv := false, staged := e.nonHead }
    let nb := mxScales e.b.width (perWord (mxCode fmt))
    let ea := e.globalAddr a 0 0
    let sa := e.uniAddr c
    match e.scaleCheck b nb with
    | some ev => .next (raise s ev)
    | none => e.after f (e.gate f (fun _ => mxAlign act ea sa nb 4) (mxPieces act ea sa nb 4)) fun s1 as =>
      let bytes := mxBytes e b nb (mxScaleAt as) (mxWords as)
      let first := ((mxWords as).map (·.2)).headD 0
      let accs : List Acc := [{ space := .global, lanes := act, body := .store ((bytes.filter fun p => p.1 / 4 == first / 4) ++ bytes.filter fun p => p.1 / 4 != first / 4) }]
      if e.nonHead then
        e.stageOp s1 (some fl) act bytes.length (.access accs ((checkedTouches as).map fun x => (BitVec.ofNat 64 x.va, x.pa, false)))
      else .next (launchOp s1 ((e.storeOp fl [(2, a, 2), (3, b, 2), (4, c, 2)] sc false accs).marked as))) s

/-! ### Cache control and fences (R132, R254, R255) -/

/-- The line instructions' skeleton: what each active lane's address does. -/
def lineExec (g : Guard) (a : Reg) (s : State) (go : Env → LaneMask → Out) : Out :=
  onIss s fun e =>
    let act := e.active g
    let uses : List RegUse := [(2, a, 2)]
    if e.acqPending then stall s
    else match ((heldCheck e.b e.g (e.recLanes act) uses).or (e.guardErr g)).or (e.regErr act uses) with
      | some ev => .next (raise s ev)
      | none => go e act

/-- R254: one prefetch: dropped where it does not translate, or names a page it may not reach. -/
def prefetchOne (e : Env) (sc : Scope) (s : State) (va : Nat) : State :=
  if 2 ^ 56 ≤ va then s
  else match reach e.s e.b.mill e.b.ctx .prefetch false (e.s.detBlock e.b) va with
    | .error _ => s
    | .ok x => if inRegs x.pa then s else prefetchLine (tlbFill s e.b.mill e.b.ctx va) e.b.mill e.b.ctx sc x.pa

/-- `PREF` (R254). -/
def execPref (g : Guard) (sc : Scope) (a : Reg) (off : BitVec 12) (s : State) : Out :=
  lineExec g a s fun e act =>
    .next (retire ((lanesOf act).foldl (fun acc l => prefetchOne e sc acc (e.globalAddr a off l)) s))

/-- `CWB` and `CINV` on each active lane's line. -/
def cacheExec (g : Guard) (a : Reg) (off : BitVec 12) (f : Env → State → Nat → State) (s : State) : Out :=
  lineExec g a s fun e act =>
    let fm : Form := { use := .cacheOp, touch := .read, ordered := false, priv := false, staged := false }
    let ps := e.globalPieces a off 1 act
    match e.placeAll fm ps with
    | .error ev => .next (raise s ev)
    | .ok as =>
      let s1 := fillAll s e.b.mill e.b.ctx (ps.map (·.va))
      .next (retire ((nub ((as.filter fun x => !inRegs x.x.pa).map fun x => lineOf x.x.pa)).foldl (f e) s1))

/-- `CWB` (R254). -/
def execCwb (g : Guard) (sc : Scope) (a : Reg) (off : BitVec 12) (s : State) : Out :=
  cacheExec g a off (fun e acc ln => cleanLine acc e.b.mill sc ln) s

/-- `CINV` (R254). -/
def execCinv (g : Guard) (sc : Scope) (a : Reg) (off : BitVec 12) (s : State) : Out :=
  cacheExec g a off (fun e acc ln => dropLine acc e.b.mill sc ln) s

/-- R132, R315: a fence waits for the fragment's earlier accesses, and at device scope or wider for the head. -/
def Env.fenceWait (e : Env) (sc : Scope) : Bool :=
  !e.quiet || (decide (scopeNum .device ≤ scopeNum sc) && (e.nonHead || e.releasing))

/-- R111, R112, R132: a fence's write-back and invalidation. -/
def fenceAt (s : State) (mill : Nat) (sc : Scope) : State := acquireAt (releaseAt s mill sc) mill sc

/-- `FENCE` (R132). -/
def execFence (sc : Scope) (s : State) : Out :=
  onIss s fun e => if e.fenceWait sc then stall s else .next (retire (fenceAt s e.b.mill sc))

/-- R398: the errors of a mill's instruction-cache lines go with them. -/
def dropIcache (s : State) (mill : Nat) : State :=
  { s with icache := s.icache.filter (·.mill != mill), errs := s.errs.filter fun x => match x with | .icache m _ _ => m != mill | _ => true }

/-- `IFENCE` (R255). -/
def execIfence (s : State) : Out :=
  onIss s fun e =>
    if e.fenceWait .device then stall s else .next (retire (dropIcache (fenceAt s e.b.mill .device) e.b.mill))

/-! ### Atomics (R256 to R258) -/

/-- The registers of an atomic's sources: address, value and, for compare-and-swap, the swap value. -/
def atomUses (wideA : Bool) (op : AtomOp) (w : AtomWidth) (a b c : Reg) : List RegUse :=
  let n := match w with | .b32 => 1 | .b64 => 2
  [(2, a, if wideA then 2 else 1), (3, b, n)] ++ (if op = .cas then [(4, c, n)] else [])

/-- A lane's value and compare-and-swap value. -/
def Env.atomVals (e : Env) (w : AtomWidth) (b c : Reg) (lane : Nat) : W64 × W64 :=
  match w with
  | .b32 => ((rget e.b e.g lane b).setWidth 64, (rget e.b e.g lane c).setWidth 64)
  | .b64 => (rget64 e.b e.g lane b, rget64 e.b e.g lane c)

/-- The order acquires. -/
def Order.acquires : Sys2Proof.Order → Bool
  | .acq => true | .ar => true | _ => false

/-- The order releases. -/
def Order.releases : Sys2Proof.Order → Bool
  | .rel => true | .ar => true | _ => false

/-- The registers a returned value fills. -/
def atomDest (w : AtomWidth) (d : Option Reg) : List RegUse :=
  match d with
  | none => []
  | some r => [(1, r, match w with | .b32 => 1 | .b64 => 2)]

/-- `ATOM` and `RED` on global memory. -/
def atomExec (g : Guard) (fl : FlagSel) (op : AtomOp) (w : AtomWidth) (o : Sys2Proof.Order) (sc : Scope) (d : Option Reg) (a b c : Reg)
    (s : State) : Out :=
  memExec g fl (atomUses true op w a b c) [] (atomDest w d) none
    (fun e => if d.isSome then e.nonHead || e.releasing else e.stageWait) (fun e act =>
      let n := atomBytes w
      let f : Form := { use := .atomic, touch := .atomic, ordered := decide (o ≠ .plain), priv := false, staged := e.nonHead }
      let ps := e.globalPieces a 0 n act
      e.after f (e.gate f (fun _ => alignCheck n ps) ps) fun s1 as =>
        let accs := atomAccs .global op w d (lowLane act) (e.atomVals w b c) (as.map fun x => (x.p.lane, x.x.pa))
        if e.nonHead then
          e.stageOp s1 (some fl) act (n * popCount act) (.access accs ((checkedTouches as).map fun x => (BitVec.ofNat 64 x.va, x.pa, true)))
        else
          let op : LongOp := { e.op fl accs with scope := sc, acq := Order.acquires o, rel := Order.releases o, ext := extUses (atomUses true op w a b c ++ atomDest w d) }
          .next (launchOp s1 (op.marked as))) s

/-- `ATOM` (R256). -/
def execAtom (g : Guard) (fl : FlagSel) (op : AtomOp) (w : AtomWidth) (o : Sys2Proof.Order) (sc : Scope) (d a b c : Reg) (s : State) : Out :=
  atomExec g fl op w o sc (some d) a b c s

/-- `RED` (R256). -/
def execRed (g : Guard) (fl : FlagSel) (op : AtomOp) (w : AtomWidth) (o : Sys2Proof.Order) (sc : Scope) (a b c : Reg) (s : State) : Out :=
  atomExec g fl op w o sc none a b c s

/-- `ATOMS` (R256). -/
def execAtoms (g : Guard) (fl : FlagSel) (op : AtomOp) (w : AtomWidth) (d a b c : Reg) (s : State) : Out :=
  memExec g fl (atomUses false op w a b c) [] (atomDest w (some d)) none (fun _ => false) (fun e act =>
    let f : Form := { use := .atomic, touch := .atomic, ordered := false, priv := false, staged := false }
    let n := atomBytes w
    let ps := e.scratchPieces a 0 n act
    e.after f (e.scratchGate n .atomic false ps) fun s1 _ =>
      let accs := atomAccs .scratch op w (some d) (lowLane act) (e.atomVals w b c) (ps.map fun p => (p.lane, p.va))
      .next (launchOp s1 { e.op fl accs with ext := extUses (atomUses false op w a b c ++ atomDest w (some d)) })) s

end Sys2Proof.Machine
end

