-- ==== Sys2Proof/Machine/Far.lean ====
section
/-! DEFINITION. Far memory: `LDF`, `STF`, `REDF`, the requests Spur carries, their performance at a target, and
their answers; and the answers of the host (R98, R285, R287, R288, R299 to R301, R326, R345, R380, R381). -/

namespace Sys2Proof.Machine

/-! ### Issue -/

/-- The rank a window address names (R98). -/
def farRank (va : Nat) : Nat := fld va 50 6

/-- R366, R380: no member has the rank, or no route leads to it. -/
def Env.routeCheck (e : Env) (ps : List Piece) : Option Raised :=
  let bad := fun (code : Nat) (p : Nat → Bool) => pick 0x27 (ps.map fun x => (x, if p (farRank x.va) then some (0x27, code) else none))
  (bad 0 fun r => decide (e.s.domSize e.b.ctx < r)).or (bad 3 fun r => e.s.lost.contains r)

/-- The requests of an instruction, one for each target rank; `n` is 0 where only the target's checks are
wanted. -/
def Env.farReqs (e : Env) (kind : FarKind) (ordered : Bool) (n : Nat) (val : Nat → BitVec 128) (ps : List Piece) : List (Nat × FarReq) :=
  (nub (ps.map fun p => farRank p.va)).map fun r =>
    (r, { id := 0, rank := e.s.rankOf e.b.ctx, ctx := e.b.ctx, kind := kind, ordered := ordered, det := e.s.detBlock e.b,
          accs := (ps.filter fun p => farRank p.va == r).map fun p =>
            { lane := p.lane, addr := BitVec.ofNat 64 p.va, size := n, val := val p.lane },
          sblk := e.b.index, depth := e.b.depth, key := e.b.bid, srank := e.s.replicaRank e.b })

/-- Requests numbered from a start. -/
def numberReqs (n : Nat) : List (Nat × FarReq) → List (Nat × FarReq)
  | [] => []
  | (r, q) :: rest => (r, { q with id := n }) :: numberReqs (n + 1) rest

/-- The requests go out, and their answers are awaited for a fragment; `ext` says that the instruction names an extended
register. -/
def sendFar (s : State) (f : FragRef) (ext : Bool) (reqs : List (Nat × FarReq)) : State :=
  let qs := numberReqs s.nextId reqs
  { s with
    nextId := s.nextId + qs.length
    awaits := s.awaits ++ qs.map fun q => { id := q.2.id, f := f, rank := some q.1, since := s.gtime, req := some q.2, got := none, ev := none, ext := ext }
    spurOut := s.spurOut ++ qs.map fun q => .request q.1 q.2 }

/-- What an instruction of far memory is: its data, its order, and what it does once answered. -/
structure FarForm where
  kind : FarKind
  acq  : Bool
  rel  : Bool
  size : Nat
  ext  : Bool

/-- R252, R380: an answered access commits. -/
def farCommit (e : Env) (fl : FlagSel) (m : FarForm) (sc : Scope) (ws : List RegWrite) : Out :=
  let s1 := e.s.regWrites e.b.bid e.g.gid ws
  .next (launchOp (if m.acq then acquireAt s1 e.b.mill sc else s1) (e.op fl []))

/-- R131, R313: what holds an access of far memory back before it is sent. -/
def Env.farHold (e : Env) (m : FarForm) : Bool :=
  e.f.reply.isNone && ((m.rel && !e.quiet) || (m.kind != .load && e.stageWait))

/-- The access issues: its checks on this device, then its requests, or its staging. -/
def farIssue (e : Env) (fl : FlagSel) (m : FarForm) (sc : Scope) (act : LaneMask) (val : Nat → BitVec 128) (ps : List Piece)
    (late : Option Raised) : Out :=
  let f : Form := { use := if m.kind = .load then .far else .farWrite, touch := .read, ordered := false, priv := false, staged := true }
  match e.placeAll f ps with
  | .error ev => .next (raise e.s ev)
  | .ok _ =>
    match e.routeCheck ps with
    | some ev => .next (raise e.s ev)
    | none =>
      let ordered := m.acq || m.rel
      let ready := fun (s0 : State) => fillAll (if m.rel then releaseAt s0 e.b.mill sc else s0) e.b.mill e.b.ctx (ps.map (·.va))
      let seen := e.filtGate (m.kind != .load) (farTouches (ps.map fun p => (p.lane, p.va, p.n)))
      let send := fun (n : Nat) (s1 : State) =>
        (.next (sendFar (blockOn s1 (.awaiting s1.nextId)) e.i.f m.ext (e.farReqs m.kind ordered n val ps)) : Out)
      match late with
      | some ev => if m.kind != .load && e.nonHead then .next (raise e.s ev) else send 0 (ready e.s)
      | none => seen.andThen e fun s0 =>
        if m.kind != .load && e.nonHead then
          e.stageOp (ready s0) (some fl) act (m.size * popCount act) (.far (e.farReqs m.kind ordered m.size val ps))
        else send m.size (ready s0)

/-- An overlay over far memory, by window address, with what a staged request writes. -/
def ovFar (base : Nat → Byte) (ov : List (Nat × Byte)) (q : FarReq) : List (Nat × Byte) :=
  match q.kind with
  | .load => ov
  | .store => q.accs.foldl (fun m a => bytesAt a.addr.toNat a.size a.val.toNat ++ m) ov
  | .red op => (nub (q.accs.map fun a => a.addr.toNat)).foldl (fun m x =>
      let mine := q.accs.filter fun a => a.addr.toNat == x
      let w := if (mine.map (·.size)).headD 4 == 8 then AtomWidth.b64 else AtomWidth.b32
      ovAtomic base m x op w (mine.map fun a => (a.val.setWidth 64, 0))) ov

/-- R313: an answered load under the block's own staged writes to far memory; a byte that a reduction reads
and the load does not is an open value (log entry 17). -/
def farOwn (e : Env) (size : Nat) (ps : List Piece) (vals : List (BitVec 128)) : List (BitVec 128) :=
  let got := (List.zip ps vals).flatMap fun (p : Piece × BitVec 128) => bytesAt p.1.va size p.2.toNat
  let base := ovByte (fun a => (Config.openValue ((e.s.nextId + 1) * 2 ^ 56 + a)).setWidth 8) got
  let ov := e.b.staged.foldl (fun m o => match o.body with | .far qs => qs.foldl (fun m q => ovFar base m q.2) m | _ => m) []
  (List.zip ps vals).map fun (p : Piece × BitVec 128) => BitVec.ofNat 128 (leNat ((List.zip (span p.1.va size) (leBytes size p.2.toNat)).map fun y =>
    ovByte (fun _ => y.2) ov y.1))

/-- The skeleton of `LDF`, `STF` and `REDF`: issue, then the answer. -/
def farExec (g : Guard) (fl : FlagSel) (m : FarForm) (sc : Scope) (uses dst : List RegUse) (uni : Option Reg) (a : Reg) (off : BitVec 12)
    (val : Env → Nat → BitVec 128) (got : Env → LaneMask → List (BitVec 128) → List RegWrite) (s : State) : Out :=
  memExec g fl uses [] dst uni (fun e => e.farHold m) (fun e act =>
    let ps := e.globalPieces a off m.size act
    let late := alignCheck m.size ps
    match e.f.reply with
    | some (.far (.ok vals)) => (match late with | some ev => .next (raise s ev) | none => farCommit e fl m sc (got e act (farOwn e m.size ps vals)))
    | some (.far (.fail c k lanes)) =>
      let low := ps.find? fun p => hasLane lanes p.lane
      .next (raise s (mkEv c k 2 lanes (match low with | some p => p.va | none => 0)))
    | _ => farIssue e fl m sc act (val e) ps late) s

/-- The registers an answered load writes. -/
def farLoad (t : DType) (d : Reg) (act : LaneMask) (vals : List (BitVec 128)) : List RegWrite :=
  (List.zip (lanesOf act) vals).flatMap fun (p : Nat × BitVec 128) => loadWrites p.1 d t (leBytes (dtBytes t) p.2.toNat)

/-- `LDF` (R287). -/
def execLdf (g : Guard) (fl : FlagSel) (acq : Bool) (t : DType) (sc : Scope) (d a : Reg) (off : BitVec 12) (s : State) : Out :=
  farExec g fl { kind := .load, acq := acq, rel := false, size := dtBytes t, ext := extUses [(2, a, 2), (1, d, dtRegs t)] } sc [(2, a, 2)] [(1, d, dtRegs t)] (some d) a off
    (fun _ _ => 0) (fun _ act vals => farLoad t d act vals) s

/-- `STF` (R287). -/
def execStf (g : Guard) (fl : FlagSel) (rel : Bool) (t : DType) (sc : Scope) (a : Reg) (off : BitVec 12) (b : Reg) (s : State) : Out :=
  farExec g fl { kind := .store, acq := false, rel := rel, size := dtBytes t, ext := extUses [(2, a, 2), (3, b, dtRegs t)] } sc
    [(2, a, 2), (3, b, dtRegs t)] [] none a off
    (fun e l => BitVec.ofNat 128 (e.storeValue t (storeSrc (.reg b)) l)) (fun _ _ _ => []) s

/-- `REDF` (R288). -/
def execRedf (g : Guard) (fl : FlagSel) (op : AtomOp) (w : AtomWidth) (o : Sys2Proof.Order) (sc : Scope) (a b : Reg) (s : State) : Out :=
  farExec g fl { kind := .red op, acq := Order.acquires o, rel := Order.releases o, size := atomBytes w, ext := extUses (atomUses true op w a b b) } sc
    (atomUses true op w a b b) [] none a 0
    (fun e l => (e.atomVals w b b l).1.setWidth 128) (fun _ _ _ => []) s

/-! ### At the target (R287, R288, R300, R380) -/

/-- How a far access uses the target page. -/
def farUse : FarKind → Use
  | .load => .mxload
  | .store => .mxstore
  | .red _ => .atomic

/-- R380: the target's checks of one lane's access. -/
def farTarget (s : State) (r : FarReq) (a : FarAcc) : Except (Nat × Nat) Nat :=
  match walk s r.ctx (a.addr.toNat % 2 ^ 50) with
  | .error e => .error e
  | .ok x =>
    if leafWindow x.leaf then .error (0x21, 7)
    else match protectCode s (farUse r.kind) r.ordered r.det x with
      | some k => .error (0x21, k)
      | none =>
        match (if inHost x.pa then s.hostFails else none), (if r.kind = .store then none else wordCode s x.pa a.size) with
        | some k, _ => .error (0x28, k)
        | none, some k => .error (0x60, k)
        | none, none => .ok x.pa

/-- The first failing cause of a list of failures, its code and its lanes (R335). -/
def firstFail (xs : List (LaneMask × Nat × Nat)) : Option FarReply :=
  ([0x20, 0x21, 0x27, 0x28, 0x60].findSome? fun c => match xs.filter fun x => x.2.1 == c with
    | [] => none
    | ys =>
      let lanes := ys.foldl (fun m y => m ||| y.1) 0
      let low := ys.find? fun y => hasLane y.1 (lowLane lanes)
      some (.fail c (match low with | some y => y.2.2 | none => 0) lanes))

/-- Each byte once, with its last value. -/
def lastBytes : List (Nat × Byte) → List (Nat × Byte)
  | [] => []
  | x :: xs => if xs.any (·.1 == x.1) then lastBytes xs else x :: lastBytes xs

/-- The bytes a far store or reduction writes, lanes in order (R127, R257). -/
def farBytes (s : State) (r : FarReq) (as : List (FarAcc × Nat)) : List (Nat × Byte) :=
  match r.kind with
  | .load => []
  | .store => lastBytes (as.flatMap fun p => bytesAt p.2 p.1.size p.1.val.toNat)
  | .red op =>
    (nub (as.map (·.2))).flatMap fun pa =>
      let mine := as.filter fun p => p.2 == pa
      let n := (mine.map (·.1.size)).headD 4
      let w := if n == 8 then AtomWidth.b64 else AtomWidth.b32
      bytesAt pa n (atomServe op w (BitVec.ofNat 64 (s.rdNat pa n)) (mine.map fun p => (p.1.val.setWidth 64, 0))).2.toNat

/-- R309: the host's copies of the lines of some addresses recalled. -/
def recallAll (s : State) (as : List Nat) : State := (nub (as.map lineOf)).foldl bringBack s

/-- R285: the storer of a far write. -/
def farStorer (s : State) (r : FarReq) : Storer :=
  match s.awaits.find? (·.id == r.id), s.block? r.key with
  | some w, some b => if r.rank == s.rankOf r.ctx then s.storerOf b w.f.gid else .remote r.rank r.key r.sblk r.depth r.srank
  | _, _ => .remote r.rank r.key r.sblk r.depth r.srank

/-- R300: the mill of the block that has sent a request to its own rank. -/
def ownMill (s : State) (r : FarReq) : Option Nat := if r.rank == s.rankOf r.ctx then (s.block? r.key).map (·.mill) else none

/-- R119, R128, R135: a request of this device to itself keeps the edges of an engine operation with the issuing mill: it
reads what is dirty in that mill's L1, and its writes leave no older copy there. -/
def farOwnServe (s : State) (r : FarReq) (mill : Nat) (as : List (FarAcc × Nat)) : FarReply × State :=
  match r.kind with
  | .load =>
    (.ok (as.map fun (p : FarAcc × Nat) => BitVec.ofNat 128 (leNat ((span p.2 p.1.size).map (byteAt s mill 2)))),
      as.foldl (fun acc p => fillCaches acc mill .device 2 none r.ctx (span p.2 p.1.size)) s)
  | k =>
    let s1 := recallAll (as.foldl (fun acc p => flushSectors acc mill (lineOf p.2) [sectorOf p.2]) s) (as.map (·.2))
    let bytes := farBytes s1 r as
    let s2 := (byLine bytes).foldl (fun acc p =>
      let t := writePast acc mill r.ctx (farStorer s r) p.1 p.2
      if k = .store then t else dropRdc t p.1) s1
    (.ok (as.map fun _ => 0), s2)

/-- R380: the target checks a request and performs it: the answer, and the state. -/
def farServe (s : State) (r : FarReq) : FarReply × State :=
  let rs := r.accs.map fun a => (a, farTarget s r a)
  let bad := rs.filterMap fun (p : FarAcc × Except (Nat × Nat) Nat) =>
    match p.2 with | .error e => some (maskOf [p.1.lane], e.1, e.2) | .ok _ => none
  match firstFail bad with
  | some f => (f, s)
  | none =>
    let as := rs.filterMap fun (p : FarAcc × Except (Nat × Nat) Nat) => match p.2 with | .ok pa => some (p.1, pa) | .error _ => none
    match ownMill s r with
    | some m => farOwnServe s r m as
    | none =>
      let vals := as.map fun (p : FarAcc × Nat) => if r.kind = .load then BitVec.ofNat 128 (s.rdNat p.2 p.1.size) else 0
      (.ok vals, if r.kind = .load then s else let t := recallAll s (as.map (·.2)); homeWrite t (some r.ctx) (farStorer s r) (farBytes t r as))

/-- R380: this device does not share the context with the remote member. -/
def unshared (s : State) (r : FarReq) : Bool := !(s.ctx r.ctx).present || decide (s.domSize r.ctx < r.rank)

/-- R345, R380: the endpoint freezes, with a record in context 0's ring. -/
def freezeEndpoint (s : State) (r : FarReq) : State :=
  let s1 := { s with endpoints := s.endpoints ++ [(r.ctx, r.rank)] }
  emitRecord s1 { Rec.bare 0 4 1 0x27 s.gtime with code := 2 } (.endpoint r.ctx r.rank)

/-- The answer to a request, with the state after it. -/
def farReceive (s : State) (r : FarReq) : FarReply × State :=
  let refused := FarReply.fail 0x27 2 (maskOf (r.accs.map (·.lane)))
  if s.endpoints.contains (r.ctx, r.rank) then (refused, s)
  else if unshared s r then (refused, freezeEndpoint s r)
  else farServe s r

/-- R300: a request of this device's own rank stands among the messages it has sent. -/
def ownRequest (s : State) (r : FarReq) : Bool := (s.ctx r.ctx).present && r.rank == s.rankOf r.ctx

/-- `FAR_REQUEST_RECEIVE` (R98, R287, R288, R299, R380). -/
def execFarRequestReceive (r : FarReq) (s : State) : Out :=
  if ownRequest s r && !s.spurOut.contains (.request r.rank r) then .fault .notEnabled
  else
    let x := farReceive s r
    let out := if ownRequest s r then x.2.spurOut.erase (.request r.rank r) else x.2.spurOut
    .next { x.2 with spurOut := out ++ [.answer r.rank r.id x.1] }

/-! ### The answer (R380, R381) -/

/-- R340: a fragment's access fails while its group drains for a trap: the group freezes for that fault instead. -/
def drainFault (s : State) (f : FragRef) (ev : Raised) : State :=
  match s.frag? f with
  | none => s
  | some (b, _, x) =>
    stopGroup (s.onFrag f fun x => { x with st := .running, reply := none }) f.bid f.gid
      { fid := f.fid, pc := x.pc, next := x.after, word := wordOf s b x, ev := ev, time := s.gtime, cycle := s.cycle }

/-- A fragment goes on with an answer; one that brings an event raises it at once where its group drains. -/
def answerFrag (s : State) (f : FragRef) (r : Reply) (ev : Option Raised) : State :=
  let s1 := { s with awaits := s.awaits.filter fun a => a.f != f }
  let draining := match s.group? f.bid f.gid with | some (_, g) => g.stop.isSome | none => false
  match draining, ev with
  | true, some x => drainFault s1 f x
  | _, _ => s1.onFrag f fun x => { x with st := .running, reply := some r, age := s.cycle }

/-- The answers of every target of an instruction, joined. -/
def joinAnswers (as : List Await) : FarReply :=
  let bad := as.filterMap fun a => match a.got with | some (.fail c k l) => some (l, c, k) | _ => none
  match firstFail bad with
  | some f => f
  | none =>
    let all := as.flatMap fun a => match a.req, a.got with
      | some q, some (.ok vals) => List.zip (q.accs.map (·.lane)) vals
      | _, _ => []
    .ok ((List.range 64).filterMap fun l => (all.find? fun (p : Nat × BitVec 128) => p.1 == l).map (·.2))

/-- The event that a failing answer brings (R380). -/
def replyEvent (as : List Await) : FarReply → Option Raised
  | .ok _ => none
  | .fail c k lanes =>
    let low := (as.flatMap fun a => match a.req with | some q => q.accs | none => []).find? fun x => hasLane lanes x.lane
    some (mkEv c k 2 lanes (match low with | some x => x.addr.toNat | none => 0))

/-- A far access has its answer; the instruction goes on once every target has answered. -/
def farGot (s : State) (a : Await) (r : FarReply) : State :=
  let s1 := { s with awaits := updIf (·.id == a.id) (fun x => { x with got := some r }) s.awaits }
  let mine := s1.awaits.filter fun x => x.f == a.f && x.req.isSome
  if a.f.fid == releaseFid || mine.any (·.got.isNone) then s1 else answerFrag s1 a.f (.far (joinAnswers mine)) (replyEvent mine (joinAnswers mine))

/-- A far access that still waits. -/
def farWaiting (s : State) (id : Nat) : Option (Await × FarReq) :=
  match s.awaits.find? (·.id == id) with
  | none => none
  | some a => match a.req, a.got with | some q, none => some (a, q) | _, _ => none

/-- R380: an answer a target can give to a request. -/
def answerFits (q : FarReq) : FarReply → Bool
  | .ok vals => vals.length == q.accs.length
  | .fail c _ lanes => [0x20, 0x21, 0x27, 0x28, 0x60].contains c && lanes != 0 && lanes &&& ~~~maskOf (q.accs.map (·.lane)) == 0

/-- `FAR_ANSWER` (R380): from another member, or from this device itself (R300). -/
def execFarAnswer (id : Nat) (r : FarReply) (s : State) : Out :=
  match farWaiting s id with
  | none => .fault .notEnabled
  | some (a, q) =>
    if !answerFits q r then .fault .notEnabled
    else if a.rank == some q.rank then
      if s.spurOut.contains (.answer q.rank id r) then
        .next (farGot { s with spurOut := s.spurOut.erase (.answer q.rank id r) } a r)
      else .fault .notEnabled
    else .next (farGot s a r)

/-- 1 ms of domain time has passed (R380, R381). -/
def overdue (s : State) (since : W64) : Bool := decide (since.toNat + 1000000 ≤ s.gtime.toNat)

/-- `FAR_ACCESS_TIMEOUT` (R380). A request of this device to itself that it has not performed is withdrawn; one that it
has performed is answered. -/
def execFarAccessTimeout (id : Nat) (s : State) : Out :=
  match farWaiting s id with
  | none => .fault .notEnabled
  | some (a, q) =>
    let own := a.rank == some q.rank
    if !overdue s a.since || (own && !s.spurOut.contains (.request q.rank q)) then .fault .notEnabled
    else
      let s1 := if own then { s with spurOut := s.spurOut.erase (.request q.rank q) } else s
      .next (farGot s1 a (.fail 0x27 1 (maskOf (q.accs.map (·.lane)))))

/-- The access that a host answer ends: a leat's, or a fragment's. -/
def hostGot (s : State) (a : Await) (r : Option HostReply) : State :=
  let s1 := { s with awaits := s.awaits.filter (·.id != a.id) }
  if a.f.fid < 8 then
    match r with
    | some .ok => answerFrag s a.f (.host .ok) none
    | some .error => answerFrag s a.f (.host .error) a.ev
    | none => answerFrag s a.f .timeout (a.ev.map fun x => { x with code := 1 })
  else match s.block? a.f.bid with
    | none => s1
    | some b =>
      match s.leat? b.mill (a.f.fid - 8) with
      | none => s1
      | some l => leatAnswer s1 b l r

/-- A host access that waits. -/
def hostWaiting (s : State) (id : Nat) : Option Await := s.awaits.find? fun a => a.id == id && a.rank.isNone

/-- `HOST_ANSWER` (R381). -/
def execHostAnswer (id : Nat) (r : HostReply) (s : State) : Out :=
  match hostWaiting s id with
  | none => .fault .notEnabled
  | some a => .next (hostGot s a (some r))

/-- `HOST_ACCESS_TIMEOUT` (R381). -/
def execHostAccessTimeout (id : Nat) (s : State) : Out :=
  match hostWaiting s id with
  | none => .fault .notEnabled
  | some a => if overdue s a.since then .next (hostGot s a none) else .fault .notEnabled

end Sys2Proof.Machine
end

