-- ==== Sys2Proof/Machine/Coll.lean ====
section
/-! DEFINITION. Collectives: `COLL` and the collective engine (R171, R289, R290, R327, R366, R389); and the loss
of a route (R299). -/

namespace Sys2Proof.Machine

/-! ### The descriptor (R289) -/

/-- The fields of a collective's descriptor. -/
structure CollDesc where
  src   : Nat
  dst   : Nat
  type  : Nat
  op    : Nat
  root  : Nat
  count : Nat
  tag   : W32
  deriving DecidableEq, Repr

/-- The descriptor of eight words. -/
def collDesc (ws : List Nat) : CollDesc :=
  let w := fun i => ws.getD i 0
  { src := w 0 + fld (w 1) 0 24 * 2 ^ 32
    dst := w 2 + fld (w 3) 0 24 * 2 ^ 32
    type := fld (w 1) 28 4
    op := fld (w 1) 24 4
    root := fld (w 3) 24 6
    count := w 4
    tag := BitVec.ofNat 32 (w 5) }

/-- Bytes of an element type: binary32, binary16, BF16, 32-bit and 64-bit integers. -/
def elemBytes (type : Nat) : Nat := match type with | 1 => 2 | 2 => 2 | 4 => 8 | _ => 4

/-- R350, R366: the lowest word of a descriptor that holds a reserved value, among `n` replicas. -/
def collBad (n : Nat) (ws : List Nat) : Option Nat :=
  let d := collDesc ws
  let w := fun i => ws.getD i 0
  if 4 < d.type || 3 < d.op then some 1
  else if fld (w 3) 30 2 != 0 || n ≤ d.root then some 3
  else if d.count == 0 || (d.op == 2 && d.count % n != 0) then some 4
  else if w 6 != 0 then some 6
  else if w 7 != 0 then some 7
  else none

/-- The elements a destination takes, among `n` replicas (R290). -/
def CollDesc.dstCount (d : CollDesc) (n : Nat) : Nat :=
  match d.op with | 1 => n * d.count | 2 => d.count / n | _ => d.count

/-! ### Issue -/

/-- The first address of a stretch whose page the engine may not reach, with its cause and code. -/
def engineCheck (e : Env) (u : Use) (va n : Nat) : Option BindErr :=
  (pagesOf va n).findSome? fun p =>
    match reach e.s e.b.mill e.b.ctx u false (e.s.detBlock e.b) p with
    | .error k => some (k.1, k.2, p)
    | .ok _ => none

/-- R334, R366: the checks of a collective's descriptor and addresses. -/
def Env.collCheck (e : Env) (ws : List Nat) : Option Raised :=
  let d := collDesc ws
  let n := e.s.replicas e.b
  let b := elemBytes d.type
  match collBad n ws with
  | some w => some (e.wev 0x02 4 2 w)
  | none =>
    match (engineCheck e .mxload d.src (b * d.count)).or (engineCheck e .mxstore d.dst (b * d.dstCount n)) with
    | some (c, k, a) => some (mkEv c k 2 e.whole a)
    | none =>
      if d.src % b != 0 then some (mkEv 0x22 0 2 e.whole d.src)
      else if d.dst % b != 0 then some (mkEv 0x22 0 2 e.whole d.dst) else none

/-- What the engine touches on checked pages in a stretch. -/
def engineTouches (s : State) (b : Block) (mill lane : Nat) (u : Use) (va n : Nat) : List SectorTouch :=
  (pagesOf va n).flatMap fun p =>
    match reach s mill b.ctx u false (s.detBlock b) p with
    | .error _ => []
    | .ok x =>
      if !leafChecked x.leaf then []
      else
        let len := min (va + n) ((p / 65536 + 1) * 65536) - p
        (List.range ((x.pa + len - 1) / 16 - x.pa / 16 + 1)).map fun i =>
          let a := max x.pa ((x.pa / 16 + i) * 16)
          { lane := lane, va := p + (a - x.pa), pa := a }

/-- The collective of an accepted descriptor. -/
def newColl (e : Env) (d : CollDesc) (oid : Nat) : Coll where
  lid := match e.b.launch with | some l => l | none => e.b.bid
  tag := d.tag
  op := d.op
  type := d.type
  count := d.count
  root := d.root
  src := BitVec.ofNat 64 d.src
  dst := BitVec.ofNat 64 d.dst
  mill := e.b.mill
  bid := e.b.bid
  gid := e.g.gid
  fid := e.f.fid
  opId := oid
  exchanged := false
  done := false
  fail := none

/-- R135, R327: the source's bytes that are dirty in the issuing mill's L1 go home as the `COLL` issues, since the engine
reads no L1. -/
def forkSource (s : State) (b : Block) (c : Coll) : State :=
  match devMap s b.ctx false c.src.toNat (elemBytes c.type * c.count) with
  | .error _ => s
  | .ok pas => (nub (pas.map lineOf)).foldl (fun acc ln => match l1Find acc c.mill ln with | some x => writeBack acc x | none => acc) s

/-- The header a contribution shows the other replicas (R389). -/
def collHead (rank : Nat) (c : Coll) : CollHead := { rank := rank, op := c.op, type := c.type, count := c.count }

/-- `COLL` (R289). -/
def execColl (g : Guard) (fl : FlagSel) (n : Nat) (s : State) : Out :=
  onIss s fun e =>
    let act := e.active g
    if e.flagFull fl || e.acqPending then stall s
    else match e.guardErr g with
      | some ev => .next (raise s ev)
      | none =>
        if act == 0 then .next (launchOp s (e.op fl []))
        else match e.wholeCheck [(2, .s n, 8)] [] with
          | some ev => .next (raise s ev)
          | none =>
            let ws := descWords e.g n
            match e.collCheck ws with
            | some ev => .next (raise s ev)
            | none =>
              if s.colls.any (·.tag == (collDesc ws).tag) then stall s
              else
                let c := newColl e (collDesc ws) s.nextId
                let s0 := forkSource s e.b c
                let s1 := { s0 with colls := s0.colls ++ [c], spurOut := s0.spurOut ++ [.coll c.lid c.tag (collHead (s.replicaRank e.b) c)] }
                .next (launchOp s1 { e.op fl [] with fin := .coll c.tag })

/-! ### The engine (R290, R389) -/

/-- A collective in flight. -/
def State.coll? (s : State) (lid : Nat) (tag : W32) : Option Coll := s.colls.find? fun c => c.lid == lid && c.tag == tag

/-- A group can stop for a fault: it neither stops for one already, nor is frozen, nor runs a handler. That a
`COLL` which fails in a handler run of its group keeps its fault until the run is over, R340 leaves open (log entry 65). -/
def faultOpen (g : Group) : Bool :=
  g.frozen.isNone && g.handler.isNone && (match g.stop with | none => true | some x => classOf x.ev.cause == 0)

/-- R351: the lanes of a record of a `COLL`, which acts once. -/
def collLanes (s : State) (c : Coll) : LaneMask :=
  match s.frag? { bid := c.bid, gid := c.gid, fid := c.fid } with
  | some (_, _, f) => if f.exm != 0 then f.exm else f.held
  | none => 0

/-- R389: a `COLL` takes a fault after it has issued: its count is taken off its flag, the collective is dropped,
and its group stops. -/
def collStop (s : State) (c : Coll) (o : LongOp) (cause code detail addr : Nat) : State :=
  let s1 := uncountOp { s with colls := s.colls.filter (·.opId != c.opId), ops := s.ops.filter (·.id != o.id) } o
  stopGroup s1 c.bid c.gid { fid := c.fid, pc := o.pc, next := o.pc + 8, word := o.word, ev := mkEv cause code 2 (collLanes s c) addr detail, time := s.gtime, cycle := s.cycle }

/-- R389: a `COLL` fails: its group stops for it now, or once it can. -/
def collFault (s : State) (c : Coll) (cause code detail addr : Nat) : State :=
  match s.op? c.opId, s.group? c.bid c.gid with
  | some o, some (_, g) =>
    if faultOpen g then collStop s c o cause code detail addr
    else { s with colls := updIf (·.opId == c.opId) (fun x => { x with fail := some (x.fail.getD (cause, code, detail, addr)) }) s.colls }
  | _, _ => { s with colls := s.colls.filter (·.opId != c.opId) }

/-- R389: a failed `COLL` whose group can stop now. -/
def collRetry (s : State) (c : Coll) (x : Nat × Nat × Nat × Nat) : Out :=
  match s.group? c.bid c.gid with
  | some (_, g) => if faultOpen g then .next (collFault s c x.1 x.2.1 x.2.2.1 x.2.2.2) else .fault .notEnabled
  | none => .fault .notEnabled

/-- R389: the lowest rank whose fields differ from rank 0's, and the field. -/
def headsDiffer (hs : List CollHead) : Option (Nat × Nat) :=
  match hs.find? (·.rank == 0) with
  | none => none
  | some z =>
    (List.range 64).findSome? fun r => match hs.find? (·.rank == r) with
      | none => none
      | some h => if h.op != z.op then some (r, 0) else if h.type != z.type then some (r, 1) else if h.count != z.count then some (r, 2) else none

/-- The launch of a collective has these other replicas, each with one contribution. -/
def headsFit (n own : Nat) (hs : List CollHead) : Bool :=
  hs.map (·.rank) == (List.range n).filter (· != own)

/-- R327, R400: this replica's own source, read at its homes. Whether writes that the block has staged count
too, R313 and R327 leave open: they do not (log entry 17). -/
def ownSource (s : State) (b : Block) (c : Coll) : Except BindErr (List Nat) :=
  let e := elemBytes c.type
  match devMapGet s b.ctx c.src.toNat (e * c.count) with
  | .error err => .error err
  | .ok pas => .ok ((List.range c.count).map fun i => leNat (((pas.drop (e * i)).take e).map s.rd))

/-- What a collective's engine touches on checked pages: its source, or its destination of `n` elements. -/
def collTouches (s : State) (b : Block) (c : Coll) (write : Bool) (n : Nat) : List SectorTouch :=
  let e := elemBytes c.type
  if write then engineTouches s b c.mill (lowLane (collLanes s c)) .mxstore c.dst.toNat (n * e)
  else engineTouches s b c.mill (lowLane (collLanes s c)) .mxload c.src.toNat (c.count * e)

/-- R134, R139, R374: the engine's accesses are checked as it makes them, under the block's identity; an earlier checked access
to a line of theirs, or a conflict that the `COLL` has met, comes first. -/
def collWaits (s : State) (b : Block) (c : Coll) : Bool :=
  ((s.op? c.opId).any fun o => o.fail.isSome) || linesOwed s (collTouches s b c false 0) ||
    linesOwed s (collTouches s b c true ((CollDesc.mk 0 0 c.type c.op c.root c.count c.tag).dstCount (s.replicas b)))

/-- R374: the stamps of the source; a conflict is kept for the group. -/
def collRead (s : State) (b : Block) (c : Coll) (k : State → Out) : Out :=
  match stampAll s b.ident .read (collTouches s b c false 0) with
  | .error ev => .next (failOp s c.opId { ev with lanes := collLanes s c })
  | .ok s1 => k s1

/-- `COLLECTIVE_EXCHANGE` (R389): the other replicas' contributions in ascending rank. -/
def execCollectiveExchange (lid : Nat) (tag : W32) (heads : List CollHead) (s : State) : Out :=
  match s.coll? lid tag with
  | none => .fault .notEnabled
  | some c =>
    match s.block? c.bid with
    | none => .fault .notEnabled
    | some b =>
      let own := s.replicaRank b
      match c.fail with
      | some x => collRetry s c x
      | none =>
      if c.exchanged || !headsFit (s.replicas b) own heads || collWaits s b c then .fault .notEnabled
      else match headsDiffer (collHead own c :: heads) with
        | some (r, k) => .next (collFault s c 0x44 k r 0)
        | none =>
          match ownSource s b c with
          | .error (x, k, a) => .next (collFault s c x k 0 a)
          | .ok vals => collRead s b c fun s1 =>
            .next { s1 with
              colls := updIf (·.opId == c.opId) (fun x => { x with exchanged := true }) s1.colls
              spurOut := if heads.isEmpty then s1.spurOut else s1.spurOut ++ [.data lid tag (vals.map (BitVec.ofNat 64))] }

/-- R171, R290: the sum of one element over the ranks, in ascending order. -/
def collSum (type : Nat) (xs : List Nat) : Nat :=
  match type with
  | 0 => (xs.drop 1).foldl (fun a x => f32.add .rn 0 a x) (xs.headD 0)
  | 1 | 2 =>
    let h : CTy := if type == 1 then .f16 else .bf16
    let wide := convert .f32 h .rn 0
    convert h .f32 .rn 0 ((xs.drop 1).foldl (fun a x => f32.add .rn 0 a (wide x)) (wide (xs.headD 0)))
  | _ => xs.foldl (· + ·) 0 % 2 ^ (8 * elemBytes type)

/-- R290: the destination's elements on the replica of rank `k`, from every rank's source. -/
def collResult (c : Coll) (k : Nat) (src : List (List Nat)) : List Nat :=
  let col := fun i => src.map fun x => x.getD i 0
  match c.op with
  | 0 => (List.range c.count).map fun i => collSum c.type (col i)
  | 1 => src.flatten
  | 2 => let m := c.count / src.length; (List.range m).map fun i => collSum c.type (col (k * m + i))
  | _ => src.getD c.root []

/-- R327: sectors dropped from a die's RDC. -/
def dropRdcSectors (s : State) (die : Nat) (secs : List Nat) : State :=
  { s with rdc := (s.rdc.map fun x => if x.die == die then
      { x with cells := x.cells.filter fun c => !secs.contains (sectorOf (64 * x.line + c.1)) } else x).filter fun x => !x.cells.isEmpty }

/-- R327: the destination's bytes written at their homes; their sectors leave the issuing mill's L1, written back first,
and the issuing die's RDC. -/
def collWrite (s : State) (b : Block) (mill gid : Nat) (bytes : List (Nat × Byte)) : State :=
  let secs := nub (bytes.map fun p => sectorOf p.1)
  let s1 := (nub (bytes.map fun p => lineOf p.1)).foldl (fun acc ln => flushSectors acc mill ln secs) s
  dropRdcSectors (homeWrite s1 (some b.ctx) (s.storerOf b gid) bytes) (dieOf mill) secs

/-- The physical addresses of a destination, or the cause, code and address that fail. -/
def collPlace (s : State) (b : Block) (c : Coll) (n : Nat) : Except BindErr (List Nat) :=
  devMap s b.ctx true c.dst.toNat (n * elemBytes c.type)

/-- R290: the engine writes the destination from every rank's source. -/
def collComplete (s : State) (b : Block) (c : Coll) (src : List (List Nat)) : State :=
  let e := elemBytes c.type
  let dst := collResult c (s.replicaRank b) src
  match collPlace s b c dst.length with
  | .error (x, k, a) => collFault s c x k 0 a
  | .ok pas =>
    match stampAll s b.ident .write (collTouches s b c true dst.length) with
    | .error ev => failOp s c.opId { ev with lanes := collLanes s c }
    | .ok s0 =>
    let bytes := List.zip pas (dst.flatMap fun x => leBytes e x)
    let s1 := collWrite s0 b c.mill c.gid bytes
    { s1 with colls := updIf (·.opId == c.opId) (fun x => { x with done := true }) s1.colls }

/-- The sources of every rank in order: the other ranks' around this one's. -/
def allSources (own : List Nat) (k : Nat) (others : List (List Nat)) : List (List Nat) := others.take k ++ [own] ++ others.drop k

/-- `COLLECTIVE_COMPLETE` (R290): the other ranks' sources in ascending rank. -/
def execCollectiveComplete (lid : Nat) (tag : W32) (vals : List (List W64)) (s : State) : Out :=
  match s.coll? lid tag with
  | none => .fault .notEnabled
  | some c =>
    match s.block? c.bid with
    | none => .fault .notEnabled
    | some b =>
      match c.fail with
      | some x => collRetry s c x
      | none =>
      if !c.exchanged || c.done || collWaits s b c || vals.length + 1 != s.replicas b || vals.any (·.length != c.count) then .fault .notEnabled
      else match ownSource s b c with
        | .error (x, k, a) => .next (collFault s c x k 0 a)
        | .ok own =>
          let others := vals.map fun v => v.map fun x => x.toNat % 2 ^ (8 * elemBytes c.type)
          collRead s b c fun s1 => .next (collComplete s1 b c (allSources own (s.replicaRank b) others))

/-! ### Routes (R299, R389) -/

/-- R389: the collectives that wait for a rank take fault 0x27, code 1. -/
def dropRank (s : State) (rank : Nat) : State :=
  (s.colls.filter fun c => !c.done && (match s.block? c.bid with
    | some b => decide (rank < s.replicas b) && rank != s.replicaRank b
    | none => false)).foldl (fun acc c => collFault acc c 0x27 1 0 0) s

/-- `SPUR_ROUTE_CHANGE` (R299, R380, R389). -/
def execSpurRouteChange (rank : Nat) (live : Bool) (s : State) : Out :=
  if 64 ≤ rank || live != s.lost.contains rank then .fault .notEnabled
  else if live then .next { s with lost := s.lost.filter (· != rank) }
  else .next (dropRank { s with lost := s.lost ++ [rank] } rank)

end Sys2Proof.Machine
end

