-- ==== Sys2Proof/Machine/Control.lean ====
section
/-! DEFINITION. Row 0x0: transfers, exit, tokens, yield, sleep, traps, and the three fates of an encoding
that names no instruction (R173, R210 to R220, R296). -/

namespace Sys2Proof.Machine

/-! ### Transfers (R211) -/

/-- The state with the issuing fragment's branch diverged: `t` to `tpc`, `n` to `npc` (R31, R32, R213). -/
def diverge (e : Env) (peel : Bool) (t n : LaneMask) (tpc npc : W64) (s : State) : State :=
  ({ s with cur := none } : State).onGroup e.b.bid e.g.gid fun g =>
    divergeFrag s.cycle g e.f t n tpc npc (lineAddr npc == lineAddr e.i.pc) peel

/-- The guard is always. -/
def guardAlways (x : Guard) : Bool := decide (12 ≤ x.idx)

/-- R211: the lanes of `t` go to a target, the rest of `$exm` to `npc`, which is the instruction itself where it peels
one target off (R213); an empty `$exm` goes as a whole. -/
def transfer (e : Env) (always : Bool) (t : LaneMask) (target npc : W64) (s : State) : State :=
  let n := e.f.exm &&& ~~~t
  if e.f.exm == 0 then (if always then jump s target else retire s)
  else if t == 0 then retire s
  else if n == 0 then jump s target
  else diverge e (npc == e.i.pc) t n target npc s

/-- R177: the target of the displacement form. -/
def dispTarget (pc : W64) (d : BitVec 36) : W64 := pc + (d.signExtend 64) * 8

/-- R352: a PC that names no slot. -/
def slotCheck (target : W64) (lanes : LaneMask) : Option Raised :=
  if noSlot target then some (mkEv 0x02 2 0 lanes) else none

/-- `BRA` (R212). -/
def execBra (g : Guard) (disp : BitVec 36) (s : State) : Out :=
  onIss s fun e =>
    let t := e.active g
    let pc := dispTarget e.i.pc disp
    orRaise s ((e.guardErr g).or (slotCheck pc (e.recLanes t))) (transfer e (guardAlways g) t pc e.i.next s)

/-- The lanes whose targets a `BRX` reads: those of T, or the lowest held lane where `$exm` is empty. -/
def brxLanes (e : Env) (g : Guard) (t : LaneMask) : LaneMask :=
  if e.f.exm == 0 && guardAlways g then maskOf [lowLane e.f.held] else t

/-- R213, R352, R355: the lanes of a `BRX` whose target names no slot. The lowest held lane counts where `$exm` is empty,
which R355 leaves open (log entry 61). -/
def badTargets (e : Env) (a : Reg) (lanes : LaneMask) : LaneMask :=
  maskOf ((lanesOf lanes).filter fun l => noSlot (rget64 e.b e.g l a))

/-- R213: a `BRX` or `RET`. -/
def brxExec (g : Guard) (a : Reg) (s : State) : Out :=
  onIss s fun e =>
    let t := e.active g
    let rd := brxLanes e g t
    let uses : List RegUse := [(2, a, 2)]
    let bad := badTargets e a rd
    match ((heldCheck e.b e.g (e.recLanes t) uses).or (e.guardErr g)).or (e.regErr rd uses) with
    | some ev => .next (raise s ev)
    | none =>
      if bad != 0 then .next (raise s (mkEv 0x02 2 2 bad))
      else
        let target := rget64 e.b e.g (lowLane rd) a
        let x := maskOf ((lanesOf t).filter fun l => rget64 e.b e.g l a == target)
        if x == t then .next (transfer e (guardAlways g) t target e.i.next s)
        else .next (transfer e (guardAlways g) x target e.i.pc s)

/-- `BRX` (R213). -/
def execBrx (g : Guard) (a : Reg) (s : State) : Out := brxExec g a s

/-- `RET` (R213). -/
def execRet (g : Guard) (a : Reg) (s : State) : Out := brxExec g a s

/-- R214: the lanes in which `CALL` writes its link. -/
def callLanes (e : Env) (g : Guard) (t : LaneMask) : LaneMask := if e.f.exm == 0 && guardAlways g then e.f.held else t

/-- `CALL` (R214). -/
def execCall (g : Guard) (d : Reg) (disp : BitVec 36) (s : State) : Out :=
  onIss s fun e =>
    let t := e.active g
    let pc := dispTarget e.i.pc disp
    let check := ((heldCheck e.b e.g (e.recLanes t) (useD true d)).or (e.guardErr g)).or (slotCheck pc (e.recLanes t))
    orRaise s check
      (transfer e (guardAlways g) t pc e.i.next (s.regWrites e.b.bid e.g.gid (put64 d (callLanes e g t) fun _ => e.i.next)))

/-! ### Exit and tokens -/

/-- R215: the lanes exit; the fragment's other lanes go on at the next slot. -/
def exitLanesOf (e : Env) (t : LaneMask) (s : State) : State :=
  let s1 := (retire s).onGroup e.b.bid e.g.gid fun g => exitLanes s.cycle g e.f.fid t
  barrierCheckOf (settleGroup s1 e.b.bid e.g.gid) e.b.bid

/-- R216: lanes of a token exit only when what the fragment has stored is performed. -/
def Env.tokenHeld (e : Env) (t : LaneMask) : Bool := e.g.toks.any fun k => k.part &&& t != 0

/-- `EXIT` (R215, R216). -/
def execExit (g : Guard) (s : State) : Out :=
  onIss s fun e =>
    let t := e.active g
    match e.guardErr g with
    | some ev => .next (raise s ev)
    | none =>
      if t == 0 then .next (retire s)
      else if e.tokenHeld t && !e.quiet then stall s
      else .next (exitLanesOf e t s)

/-- `TOK` (R217, R352). -/
def execTok (disp : BitVec 36) (s : State) : Out :=
  onIss s fun e =>
    let pc := dispTarget e.i.pc disp
    let full := if 16 ≤ e.g.toks.length then some (e.wev 0x02 3 0) else none
    orRaise s ((slotCheck pc e.whole).or full)
      (retire (s.onGroup e.b.bid e.g.gid fun g => openTok g e.f pc))

/-- R218: the fragment's innermost token where this slot is its join point. -/
def Env.joins (e : Env) : Option Tok := (innerTok e.g e.f).filter fun t => t.join == e.i.pc

/-- `JOIN` (R218, R137). -/
def execJoin (s : State) : Out :=
  onIss s fun e =>
    match e.joins with
    | none => .next (retire s)
    | some t =>
      if !e.quiet then stall s
      else
        let s1 := ({ s with cur := none } : State).onGroup e.b.bid e.g.gid fun g => joinAt s.cycle g e.f t e.i.next
        .next (settleGroup s1 e.b.bid e.g.gid)

/-! ### Nothing, yield and sleep -/

/-- `NOP` (R220). -/
def execNop (s : State) : Out := onIss s fun _ => .next (retire s)

/-- A reserved-hint encoding acts as `NOP` (R173). -/
def execReservedHint (_w : W64) (s : State) : Out := onIss s fun _ => .next (retire s)

/-- `YIELD` (R40, R219). -/
def execYield (s : State) : Out :=
  onIss s fun e => .next ((retire s).onFrag e.i.f fun f => { f with age := s.cycle })

/-- The fragment sleeps until a time at its `SLEEP` and then goes on at the next slot (R54). -/
def sleepUntil (wake : W64) (s : State) : State :=
  match s.cur with
  | none => s
  | some i => blockOn s (.sleeping wake i.next)

/-- R219: the wake time of `SLEEP.rel`. -/
def wakeAfter (now : W64) (a : W32) : W64 := if a.toInt ≤ 0 then now else now + a.setWidth 64

/-- `SLEEP.rel` (R219). -/
def execSleepRel (a : Nat) (s : State) : Out :=
  onIss s fun e =>
    orRaise s (e.wholeCheck [(2, .s a, 1)] []) (sleepUntil (wakeAfter s.gtime (uget e.g a)) s)

/-- `SLEEP.abs` (R219). -/
def execSleepAbs (a : Nat) (s : State) : Out :=
  onIss s fun e =>
    orRaise s (e.wholeCheck [(2, .s a, 2)] []) (sleepUntil (pair64 (uget e.g a) (uget e.g (a + 1))) s)

/-- `SLEEP_WAKE` (R54, R219): `$gtime` has reached the wake time of a sleeping fragment. -/
def execSleepWake (r : FragRef) (s : State) : Out :=
  match s.frag? r with
  | none => .fault .notEnabled
  | some (_, g, f) =>
    match f.st with
    | .sleeping wake _ =>
      if decide (wake.toNat ≤ s.gtime.toNat) && g.frozen.isNone then
        .next (s.onFrag r fun f => f.wake s.cycle)
      else .fault .notEnabled
    | _ => .fault .notEnabled

/-! ### Traps, breakpoints and encodings that name nothing -/

/-- `TRAP` (R296): trap 0x03 in the lanes whose guard passes. -/
def execTrap (g : Guard) (code : BitVec 8) (s : State) : Out :=
  onIss s fun e =>
    let t := e.active g
    let ev := if t == 0 then none else some (mkEv 0x03 code.toNat 0 t)
    orRaise s ((e.guardErr g).or ev) (retire s)

/-- R339: debugging is enabled for a context. -/
def debugOn (s : State) (c : Nat) : Bool := bitOf (s.creg c oTRAPH) 1

/-- `BKPT` (R296): breakpoint 0x04 where the driver has enabled debugging. -/
def execBkpt (g : Guard) (s : State) : Out :=
  onIss s fun e =>
    let t := e.active g
    let ev := if t == 0 || !debugOn s e.b.ctx then none else some (mkEv 0x04 0 0 t)
    orRaise s ((e.guardErr g).or ev) (retire s)

/-- The lanes an undecodable slot records: those its guard field names where that is a guard, else the
fragment's (R335, R351). -/
def Env.slotLanes (e : Env) (w : W64) : LaneMask :=
  let f := fieldsOf w
  if guardOk f then e.recLanes (e.active (guardOf f)) else e.whole

/-- The slots the decoder takes: the kernel's, none in a handler run (R341). -/
def slotsOf (b : Block) (g : Group) : Nat := if g.handler.isSome then 0 else b.kernel.maps

/-- R350: the operand field of the record of an undecodable slot. -/
def Env.slotOperand (e : Env) (w : W64) : Nat := reservedOperand (slotsOf e.b e.g) w e.i.lit

/-- A reserved-emulable encoding (R173): trap 0x01. -/
def execReservedEmulable (w : W64) (s : State) : Out :=
  onIss s fun e => .next (raise s (mkEv 0x01 0 (e.slotOperand w) (e.slotLanes w)))

/-- A reserved-invalid encoding (R173, R352): fault 0x02, sub-cause 0. -/
def execReservedInvalid (w : W64) (s : State) : Out :=
  onIss s fun e => .next (raise s (mkEv 0x02 0 (e.slotOperand w) (e.slotLanes w)))

end Sys2Proof.Machine
end

