-- ==== Sys2Proof/Machine/Trans.lean ====
section
/-! DEFINITION. The transcendental instructions, evaluated operation by operation in binary64 as R242
states. -/

namespace Sys2Proof.Machine

/-! ### Coefficients: the real numbers of R242, rounded once to binary64, as sign, significand, exponent -/

/-- ln(2)^k / k! for k = 0 to 10, rounded to binary64 (R242). -/
def expCoef : List (Bool × Nat × Int) :=
  [(false, 1, 0), (false, 6243314768165359, -53), (false, 8655072057804175, -55), (false, 124984141550211, -51)] ++
  [(false, 5544473941134967, -59), (false, 6149018367977265, -62), (false, 5682899659966343, -65), (false, 9003624861053127, -69)] ++
  [(false, 1560209296814601, -70), (false, 1922586089191921, -74), (false, 4264432406742885, -79)]

/-- 2 / ((2k + 1) ln 2) for k = 0 to 7. -/
def logCoef : List (Bool × Nat × Int) :=
  [(false, 3248660424278399, -50), (false, 8663094464742397, -53), (false, 2598928339422719, -52), (false, 7425509541207769, -54)] ++
  [(false, 5775396309828265, -54), (false, 4725324253495853, -54), (false, 249896955713723, -50), (false, 3465237785896959, -54)]

/-- (−1)^j / (2j + 1)! for j = 0 to 7. -/
def sinCoef : List (Bool × Nat × Int) :=
  [(false, 1, 0), (true, 6004799503160661, -55), (false, 4803839602528529, -59), (true, 3660068268593165, -64)] ++
  [(false, 1626697008263629, -69), (true, 1892883791434041, -76), (false, 6212541674450185, -85), (true, 7573384136472607, -93)]

/-- (−1)^j / (2j)! for j = 0 to 7. -/
def cosCoef : List (Bool × Nat × Int) :=
  [(false, 1, 0), (true, 1, -1), (false, 6004799503160661, -57), (true, 6405119470038039, -62)] ++
  [(false, 3660068268593165, -67), (true, 1301357606610903, -72), (false, 630961263811347, -78), (true, 7100047627943069, -89)]

/-- The Taylor coefficients of tanh at 0, of x^(2j + 1) for j = 0 to 17. -/
def tanhCoef : List (Bool × Nat × Int) :=
  [(false, 1, 0), (true, 6004799503160661, -54), (false, 4803839602528529, -55), (true, 1944411267690119, -55)] ++
  [(false, 3151725453510781, -57), (true, 5109307421409853, -59), (false, 258840103791599, -56), (true, 6713851087910371, -62)] ++
  [(false, 1360510649948625, -61), (true, 2205576785511833, -63), (false, 7151092814884781, -66), (true, 5796457506558553, -67)] ++
  [(false, 293651967747589, -64), (true, 7616810227475689, -70), (false, 6173953822614967, -71), (true, 5004418472483853, -72)] ++
  [(false, 8112857649178299, -74), (true, 6576034717892313, -75)]

/-- −2 / ln 2. -/
def tanhG : Bool × Nat × Int := (true, 3248660424278399, -50)

/-- π/2 in steps of 2^-600, rounded down. -/
def halfPi : Nat := 6518043813576499567614396574662941853205725930320758529756346294674678463642478116061492973562434162130186664563002114985125569132920968072887375650813181200752343318675935818455173

/-! ### Binary64 operations, rounded to nearest even -/

/-- A finite value rounded to 53 bits. No operation of R242 leaves the normal range of binary64. -/
def r64 : Val → Val
  | .fin s m e =>
    if m < 2 ^ 53 then .fin s m e
    else let q := e + (topBit m : Nat) - 52; .fin s (roundStep .rn s m e q 0) q
  | v => v

/-- a + b. -/
def add64 (a b : Val) : Val := r64 (valAdd .rn a b)
/-- a × b. -/
def mul64 (a b : Val) : Val := r64 (valMul a b)
/-- −a. -/
def neg64 : Val → Val
  | .fin s m e => .fin (!s) m e
  | .inf s => .inf (!s)
  | .nan => .nan
/-- a ÷ b, b nonzero. -/
def div64 : Val → Val → Val
  | .fin s m e, .fin t n f => if m == 0 then .fin (s != t) 0 0 else r64 (.fin (s != t) (stickyDiv m n 240) (e - f - 241))
  | _, _ => .nan

/-- A coefficient as a value. -/
def coef (c : Bool × Nat × Int) : Val := .fin c.1 c.2.1 c.2.2

/-- The polynomial with coefficients in ascending order, by p := p · x + c from the highest down. -/
def horner (cs : List (Bool × Nat × Int)) (x : Val) : Val :=
  match cs.reverse with
  | [] => .fin false 0 0
  | c :: rest => rest.foldl (fun p c => add64 (mul64 p x) (coef c)) (coef c)

/-- R242: Exp2d. -/
def exp2d : Val → Val
  | .fin s m e =>
    let n : Int := let k : Int := (roundStep .rn s m e 0 0 : Nat); if s then -k else k
    let f := valAdd .rn (.fin s m e) (intVal (-n))
    (match horner expCoef f with
     | .fin t p q => .fin t p (q + n)
     | v => v)
  | v => v

/-- A finite value compared with the integer c × 2^k, k at least -149. -/
def geAt (s : Bool) (m : Nat) (e : Int) (c k : Int) : Bool :=
  decide (c * (2 ^ (k + 160).toNat : Nat) ≤ scaledTo s m e (-160))

/-- The binary32 result of a value. -/
def round32 (v : Val) : Nat := f32.round .rn 0 v

/-- R242: `FEXP2`. -/
def exp2f (a : Nat) : Nat :=
  (f32.firstNan [a]).getD (match f32.decode a with
    | .inf s => if s then 0 else f32.top + 1
    | .fin s m e => if geAt s m e 128 0 then f32.top + 1 else if geAt s m e (-150) 0 then round32 (exp2d (.fin s m e)) else 0
    | .nan => f32.cnan)

/-- R242: `FLOG2` of a positive number m × 2^e. -/
def log2Pos (m : Nat) (e : Int) : Nat :=
  let t := topBit m
  let big := decide (3 * 2 ^ t ≤ 2 * m)
  let ex : Int := e + (t : Nat) + (if big then 1 else 0)
  let x : Val := .fin false m (-(t : Int) - (if big then 1 else 0))
  let s := div64 (valAdd .rn x (.fin true 1 0)) (valAdd .rn x (.fin false 1 0))
  let p := horner logCoef (mul64 s s)
  round32 (valAdd .rn (intVal ex) (mul64 p s))

/-- R242: `FLOG2`. -/
def log2f (a : Nat) : Nat :=
  (f32.firstNan [a]).getD (match f32.decode a with
    | .inf s => if s then f32.cnan else f32.top + 1
    | .fin s m e => if m == 0 then f32.signed true (f32.top + 1) else if s then f32.cnan else log2Pos m e
    | .nan => f32.cnan)

/-- R242: Reduce, to the quadrant and the rest. -/
def reducePi (s : Bool) (m : Nat) (e : Int) : Nat × Val :=
  let x := scaledTo s m e (-600)
  let k : Int := (2 * x + (halfPi : Nat)) / (2 * (halfPi : Nat))
  let r := x - k * (halfPi : Nat)
  ((k % 4).toNat, if r = 0 then .fin s 0 0 else r64 (.fin (decide (r < 0)) r.natAbs (-600)))

/-- R242: SinPoly. -/
def sinPoly (r : Val) : Val := mul64 (horner sinCoef (mul64 r r)) r

/-- R242: CosPoly. -/
def cosPoly (r : Val) : Val := horner cosCoef (mul64 r r)

/-- R242: `FSIN` and `FCOS` by the quadrant, moved by `shift`. -/
def trigf (shift : Nat) (zero : Nat → Nat) (a : Nat) : Nat :=
  (f32.firstNan [a]).getD (match f32.decode a with
    | .inf _ => f32.cnan
    | .nan => f32.cnan
    | .fin s m e =>
      if m == 0 then zero a
      else
        let (q, r) := reducePi s m e
        match (q + shift) % 4 with
        | 0 => round32 (sinPoly r)
        | 1 => round32 (cosPoly r)
        | 2 => round32 (neg64 (sinPoly r))
        | _ => round32 (neg64 (cosPoly r)))

/-- R242: `FSIN`. -/
def sinf (a : Nat) : Nat := trigf 0 (fun x => x) a

/-- R242: `FCOS`. -/
def cosf (a : Nat) : Nat := trigf 1 (fun _ => 0x3F800000) a

/-- R242: `FTANH` of a finite nonzero magnitude. -/
def tanhMag (m : Nat) (e : Int) : Val :=
  let a : Val := .fin false m e
  if geAt false m e 10 0 then .fin false 1 0
  else if !geAt false m e 5 (-3) then mul64 (horner tanhCoef (mul64 a a)) a
  else
    let y := exp2d (mul64 a (coef tanhG))
    div64 (add64 (.fin false 1 0) (neg64 y)) (add64 (.fin false 1 0) y)

/-- R242: `FTANH`. -/
def tanhf (a : Nat) : Nat :=
  (f32.firstNan [a]).getD (match f32.decode a with
    | .inf s => f32.signed s 0x3F800000
    | .nan => f32.cnan
    | .fin s m e => if m == 0 then a else round32 (if s then neg64 (tanhMag m e) else tanhMag m e))

end Sys2Proof.Machine
end

