-- ==== Sys2Proof/Machine/FloatOps.lean ====
section
/-! DEFINITION. Row 0x4 and the first points of row 0x5: binary32 and packed 16-bit arithmetic, compares,
classes, reciprocals, roots and the transcendentals (R222, R236 to R242). -/

namespace Sys2Proof.Machine

/-- R154: the draws an instruction of a mode takes in each lane for `n` results. -/
def drawsOf (m : Mode) (n : Nat) : Nat := if m = .sr then n else 0

/-- The draw a result uses, 0 in a mode that takes none. -/
def Env.drawNat (e : Env) (m : Mode) (l k : Nat) : Nat := if m = .sr then (e.draw l k).toNat else 0

/-- A rounded binary32 instruction: sources, and the result from mode, draw and source patterns. -/
def fltExec (g : Guard) (all : Bool) (m : Mode) (d : Reg) (srcs : List Opnd) (op : Nat → (Nat → Nat) → Nat) (s : State) : Out :=
  laneExec g all srcs [] (useD false d)
    (fun e act v => put32 d act (fun l => BitVec.ofNat 32 (op (e.drawNat m l 0) fun k => (v k l).toNat)) ++ e.drawn act (drawsOf m 1)) s

/-- `FADD` (R236). -/
def execFadd (g : Guard) (all : Bool) (m : Mode) (d : Reg) (a b : Src) (s : State) : Out :=
  fltExec g all m d [opA .f32 false a, opB .f32 false b] (fun r v => f32.add m r (v 0) (v 1)) s

/-- `FMUL` (R236). -/
def execFmul (g : Guard) (all : Bool) (m : Mode) (d : Reg) (a b : Src) (s : State) : Out :=
  fltExec g all m d [opA .f32 false a, opB .f32 false b] (fun r v => f32.mul m r (v 0) (v 1)) s

/-- `FFMA` (R236). -/
def execFfma (g : Guard) (all : Bool) (m : Mode) (d : Reg) (a b c : Src) (s : State) : Out :=
  fltExec g all m d [opA .f32 false a, opB .f32 false b, opC .f32 false c] (fun r v => f32.fma m r (v 0) (v 1) (v 2)) s

/-- `FMIN` (R237). -/
def execFmin (g : Guard) (all : Bool) (k : NanKind) (d : Reg) (a b : Src) (s : State) : Out :=
  fltExec g all .rn d [opA .f32 false a, opB .f32 false b] (fun _ v => f32.pick k f32.minOf (v 0) (v 1)) s

/-- `FMAX` (R237). -/
def execFmax (g : Guard) (all : Bool) (k : NanKind) (d : Reg) (a b : Src) (s : State) : Out :=
  fltExec g all .rn d [opA .f32 false a, opB .f32 false b] (fun _ v => f32.pick k f32.maxOf (v 0) (v 1)) s

/-- `FCMP` (R238). -/
def execFcmp (g : Guard) (all : Bool) (cc : FCond) (pd : Nat) (a b : Src) (s : State) : Out :=
  laneExec g all [opA .f32 false a, opB .f32 false b] [] []
    (fun _ act v => putP pd act fun l => fcondHolds cc (v 0 l).toNat (v 1 l).toNat) s

/-- `FCLASS` (R239). -/
def execFclass (g : Guard) (all : Bool) (d : Reg) (a : Src) (s : State) : Out :=
  fltExec g all .rn d [opA .f32 false a] (fun _ v => class32 (v 0)) s

/-- `FCLASS.test` (R239). -/
def execFclassTest (g : Guard) (all : Bool) (pd : Nat) (a b : Src) (s : State) : Out :=
  laneExec g all [opA .f32 false a, opB .int false b] [] []
    (fun _ act v => putP pd act fun l => classMeets (v 0 l).toNat (lo32 (v 1 l))) s

/-! ### Packed 16-bit arithmetic (R240) -/

/-- The format of a packed half. -/
def halfOf : HalfFmt → FFmt
  | .f16 => f16
  | .bf16 => bf16

/-- A packed instruction: each half on its own, the low half's draw first (R154). -/
def halfExec (g : Guard) (all : Bool) (m : Mode) (d : Reg) (srcs : List Opnd) (op : Nat → (Nat → Nat) → Nat) (s : State) : Out :=
  laneExec g all srcs [] (useD false d)
    (fun e act v =>
      put32 d act (fun l =>
        BitVec.ofNat 32 (op (e.drawNat m l 0) (fun k => fld (v k l).toNat 0 16) +
          2 ^ 16 * op (e.drawNat m l 1) (fun k => fld (v k l).toNat 16 16))) ++ e.drawn act (drawsOf m 2)) s

/-- `HADD2`. -/
def execHadd2 (g : Guard) (all : Bool) (h : HalfFmt) (m : Mode) (d : Reg) (a b : Src) (s : State) : Out :=
  halfExec g all m d [opA (.half h) false a, opB (.half h) false b] (fun r v => (halfOf h).add m r (v 0) (v 1)) s

/-- `HMUL2`. -/
def execHmul2 (g : Guard) (all : Bool) (h : HalfFmt) (m : Mode) (d : Reg) (a b : Src) (s : State) : Out :=
  halfExec g all m d [opA (.half h) false a, opB (.half h) false b] (fun r v => (halfOf h).mul m r (v 0) (v 1)) s

/-- `HFMA2`. -/
def execHfma2 (g : Guard) (all : Bool) (h : HalfFmt) (m : Mode) (d : Reg) (a b c : Src) (s : State) : Out :=
  halfExec g all m d [opA (.half h) false a, opB (.half h) false b, opC (.half h) false c]
    (fun r v => (halfOf h).fma m r (v 0) (v 1) (v 2)) s

/-! ### Reciprocal, roots and transcendentals (R241, R242) -/

/-- `FRCP`. -/
def execFrcp (g : Guard) (all : Bool) (m : Mode) (d : Reg) (a : Src) (s : State) : Out :=
  fltExec g all m d [opA .f32 false a] (fun r v => rcp32 m r (v 0)) s

/-- `FRSQ`. -/
def execFrsq (g : Guard) (all : Bool) (m : Mode) (d : Reg) (a : Src) (s : State) : Out :=
  fltExec g all m d [opA .f32 false a] (fun r v => rsq32 m r (v 0)) s

/-- `FSQRT`. -/
def execFsqrt (g : Guard) (all : Bool) (m : Mode) (d : Reg) (a : Src) (s : State) : Out :=
  fltExec g all m d [opA .f32 false a] (fun r v => sqrt32 m r (v 0)) s

/-- `FEXP2`. -/
def execFexp2 (g : Guard) (all : Bool) (d : Reg) (a : Src) (s : State) : Out :=
  fltExec g all .rn d [opA .f32 false a] (fun _ v => exp2f (v 0)) s

/-- `FLOG2`. -/
def execFlog2 (g : Guard) (all : Bool) (d : Reg) (a : Src) (s : State) : Out :=
  fltExec g all .rn d [opA .f32 false a] (fun _ v => log2f (v 0)) s

/-- `FSIN`. -/
def execFsin (g : Guard) (all : Bool) (d : Reg) (a : Src) (s : State) : Out :=
  fltExec g all .rn d [opA .f32 false a] (fun _ v => sinf (v 0)) s

/-- `FCOS`. -/
def execFcos (g : Guard) (all : Bool) (d : Reg) (a : Src) (s : State) : Out :=
  fltExec g all .rn d [opA .f32 false a] (fun _ v => cosf (v 0)) s

/-- `FTANH`. -/
def execFtanh (g : Guard) (all : Bool) (d : Reg) (a : Src) (s : State) : Out :=
  fltExec g all .rn d [opA .f32 false a] (fun _ v => tanhf (v 0)) s

end Sys2Proof.Machine
end

