-- ==== Sys2Proof/Machine/Conv.lean ====
section
/-! DEFINITION. The rest of row 0x5: conversion, quantisation and random numbers (R243 to R246). -/

namespace Sys2Proof.Machine

/-- The type is 64 bits wide. -/
def ctyWide (t : CTy) : Bool := cbits t == 64

/-- R243: a converted element placed in its destination register, whose other bits are kept. -/
def placeElem (t : CTy) (j : Nat) (old x : Nat) : Nat :=
  let n := cbits t
  let kept := if t = .wt6 then old % 2 ^ 30 else old
  kept - fld kept (n * j) n * 2 ^ (n * j) + x * 2 ^ (n * j)

/-- R243: what `CVT` computes lane by lane. -/
def cvtLanes (g : Guard) (all : Bool) (m : Mode) (dt st : CTy) (d : Reg) (j : Nat) (a : Src) (i : Nat) (s : State) : Out :=
  laneExec g all [opA .f32 (ctyWide st) a] [] (useD (ctyWide dt) d)
    (fun e act v =>
      let out := fun l => convert dt st m (e.drawNat m l 0) (fld (v 0 l).toNat (cbits st * i) (cbits st))
      (if ctyWide dt then put64 d act fun l => BitVec.ofNat 64 (out l)
       else put32 d act fun l => BitVec.ofNat 32 (placeElem dt j (rget e.b e.g l d).toNat (out l))) ++
        e.drawn act (drawsOf m 1)) s

/-- R243, R400: `CVT` keeps the other bits of a destination wider than its element: it reads that register. -/
def cvtDest (dt : CTy) (d : Reg) : List RegUse := if cbits dt < 32 then [(1, d, 1)] else []

/-- `CVT` (R243). -/
def execCvt (g : Guard) (all : Bool) (m : Mode) (dt st : CTy) (d : Reg) (j : Nat) (a : Src) (i : Nat) (s : State) : Out :=
  onIss s fun e =>
    let srcs := [opA .f32 (ctyWide st) a]
    let act := e.active g
    if e.s.errs.isEmpty || e.mapBusy srcs || (e.laneCheck g act all srcs [] (useD (ctyWide dt) d)).isSome then cvtLanes g all m dt st d j a i s
    else match e.regErr act (cvtDest dt d) with
      | some ev => .next (raise s ev)
      | none => cvtLanes g all m dt st d j a i s

/-- R244: the inputs of `QNT`: register A+j of lane L, +0 in an inactive lane. -/
def qntInputs (e : Env) (act : LaneMask) (a : Reg) (n : Nat) : List Nat :=
  (List.range e.b.width).flatMap fun l => (List.range n).map fun j =>
    if hasLane act l then (rget e.b e.g l (regUp a j)).toNat else 0

/-- R244: the scale bytes of the blocks. -/
def qntBytes (c : Nat) (xs : List Nat) : List Nat :=
  (chunks32 (ceilDiv xs.length 32) xs).map fun l => quantScale c (l.map f32.decode)

/-- R225: a word of a lane's odd register, from the scale bytes. -/
def scaleWord (bytes : List Nat) (q : Nat) : W32 :=
  BitVec.ofNat 32 ((List.range 4).foldl (fun x i => x + bytes.getD (4 * q + i) 0 * 2 ^ (8 * i)) 0)

/-- R148, R244: the elements of a lane packed into its destination. -/
def qntWord (e : Env) (m : Mode) (c : Nat) (xs bytes : List Nat) (l : Nat) : W32 :=
  let n := perWord c
  packElems c ((List.range n).map fun j =>
    quantElem c m (e.drawNat m l j) (bytes.getD ((l * n + j) / 32) 0) (xs.getD (l * n + j) 0))

/-- R244: what `QNT` writes. -/
def qntWrites (e : Env) (act : LaneMask) (m : Mode) (c : Nat) (d a : Reg) : List RegWrite :=
  let xs := qntInputs e act a (perWord c)
  let bytes := qntBytes c xs
  put32 d act (qntWord e m c xs bytes) ++
    (if act == 0 then [] else (scaleLanes d act).flatMap fun q => wr32 q (regUp d 1) (scaleWord bytes q)) ++
    e.drawn act (drawsOf m (perWord c))

/-- `QNT` (R244). -/
def execQnt (g : Guard) (m : Mode) (f : MxFmt) (d a : Reg) (s : State) : Out :=
  onIss s fun e =>
    let act := e.active g
    let c := mxCode f
    let uses : List RegUse := [(2, a, perWord c)]
    match ((heldCheck e.b e.g (e.recLanes act) (uses ++ [(1, d, 2)])).or (e.guardErr g)).or (e.regErr act uses) with
    | some ev => .next (raise s ev)
    | none => .next (retireWith s (qntWrites e act m c d a))

/-- R245: the scale byte of an element. -/
def dqntByte (e : Env) (a : Reg) (k : Nat) : Nat :=
  scaleByte ((List.range 4).map fun l => rget e.b e.g l (regUp a 1)) k

/-- R245: what `DQNT` writes. -/
def dqntWrites (e : Env) (act : LaneMask) (c : Nat) (d a : Reg) : List RegWrite :=
  let n := perWord c
  (List.range n).flatMap fun j => put32 (regUp d j) act fun l =>
    dequantElem c (dqntByte e a ((l * n + j) / 32)) (elemOf c (rget e.b e.g l a) j)

/-- `DQNT` (R245). -/
def execDqnt (g : Guard) (f : MxFmt) (d a : Reg) (s : State) : Out :=
  onIss s fun e =>
    let act := e.active g
    let c := mxCode f
    let uses : List RegUse := [(2, a, 2)]
    let sound := if act == 0 then none else (e.regErr act uses).or (e.regErr 0xF [(2, regUp a 1, 1)])
    match ((heldCheck e.b e.g (e.recLanes act) (uses ++ [(1, d, perWord c)])).or (e.guardErr g)).or sound with
    | some ev => .next (raise s ev)
    | none => .next (retireWith s (dqntWrites e act c d a))

/-- R246: what `RAND` writes. -/
def randWrites (k : RandKind) (e : Env) (act : LaneMask) (d : Reg) : List RegWrite :=
  match k with
  | .n32 => put32 d act (fun l => e.draw l 0) ++ e.drawn act 1
  | .n64 => put64 d act (fun l => pair64 (e.draw l 0) (e.draw l 1)) ++ e.drawn act 2
  | .f32 => put32 d act (fun l => BitVec.ofNat 32 (f32.round .rn 0 (.fin false ((e.draw l 0).toNat / 256) (-24)))) ++ e.drawn act 1

/-- `RAND` (R246). -/
def execRand (g : Guard) (k : RandKind) (d : Reg) (s : State) : Out :=
  laneExec g false [] [] (useD (k = .n64) d) (fun e act _ => randWrites k e act d) s

end Sys2Proof.Machine
end

