-- ==== Sys2Proof/Machine/Domain.lean ====
section
/-! DEFINITION. Launch domains: replicas, start barriers, the domain barrier's timeout and the time protocol
(R302 to R306, R386 to R388). -/

namespace Sys2Proof.Machine

/-! ### Replicas (R303) -/

/-- R303: the replicas of a context that wait on this member. -/
def replicaCount (s : State) (c : Nat) : Nat := (s.ctx c).queues.foldl (fun n q => n + q.replicas.length) 0

/-- `REPLICA_RECEIVE` (R303): the replica stands behind every packet its queue's doorbell covers now. -/
def execReplicaReceive (ctx q : Nat) (pkt : List W64) (s : State) : Out :=
  if ctxOpen s ctx && decide (q < 8) && pkt.length == 8 && packetBit pkt 10 && decide (replicaCount s ctx < 16) then
    .next (s.onCtx ctx fun y => y.setQueue q
      { y.queue q with replicas := (y.queue q).replicas ++ [(BitVec.ofNat 32 (s.writeIdx ctx q), pkt)] })
  else .fault .notEnabled

/-! ### Start barriers (R304, R387) -/

/-- The generation of a domain packet (R44). -/
def Launch.gen (l : Launch) : W32 := lo32 (l.packet.getD 7 0)

/-- The domain launch at the head of a queue, which may be frozen for another fault (R387, R397). -/
def domainHead (s : State) (c q : Nat) : Option Launch :=
  if !ctxOpen s c || 8 ≤ q then none else (headLaunch s c q).filter fun l => packetBit l.packet 10 && !l.dropped

/-- The domain launch at the head that has arrived at its start barrier. -/
def arrivedHead (s : State) (c q : Nat) : Option Launch := (domainHead s c q).filter fun l => l.phase == .arrived

/-- `START_BARRIER_ARRIVAL` (R304): the packet's first two conditions are met, and a gang has room. -/
def execStartBarrierArrival (ctx q : Nat) (s : State) : Out :=
  match domainHead s ctx q with
  | none => .fault .notEnabled
  | some l =>
    if queueOpen s ctx q && l.phase == .met && (!l.gang || (!gangHeld s l && launchRoom s l)) then
      let a : Arrival := { rank := l.rank, gen := l.gen, time := s.gtime }
      .next (({ s with spurOut := s.spurOut ++ [.arrival ctx q a] } : State).onLaunch l.id fun l =>
        { l with phase := .arrived, arrTime := s.gtime, acks := [] })
    else .fault .notEnabled

/-- The latest arrival of a rank that a queue has received. -/
def Queue.arrivalOf (y : Queue) (r : Nat) : Option Arrival := y.arrivals.find? (·.rank == r)

/-- Every other member has arrived at a start barrier of the queue. -/
def allArrived (s : State) (l : Launch) : Bool := l.others.all fun r => (((s.ctx l.ctx).queue l.queue).arrivalOf r).isSome

/-- The arrivals of the other members at a launch's start barrier. -/
def otherArrivals (s : State) (l : Launch) : List Arrival := l.others.filterMap fun r => ((s.ctx l.ctx).queue l.queue).arrivalOf r

/-- R387: the start barrier fails: the arrival is withdrawn, the launch's hold on other launches ends (R51), and the queue
freezes. With code 0 every member fails and withdraws its arrival (R397). -/
def barrierFail (s : State) (l : Launch) (code : Nat) : State :=
  let s1 := s.onLaunch l.id fun l => { l with phase := .waiting, acks := [] }
  let s2 := if code == 0 then s1.onCtx l.ctx fun y => y.setQueue l.queue { y.queue l.queue with arrivals := [] } else s1
  freezeEntry s2 l.ctx l.queue .barrier l.count l.packet 0x45 code l.gen.toNat 0

/-- R387: a member acknowledges this member's arrival. -/
def arrivalAcked (s : State) (c q rank : Nat) (gen : W32) : Option State :=
  (arrivedHead s c q).bind fun l =>
    if l.gen == gen && l.others.contains rank && !l.acks.contains rank then some (s.onLaunch l.id fun l => { l with acks := l.acks ++ [rank] })
    else none

/-- R386: a member acknowledges this member's messages of a domain barrier. -/
def domainAcked (s : State) (lid rank : Nat) : Option State :=
  (s.launch? lid).bind fun l =>
    if l.domSent && l.others.contains rank && !l.domAcks.contains rank then some (s.onLaunch lid fun l => { l with domAcks := l.domAcks ++ [rank] })
    else none

/-- R303: a member's replica space fills or empties. -/
def replicaSpace (s : State) (c rank : Nat) (full : Bool) : Option State :=
  if rank == s.rankOf c || s.domSize c < rank || s.fullAt.contains (c, rank) == full then none
  else some { s with fullAt := if full then s.fullAt ++ [(c, rank)] else s.fullAt.filter (· != (c, rank)) }

/-- R304: the domain time at which dispatch starts: 20 µs after the latest arrival. -/
def startTime (l : Launch) (as : List Arrival) : W64 :=
  BitVec.ofNat 64 ((as.foldl (fun m a => max m a.time.toNat) l.arrTime.toNat) + 20000)

/-- `START_BARRIER_COMPLETE` (R304, R387). -/
def execStartBarrierComplete (ctx q : Nat) (s : State) : Out :=
  match arrivedHead s ctx q with
  | none => .fault .notEnabled
  | some l =>
    let as := otherArrivals s l
    if !allArrived s l then .fault .notEnabled
    else if as.all fun a => a.gen == l.gen then
      .next ((s.onCtx ctx fun y => y.setQueue q { y.queue q with arrivals := [] }).onLaunch l.id fun x =>
        { x with phase := .starting (startTime l as) })
    else .next (barrierFail s l 0)

/-- `START_BARRIER_DISPATCH` (R304). -/
def execStartBarrierDispatch (ctx q : Nat) (s : State) : Out :=
  match domainHead s ctx q with
  | none => .fault .notEnabled
  | some l =>
    match l.phase with
    | .starting t => if t.toNat ≤ s.gtime.toNat then .next (s.onLaunch l.id fun l => { l with phase := .dispatching }) else .fault .notEnabled
    | _ => .fault .notEnabled

/-- 1 ms of domain time has passed (R386, R387). -/
def spurLate (s : State) (since : W64) : Bool := decide (since.toNat + 1000000 ≤ s.gtime.toNat)

/-- `START_BARRIER_TIMEOUT` (R387): a member has not acknowledged the arrival within 1 ms. -/
def execStartBarrierTimeout (ctx q rank : Nat) (s : State) : Out :=
  match arrivedHead s ctx q with
  | none => .fault .notEnabled
  | some l => if l.others.contains rank && !l.acks.contains rank && spurLate s l.arrTime then .next (barrierFail s l 1) else .fault .notEnabled

/-- `ARRIVAL_MESSAGE_RECEIVE` (R387): acknowledged at once and recorded, in place of the member's earlier
arrival. A start barrier that every member has reached completes first. -/
def execArrivalMessageReceive (ctx q : Nat) (a : Arrival) (s : State) : Out :=
  let full := match arrivedHead s ctx q with | some l => allArrived s l | none => false
  if !ctxOpen s ctx || 8 ≤ q || a.rank == s.rankOf ctx || s.domSize ctx < a.rank || full then .fault .notEnabled
  else
    .next (({ s with spurOut := s.spurOut ++ [.arrivalAck a.rank ctx q a.gen] } : State).onCtx ctx fun y =>
      y.setQueue q { y.queue q with arrivals := (y.queue q).arrivals.filter (·.rank != a.rank) ++ [a] })

/-! ### The domain barrier's timeout (R386) -/

/-- The lowest fragment of a group blocked in `DBAR.dom`. -/
def dbarFrag (g : Group) : Option Frag :=
  if g.waits then (List.range 8).findSome? fun i => g.frags.find? fun f => f.fid == i && inDomF f else none

/-- R386: a group blocked in the barrier takes fault 0x27, code 1. -/
def dbarFault (s : State) (b : Block) (g : Group) : State :=
  match dbarFrag g with
  | none => s
  | some f =>
    let ev := mkEv 0x27 1 0 (if f.exm != 0 then f.exm else f.held)
    let s1 := s.onFrag { bid := b.bid, gid := g.gid, fid := f.fid } fun f => { f with st := .running }
    stopGroup s1 b.bid g.gid { fid := f.fid, pc := f.pc, next := f.after, word := wordOf s b f, ev := ev, time := s.gtime, cycle := s.cycle }

/-- `DBAR_DOM_TIMEOUT` (R386): a member has not acknowledged the barrier's messages within 1 ms. -/
def execDbarDomTimeout (lid rank : Nat) (s : State) : Out :=
  match s.launch? lid with
  | none => .fault .notEnabled
  | some l =>
    if !l.domSent || !l.others.contains rank || l.domAcks.contains rank || !spurLate s l.domSince then .fault .notEnabled
    else
      let hit := (s.blocksOf lid).flatMap fun b => b.groups.map fun g => (b, g)
      let s1 := hit.foldl (fun (acc : State) (p : Block × Group) => dbarFault acc p.1 p.2) s
      .next (s1.onLaunch lid fun l => { l with domSent := false })

/-! ### The time protocol (R302) -/

/-- `PTP_EVENT_MESSAGE` (R302): a correction slews `$gtime` and never steps it backwards. -/
def execPtpEventMessage (slew : W64) (s : State) : Out := .next { s with gtime := BitVec.ofNat 64 (min (s.gtime.toNat + slew.toNat) (2 ^ 64 - 1)) }

end Sys2Proof.Machine
end

