-- ==== Sys2Proof/Machine/Traps.lean ====
section
/-! DEFINITION. The events of traps and faults: the start and the end of a handler run, the freeze of a
drained group, and the driver's commands to frozen masters (R53, R215, R339 to R349). -/

namespace Sys2Proof.Machine

/-! ### Handler runs (R340, R341, R343) -/

/-- R349: the stop was raised by an issue of this cycle, which other fragments may still join. -/
def stopFresh (s : State) (bid gid : Nat) (x : Stop) : Bool := s.issued.any fun m => m.who == { bid := bid, gid := gid, fid := x.fid }

/-- A group of a resident block that has stopped and drained (R340 step 1). -/
def drainedStop (s : State) (bid gid : Nat) : Option (Block × Group × Stop) :=
  match s.group? bid gid with
  | none => none
  | some (b, g) =>
    match g.stop with
    | none => none
    | some x => if b.resident && groupDrained s bid g && !stopFresh s bid gid x then some (b, g, x) else none

/-- `TRAP_HANDLER_START` (R340, R342): the trap image goes to an address the device chooses in the arena. -/
def execTrapHandlerStart (bid gid : Nat) (image : W64) (s : State) : Out :=
  match drainedStop s bid gid with
  | none => .fault .notEnabled
  | some (b, g, x) =>
    if classOf x.ev.cause == 0 && !b.saving && (trapCase s b g (some image)).isNone &&
        arenaFits s b.ctx image.toNat (imgSize b.width g.base) then
      .next (enterHandler s b g x image)
    else .fault .notEnabled

/-- R215, R341: the handler run is over. -/
def handlerOver (s : State) (bid : Nat) (g : Group) : Bool :=
  g.frags.isEmpty && g.flags.isEmpty && g.stop.isNone && g.frozen.isNone && (s.opsOf bid g.gid).all (·.aside)

/-- `HANDLER_RUN_END` (R341, R343, R344). -/
def execHandlerRunEnd (bid gid : Nat) (s : State) : Out :=
  match s.group? bid gid with
  | none => .fault .notEnabled
  | some (b, g) =>
    match g.handler with
    | none => .fault .notEnabled
    | some h =>
      if b.resident && !b.saving && handlerOver s bid g then
        .next (barrierCheckOf (settleGroup (leaveHandler s b g h) bid gid) bid)
      else .fault .notEnabled

/-! ### Freezing (R340, R345) -/

/-- R345: the image goes to a free stretch of the arena; there is none only where the arena has no room. -/
def imageChoice (s : State) (b : Block) (g : Group) (image : Option W64) : Bool :=
  let n := imgSize b.width g.base
  match image with
  | some a => arenaFits s b.ctx a.toNat n
  | none => !arenaRoom s b.ctx n

/-- The pages whose walks an event reports. -/
def Raised.walks (x : Raised) : List Nat := if x.pages.isEmpty then [x.addr.toNat / 65536] else x.pages

/-- R370: of two instructions that wait on one failed walk, the one that reached its result first, then the one on the
lower mill and stone. -/
def walkBefore (b y : Block) (g h : Group) (x z : Stop) : Bool :=
  x.ev.cause == 0x20 && z.ev.cause == 0x20 && b.ctx == y.ctx && (x.ev.walks.any z.ev.walks.contains) &&
    (decide (z.cycle < x.cycle) || (z.cycle == x.cycle &&
      decide (stoneKey y.mill h.stone < stoneKey b.mill g.stone)))

/-- R370: the record of another group's instruction comes first. -/
def recordWaits (s : State) (b : Block) (g : Group) (x : Stop) : Bool :=
  s.blocks.any fun y => y.resident && y.groups.any fun h => match h.stop with
    | some z => !(y.bid == b.bid && h.gid == g.gid) && walkBefore b y g h x z
    | none => false

/-- `FAULT_FREEZE` (R340, R345 to R348, R370): a fault or breakpoint, or a trap without a usable handler. -/
def execFaultFreeze (bid gid : Nat) (image : Option W64) (s : State) : Out :=
  match drainedStop s bid gid with
  | none => .fault .notEnabled
  | some (b, g, x) =>
    if !imageChoice s b g image || recordWaits s b g x then .fault .notEnabled
    else if classOf x.ev.cause != 0 then .next (freezeGroup s b g x x.ev image)
    else match trapCase s b g image with
      | none => .fault .notEnabled
      | some k => if b.saving then .fault .notEnabled else .next (freezeGroup s b g x (freezeEvent x (some k)) image)

/-! ### FCMD (R347) -/

/-- The barriers that a command lets complete do so. -/
def barrierSweep (s : State) : State := s.launches.foldl (fun acc l => barrierCheck acc l.id) s

/-- A write of a command and a sequence number to FCMD through the privileged view. -/
def writeFcmd (s : State) (ctx : Nat) (seq : BitVec 16) (code : Nat) : Out :=
  if 1024 ≤ ctx then .fault .notEnabled
  else .next (barrierSweep (pageWrite s true ctx oFCMD (packFields [(16, 4, code), (0, 16, seq.toNat)])))

/-- `FCMD_RETRY` (R347). -/
def execFcmdRetry (ctx : Nat) (seq : BitVec 16) (s : State) : Out := writeFcmd s ctx seq 1

/-- `FCMD_SKIP` (R347). -/
def execFcmdSkip (ctx : Nat) (seq : BitVec 16) (s : State) : Out := writeFcmd s ctx seq 2

/-- `FCMD_KILL` (R347). -/
def execFcmdKill (ctx : Nat) (seq : BitVec 16) (s : State) : Out := writeFcmd s ctx seq 3

end Sys2Proof.Machine
end

