-- ==== Sys2Proof/Machine/Driver.lean ====
section
/-! DEFINITION. The driver's writes to the device: contexts, translations, the kernel table, stamp coverage and
plain registers (R46, R101, R102, R320, R378, R415). -/

namespace Sys2Proof.Machine

/-! ### Contexts (R46) -/

/-- A CTXCMD value: context, action and go. -/
def ctxcmdWord (ctx act : Nat) : W64 := packFields [(63, 1, 1), (16, 2, act), (0, 10, ctx)]

/-- `CTXCMD_CREATE` (R46). -/
def execCtxcmdCreate (ctx : Nat) (s : State) : Out :=
  if ctx < 1024 then .next (writeCtxcmd s (ctxcmdWord ctx 1)) else .fault .notEnabled

/-- `CTXCMD_DESTROY` (R46). -/
def execCtxcmdDestroy (ctx : Nat) (s : State) : Out :=
  if ctx < 1024 then .next (writeCtxcmd s (ctxcmdWord ctx 2)) else .fault .notEnabled

/-- Nothing of a context is left: no block, launch, copy, or dirty line. -/
def ctxGone (s : State) (c : Nat) : Bool :=
  !(s.blocks.any (·.ctx == c)) && !(s.launches.any (·.ctx == c)) && !(s.leats.any (·.ctx == c)) &&
    !(s.l1.any fun x => x.ctx == c && !x.dirty.isEmpty)

/-- `CONTEXT_DESTROY_DONE` (R46): go reads 0, and the context is absent, with no translation left of
it. -/
def execContextDestroyDone (ctx : Nat) (s : State) : Out :=
  if (s.ctx ctx).leaving && ctxGone s ctx then
    .next { s.setCtx ctx Ctx.reset with ctxcmd := keepBits s.ctxcmd 62 0, tlb := s.tlb.filter (·.ctx != ctx) }
  else .fault .notEnabled

/-! ### Translations (R101, R102) -/

/-- `TLBINV_PAGE` (R101, R102). -/
def execTlbinvPage (ctx : Nat) (va : W64) (sz : PageSize) (s : State) : Out :=
  if ctx < 1024 then .next (tlbInvPage s ctx va sz) else .fault .notEnabled

/-- `TLBINV_ALL` (R101, R102). -/
def execTlbinvAll (ctx : Nat) (s : State) : Out := if ctx < 1024 then .next (tlbInvAll s ctx) else .fault .notEnabled

/-- The staged op holds accesses that are translated and not yet performed (R313). -/
def StagedOp.translated (x : StagedOp) : Bool := match x.body with | .access _ _ => true | .far _ => true | _ => false

/-- R102: an in-flight instruction of a context, a far access that has no answer, or a staged op, still has accesses to be
performed. -/
def ctxBusy (s : State) (c : Nat) : Bool :=
  (s.awaits.any fun a => a.req.isSome && a.got.isNone && (match s.block? a.f.bid with | some b => b.ctx == c | none => false)) ||
  (s.ops.any fun o => !o.accs.isEmpty && (match s.block? o.bid with | some b => b.ctx == c | none => false)) ||
    s.blocks.any fun b => b.ctx == c && b.staged.any (·.translated)

/-- `TLBINV_DONE` (R102): go reads 0 once every access that used a dropped translation is performed. -/
def execTlbinvDone (ctx : Nat) (s : State) : Out :=
  if bitOf (s.creg ctx oTLBINV) 0 && !ctxBusy s ctx then
    .next (s.onCtx ctx fun y => y.setReg oTLBINV (y.reg oTLBINV &&& ~~~1#64))
  else .fault .notEnabled

/-! ### The kernel table, coverage and plain registers (R320, R378, R415) -/

/-- `KREPL` (R320). -/
def execKrepl (ctx : Nat) (x : W64) (s : State) : Out := if ctx < 1024 then .next (writeKrepl s ctx x) else .fault .notEnabled

/-- `STCOV_WRITE` (R378). -/
def execStcovWrite (die : Nat) (x : W64) (s : State) : Out := if die < 4 then .next (writeStcov s die x) else .fault .notEnabled

/-- `REGISTER_WRITE` (R46, R101, R415): 8 bytes at an aligned address of register space. -/
def execRegisterWrite (pa x : W64) (s : State) : Out :=
  if inRegs pa.toNat && pa.toNat % 8 == 0 then .next (barrierSweep (regWrite s pa.toNat x)) else .fault .notEnabled

end Sys2Proof.Machine
end

