-- ==== Sys2Proof/Machine/Expand.lean ====
section
/-! DEFINITION. The expand-unit instructions (R272 to R280, R354, R365). -/

namespace Sys2Proof.Machine

/-- R351, R354: expand-unit misuse in some lanes, by its sub-cause and deal id. -/
def xuMisuse (lanes : LaneMask) (sub deal : Nat) : Raised := mkEv 0x0B sub 0 lanes 0 deal

/-- R400: the stone's expand-unit state carries an error. -/
def Env.xuBroken (e : Env) : Bool := e.s.errs.contains (.xu e.b.bid e.g.stone)

/-- The expansion a group belongs to: the open one, or one that failed and that it has not yet met. -/
def Env.xuMine (e : Env) (bad : Bool) : Option Expansion := e.b.groupXu? e.g.stone e.g.gid bad

/-- R341, R354, R400: the checks every expand-unit instruction makes first, recording some lanes. A handler run cannot
name its group's expand-unit state: it belongs to no expansion there (log entry 63). -/
def Env.xuFirst (e : Env) (lanes : LaneMask) : Option Raised :=
  if e.g.handler.isSome then some (xuMisuse lanes 1 0)
  else if e.xuBroken then some (mkEv 0x60 8 0 lanes)
  else (e.xuMine true).map fun x => xuMisuse lanes 5 x.deal

/-- R354: a group that takes the event of a failed expansion leaves it. -/
def leaveBad (b : Block) (stone gid : Nat) : Block :=
  { b with xus := (b.xus.map fun x =>
      if x.stone == stone && x.bad then x.onSlot gid (fun y => { y with ended := true }) else x).filter fun x => !(x.bad && x.slots.all (·.ended)) }

/-- An expand-unit instruction raises its first event. -/
def raiseXu (e : Env) (ev : Raised) : Out :=
  let s1 := if ev.cause == 0x0B && ev.code == 5 then e.s.onBlock e.b.bid fun b => leaveBad b e.g.stone e.g.gid else e.s
  .next (raise s1 ev)

/-- Another block's expansion is open on the stone (R273). -/
def Env.xuForeign (e : Env) : Bool :=
  e.s.blocks.any fun b => b.bid != e.b.bid && b.mill == e.b.mill && b.resident && (b.openXu? e.g.stone).isSome

/-- The groups of a block on a stone that have not ended (R354). -/
def stoneGroups (b : Block) (stone : Nat) : Nat := (b.groups.filter fun g => g.stone == stone && !g.ended).length

/-- What an `XBEGIN` meets. -/
inductive Begin where
  | misuse (sub : Nat)
  | wait
  | join (x : Expansion)
  | new
  deriving DecidableEq, Repr

/-- R273, R354: an `XBEGIN` against the expansion that is open on its stone. -/
def Env.begin (e : Env) (op : FoldOp) (deal n : Nat) : Begin :=
  let few := decide (stoneGroups e.b e.g.stone < n)
  match e.b.openXu? e.g.stone with
  | none => if e.xuForeign then .wait else if few then .misuse 4 else .new
  | some x =>
    if x.slots.any fun y => y.gid == e.g.gid && !y.ended then .misuse 2
    else if x.deal == deal && (x.n != n || x.op != op) then .misuse 3
    else if x.slots.any fun y => y.gid == e.g.gid then .wait
    else if x.deal != deal || x.complete then .wait
    else if few then .misuse 4
    else .join x

/-- The starts or lengths a group supplies: its lanes of `$exm`; the others supply 0. -/
def Env.supply (e : Env) (r : Reg) : List (Nat × W32) := (lanesOf e.f.exm).map fun l => (l, rget e.b e.g l r)

/-- R273: the group joins an expansion. -/
def joinXu (e : Env) (x : Expansion) (vs vl : Reg) (s : State) : State :=
  s.onBlock e.b.bid fun b => { b with
    xus := (b.xus.filter fun y => !(y.stone == x.stone && !y.bad)) ++ [xuJoin x e.g.gid (e.supply vs) (e.supply vl)] }

/-- R273, R365: an `XBEGIN` waits behind an open expansion: it does not issue and raises nothing. -/
def Env.xbeginWaits (e : Env) (op : FoldOp) (deal n : Nat) : Bool :=
  e.g.handler.isNone && (e.xuMine true).isNone && e.begin op deal n == .wait

/-- `XBEGIN` (R273). -/
def execXbegin (op : FoldOp) (vs vl : Reg) (deal n : Nat) (s : State) : Out :=
  onIss s fun e =>
    if e.xbeginWaits op deal n then stall s
    else match e.onceCheck e.f.exm [(2, vs, 1), (3, vl, 1)] [] with
    | some ev => .next (raise s ev)
    | none =>
      match e.xuFirst e.whole with
      | some ev => raiseXu e ev
      | none =>
        match e.begin op deal n with
        | .misuse sub => .next (raise s (xuMisuse e.whole sub deal))
        | .wait => stall s
        | .join x => .next (retire (joinXu e x vs vl s))
        | .new => .next (retire (joinXu e (xuOpen e.g.stone deal n op) vs vl s))

/-- The open expansion a group belongs to, with its slot, or the event of its checks. -/
def Env.xuSlot (e : Env) (lanes : LaneMask) : Except Raised (Expansion × Nat × XSlot) :=
  match e.xuFirst lanes with
  | some ev => .error ev
  | none =>
    let other := match e.b.openXu? e.g.stone with | some x => x.deal | none => 0
    match e.xuMine false with
    | none => .error (xuMisuse lanes 1 other)
    | some x => match slotOf x.slots e.g.gid 0 with
      | none => .error (xuMisuse lanes 1 x.deal)
      | some p => .ok (x, p.1, p.2)

/-- The block's expansion changed by the issuing group's instruction. -/
def putXu (e : Env) (x : Expansion) (s : State) : State := s.onBlock e.b.bid fun b => b.setXu x

/-- R275: what `XNEXT` writes in the next round. -/
def xnextWrites (e : Env) (x : Expansion) (i : Nat) (y : XSlot) (vi vo : Reg) (pd : Nat) : List RegWrite :=
  let w := e.b.width
  let t := fun l => iterOf x w i y.rounds l
  let owner := fun l => match x.ownerOf (t l) with | some o => BitVec.ofNat 32 o | none => ownerNone
  let own : List RegWrite := (List.range w).map fun l => .owner l (if hasLane e.f.exm l then owner l else ownerNone)
  put32 vi e.f.exm (fun l => x.valueOf (t l)) ++ put32 vo e.f.exm owner ++
    putP pd e.f.exm (fun l => (x.ownerOf (t l)).isSome) ++ own

/-- R275: an `XNEXT` waits for the rest of its deal set. -/
def Env.xnextWaits (e : Env) : Bool := match e.xuSlot e.whole with | .ok (x, _, _) => !x.complete | .error _ => false

/-- `XNEXT` (R275). -/
def execXnext (vi vo : Reg) (pd : Nat) (s : State) : Out :=
  onIss s fun e =>
    if e.xnextWaits then stall s
    else match e.onceCheck 0 [] [(2, vo, 1), (1, vi, 1)] with
    | some ev => .next (raise s ev)
    | none =>
      match e.xuSlot e.whole with
      | .error ev => raiseXu e ev
      | .ok (x, i, y) =>
        let x1 := xuApply (x.onSlot e.g.gid fun y => { y with rounds := y.rounds + 1, resolved := false }) e.b.width
        .next (retireWith (putXu e x1 s) (xnextWrites e x i y vi vo pd))

/-- R276: the active lanes that hold a valid iteration. -/
def xredLanes (g : Group) (act : LaneMask) : LaneMask := maskOf ((lanesOf act).filter fun l => sget ownerNone g.xowner l != ownerNone)

/-- R276, R277: a round's contributions held, and those that may be applied applied. -/
def contribute (x : Expansion) (w gid : Nat) (mask : LaneMask) (vals : List (Nat × W32)) : Expansion :=
  xuApply (x.onSlot gid fun y =>
    { y with resolved := true, heldRound := y.rounds - 1, unapplied := mask, contrib := ssetAll 0 [] vals }) w

/-- R276: an `XRED` waits while contributions of its group's previous round are not applied. -/
def Env.xredWaits (e : Env) : Bool :=
  match e.xuSlot e.whole with | .ok (_, _, y) => y.rounds != 0 && !y.resolved && y.unapplied != 0 | .error _ => false

/-- `XRED` (R276). -/
def execXred (g : Guard) (v : Reg) (s : State) : Out :=
  onIss s fun e =>
    let act := e.active g
    if e.xredWaits then stall s
    else match ((heldCheck e.b e.g (e.recLanes act) [(2, v, 1)]).or (e.guardErr g)).or (e.regErr (xredLanes e.g act) [(2, v, 1)]) with
    | some ev => .next (raise s ev)
    | none =>
      match e.xuSlot (e.recLanes act) with
      | .error ev => raiseXu e ev
      | .ok (x, _, y) =>
        if y.rounds == 0 || y.resolved then .next (raise s (xuMisuse (e.recLanes act) 6 x.deal))
        else
          let m := xredLanes e.g act
          let vals := (lanesOf m).map fun l => (l, rget e.b e.g l v)
          .next (retire (putXu e (contribute x e.b.width e.g.gid m vals) s))

/-- `XEND` (R278). -/
def execXend (fl : FlagSel) (d : Reg) (s : State) : Out :=
  onIss s fun e =>
    if e.flagFull fl then stall s
    else match e.onceCheck 0 [] [(1, d, 1)] with
      | some ev => .next (raise s ev)
      | none =>
        match e.xuSlot e.whole with
        | .error ev => raiseXu e ev
        | .ok (x, _, _) =>
          let own : List RegWrite := (List.range e.b.width).map fun l => .owner l ownerNone
          let s1 := (putXu e (xuLeave x e.b.width e.g.gid) s).regWrites e.b.bid e.g.gid own
          let op : LongOp := { e.op fl [] with fin := .xend e.g.stone d e.f.exm, ext := extUses [(1, d, 1)] }
          .next (launchOp s1 op)

end Sys2Proof.Machine
end

