-- ==== Sys2Proof/Machine/HostEv.lean ====
section
/-! DEFINITION. The host's transactions over Felmir: line reads and writes, atomics and register accesses (R99,
R284, R309 to R311, R345, R381, R415). -/

namespace Sys2Proof.Machine

/-! ### Where a host access goes (R99, R381) -/

/-- The ranges a host access may name. -/
inductive HostPlace where
  /-- Device memory. -/
  | hbm
  /-- Device register space. -/
  | regs
  /-- The host's own memory: no transaction of this device. -/
  | own
  /-- A reserved range. -/
  | gap
  deriving DecidableEq, Repr

/-- The range of a physical address. -/
def hostPlace (pa : Nat) : HostPlace := if inHbm pa then .hbm else if inRegs pa then .regs else if inHost pa then .own else .gap

/-- Something sent to the host. -/
def tellHost (s : State) (m : FelmirMsg) : State := { s with felmirOut := s.felmirOut ++ [m] }

/-- R345: the Felmir port refuses host accesses to memory; one names no context, and stands under context 0 (log
entry 25). -/
def portFrozen (s : State) : Bool := s.ports.contains 0

/-- R345, R381: the port freezes for an access to a reserved range, with its record in context 0's ring. -/
def freezePort (s : State) (pa : Nat) : State :=
  let s1 := { s with ports := addHost s.ports }
  tellHost (emitRecord s1 { Rec.bare 0 5 1 0x21 s.gtime with code := 8 } .port) (.refused (BitVec.ofNat 64 pa))
where
  /-- Context 0 among the contexts whose accesses the port refuses. -/
  addHost (l : List Nat) : List Nat := if l.contains 0 then l else l ++ [0]

/-- R381, R400: a host read or atomic of a poisoned word is refused, with its record against the port in context 0's
ring; the port itself goes on. -/
def hostPoison (s : State) (pa k : Nat) : State :=
  let q := takeSeq s 0
  let r : Rec := { Rec.bare 0 5 1 0x60 s.gtime with code := BitVec.ofNat 32 k }
  tellHost (ringWrite q.2 0 (r.words q.1 (s.rankOf 0))) (.refused (BitVec.ofNat 64 pa))

/-- What a host read or atomic of some bytes comes to. -/
def unpoisoned (s : State) (pa n : Nat) (t : State) : State := match wordCode s pa n with | some k => hostPoison s pa k | none => t

/-- A host access to memory, by the range it names; `atRegs` is what it comes to in register space. -/
def hostAccess (s : State) (pa : Nat) (atRegs atHbm : State) : Out :=
  if 2 ^ 56 ≤ pa then .fault .notEnabled
  else match hostPlace pa with
    | .own => .fault .notEnabled
    | x =>
      if portFrozen s then .next (tellHost s (.refused (BitVec.ofNat 64 pa)))
      else match x with
        | .gap => .next (freezePort s pa)
        | .regs => .next atRegs
        | _ => .next atHbm

/-! ### Lines and atomics (R309, R311) -/

/-- The bytes of a line write: offsets within the line, each once. -/
def lineBytes (line : Nat) (bytes : List (Nat × Byte)) : List (Nat × Byte) := bytes.map fun (p : Nat × Byte) => (64 * line + p.1, p.2)

/-- A byte mask names offsets of the line, none twice. -/
def maskOk (bytes : List (Nat × Byte)) : Bool :=
  bytes.all (fun (p : Nat × Byte) => decide (p.1 < 64)) && (nub (bytes.map (·.1))).length == bytes.length

/-- R309: the host takes a copy of a line. -/
def copyOut (s : State) (line : Nat) : State :=
  if s.hostCopies.contains line then s else { s with hostCopies := s.hostCopies ++ [line] }

/-- R309: the host's copy of a line ends with its own write. -/
def copyBack (s : State) (line : Nat) : State :=
  { s with hostCopies := s.hostCopies.filter (· != line), hostDirty := s.hostDirty.filter fun p => lineOf p.1 != line }

/-- R309: the bytes of a host's write of a line, with those it had written in its copy alone. -/
def withDirty (s : State) (line : Nat) (bytes : List (Nat × Byte)) : List (Nat × Byte) :=
  ((hostBytes s line).filter fun p => bytes.all fun q => q.1 != p.1) ++ bytes

/-- R309: the host's processors write bytes of the host's own memory. -/
def hostMem (s : State) (bytes : List (Nat × Byte)) : Option State :=
  if bytes.all fun p => inHost p.1 then some (s.wrAll bytes) else none

/-- R309: the host writes bytes of its cached copy of a line, each offset once. -/
def hostStore (s : State) (line : Nat) (bytes : List (Nat × Byte)) : Option State :=
  if s.hostCopies.contains line && maskOk bytes then
    some { s with hostDirty := (s.hostDirty.filter fun p => bytes.all fun q => 64 * line + q.1 != p.1) ++ lineBytes line bytes }
  else none

/-- R381: the host begins, or ceases, to fail the device's accesses: with an error, or with no answer. -/
def hostFail (s : State) (code : Option Nat) : Option State :=
  if code == none || code == some 0 || code == some 1 then some { s with hostFails := code } else none

/-- The bytes of a line at its home. -/
def homeBytes (s : State) (line : Nat) : List Byte := (span (64 * line) 64).map s.rd

/-- `HOST_LINE_READ` (R309, R311, R415). -/
def execHostLineRead (line : Nat) (cached : Bool) (s : State) : Out :=
  hostAccess s (64 * line) (tellHost s (.lineData line (List.replicate 64 0)))
    (unpoisoned s (64 * line) 64 (tellHost (if cached then copyOut s line else s) (.lineData line (homeBytes s line))))

/-- `HOST_LINE_WRITE` (R284, R309, R311): performed at the home slice, and compared by the sluice. -/
def execHostLineWrite (line : Nat) (bytes : List (Nat × Byte)) (s : State) : Out :=
  if !maskOk bytes then .fault .notEnabled
  else hostAccess s (64 * line) s (homeLine (copyBack s line) none .host line (withDirty s line (lineBytes line bytes)))

/-- The value an atomic returns to the host, and the location's new value; it finds what the host has written in its own
copy of the line (R309). -/
def hostAtom (s : State) (pa : Nat) (op : AtomOp) (w : AtomWidth) (v c : W64) : W64 × W64 :=
  let r := atomServe op w (BitVec.ofNat 64 ((s.wrAll (hostBytes s (lineOf pa))).rdNat pa (atomBytes w))) [(v, c)]
  (r.1.headD 0, r.2)

/-- `HOST_ATOMIC` (R311): performed at the home. -/
def execHostAtomic (pa : W64) (op : AtomOp) (w : AtomWidth) (v c : W64) (s : State) : Out :=
  let n := atomBytes w
  let pa := pa.toNat
  let r := hostAtom s pa op w v c
  if pa % n != 0 then .fault .notEnabled
  else hostAccess s pa (tellHost s (.atomicResult 0))
    (unpoisoned s pa n
      (tellHost (homeLine (copyBack s (lineOf pa)) none .host (lineOf pa) (withDirty s (lineOf pa) (bytesAt pa n r.2.toNat))) (.atomicResult r.1)))

/-! ### Registers (R311, R415) -/

/-- `HOST_REGISTER_ACCESS` (R310, R311, R415): only 8 aligned bytes reach a register. -/
def execHostRegisterAccess (pa : W64) (size : Nat) (wr : Option W64) (s : State) : Out :=
  let pa := pa.toNat
  if !inRegs pa || size == 0 || 8 < size then .fault .notEnabled
  else
    let whole := size == 8 && pa % 8 == 0
    match wr with
    | none => .next (tellHost s (.registerData (if whole then regRead s pa else 0)))
    | some x => .next (if whole then barrierSweep (regWrite s pa x) else s)

end Sys2Proof.Machine
end

