-- ==== Sys2Proof/Machine/MapSlots.lean ====
section
/-! DEFINITION. Row 0x6: binding, writing, reading and freeing map slots (R228 to R235, R357 to R360, R375). -/

namespace Sys2Proof.Machine

/-- R358: the active lanes whose format word differs from the lowest one's. -/
def voteLosers (e : Env) (act : LaneMask) (r : Reg) : LaneMask :=
  let first := rget e.b e.g (lowLane act) r
  maskOf ((lanesOf act).filter fun l => rget e.b e.g l r != first)

/-- R358: the vote on a format word: a trap where lanes disagree, a fault where the word is not valid. -/
def voteCheck (e : Env) (act : LaneMask) (pos k : Nat) (r : Reg) : Option Raised :=
  let lost := voteLosers e act r
  let f := rget e.b e.g (lowLane act) r
  if lost != 0 then some (mkEv 0x05 0 pos lost 0 f.toNat k)
  else if !fwValid f then some (mkEv 0x09 f.toNat pos act 0 0 k)
  else none

/-- R360: the active lanes whose word index is out of range. -/
def indexCheck (e : Env) (act : LaneMask) (r : Reg) : Option Raised :=
  let bad := maskOf ((lanesOf act).filter fun l => decide (4096 ≤ (rget e.b e.g l r).toNat))
  if bad == 0 then none else some (mkEv 0x22 3 2 bad)

/-- The skeleton of the slot instructions that count a flag: the waits, a fragment with no active lane, whose flag
counts and clears at once (R230), and the checks. -/
def slotExec (g : Guard) (fl : FlagSel) (k : Nat) (srcs dst : List RegUse) (check : Env → LaneMask → Option Raised)
    (go : Env → LaneMask → Out) (s : State) : Out :=
  onIss s fun e =>
    let act := e.active g
    if e.flagFull fl || e.acqPending || slotBusy s e.b e.g.stone k then stall s
    else match e.guardErr g with
      | some ev => .next (raise s ev)
      | none =>
        if act == 0 then .next (retire s)
        else match ((heldCheck e.b e.g act (srcs ++ dst)).or (e.regErr act srcs)).or (check e act) with
          | some ev => .next (raise s ev)
          | none => go e act

/-- An in-flight instruction that binds a slot. -/
def bindOp (e : Env) (fl : FlagSel) (k : Nat) (uses : List RegUse) (fmt : W32) (accs : List Acc) : LongOp :=
  { e.op fl accs with fin := .bind e.g.stone k fmt, ext := extUses uses }

/-! ### `MBIND` (R231) -/

/-- The image's offset and bytes in the scratchpad. -/
def bindSpan (e : Env) (act : LaneMask) (a b : Reg) : Nat × Nat :=
  ((rget e.b e.g (lowLane act) a).toNat, 4 * imageWords e.b.width (rget e.b e.g (lowLane act) b))

/-- The checks of `MBIND`: the vote, the offset, errors in what is read. -/
def bindCheck (k : Nat) (a b : Reg) (e : Env) (act : LaneMask) : Option Raised :=
  let sp := bindSpan e act a b
  let lane := maskOf [lowLane act]
  ((voteCheck e act 3 k b).or ((scratchCode e.b sp.1 sp.2 16).map fun c => mkEv 0x22 c 2 lane)).or
    (if scratchBroken e.s e.b.bid sp.1 sp.2 then some (mkEv 0x60 2 2 lane) else none)

/-- The reads of an image's words. -/
def bindAccs (e : Env) (k off n : Nat) : List Acc :=
  (List.range (n / 4)).map fun i => { space := .scratch, lanes := 0, body := .bind e.g.stone k i (off + 4 * i) }

/-- The sectors of a stretch of scratchpad, read by a lane. -/
def sectorsOf (lane off n : Nat) : List (Nat × Nat) := (nub ((span off n).map sectorOf)).map fun x => (lane, x)

/-- R142, R144: the filter's entries and the tags of the image's sectors. -/
def Env.bindGate (e : Env) (sp : Nat × Nat) (lane : Nat) : Gate :=
  let secs := sectorsOf lane sp.1 sp.2
  (e.filtGate false (scratchTouches secs)).gate e [] ((tagAll e.b e.g.gid false secs).map e.s.setBlock)

/-- `MBIND` (R231). -/
def execMbind (g : Guard) (fl : FlagSel) (k : Nat) (a b : Reg) (s : State) : Out :=
  slotExec g fl k [(2, a, 1), (3, b, 1)] [] (bindCheck k a b) (fun e act =>
    let sp := bindSpan e act a b
    let f : Form := { use := .load, touch := .read, ordered := false, priv := false, staged := false }
    e.after f (e.bindGate sp (lowLane act)) fun s1 _ =>
      .next (launchOp s1 (bindOp e fl k [(2, a, 1), (3, b, 1)] (rget e.b e.g (lowLane act) b) (bindAccs e k sp.1 sp.2)))) s

/-! ### `MPUT` and `MGET` (R232, R233) -/

/-- `MPUT` (R232). -/
def execMput (g : Guard) (fl : FlagSel) (k : Nat) (a b c : Reg) (s : State) : Out :=
  slotExec g fl k [(2, a, 1), (3, b, 1), (4, c, 1)] []
    (fun e act => (voteCheck e act 4 k c).or (indexCheck e act a))
    (fun e act =>
      let ws := (lanesOf act).map fun l => ((rget e.b e.g l a).toNat, rget e.b e.g l b)
      let acc : Acc := { space := .scratch, lanes := act, body := .put e.g.stone k ws }
      .next (launchOp s (bindOp e fl k [(2, a, 1), (3, b, 1), (4, c, 1)] (rget e.b e.g (lowLane act) c) [acc]))) s

/-- R233, R357, R400: an unbound slot, or one of whose words read here is broken. -/
def getCheck (k : Nat) (a : Reg) (e : Env) (act : LaneMask) : Option Raised :=
  let bound := match e.b.slot? e.g.stone k with | some x => x.bound | none => false
  let word := fun l => (rget e.b e.g l a).toNat
  let bad := maskOf ((lanesOf act).filter fun l => e.s.errs.contains (.slot e.b.bid e.g.stone k (word l)))
  if !bound then some (mkEv 0x08 0 3 act 0 0 k)
  else (indexCheck e act a).or (if bad == 0 then none else some (mkEv 0x60 1 3 bad 0 0 k))

/-- The register values a slot instruction delivers. -/
def deliver (e : Env) (fl : FlagSel) (uses : List RegUse) (act : LaneMask) (d : Reg) (f : Nat → W32) (s : State) : Out :=
  let acc : Acc := { space := .scratch, lanes := act, body := .regs ((lanesOf act).map fun l => (l, regValue d, f l)) }
  .next (launchOp s { e.op fl [acc] with ext := extUses uses })

/-- `MGET` (R233). -/
def execMget (g : Guard) (fl : FlagSel) (d : Reg) (k : Nat) (a : Reg) (s : State) : Out :=
  slotExec g fl k [(2, a, 1)] [(1, d, 1)] (getCheck k a)
    (fun e act =>
      let image := match e.b.slot? e.g.stone k with | some x => x.image | none => []
      deliver e fl [(1, d, 1), (2, a, 1)] act d (fun l => sget 0 image (rget e.b e.g l a).toNat) s) s

/-- R233: the format word with bit 31 replaced by the bound bit. -/
def fmtRead (b : Block) (stone k : Nat) : W32 :=
  match b.slot? stone k with
  | none => 0
  | some x => (x.fmt &&& 0x7FFFFFFF) ||| (if x.bound then 0x80000000 else 0)

/-- `MGET.fmt` (R233). -/
def execMgetFmt (g : Guard) (fl : FlagSel) (d : Reg) (k : Nat) (s : State) : Out :=
  slotExec g fl k [] [(1, d, 1)] (fun _ _ => none)
    (fun e act => deliver e fl [(1, d, 1)] act d (fun _ => fmtRead e.b e.g.stone k) s) s

/-- `MFREE` (R234); with no active lane it changes nothing (R230). -/
def execMfree (k : Nat) (s : State) : Out :=
  onIss s fun e =>
    if slotBusy s e.b e.g.stone k then stall s
    else if e.f.exm == 0 then .next (retire s)
    else .next (retire (onIssBlock s fun b => b.onSlot e.g.stone k fun x => { x with bound := false }))

end Sys2Proof.Machine
end

