-- ==== Sys2Proof/Machine/Ras.lean ====
section
/-! DEFINITION. Soft errors, the replace request, the miller's limits, resets, firmware, measurement and
attestation (R20, R398 to R410). -/

namespace Sys2Proof.Machine

/-! ### Counting (R401, R402) -/

/-- R402: some bits of RASST are set with the replace bit; the first setting of that bit signals the host. -/
def raiseReplace (s : State) (bits : W64) : State :=
  let s1 := { s with rasst := s.rasst ||| bits ||| 1 }
  if bitOf s.rasst.toNat 0 then s1 else { s1 with felmirOut := s1.felmirOut ++ [.replaceSignal] }

/-- R401, R402: a corrected error of a die. -/
def countCorrected (s0 : State) (die : Nat) : State :=
  let s := rollWindow s0
  let x := (sget 0 s.rasce die).toNat
  let total := min (fld x 32 32 + 1) (2 ^ 32 - 1)
  let win := min (fld x 0 32 + 1) (2 ^ 32 - 1)
  let s1 := { s with rasce := sset 0 s.rasce die (packFields [(32, 32, total), (0, 32, win)]) }
  if fld s.rasth.toNat 0 16 ≤ win then raiseReplace s1 (1#64 <<< (4 + die)) else s1

/-- R401, R402: a confined uncorrectable error. -/
def countConfined (s : State) : State :=
  let u := min (fld s.rasst.toNat 16 16 + 1) (2 ^ 16 - 1)
  let s1 := { s with rasst := (s.rasst &&& ~~~(0xFFFF#64 <<< 16)) ||| (BitVec.ofNat 64 u <<< 16) }
  if fld s.rasth.toNat 16 16 ≤ u then raiseReplace s1 0 else s1

/-- `RAS_WINDOW_RESTART` (R402): the instant at which a window begins. -/
def execRasWindowRestart (s : State) : Out := if s.window == rasWindow s then .fault .notEnabled else .next (rollWindow s)

/-! ### Resets (R403, R404) -/

/-- What a reset leaves alone: the model's own agenda and counts. -/
def keepModel (old new : State) : State :=
  { new with agenda := old.agenda, turnNo := old.turnNo, nextId := old.nextId }

/-- R99, R309: the host's own memory, which no reset of the device reaches. -/
def hostBytesOf (s : State) : List Host.Cell := s.mem.filter fun c => inHost c.1

/-- A warm reset (R404): bring-up steps 3 to 6 again, with the firmware, its measurements and the miller's limits
as they are; a device that bring-up holds in an earlier step stays held (R403). -/
def warmReset (s : State) : State :=
  let r := keepModel s State.reset
  { r with
    powered := s.powered
    heldStep := s.heldStep.filter fun k => decide (k ≤ 2)
    mem := hostBytesOf s
    hostFails := s.hostFails
    cycle := s.cycle
    gtime := s.gtime
    fuse := s.fuse
    firmware := s.firmware
    waiting := s.waiting
    meas := s.meas
    slow := s.slow
    coolSlow := s.coolSlow
    stopped := s.stopped }

/-- `WARM_RESET` (R404). -/
def execWarmReset (s : State) : Out := .next (warmReset s)

/-- R407: the miller accepts a firmware image. -/
def fwAccepted (s : State) (f : Firmware) : Bool :=
  Config.slhVerify Config.firmwareKey (fwBytes f) f.sig && decide (s.fuse.toNat ≤ f.rollback.toNat)

/-- R403, R405, R407: the firmware and the fused number that bring-up leaves. -/
def bringUpFirmware (s : State) : Firmware × W32 :=
  match s.waiting with
  | none => (s.firmware, s.fuse)
  | some f => if fwAccepted s f then (f, f.rollback) else (s.firmware, s.fuse)

/-- R403: the device held in a step of bring-up, which it reports; nothing of that step and of those after it is done. -/
def bringUpHeld (s : State) (step : Nat) : State :=
  let f := if step ≤ 2 then (s.firmware, s.fuse) else bringUpFirmware s
  let k := if step ≤ 1 then 0 else if step == 2 then 1 else 8
  let r := keepModel s State.reset
  { r with
    heldStep := some step
    mem := hostBytesOf s
    hostFails := s.hostFails
    firmware := f.1
    fuse := f.2
    waiting := if step ≤ 2 then s.waiting else none
    meas := (bringUpMeas f.1).take k ++ List.replicate (8 - k) 0
    felmirOut := [.bringUp step] }

/-- R403: bring-up with every step done, from the image that the flash holds. -/
def broughtUp (s : State) : State :=
  let f := bringUpFirmware s
  let r := keepModel s State.reset
  { r with mem := hostBytesOf s, hostFails := s.hostFails, firmware := f.1, fuse := f.2, meas := bringUpMeas f.1 }

/-- R403, R407: step 2 of bring-up accepts the image that the flash holds. -/
def imageVerifies (s : State) : Bool := fwAccepted s (bringUpFirmware s).1

/-- `COLD_RESET` (R403): bring-up, after power is applied or on the host's request; step 2 holds the device where the
flash's image is not accepted. -/
def execColdReset (s : State) : Out := .next (if imageVerifies s then broughtUp s else bringUpHeld s 2)

/-- R403: a cold reset, or power applied, where a step of bring-up fails that no image makes fail. -/
def bringUpFails (s : State) (step : Nat) : Option State :=
  if 1 ≤ step ∧ step ≤ 6 ∧ (step ≤ 2 ∨ imageVerifies s) then some (bringUpHeld s step) else none

/-- R406: power is gone, and every state with it; the flash and the fuses are not state of a power island. -/
def powerOff (s : State) : State :=
  let r := keepModel s State.reset
  { r with
    powered := false
    mem := hostBytesOf s
    hostFails := s.hostFails
    firmware := s.firmware
    fuse := s.fuse
    waiting := s.waiting
    meas := List.replicate 8 0 }

/-- `MODULE_POWER_LOSS` (R403, R406). -/
def execModulePowerLoss (s : State) : Out := .next (powerOff s)

/-! ### Limits (R20, R406) -/

/-- Something added to a list that holds each thing once. -/
def addOnce {α : Type} [DecidableEq α] (l : List α) (x : α) : List α := if l.contains x then l else l ++ [x]

/-- `POWER_LIMIT` (R20): a die's issue rate is lowered. -/
def execPowerLimit (die : Nat) (s : State) : Out :=
  if die < 4 then .next { s with slow := addOnce s.slow die } else .fault .notEnabled

/-- `COOLANT_LIMIT` (R406): every stone's issue rate is lowered. -/
def execCoolantLimit (k : Coolant) (s : State) : Out := .next { s with coolSlow := addOnce s.coolSlow k }

/-- `COOLANT_RECOVERY` (R406). -/
def execCoolantRecovery (k : Coolant) (s : State) : Out :=
  if s.coolSlow.contains k then .next { s with coolSlow := s.coolSlow.filter (· != k) } else .fault .notEnabled

/-- `JUNCTION_CRITICAL` (R406): the die's stones stop issuing, and RASST's thermal bit is set. -/
def execJunctionCritical (die : Nat) (s : State) : Out :=
  if die < 4 then .next { s with stopped := addOnce s.stopped die, rasst := s.rasst ||| 8 } else .fault .notEnabled

/-- `JUNCTION_RECOVER` (R406): the die has cooled to 95 °C. -/
def execJunctionRecover (die : Nat) (s : State) : Out :=
  if s.stopped.contains die then .next { s with stopped := s.stopped.filter (· != die) } else .fault .notEnabled

/-- `THERMAL_SHUTDOWN` (R406): the module removes its own power. -/
def execThermalShutdown (die : Nat) (s : State) : Out := if die < 4 then .next (powerOff s) else .fault .notEnabled

/-! ### Firmware, measurement and attestation (R405, R409, R410) -/

/-- `FIRMWARE_UPDATE` (R405): the image waits for the next cold reset. -/
def execFirmwareUpdate (fw : Firmware) (s : State) : Out := .next { s with waiting := some fw }

/-- R409: the digest of what is measured: register 2 takes kernel images, the registers above it the driver's digests. -/
def measuredDigest (s : State) (r : Nat) : Measured → Option (BitVec 256)
  | .kernel pa n => if r == 2 then some (sha256 ((span pa n).map s.rd)) else none
  | .digest h => if decide (3 ≤ r) && decide (r < 8) then some h else none

/-- `MEASURE_REQUEST` (R409): the driver's request extends a register. -/
def execMeasureRequest (r : Nat) (x : Measured) (s : State) : Out :=
  match measuredDigest s r x with
  | some h => .next { s with meas := s.meas.set r (extendMeas (s.meas.getD r 0) h) }
  | none => .fault .notEnabled

/-- R410: what the report states: nonce, measurement registers, fused rollback number, RASST. -/
def reportBody (s : State) (nonce : BitVec 256) : List Byte :=
  beBytes 32 nonce.toNat ++ s.meas.flatMap (fun m => beBytes 32 m.toNat) ++ leBytes 4 s.fuse.toNat ++ leBytes 8 s.rasst.toNat

/-- `ATTESTATION_REQUEST` (R410). -/
def execAttestationRequest (nonce : BitVec 256) (s : State) : Out :=
  let b := reportBody s nonce
  .next { s with felmirOut := s.felmirOut ++ [.report (b ++ (Config.slhSign b).toList)] }

/-- `HBM_REFRESH` (R312): a stack's rows are refreshed; no value changes. -/
def execHbmRefresh (stack : Nat) (s : State) : Out := if stack < 8 then .next s else .fault .notEnabled

/-! ### Soft errors (R398 to R400) -/

/-- The die of a block's mill. -/
def blockDie (s : State) (bid : Nat) : Option Nat := (s.block? bid).map fun b => dieOf b.mill

/-- The die that holds a physical address of HBM. -/
def hbmDie (a : Nat) : Option Nat := if a < hbmTop then homeDie a else none

/-- The die of a stored unit, where the unit is there. -/
def errDie (s : State) : ErrLoc → Option Nat
  | .vreg bid _ _ _ => blockDie s bid
  | .ureg bid _ _ => blockDie s bid
  | .preds bid _ _ => blockDie s bid
  | .slot bid _ _ _ => blockDie s bid
  | .scratch bid _ => blockDie s bid
  | .xu bid _ => blockDie s bid
  | .image bid => (s.block? bid).bind fun b => if b.resident then none else hbmDie b.save
  | .l1 mill _ => if mill < 384 then some (dieOf mill) else none
  | .icache mill _ _ => if mill < 384 then some (dieOf mill) else none
  | .leat mill _ => if mill < 384 then some (dieOf mill) else none
  | .rdc die _ => if die < 4 then some die else none
  | .tlb _ die _ _ => if die < 4 then some die else none
  | .unowned die => if die < 4 then some die else none
  | .l2 a => hbmDie a
  | .hbm a => hbmDie a
  | .stamp line => hbmDie (64 * line)
  | .tag line => hbmDie (64 * line)
  | .store line => hbmDie (64 * line)
  | .queue bid gid fid => (s.frag? { bid := bid, gid := gid, fid := fid }).bind fun _ => blockDie s bid
  | .staged bid w => (s.block? bid).bind fun b => if b.staged.any (·.inWord w) then some (dieOf b.mill) else none
  | .watch idx => (s.watch? idx).map fun w => ((w.pages.head?).bind fun (p : Nat × W64) => homeDie (p.1 * 4096)).getD 0

/-- R400: an error recorded, and counted as confined. -/
def noteError (s : State) (l : ErrLoc) : State := countConfined { s with errs := addOnce s.errs l }

/-- R400: a word poisoned. -/
def poisonWord (s : State) (base size : Nat) : State := countConfined { s with poison := addOnce s.poison (poisonUnit base size) }

/-- R400: a watch suspended as a runaway, with its record. -/
def watchError (s : State) (w : Watch) (die : Nat) : State :=
  let s1 := s.onWatch w.idx fun x => { x with susp := true }
  emitRecord s1 { Rec.bare w.ctx 3 1 0x60 s.gtime with die := die, operand := 7, addr := w.base, detail := w.wid, code := 5 } (.watch w.idx)

/-- R399, R400: an L1 line discarded where it is clean; the word of a dirty one is poisoned. -/
def l1Error (s : State) (mill a die : Nat) : State :=
  match l1Find s mill (lineOf a) with
  | none => s
  | some x =>
    if x.dirty.isEmpty then countCorrected (pruneL1 { s with l1 := s.l1.filter fun y => !(y.mill == mill && y.line == x.line) }) die
    else noteError s (.l1 mill (a / 8 * 8))

/-- R399, R400: an error that its code only detects. -/
def uncorrectable (s : State) (l : ErrLoc) (die : Nat) : State :=
  match l with
  | .l1 mill a => l1Error s mill a die
  | .rdc d a => countCorrected { s with rdc := s.rdc.filter fun x => !(x.die == d && x.line == lineOf a) } die
  | .icache mill st line => countCorrected (forgetCode s mill st line) die
  | .tlb m d c page => countCorrected (tlbDrop s m d c page) die
  | .l2 a => poisonWord s (a / 8 * 8) 8
  | .hbm a => poisonWord s (a / 32 * 32) 32
  | .watch idx => (match s.watch? idx with | some w => countConfined (watchError s w die) | none => s)
  | .unowned _ => warmReset s
  | .store line => noteError s (.store (line / 4 * 4))
  | .tag line => noteError { s with errs := addOnce s.errs (.stamp line) } (.tag line)
  | x => noteError s x

/-- R398: a soft error strikes a stored unit; none where the unit is not there. -/
def softError (s : State) (l : ErrLoc) (correctable : Bool) : Option State :=
  (errDie s l).map fun die => if correctable then countCorrected s die else uncorrectable s l die

end Sys2Proof.Machine
end

