-- ==== Sys2Proof/Machine/Clause.lean ====
section
/-! DEFINITION. Clauses: entry and the fates of headers and fetches, starvation, scout prefetches; and the events
of translations, caches and stamps (R38, R41, R42, R57, R79 to R85, R100, R110, R113, R141, R174, R352, R355,
R369). -/

namespace Sys2Proof.Machine

/-! ### Which groups run (R53, R57, R340, R345, R406) -/

/-- R57: no block of the gang is saved. -/
def gangWhole (s : State) (b : Block) : Bool :=
  match s.launchOf b with
  | none => true
  | some l => !l.gang || (s.blocksOf l.id).all fun x => x.ended || x.resident

/-- The group's fragments execute. -/
def groupRuns (s : State) (b : Block) (g : Group) : Bool :=
  b.resident && !b.saving && !b.ended && g.stop.isNone && g.frozen.isNone && gangWhole s b

/-- A fragment that stands between clauses and executes. -/
def entering (s : State) (r : FragRef) : Option (Block × Group × Frag) :=
  match s.frag? r with
  | none => none
  | some (b, g, f) => if groupRuns s b g && f.st == .running && f.line.isNone then some (b, g, f) else none

/-! ### The fetch (R85, R97, R255) -/

/-- The clause line's words at its home. -/
def homeLineWords (s : State) (line : Nat) : List W64 := (List.range 8).map fun i => BitVec.ofNat 64 (s.rdNat (64 * line + 8 * i) 8)

/-- The copy from which a stone's fetch is served: its loop buffer's, or else the instruction cache's. -/
def iFind (s : State) (mill stone line : Nat) : Option ILine :=
  (codeFind s mill (some stone) line).or (codeFind s mill none line)

/-- A stone's loop buffer takes a line it fetches, where it has room (log entry 9). -/
def loopFill (s : State) (mill stone line : Nat) (words : List W64) : State :=
  if codeRoom s mill (some stone) line then codePut s mill (some stone) line words else s

/-- A line fetched from its home by a stone: the mill's instruction cache holds it, and the stone's loop buffer where it
has room. -/
def iFill (s : State) (mill stone line : Nat) : State :=
  loopFill (codePut s mill none line (homeLineWords s line)) mill stone line (homeLineWords s line)

/-- Element `k` of a leat's copy lies in a physical line. -/
def leatInLine (s : State) (b : Block) (l : Leat) (line k : Nat) : Bool :=
  match l.desc.addr k with
  | none => false
  | some va => match leatReach s b l va with | .ok x => lineOf x.pa == line | .error _ => false

/-- A leat at work has written some of a line and has more of it to write. -/
def leatTears (s : State) (line : Nat) (l : Leat) : Bool :=
  l.desc.dir && l.frozen.isNone && match s.block? l.bid with
    | none => false
    | some b =>
      let n := l.done / l.desc.e
      !stagesNow s b && ((List.range n).any fun k => leatInLine s b l line k) &&
        (span n (l.desc.total / l.desc.e - n)).any fun k => leatInLine s b l line k

/-- The staged op next in a head block's release order is of a copy that has more of the line to write. -/
def releaseTears (s : State) (line : Nat) (b : Block) : Bool :=
  s.detBlock b && s.isHead b && (match s.launchOf b with | some l => l.relStop.isNone | none => true) &&
    match stagedOrder b with
    | [] => false
    | x :: _ => x.leat && b.staged.any fun o => o.leat && o.seq == x.seq && match o.body with
      | .access accs _ => accs.any fun a => a.touches.any fun i => lineOf i == line
      | _ => false

/-- R85, R270: a copy is part way through a line: a fetch waits, so that it is wholly old or wholly new (log entry 26). -/
def lineTorn (s : State) (line : Nat) : Bool := s.leats.any (leatTears s line) || s.blocks.any (releaseTears s line)

/-- What the fetch of the clause at a PC gives: its words and the state, the event of its checks, or nothing
where the mill does not hold the line (log entry 26), has no room for it, or a copy is part way through it. -/
inductive Fetch where
  | got (s : State) (words : List W64)
  | fail (ev : Raised)
  | absent

/-- R400: a poisoned word of the line. -/
def linePoison (s : State) (line : Nat) : Option Nat := wordCode s (64 * line) 64

/-- The fetch of the clause at a PC by a stone, from the mill or from the line's home. -/
def fetchClause (s : State) (b : Block) (stone : Nat) (pc : W64) (lanes : LaneMask) (cached : Bool) : Fetch :=
  if noSlot pc then .fail (mkEv 0x02 2 0 lanes)
  else
    let va := (lineAddr pc).toNat % 2 ^ 56
    match reach s b.mill b.ctx .fetch false (s.detBlock b) va with
    | .error k => .fail (mkEv k.1 k.2 0 lanes (pc.toNat % 2 ^ 56))
    | .ok x =>
      let line := lineOf x.pa
      let s1 := tlbFill s b.mill b.ctx va
      if cached then
        (match iFind s b.mill stone line with | none => .absent | some y => .got (loopFill s1 b.mill stone line y.words) y.words)
      else match linePoison s line with
        | some k => .fail (mkEv 0x60 k 0 lanes (pc.toNat % 2 ^ 56))
        | none => if codeRoom s b.mill none line && !lineTorn s line then .got (iFill s1 b.mill stone line) (homeLineWords s line) else .absent

/-! ### Entry (R81, R174) -/

/-- The slot index of a PC (R79). -/
def slotIndex (pc : W64) : Nat := fld pc.toNat 3 3

/-- R174: the header refuses an entry at a slot. -/
def headerRefuses (h : W64) (pc : W64) : Bool :=
  let n := fld h.toNat 20 3
  let a := fld h.toNat 12 4
  let b := fld h.toNat 16 4
  n == 0 || (12 ≤ a && a ≤ 14) || (12 ≤ b && b ≤ 14) || n ≤ slotIndex pc

/-- R81: every flag of the wait mask is clear. -/
def waitClear (g : Group) (h : W64) : Bool := (List.range 12).all fun i => !bitOf h.toNat i || g.flag i == 0

/-- R73: a fragment starts no clause while an instruction that uses no flag is in flight in lanes it holds. -/
def flagless (s : State) (r : FragRef) (f : Frag) : Bool := (s.opsOf r.bid r.gid).any fun o => !o.aside && o.hold &&& f.held != 0

/-- R81, R73: nothing keeps the fragment from its clause; one saved within it has entered it already. -/
def mayEnter (s : State) (r : FragRef) (g : Group) (f : Frag) (h : W64) : Bool :=
  f.mid || (waitClear g h && !flagless s r f)

/-- The PC after one slot, where no header says where the clause ends. -/
def slotAfter (pc : W64) : W64 := if slotIndex pc < 6 then pc + 8 else lineAddr pc + 64

/-- An event raised at a fragment's entry, at the entry slot's PC (R174). -/
def raiseEntry (s : State) (r : FragRef) (f : Frag) (word : W64) (ev : Raised) : State :=
  stopGroup s r.bid r.gid { fid := r.fid, pc := f.pc, next := slotAfter f.pc, word := word, ev := ev, time := s.gtime, cycle := s.cycle }

/-- The fragment enters the clause it has fetched; a fetch from the home makes it ready only now (R36). -/
def enterClause (s : State) (r : FragRef) (words : List W64) (cached : Bool) : State :=
  s.onFrag r fun f => { f with
    line := some { va := lineAddr f.pc, words := words }
    mid := false
    age := if cached then f.age else s.cycle }

/-- `CLAUSE_ENTRY` (R81, R85, R174). A line fetched from its home whose wait mask is not clear stays with the mill
until it is. -/
def execClauseEntry (r : FragRef) (cached : Bool) (s : State) : Out :=
  match entering s r with
  | none => .fault .notEnabled
  | some (b, g, f) =>
    let lanes := if f.exm != 0 then f.exm else f.held
    match fetchClause s b g.stone f.pc lanes cached with
    | .absent => .fault .notEnabled
    | .fail ev => .next (raiseEntry s r f 0 ev)
    | .got s1 words =>
      let h := words.headD 0
      if headerRefuses h f.pc then .next (raiseEntry s1 r f (words.getD (slotIndex f.pc + 1) 0) (mkEv 0x02 1 6 lanes))
      else if mayEnter s1 r g f h then .next (enterClause s1 r words cached)
      else if cached then .fault .notEnabled
      else .next s1

/-! ### Starvation and scout work (R38, R41, R42) -/

/-- R38: a fragment that has not issued for 256 cycles. -/
def starving (s : State) (f : Frag) : Bool := f.st == .running && decide (f.last + 256 ≤ s.cycle)

/-- `STARVATION_ISSUE` (R38): the fragment goes before every one that is not starved. -/
def execStarvationIssue (r : FragRef) (s : State) : Out :=
  match s.frag? r with
  | none => .fault .notEnabled
  | some (b, g, f) =>
    if groupRuns s b g && starving s f && !f.starved then .next (s.onFrag r fun f => { f with starved := true }) else .fault .notEnabled

/-- The words of the clause line at a virtual address, from the mill or from the home. -/
def peekLine (s : State) (b : Block) (stone : Nat) (pc : W64) : Option (List W64) :=
  match reach s b.mill b.ctx .fetch false (s.detBlock b) ((lineAddr pc).toNat % 2 ^ 56) with
  | .error _ => none
  | .ok x => some (match iFind s b.mill stone (lineOf x.pa) with | some y => y.words | none => homeLineWords s (lineOf x.pa))

/-- R41: a load of the group is pending on a flag that the header's wait mask names. -/
def loadPending (s : State) (bid gid : Nat) (h : W64) : Bool :=
  (s.opsOf bid gid).any fun o => (match o.flag with | some i => bitOf h.toNat i | none => false) && o.accs.any fun a =>
    match a.body with | .load _ _ _ _ => true | .mxload _ _ _ => true | _ => false

/-- R41: the fragment waits on a pending load before a clause that its mill holds. -/
def scoutWaits (s : State) (b : Block) (g : Group) (f : Frag) : Bool :=
  match translate s b.mill b.ctx (lineAddr f.pc).toNat with
  | .error _ => false
  | .ok x => match iFind s b.mill g.stone (lineOf x.pa) with
    | some y => !mayEnter s { bid := b.bid, gid := g.gid, fid := f.fid } g f (y.words.headD 0) && loadPending s b.bid g.gid (y.words.headD 0)
    | none => false

/-- R103: the block whose private region an address lies in. -/
def privAt (b : Block) (va : Nat) : Option Nat :=
  if b.priv.toNat ≤ va && va < b.priv.toNat + b.groups.length * b.width * b.kernel.priv then some b.bid else none

/-- R42: a prefetch brings a line into the L1, non-binding; one that fails translation or protection, or that
reaches a window page or register space, is dropped. -/
def scoutFetch (s : State) (b : Block) (gid va : Nat) : State :=
  match reach s b.mill b.ctx .prefetch false (s.detBlock b) va with
  | .error _ => s
  | .ok x =>
    if inRegs x.pa || !(inHbm x.pa || inHost x.pa) then s
    else
      let s1 := if cacheRoom s b.mill .group [lineOf x.pa] then
        fillCaches s b.mill .group (servedAt s b.mill 0 [x.pa]) (privAt b va) b.ctx [x.pa] else s
      bumpCtr (tlbFill s1 b.mill b.ctx va) b.bid gid 6 1

/-! ### Translations, evictions and the sweep (R100, R110, R113, R141) -/

/-- `PAGE_WALK_COMPLETE` (R100, R370): the die holds the translation, where the walk succeeds. -/
def execPageWalkComplete (ctx die : Nat) (va : W64) (s : State) : Out :=
  if (s.ctx ctx).present && !(s.ctx ctx).leaving && decide (die < 4) then .next (walkFill s die ctx va.toNat) else .fault .notEnabled

/-- `L1_EVICTION` (R105, R110). -/
def execL1Eviction (mill line : Nat) (s : State) : Out :=
  match l1Find s mill line with
  | none => .fault .notEnabled
  | some x => .next (evictL1 s x)

/-- `RDC_EVICTION` (R113): the RDC holds no newer copy than the home. -/
def execRdcEviction (die line : Nat) (s : State) : Out :=
  match rdcFind s die line with
  | none => .fault .notEnabled
  | some _ => .next { s with rdc := s.rdc.filter fun x => !(x.die == die && x.line == line) }

/-- `STAMP_SWEEP` (R141): a stamp of an earlier epoch is cleared. -/
def execStampSweep (line : Nat) (s : State) : Out :=
  let x := sget 0 s.stamps line
  if x == 0 || x.extractLsb' 56 8 == s.epoch then .fault .notEnabled else .next { s with stamps := sset 0 s.stamps line 0 }

end Sys2Proof.Machine
end

