-- ==== Sys2Proof/Machine/Scout.lean ====
section
/-! DEFINITION. The scout's run ahead of a fragment: what it computes on its own copy of the state, the addresses it
reaches, and the prefetches it sends (R41, R42, R329; log entry 27). -/

namespace Sys2Proof.Machine

/-- An instruction that the scout runs on its own copy of the state: the registers and predicates it reads and writes. -/
structure ScoutOp where
  reads  : List Reg
  preds  : List Nat
  writes : List Reg
  sets   : List Nat
  run    : State → Out

/-- `n` registers from one upward. -/
def regRun (r : Reg) (n : Nat) : List Reg := (List.range n).map (regUp r)

/-- The registers that the instructions of a form read: a source's, one or two. -/
def srcRun (wide : Bool) : Src → List Reg
  | .reg r => regRun r (if wide then 2 else 1)
  | .map _ n => regRun (.v n) 2
  | _ => []

/-- An instruction from sources of one width to a register or pair. -/
def scoutCalc (wide : Bool) (srcs : List Src) (dwide : Bool) (d : Reg) (run : State → Out) : ScoutOp :=
  { reads := srcs.flatMap (srcRun wide), preds := [], writes := regRun d (if dwide then 2 else 1), sets := [], run := run }

/-- An instruction from sources of one width to a predicate. -/
def scoutTest (wide : Bool) (srcs : List Src) (pd : Nat) (run : State → Out) : ScoutOp :=
  { reads := srcs.flatMap (srcRun wide), preds := [], writes := [], sets := [pd], run := run }

/-- An instruction among predicates. -/
def scoutPreds (reads preds : List Nat) (d : List Reg) (run : State → Out) : ScoutOp :=
  { reads := [], preds := reads, writes := d, sets := preds, run := run }

/-- Every predicate of a lane. -/
def everyPred : List Nat := List.range 12

/-- What `POLL` writes, as registers and as predicates. -/
def pollTargets : PollOp → List Reg × List Nat
  | .every p => ([], [p])
  | .some p => ([], [p])
  | .same p => ([], [p])
  | .bits d => (regRun d 2, [])
  | .count d => ([d], [])
  | .first d => ([d], [])

/-- R41, R42: the instructions that the scout runs: those that compute in registers, predicates and `$exm` alone and
draw nothing. -/
def scoutOp : Instr → Option ScoutOp
  | .iadd g al t d a b => some (scoutCalc t.wide [a, b] t.wide d (execIadd g al t d a b))
  | .iadd3 g al t d a b c => some (scoutCalc t.wide [a, b, c] t.wide d (execIadd3 g al t d a b c))
  | .isub g al t d a b => some (scoutCalc t.wide [a, b] t.wide d (execIsub g al t d a b))
  | .imul g al t d a b => some (scoutCalc t.wide [a, b] t.wide d (execImul g al t d a b))
  | .imulh g al t d a b => some (scoutCalc t.wide [a, b] t.wide d (execImulh g al t d a b))
  | .imad g al t d a b c => some (scoutCalc t.wide [a, b, c] t.wide d (execImad g al t d a b c))
  | .imin g al t d a b => some (scoutCalc t.wide [a, b] t.wide d (execImin g al t d a b))
  | .imax g al t d a b => some (scoutCalc t.wide [a, b] t.wide d (execImax g al t d a b))
  | .iabs g al t d a => some (scoutCalc t.wide [a] t.wide d (execIabs g al t d a))
  | .ineg g al t d a => some (scoutCalc t.wide [a] t.wide d (execIneg g al t d a))
  | .lea g sgn sh d a b => some (scoutCalc true [.reg a, b] true d (execLea g sgn sh d a b))
  | .lop g op w d a b => some (scoutCalc w [.reg a, b] w d (execLop g op w d a b))
  | .bits3 g f d a b c => some (scoutCalc false [.reg a, .reg b, .reg c] false d (execBits3 g f d a b c))
  | .shl g t d a b => some (scoutCalc t.wide [.reg a, b] t.wide d (execShl g t d a b))
  | .shr g t d a b => some (scoutCalc t.wide [.reg a, b] t.wide d (execShr g t d a b))
  | .sar g t d a b => some (scoutCalc t.wide [.reg a, b] t.wide d (execSar g t d a b))
  | .fsh g l c d a b x => some (scoutCalc false [.reg a, .reg b, x] false d (execFsh g l c d a b x))
  | .bfe g t d a b => some (scoutCalc t.wide [.reg a, b] t.wide d (execBfe g t d a b))
  | .bfi g t d a b c => some (scoutCalc t.wide [.reg a, .reg b, c] t.wide d (execBfi g t d a b c))
  | .bysel g d a b c => some (scoutCalc false [.reg a, .reg b, c] false d (execBysel g d a b c))
  | .popc g t d a => some (scoutCalc t.wide [a] false d (execPopc g t d a))
  | .clz g t d a => some (scoutCalc t.wide [a] false d (execClz g t d a))
  | .brev g t d a => some (scoutCalc t.wide [a] t.wide d (execBrev g t d a))
  | .icmp g al cc t pd a b => some (scoutTest t.wide [a, b] pd (execIcmp g al cc t pd a b))
  | .sel g al t d a b pc => some { scoutCalc t.wide [a, b] t.wide d (execSel g al t d a b pc) with preds := [pc] }
  | .mov g t d a => some (scoutCalc t.wide [a] t.wide d (execMov g t d a))
  | .movi g t d x => some (scoutCalc t.wide [] t.wide d (execMovi g t d x))
  | .plop g f pd pa pb pc => some (scoutPreds [pa, pb, pc] [pd] [] (execPlop g f pd pa pb pc))
  | .pmovPack g d => some (scoutPreds everyPred [] [d] (execPmovPack g d))
  | .pmovUnpack g a b => some { scoutPreds [] everyPred [] (execPmovUnpack g a b) with reads := srcRun false (.reg a) ++ srcRun false b }
  | .pmovCopy g pd pa => some (scoutPreds [pa] [pd] [] (execPmovCopy g pd pa))
  | .poll g op pa => some (scoutPreds [pa] (pollTargets op).2 (pollTargets op).1 (execPoll g op pa))
  | .maskRd g d => some (scoutPreds [] [] (regRun d 2) (execMaskRd g d))
  | .maskRdHeld g d => some (scoutPreds [] [] (regRun d 2) (execMaskRdHeld g d))
  | .lanex g m w d a b => some (scoutCalc w [.reg a, b] w d (execLanex g m w d a b))
  | .fmin g al k d a b => some (scoutCalc false [a, b] false d (execFmin g al k d a b))
  | .fmax g al k d a b => some (scoutCalc false [a, b] false d (execFmax g al k d a b))
  | .fcmp g al cc pd a b => some (scoutTest false [a, b] pd (execFcmp g al cc pd a b))
  | .cvt g al m dt st d j a i =>
    if m == .sr then none
    else some { scoutCalc (ctyWide st) [a] (ctyWide dt) d (execCvt g al m dt st d j a i) with
      reads := srcRun (ctyWide st) a ++ regRun d (if ctyWide dt then 2 else 1) }
  | .srd g d r => some (scoutCalc false [] (wideSpecial r) d (execSrd g d r))
  | _ => none

/-- The registers and predicates that any other instruction writes, whose values the scout does not know (log entry 27). -/
def scoutLoses : Instr → List Reg × List Nat
  | .ld _ _ t _ d _ _ | .ldAcq _ _ t _ d _ _ | .lds _ _ t d _ _ | .ldl _ _ t d _ _ => (regRun d (dtRegs t), [])
  | .ldf _ _ _ t _ d _ _ => (regRun d (dtRegs t), [])
  | .mxld _ _ _ _ d _ _ _ => (regRun d 2, [])
  | .atom _ _ _ _ _ _ d _ _ _ | .atoms _ _ _ _ d _ _ _ => (regRun d 2, [])
  | .fadd _ _ _ d _ _ | .fmul _ _ _ d _ _ | .ffma _ _ _ d _ _ _ => ([d], [])
  | .fclass _ _ d _ => ([d], [])
  | .fclassTest _ _ pd _ _ => ([], [pd])
  | .hadd2 _ _ _ _ d _ _ | .hmul2 _ _ _ _ d _ _ | .hfma2 _ _ _ _ d _ _ _ => ([d], [])
  | .frcp _ _ _ d _ | .frsq _ _ _ d _ | .fsqrt _ _ _ d _ => ([d], [])
  | .fexp2 _ _ d _ | .flog2 _ _ d _ | .fsin _ _ d _ | .fcos _ _ d _ | .ftanh _ _ d _ => ([d], [])
  | .cvt _ _ _ _ _ d _ _ _ => (regRun d 2, [])
  | .qnt _ _ _ d _ => (regRun d 2, [])
  | .dqnt _ _ d _ => (regRun d 8, [])
  | .rand _ _ d => (regRun d 2, [])
  | .mget _ _ d _ _ | .mgetFmt _ _ d _ => (regRun d 2, [])
  | .pharv pd _ | .phtest pd _ _ | .qpushNb pd _ _ | .lwaitNb pd _ _ => ([], [pd])
  | .qpop d _ => ([d], [])
  | .qpopNb d p _ => ([d], [p])
  | .call _ d _ => (regRun d 2, [])
  | .watch d _ => ([d], [])
  | .trigi _ _ d => (regRun d 2, [])
  | .regxAcq => (regRun (.v 128) 64, [])
  | _ => ([], [])

/-- The scout's copy of the state, and the registers and predicates it does not know. -/
structure Scout where
  s     : State
  regs  : List Reg
  preds : List Nat
  deriving DecidableEq, Repr

/-- The registers that an in-flight instruction has yet to write. -/
def LongOp.owes (o : LongOp) : List Reg :=
  (o.accs.flatMap fun a => match a.body with
    | .load _ d t _ => regRun d (dtRegs t)
    | .atom _ _ _ (some d) _ => regRun d 2
    | .mxload d _ _ => regRun d 2
    | .regs ws => ws.map fun w => .v w.2.1
    | _ => []) ++
  (match o.fin with | .scales d _ => [regUp d 1] | .xend _ d _ => [d] | _ => [])

/-- The scout knows some registers. -/
def Scout.knows (k : Scout) (rs : List Reg) : Bool := rs.all fun r => !k.regs.contains r

/-- The scout knows a guard. -/
def Scout.sure (k : Scout) (x : Guard) : Bool := guardAlways x || !k.preds.contains x.idx

/-- The scout knows registers and predicates no longer. -/
def Scout.lose (k : Scout) (rs : List Reg) (ps : List Nat) : Scout := { k with regs := nub (k.regs ++ rs), preds := nub (k.preds ++ ps) }

/-- The scout has computed registers and predicates; a guarded instruction leaves those that it did not know unknown. -/
def Scout.learn (k : Scout) (x : Guard) (s : State) (rs : List Reg) (ps : List Nat) : Scout :=
  if guardAlways x then { s := s, regs := k.regs.filter fun r => !rs.contains r, preds := k.preds.filter fun p => !ps.contains p }
  else { k with s := s }

/-- The guard of an instruction that the scout runs, by its word; one without a guard always passes. -/
def wordGuard (w : W64) : Guard := guardOf (fieldsOf w)

/-- The addresses that an instruction generates from registers that the scout knows (R41). -/
def scoutPieces (k : Scout) (e : Env) : Instr → List Piece
  | .ld g _ t _ _ a off | .ldAcq g _ t _ _ a off | .st g _ t _ a off _ | .stRel g _ t _ a off _ =>
    if k.sure g && k.knows (regRun a 2) then e.globalPieces a off (dtBytes t) (e.active g) else []
  | .pref g _ a off => if k.sure g && k.knows (regRun a 2) then e.globalPieces a off 1 (e.active g) else []
  | .ldl g _ t _ a off | .stl g _ t a off _ =>
    if k.sure g && k.knows [a] && (e.privCheck a off (dtBytes t) (e.active g)).isNone then e.privPieces a off (dtBytes t) (e.active g) else []
  | .mxld g _ f _ _ a b off =>
    if k.sure g && k.knows (regRun a 2 ++ regRun b 2) then
      mxPieces (e.active g) (e.globalAddr a off 0) (e.uniAddr b) (mxScales e.b.width (perWord (mxCode f))) 3 else []
  | .mxst g _ f _ a _ c =>
    if k.sure g && k.knows (regRun a 2 ++ regRun c 2) then
      mxPieces (e.active g) (e.globalAddr a 0 0) (e.uniAddr c) (mxScales e.b.width (perWord (mxCode f))) 4 else []
  | .atom g _ _ w _ _ _ a _ _ | .red g _ _ w _ _ a _ _ =>
    if k.sure g && k.knows (regRun a 2) then e.globalPieces a 0 (atomBytes w) (e.active g) else []
  | _ => []

/-- Where the scout goes after an instruction: not on, to the next PC, or to a target as well (log entry 27). -/
inductive ScoutWay where
  | stop
  | on
  | to (g : Guard) (disp : BitVec 36)
  deriving DecidableEq, Repr

/-- R329: the scout stops at an instruction of the expand unit; it follows branches, not a target held in a register. -/
def scoutWay : Instr → ScoutWay
  | .xbegin .. | .xnext .. | .xred .. | .xend .. => .stop
  | .brx .. | .ret .. => .stop
  | .exit g => if guardAlways g then .stop else .on
  | .bra g d => .to g d
  | .call g _ d => .to g d
  | _ => .on

/-- The scout after an instruction of the fragment. -/
def Scout.pass (k : Scout) (e : Env) (i : Instr) (w : W64) : Scout :=
  match scoutOp i with
  | none => let x := scoutLoses i; k.lose x.1 x.2
  | some o =>
    if !(k.sure (wordGuard w) && k.knows o.reads && o.preds.all fun p => !k.preds.contains p) then k.lose o.writes o.sets
    else match o.run e.s with
      | .next t =>
        if t.cur.isNone && ((t.group? e.i.f.bid e.i.f.gid).all fun p => p.2.stop.isNone) then k.learn (wordGuard w) t o.writes o.sets
        else k.lose o.writes o.sets
      | _ => k.lose o.writes o.sets

/-- The PCs at which the scout goes on after an instruction: both ways of a branch where lanes take both, or where it does
not know the guard. -/
def scoutNext (k : Scout) (e : Env) (i : Instr) : List W64 :=
  match scoutWay i with
  | .stop => []
  | .on => [e.i.next]
  | .to g d =>
    let act := e.active g
    (if k.sure g && act == 0 then [] else [dispTarget e.i.pc d]) ++ if k.sure g && act == e.f.exm then [] else [e.i.next]

/-- R41, R42, R329: running on from a PC over at most `n` slots, and as far as the first instruction of the expand unit,
the scout generates an address that reaches the byte at `va` (log entry 27). -/
def scoutReaches (va : Nat) (r : FragRef) : Nat → Scout → W64 → Bool
  | 0, _, _ => false
  | n + 1, k, pc =>
    if noSlot pc then false
    else match k.s.frag? r with
      | none => false
      | some (b, g, f) =>
        match peekLine k.s b g.stone pc with
        | none => false
        | some ws =>
          let l : Line := { va := lineAddr pc, words := ws }
          let j := slotIndex pc
          if l.count ≤ j then false
          else
            let w := ws.getD (j + 1) 0
            let lit := if j + 1 < l.count then some (ws.getD (j + 2) 0) else none
            let iss : Iss := { f := r, pc := pc, next := nextPc l pc (if takesLit (fieldsOf w) && lit.isSome then 2 else 1), word := w, lit := lit }
            let e : Env := { s := { k.s with cur := some iss }, i := iss, b := b, g := g, f := f }
            let i := decodeSlot b.kernel.maps w lit
            (scoutWay i != .stop && (scoutPieces k e i).any fun p => decide (p.va ≤ va) && decide (va < p.va + p.n)) ||
              (scoutNext k e i).any fun q => scoutReaches va r n (k.pass e i w) q

/-- How far ahead the scout looks, in slots (log entry 27). -/
def scoutReach : Nat := 256

/-- The scout at the start of its run: it does not know what in-flight instructions have yet to write. -/
def scoutStart (s : State) (r : FragRef) : Scout := { s := s, regs := nub ((s.opsOf r.bid r.gid).flatMap LongOp.owes), preds := [] }

/-- `SCOUT_PREFETCH` (R41, R42, R329): that its stone has no ready fragment is a condition of the move (R41). -/
def execScoutPrefetch (r : FragRef) (va : W64) (s : State) : Out :=
  match entering s r with
  | none => .fault .notEnabled
  | some (b, g, f) =>
    if b.kernel.scout && g.handler.isNone && scoutWaits s b g f && decide (va.toNat < 2 ^ 56) &&
        scoutReaches va.toNat r scoutReach (scoutStart s r) f.pc then
      .next (scoutFetch s b r.gid va.toNat)
    else .fault .notEnabled

end Sys2Proof.Machine
end

