-- ==== Sys2Proof/Machine/Staged.lean ====
section
/-! DEFINITION. The sequencer of deterministic launches: the release of staged ops (R313 to R318, R348, R376,
R380). -/

namespace Sys2Proof.Machine

/-! ### Which block releases (R314, R317) -/

/-- The lowest block of some blocks that has staged ops. -/
def lowestStaged (bs : List Block) : Option Block :=
  (bs.filter fun b => !b.staged.isEmpty).foldl (fun m b => match m with
    | none => some b
    | some x => if b.index.toNat < x.index.toNat then some b else some x) none

/-- R314, R317: the block whose staged ops are performed next: the head, or at a barrier of the gang the lowest
block that has any. -/
def releaser (s : State) (l : Launch) : Option Block :=
  match (s.blocksOf l.id).find? fun b => b.index.toNat == l.head && !b.staged.isEmpty with
  | some b => some b
  | none => if barrierFull s l.id then lowestStaged (s.blocksOf l.id) else none

/-! ### The effect of one op -/

/-- What the release of an op comes to. -/
inductive Release where
  /-- The op is performed. -/
  | done (s : State)
  /-- The op has begun, and waits for others. -/
  | sent (s : State)
  /-- The op waits. -/
  | wait
  /-- The op fails: cause, code, detail, address and lanes. -/
  | fail (s : State) (ev : Raised)

/-- R376: the stamps of a staged write, taken as it is released. -/
def releaseStamps (s : State) (b : Block) (x : StagedOp) (atomic : Bool) (ts : List SectorTouch) : Except Raised State :=
  match stampAll s b.ident (if atomic then .atomic else .write) ts with
  | .ok s1 => .ok s1
  | .error ev => .error { ev with lanes := x.lanes }

/-- R400: the code of an error in what a staged atomic reads, and its physical address. -/
def releasePoison (s : State) (accs : List Acc) : Option (Nat × Nat) :=
  accs.findSome? fun a => match a.body with
    | .atom p _ w _ _ => (span p (atomBytes w)).findSome? fun i => (byteCode s i).map fun k => (k, p)
    | _ => none

/-- R381: the host fails the access of some staged op to its pages. -/
def releaseHost (s : State) (accs : List Acc) : Option Nat :=
  if accs.any fun a => a.touches.any inHost then s.hostFails else none

/-- Staged writes and atomics performed (R314, R376). -/
def releaseAccess (s : State) (b : Block) (x : StagedOp) (accs : List Acc) (checks : List (W64 × Nat × Bool)) : Release :=
  let ts := checks.map fun (c : W64 × Nat × Bool) => ({ lane := lowLane x.lanes, va := c.1.toNat, pa := c.2.1 } : SectorTouch)
  if linesOwed s ts then .wait
  else match releasePoison s accs, releaseHost s accs with
  | some (k, _), _ => .fail s (mkEv 0x60 k 2 x.lanes)
  | none, some k => .fail s (mkEv 0x28 k 2 x.lanes)
  | none, none =>
    match releaseStamps s b x (checks.any fun (c : W64 × Nat × Bool) => c.2.2) ts with
    | .error ev => .fail s ev
    | .ok s1 => .done (releaseAccs s1 b.bid x.gid x.leat accs)

/-- The sequencer as the party that waits for far answers of a block. -/
def releaseRef (b : Block) (x : StagedOp) : FragRef := { bid := b.bid, gid := x.gid, fid := releaseFid }

/-- A staged far write: its requests go out, and it is performed when every target has answered (R317, R380). -/
def releaseFar (s : State) (b : Block) (x : StagedOp) (reqs : List (Nat × FarReq)) : Release :=
  let f := releaseRef b x
  let mine := s.awaits.filter fun a => a.f == f
  if mine.isEmpty then .sent (sendFar s f false reqs)
  else if mine.any (·.got.isNone) then .wait
  else
    let s1 := { s with awaits := s.awaits.filter fun a => a.f != f }
    match joinAnswers mine with
    | .ok _ => .done s1
    | .fail c k lanes =>
      let low := (reqs.flatMap fun (q : Nat × FarReq) => q.2.accs).find? fun a => a.lane == lowLane lanes
      .fail s1 (mkEv c k 2 lanes (match low with | some a => a.addr.toNat | none => 0))

/-- A word or a slot that the sequencer reaches for a staged op: its translation, with its sectors on checked pages
(R317, R381); `n` is its size. -/
def releasePlace (s : State) (b : Block) (x : StagedOp) (u : Use) (va n : Nat) : Except Raised (Nat × List SectorTouch) :=
  match reach s b.mill b.ctx u false true va with
  | .error k => .error (mkEv k.1 k.2 2 x.lanes va)
  | .ok t =>
    match (if inHost t.pa then s.hostFails else none), (if u == .atomic then wordCode s t.pa n else none) with
    | some k, _ => .error (mkEv 0x28 k 2 x.lanes va)
    | none, some k => .error (mkEv 0x60 k 2 x.lanes va)
    | none, none =>
      .ok (t.pa, if leafChecked t.leaf then (List.range ((n + 15) / 16)).map fun i => { lane := lowLane x.lanes, va := va + 16 * i, pa := t.pa + 16 * i } else [])

/-- A staged `LAUNCH` (R291, R317). -/
def releaseLaunch (s : State) (b : Block) (x : StagedOp) (q : Nat) (pkt : List W64) : Release :=
  if ringFull s b.ctx q then .wait
  else match releasePlace s b x .mxstore (nextSlot s b.ctx q) 64 with
    | .error ev => .fail s ev
    | .ok (pa, ts) =>
      if linesOwed s ts then .wait
      else match releaseStamps s b x false ts with
      | .error ev => .fail s ev
      | .ok s1 => .done (ringPush s1 b x.gid q pa pkt)

/-- A staged `SIGNAL` (R292, R317). -/
def releaseSignal (s : State) (b : Block) (x : StagedOp) (va v : W64) : Release :=
  match releasePlace s b x .atomic va.toNat 8 with
  | .error ev => .fail s ev
  | .ok (pa, ts) =>
    if linesOwed s ts then .wait
    else match releaseStamps s b x true ts with
    | .error ev => .fail s ev
    | .ok s1 => .done (homeAtomics s1 b.mill b.ctx (s.storerOf b x.gid) (lineOf pa) .add .b64 [(pa, [(v, 0)])]).2

/-- The release of one op; one whose staged bytes hold an error fails (R398). -/
def releaseOp (s : State) (b : Block) (x : StagedOp) : Release :=
  if x.broken s b.bid then .fail s (mkEv 0x60 6 2 x.lanes)
  else match x.body with
  | .access accs checks => releaseAccess s b x accs checks
  | .far reqs => releaseFar s b x reqs
  | .launch q pkt => releaseLaunch s b x q pkt
  | .signal va v => releaseSignal s b x va v

/-! ### The sequencer's step -/

/-- R317, R376: the op's record with master 6, the freeze of the launch's queue, and release stopped at the op. -/
def releaseFault (s : State) (l : Launch) (b : Block) (x : StagedOp) (ev : Raised) : State :=
  let r := Rec.ofBlock s b
    { Rec.bare b.ctx 6 1 ev.cause s.gtime with
      operand := ev.operand
      stone := match b.group? x.gid with | some g => g.stone | none => 0
      gid := x.gid
      fid := x.fid
      lanes := ev.lanes
      pc := x.pc
      word := x.word
      addr := ev.addr
      detail := ev.detail
      code := ev.code }
  let s1 := freezeLaunchQueue (emitRecord s r (.queue l.queue)) l.queue (.release l.id) r l.packet
  s1.onLaunch l.id fun l => { l with relStop := some b.bid }

/-- The head of a launch has ended with nothing staged. -/
def headOver (s : State) (l : Launch) : Bool :=
  (s.blocksOf l.id).any fun b => b.index.toNat == l.head && b.ended && b.staged.isEmpty

/-- The head goes on over blocks that are over. -/
def releaseOn (s : State) (l : Launch) : State := releaseHeads l.id (s.blocks.length + l.next + 1) s

/-- An op leaves the staging area; the head goes on over blocks that are over, and a barrier that waited for
the release completes. -/
def releaseNext (s : State) (l : Launch) (b : Block) (x : StagedOp) : State :=
  barrierCheck (releaseOn (unstage s b.bid x) l) l.id

/-- `STAGED_OP_RELEASE` (R314, R317, R376): the next staged op of a launch, in release order. -/
def execStagedOpRelease (lid : Nat) (s : State) : Out :=
  match s.launch? lid with
  | none => .fault .notEnabled
  | some l =>
    if l.relStop.isSome then .fault .notEnabled
    else match releaser s l with
      | none => if headOver s l then .next (releaseOn s l) else .fault .notEnabled
      | some b =>
        match stagedOrder b with
        | [] => .fault .notEnabled
        | x :: _ =>
          match releaseOp s b x with
          | .done s1 => .next (releaseNext s1 l b x)
          | .fail s1 ev => .next (releaseFault s1 l b x ev)
          | .sent s1 => .next s1
          | .wait => .fault .notEnabled

end Sys2Proof.Machine
end

