-- ==== Sys2Proof/Machine/Dispatch.lean ====
section
/-! DEFINITION. Execution by dispatch: one direct call of its meaning for each instruction of Syntax.lean. -/

namespace Sys2Proof.Machine

open Sys2Proof

/-- The effect of an instruction or event. -/
def exec (i : Instr) (s : State) : Host.Outcome State Fault Refusal :=
  match i with
  | .nop => Sys2Proof.Machine.execNop s
  | .bra g disp => Sys2Proof.Machine.execBra g disp s
  | .brx g a => Sys2Proof.Machine.execBrx g a s
  | .call g d disp => Sys2Proof.Machine.execCall g d disp s
  | .ret g a => Sys2Proof.Machine.execRet g a s
  | .exit g => Sys2Proof.Machine.execExit g s
  | .tok disp => Sys2Proof.Machine.execTok disp s
  | .join => Sys2Proof.Machine.execJoin s
  | .yield => Sys2Proof.Machine.execYield s
  | .sleepRel a => Sys2Proof.Machine.execSleepRel a s
  | .sleepAbs a => Sys2Proof.Machine.execSleepAbs a s
  | .trap g code => Sys2Proof.Machine.execTrap g code s
  | .bkpt g => Sys2Proof.Machine.execBkpt g s
  | .reservedHint w => Sys2Proof.Machine.execReservedHint w s
  | .reservedEmulable w => Sys2Proof.Machine.execReservedEmulable w s
  | .reservedInvalid w => Sys2Proof.Machine.execReservedInvalid w s
  | .iadd g all t d a b => Sys2Proof.Machine.execIadd g all t d a b s
  | .iadd3 g all t d a b c => Sys2Proof.Machine.execIadd3 g all t d a b c s
  | .isub g all t d a b => Sys2Proof.Machine.execIsub g all t d a b s
  | .imul g all t d a b => Sys2Proof.Machine.execImul g all t d a b s
  | .imulh g all t d a b => Sys2Proof.Machine.execImulh g all t d a b s
  | .imad g all t d a b c => Sys2Proof.Machine.execImad g all t d a b c s
  | .imin g all t d a b => Sys2Proof.Machine.execImin g all t d a b s
  | .imax g all t d a b => Sys2Proof.Machine.execImax g all t d a b s
  | .iabs g all t d a => Sys2Proof.Machine.execIabs g all t d a s
  | .ineg g all t d a => Sys2Proof.Machine.execIneg g all t d a s
  | .lea g sgn sh d a b => Sys2Proof.Machine.execLea g sgn sh d a b s
  | .lop g op b64 d a b => Sys2Proof.Machine.execLop g op b64 d a b s
  | .bits3 g f d a b c => Sys2Proof.Machine.execBits3 g f d a b c s
  | .shl g t d a b => Sys2Proof.Machine.execShl g t d a b s
  | .shr g t d a b => Sys2Proof.Machine.execShr g t d a b s
  | .sar g t d a b => Sys2Proof.Machine.execSar g t d a b s
  | .fsh g left clamp d a b c => Sys2Proof.Machine.execFsh g left clamp d a b c s
  | .bfe g t d a b => Sys2Proof.Machine.execBfe g t d a b s
  | .bfi g t d a b c => Sys2Proof.Machine.execBfi g t d a b c s
  | .bysel g d a b c => Sys2Proof.Machine.execBysel g d a b c s
  | .popc g t d a => Sys2Proof.Machine.execPopc g t d a s
  | .clz g t d a => Sys2Proof.Machine.execClz g t d a s
  | .brev g t d a => Sys2Proof.Machine.execBrev g t d a s
  | .icmp g all cc t pd a b => Sys2Proof.Machine.execIcmp g all cc t pd a b s
  | .sel g all t d a b pc => Sys2Proof.Machine.execSel g all t d a b pc s
  | .mov g t d a => Sys2Proof.Machine.execMov g t d a s
  | .movi g t d x => Sys2Proof.Machine.execMovi g t d x s
  | .plop g f pd pa pb pc => Sys2Proof.Machine.execPlop g f pd pa pb pc s
  | .pmovPack g d => Sys2Proof.Machine.execPmovPack g d s
  | .pmovUnpack g a b => Sys2Proof.Machine.execPmovUnpack g a b s
  | .pmovCopy g pd pa => Sys2Proof.Machine.execPmovCopy g pd pa s
  | .poll g op pa => Sys2Proof.Machine.execPoll g op pa s
  | .maskRd g d => Sys2Proof.Machine.execMaskRd g d s
  | .maskRdHeld g d => Sys2Proof.Machine.execMaskRdHeld g d s
  | .maskWr g op a => Sys2Proof.Machine.execMaskWr g op a s
  | .lanex g m b64 d a b => Sys2Proof.Machine.execLanex g m b64 d a b s
  | .fadd g all m d a b => Sys2Proof.Machine.execFadd g all m d a b s
  | .fmul g all m d a b => Sys2Proof.Machine.execFmul g all m d a b s
  | .ffma g all m d a b c => Sys2Proof.Machine.execFfma g all m d a b c s
  | .fmin g all k d a b => Sys2Proof.Machine.execFmin g all k d a b s
  | .fmax g all k d a b => Sys2Proof.Machine.execFmax g all k d a b s
  | .fcmp g all cc pd a b => Sys2Proof.Machine.execFcmp g all cc pd a b s
  | .fclass g all d a => Sys2Proof.Machine.execFclass g all d a s
  | .fclassTest g all pd a b => Sys2Proof.Machine.execFclassTest g all pd a b s
  | .hadd2 g all h m d a b => Sys2Proof.Machine.execHadd2 g all h m d a b s
  | .hmul2 g all h m d a b => Sys2Proof.Machine.execHmul2 g all h m d a b s
  | .hfma2 g all h m d a b c => Sys2Proof.Machine.execHfma2 g all h m d a b c s
  | .frcp g all m d a => Sys2Proof.Machine.execFrcp g all m d a s
  | .frsq g all m d a => Sys2Proof.Machine.execFrsq g all m d a s
  | .fsqrt g all m d a => Sys2Proof.Machine.execFsqrt g all m d a s
  | .fexp2 g all d a => Sys2Proof.Machine.execFexp2 g all d a s
  | .flog2 g all d a => Sys2Proof.Machine.execFlog2 g all d a s
  | .fsin g all d a => Sys2Proof.Machine.execFsin g all d a s
  | .fcos g all d a => Sys2Proof.Machine.execFcos g all d a s
  | .ftanh g all d a => Sys2Proof.Machine.execFtanh g all d a s
  | .cvt g all m dt st d j a ix => Sys2Proof.Machine.execCvt g all m dt st d j a ix s
  | .qnt g m f d a => Sys2Proof.Machine.execQnt g m f d a s
  | .dqnt g f d a => Sys2Proof.Machine.execDqnt g f d a s
  | .rand g k d => Sys2Proof.Machine.execRand g k d s
  | .mbind g fl k a b => Sys2Proof.Machine.execMbind g fl k a b s
  | .mput g fl k a b c => Sys2Proof.Machine.execMput g fl k a b c s
  | .mget g fl d k a => Sys2Proof.Machine.execMget g fl d k a s
  | .mgetFmt g fl d k => Sys2Proof.Machine.execMgetFmt g fl d k s
  | .mfree k => Sys2Proof.Machine.execMfree k s
  | .ld g fl t sc d a off => Sys2Proof.Machine.execLd g fl t sc d a off s
  | .ldAcq g fl t sc d a off => Sys2Proof.Machine.execLdAcq g fl t sc d a off s
  | .st g fl t sc a off b => Sys2Proof.Machine.execSt g fl t sc a off b s
  | .stRel g fl t sc a off b => Sys2Proof.Machine.execStRel g fl t sc a off b s
  | .mxld g fl f sc d a b off => Sys2Proof.Machine.execMxld g fl f sc d a b off s
  | .mxst g fl f sc a b c => Sys2Proof.Machine.execMxst g fl f sc a b c s
  | .pref g sc a off => Sys2Proof.Machine.execPref g sc a off s
  | .cwb g sc a off => Sys2Proof.Machine.execCwb g sc a off s
  | .cinv g sc a off => Sys2Proof.Machine.execCinv g sc a off s
  | .fence sc => Sys2Proof.Machine.execFence sc s
  | .ifence => Sys2Proof.Machine.execIfence s
  | .lds g fl t d a off => Sys2Proof.Machine.execLds g fl t d a off s
  | .sts g fl t a off b => Sys2Proof.Machine.execSts g fl t a off b s
  | .ldl g fl t d a off => Sys2Proof.Machine.execLdl g fl t d a off s
  | .stl g fl t a off b => Sys2Proof.Machine.execStl g fl t a off b s
  | .atom g fl op w o sc d a b c => Sys2Proof.Machine.execAtom g fl op w o sc d a b c s
  | .red g fl op w o sc a b c => Sys2Proof.Machine.execRed g fl op w o sc a b c s
  | .atoms g fl op w d a b c => Sys2Proof.Machine.execAtoms g fl op w d a b c s
  | .phinit a b c => Sys2Proof.Machine.execPhinit a b c s
  | .phregSig a => Sys2Proof.Machine.execPhregSig a s
  | .phregUnsig a => Sys2Proof.Machine.execPhregUnsig a s
  | .phregWait a => Sys2Proof.Machine.execPhregWait a s
  | .phregUnwait a => Sys2Proof.Machine.execPhregUnwait a s
  | .pharv pd a => Sys2Proof.Machine.execPharv pd a s
  | .phwait a pb => Sys2Proof.Machine.execPhwait a pb s
  | .phtest pd a pb => Sys2Proof.Machine.execPhtest pd a pb s
  | .qinit a b c => Sys2Proof.Machine.execQinit a b c s
  | .qpush a b => Sys2Proof.Machine.execQpush a b s
  | .qpushNb pd a b => Sys2Proof.Machine.execQpushNb pd a b s
  | .qpop d a => Sys2Proof.Machine.execQpop d a s
  | .qpopNb d pc a => Sys2Proof.Machine.execQpopNb d pc a s
  | .tdef h a b => Sys2Proof.Machine.execTdef h a b s
  | .tdefAtt h a b c => Sys2Proof.Machine.execTdefAtt h a b c s
  | .tdefUndef h => Sys2Proof.Machine.execTdefUndef h s
  | .regxAcq => Sys2Proof.Machine.execRegxAcq s
  | .regxRel => Sys2Proof.Machine.execRegxRel s
  | .dbarDev => Sys2Proof.Machine.execDbarDev s
  | .dbarDom => Sys2Proof.Machine.execDbarDom s
  | .cpy g fl n => Sys2Proof.Machine.execCpy g fl n s
  | .cpyw g fl n => Sys2Proof.Machine.execCpyw g fl n s
  | .lwait a b => Sys2Proof.Machine.execLwait a b s
  | .lwaitNb pd a b => Sys2Proof.Machine.execLwaitNb pd a b s
  | .xbegin op vs vl deal n => Sys2Proof.Machine.execXbegin op vs vl deal n s
  | .xnext vi vo pd => Sys2Proof.Machine.execXnext vi vo pd s
  | .xred g v => Sys2Proof.Machine.execXred g v s
  | .xend fl d => Sys2Proof.Machine.execXend fl d s
  | .watch d n => Sys2Proof.Machine.execWatch d n s
  | .unwatch a => Sys2Proof.Machine.execUnwatch a s
  | .trigi g k d => Sys2Proof.Machine.execTrigi g k d s
  | .ldf g fl acq t sc d a off => Sys2Proof.Machine.execLdf g fl acq t sc d a off s
  | .stf g fl rel t sc a off b => Sys2Proof.Machine.execStf g fl rel t sc a off b s
  | .redf g fl op w o sc a b => Sys2Proof.Machine.execRedf g fl op w o sc a b s
  | .coll g fl n => Sys2Proof.Machine.execColl g fl n s
  | .launch prio n => Sys2Proof.Machine.execLaunch prio n s
  | .signal a b => Sys2Proof.Machine.execSignal a b s
  | .srd g d r => Sys2Proof.Machine.execSrd g d r s
  | .swr g r a => Sys2Proof.Machine.execSwr g r a s
  | .clauseEntry f cached => Sys2Proof.Machine.execClauseEntry f cached s
  | .starvationIssue f => Sys2Proof.Machine.execStarvationIssue f s
  | .sleepWake f => Sys2Proof.Machine.execSleepWake f s
  | .scoutPrefetch f va => Sys2Proof.Machine.execScoutPrefetch f va s
  | .longLatencyComplete op => Sys2Proof.Machine.execLongLatencyComplete op s
  | .homeWritePerform op line => Sys2Proof.Machine.execHomeWritePerform op line s
  | .pageWalkComplete ctx die va => Sys2Proof.Machine.execPageWalkComplete ctx die va s
  | .l1Eviction mill line => Sys2Proof.Machine.execL1Eviction mill line s
  | .leatElementTransfer mill leat => Sys2Proof.Machine.execLeatElementTransfer mill leat s
  | .stampSweep line => Sys2Proof.Machine.execStampSweep line s
  | .doorbellWrite ctx q x => Sys2Proof.Machine.execDoorbellWrite ctx q x s
  | .ringControlWrite ctx q ctl x => Sys2Proof.Machine.execRingControlWrite ctx q ctl x s
  | .launchPacketHead ctx q => Sys2Proof.Machine.execLaunchPacketHead ctx q s
  | .blockDispatch ctx q p => Sys2Proof.Machine.execBlockDispatch ctx q p s
  | .gangDispatch ctx q ps => Sys2Proof.Machine.execGangDispatch ctx q ps s
  | .triggerBlockDispatch ctx p => Sys2Proof.Machine.execTriggerBlockDispatch ctx p s
  | .blockEnd bid => Sys2Proof.Machine.execBlockEnd bid s
  | .launchCompletion lid => Sys2Proof.Machine.execLaunchCompletion lid s
  | .stagedOpRelease lid => Sys2Proof.Machine.execStagedOpRelease lid s
  | .sliceInstant n => Sys2Proof.Machine.execSliceInstant n s
  | .blockSaveComplete bid => Sys2Proof.Machine.execBlockSaveComplete bid s
  | .blockRestore bid p => Sys2Proof.Machine.execBlockRestore bid p s
  | .trapHandlerStart bid gid image => Sys2Proof.Machine.execTrapHandlerStart bid gid image s
  | .handlerRunEnd bid gid => Sys2Proof.Machine.execHandlerRunEnd bid gid s
  | .faultFreeze bid gid image => Sys2Proof.Machine.execFaultFreeze bid gid image s
  | .fcmdRetry ctx seq => Sys2Proof.Machine.execFcmdRetry ctx seq s
  | .fcmdSkip ctx seq => Sys2Proof.Machine.execFcmdSkip ctx seq s
  | .fcmdKill ctx seq => Sys2Proof.Machine.execFcmdKill ctx seq s
  | .ctxcmdCreate ctx => Sys2Proof.Machine.execCtxcmdCreate ctx s
  | .ctxcmdDestroy ctx => Sys2Proof.Machine.execCtxcmdDestroy ctx s
  | .contextDestroyDone ctx => Sys2Proof.Machine.execContextDestroyDone ctx s
  | .tlbinvPage ctx va sz => Sys2Proof.Machine.execTlbinvPage ctx va sz s
  | .tlbinvAll ctx => Sys2Proof.Machine.execTlbinvAll ctx s
  | .tlbinvDone ctx => Sys2Proof.Machine.execTlbinvDone ctx s
  | .krepl ctx x => Sys2Proof.Machine.execKrepl ctx x s
  | .imageRetire ctx image => Sys2Proof.Machine.execImageRetire ctx image s
  | .sliceScheduleWrite r x => Sys2Proof.Machine.execSliceScheduleWrite r x s
  | .stcovWrite die x => Sys2Proof.Machine.execStcovWrite die x s
  | .registerWrite pa x => Sys2Proof.Machine.execRegisterWrite pa x s
  | .watchArmEffective f => Sys2Proof.Machine.execWatchArmEffective f s
  | .unwatchDone f => Sys2Proof.Machine.execUnwatchDone f s
  | .farRequestReceive r => Sys2Proof.Machine.execFarRequestReceive r s
  | .farAccessTimeout id => Sys2Proof.Machine.execFarAccessTimeout id s
  | .hostAccessTimeout id => Sys2Proof.Machine.execHostAccessTimeout id s
  | .replicaReceive ctx q pkt => Sys2Proof.Machine.execReplicaReceive ctx q pkt s
  | .startBarrierArrival ctx q => Sys2Proof.Machine.execStartBarrierArrival ctx q s
  | .startBarrierComplete ctx q => Sys2Proof.Machine.execStartBarrierComplete ctx q s
  | .startBarrierDispatch ctx q => Sys2Proof.Machine.execStartBarrierDispatch ctx q s
  | .startBarrierTimeout ctx q rank => Sys2Proof.Machine.execStartBarrierTimeout ctx q rank s
  | .dbarDomTimeout lid rank => Sys2Proof.Machine.execDbarDomTimeout lid rank s
  | .collectiveExchange lid tag heads => Sys2Proof.Machine.execCollectiveExchange lid tag heads s
  | .collectiveComplete lid tag vals => Sys2Proof.Machine.execCollectiveComplete lid tag vals s
  | .ptpEventMessage slew => Sys2Proof.Machine.execPtpEventMessage slew s
  | .hostLineRead line cached => Sys2Proof.Machine.execHostLineRead line cached s
  | .hostLineWrite line bytes => Sys2Proof.Machine.execHostLineWrite line bytes s
  | .hostAtomic pa op w v c => Sys2Proof.Machine.execHostAtomic pa op w v c s
  | .hostRegisterAccess pa size wr => Sys2Proof.Machine.execHostRegisterAccess pa size wr s
  | .rasWindowRestart => Sys2Proof.Machine.execRasWindowRestart s
  | .powerLimit die => Sys2Proof.Machine.execPowerLimit die s
  | .coolantLimit k => Sys2Proof.Machine.execCoolantLimit k s
  | .junctionCritical die => Sys2Proof.Machine.execJunctionCritical die s
  | .junctionRecover die => Sys2Proof.Machine.execJunctionRecover die s
  | .thermalShutdown die => Sys2Proof.Machine.execThermalShutdown die s
  | .coldReset => Sys2Proof.Machine.execColdReset s
  | .warmReset => Sys2Proof.Machine.execWarmReset s
  | .firmwareUpdate fw => Sys2Proof.Machine.execFirmwareUpdate fw s
  | .measureRequest r x => Sys2Proof.Machine.execMeasureRequest r x s
  | .attestationRequest nonce => Sys2Proof.Machine.execAttestationRequest nonce s
  | .hbmRefresh stack => Sys2Proof.Machine.execHbmRefresh stack s
  | .farAnswer id r => Sys2Proof.Machine.execFarAnswer id r s
  | .hostAnswer id r => Sys2Proof.Machine.execHostAnswer id r s
  | .spurRouteChange rank live => Sys2Proof.Machine.execSpurRouteChange rank live s
  | .arrivalMessageReceive ctx q a => Sys2Proof.Machine.execArrivalMessageReceive ctx q a s
  | .domainBarrierMessage lid m => Sys2Proof.Machine.execDomainBarrierMessage lid m s
  | .rdcEviction die line => Sys2Proof.Machine.execRdcEviction die line s
  | .coolantRecovery k => Sys2Proof.Machine.execCoolantRecovery k s
  | .modulePowerLoss => Sys2Proof.Machine.execModulePowerLoss s

end Sys2Proof.Machine
end

