-- ==== Sys2Proof/Machine/Issue.lean ====
section
/-! DEFINITION. Issue: the instruction at a fragment's PC, which fragment of a stone issues, and what an issue leaves
(R36 to R40, R82, R85, R106, R179, R294, R406). -/

namespace Sys2Proof.Machine

/-! ### The instruction at a PC (R79, R82, R179) -/

/-- The word of slot index `n` of a line. -/
def Line.slot (l : Line) (n : Nat) : W64 := l.words.getD (n + 1) 0

/-- R179: the next slot of the line, where the slot count includes it. -/
def Line.litAt (l : Line) (pc : W64) : Option W64 :=
  if slotIndex pc + 1 < l.count then some (l.slot (slotIndex pc + 1)) else none

/-- The slots an instruction word takes: two with its literal. -/
def slotsTaken (w : W64) (lit : Option W64) : Nat := if takesLit (fieldsOf w) && lit.isSome then 2 else 1

/-- The issue of a fragment's next instruction from the clause it has fetched. -/
def issOf (r : FragRef) (f : Frag) (l : Line) : Iss :=
  let w := l.slot (slotIndex f.pc)
  let lit := l.litAt f.pc
  { f := r, pc := f.pc, next := nextPc l f.pc (slotsTaken w lit), word := w, lit := lit }

/-- The instruction of an issue, as the group's map slots let its word decode (R176, R341). -/
def instrOf (b : Block) (g : Group) (x : Iss) : Instr := decodeSlot (slotsOf b g) x.word x.lit

/-! ### Whether a fragment issues now (R36, R54) -/

/-- The waits that end when their instruction runs again. -/
def retries : FState → Bool
  | .running => true
  | .blocked (.push _) _ => true
  | .blocked (.pop _) _ => true
  | .blocked (.pointer _ _) _ => true
  | .blocked .filter _ => true
  | _ => false

/-- The fragment is blocked. -/
def isBlocked (f : Frag) : Bool := match f.st with | .blocked _ _ => true | _ => false

/-- A fragment that was blocked is still blocked after its instruction has run again. -/
def stillBlocked (f : Frag) (s : State) (r : FragRef) : Bool :=
  isBlocked f && (match s.frag? r with | some (_, _, f1) => isBlocked f1 | none => false)

/-- The sources of an instruction that a map may supply (R177, R223, R248). -/
def instrSrcs : Instr → List Src
  | .iadd _ _ _ _ a b | .isub _ _ _ _ a b | .imul _ _ _ _ a b | .imulh _ _ _ _ a b | .imin _ _ _ _ a b
  | .imax _ _ _ _ a b | .icmp _ _ _ _ _ a b | .sel _ _ _ _ a b _ | .fadd _ _ _ _ a b | .fmul _ _ _ _ a b
  | .fmin _ _ _ _ a b | .fmax _ _ _ _ a b | .fcmp _ _ _ _ a b | .fclassTest _ _ _ a b | .hadd2 _ _ _ _ _ a b
  | .hmul2 _ _ _ _ _ a b => [a, b]
  | .iadd3 _ _ _ _ a b c | .imad _ _ _ _ a b c | .ffma _ _ _ _ a b c | .hfma2 _ _ _ _ _ a b c => [a, b, c]
  | .iabs _ _ _ _ a | .ineg _ _ _ _ a | .popc _ _ _ a | .clz _ _ _ a | .brev _ _ _ a | .mov _ _ _ a | .maskWr _ _ a
  | .fclass _ _ _ a | .frcp _ _ _ _ a | .frsq _ _ _ _ a | .fsqrt _ _ _ _ a | .fexp2 _ _ _ a | .flog2 _ _ _ a
  | .fsin _ _ _ a | .fcos _ _ _ a | .ftanh _ _ _ a | .cvt _ _ _ _ _ _ _ a _ => [a]
  | .lea _ _ _ _ _ b | .lop _ _ _ _ _ b | .shl _ _ _ _ b | .shr _ _ _ _ b | .sar _ _ _ _ b | .bfe _ _ _ _ b
  | .pmovUnpack _ _ b | .lanex _ _ _ _ _ b | .st _ _ _ _ _ _ b | .stRel _ _ _ _ _ _ b | .sts _ _ _ _ _ b
  | .stl _ _ _ _ _ b => [b]
  | .fsh _ _ _ _ _ _ c | .bfi _ _ _ _ _ c | .bysel _ _ _ _ c => [c]
  | _ => []

/-- The source is a mapped one (R223). -/
def srcMapped : Src → Bool
  | .map _ _ => true
  | _ => false

/-- The mapped sources of an instruction (R223, R227). -/
def mapSources (i : Instr) : Nat := ((instrSrcs i).filter srcMapped).length

/-- R36, R227: the map datapath that the instruction needs serves an earlier instruction. -/
def mapTaken (s : State) (b : Block) (g : Group) (i : Instr) : Bool :=
  mapSources i != 0 && decide (s.cycle < sget 0 s.mapFree (stoneKey b.mill g.stone))

/-- R398, R400: the instruction executed, or the event of an error in the fragment's queue entry, which is then rewritten
(log entry 35). -/
def execIssued (s : State) (b : Block) (g : Group) (f : Frag) (x : Iss) : Out :=
  let bad : ErrLoc := .queue b.bid g.gid f.fid
  if s.errs.contains bad then
    .next (raise { s with cur := some x, errs := s.errs.filter (· != bad) } (mkEv 0x60 8 0 (if f.exm != 0 then f.exm else f.held)))
  else exec (instrOf b g x) { s with cur := some x }

/-- The state with the instruction of a fragment executed whose group runs; none where the fragment is not ready. -/
def runNow (s : State) (r : FragRef) : Option State :=
  match s.frag? r with
  | none => none
  | some (b, g, f) =>
    match f.line with
    | none => none
    | some l =>
      let x := issOf r f l
      if !(groupRuns s b g && retries f.st) || s.stopped.contains (dieOf b.mill) || mapTaken s b g (instrOf b g x) then none
      else match execIssued s b g f x with
        | .next s1 => if s1.cur.isSome || stillBlocked f s1 r then none else some s1
        | _ => none

/-- What a fragment's group stops for since this cycle, through another fragment's issue (R349). -/
def stopNow (s : State) (r : FragRef) : Option Stop :=
  match s.group? r.bid r.gid with
  | none => none
  | some (_, g) => g.stop.filter fun x => x.fid != r.fid && s.issued.any fun m => m.who == { r with fid := x.fid }

/-- R340, R349: of two events of one cycle the group stops for a fault before a trap, and of one class for that of the
lower fragment. -/
def firstStop (x : Stop) : Option Stop → Stop
  | none => x
  | some y =>
    let fx := classOf x.ev.cause != 0
    let fy := classOf y.ev.cause != 0
    if fx != fy then (if fx then x else y) else if x.fid < y.fid then x else y

/-- A group's stop written. -/
def setStop (s : State) (r : FragRef) (f : Option Stop → Option Stop) : State := s.onGroup r.bid r.gid fun g => { g with stop := f g.stop }

/-- The state with a fragment's instruction executed; none where the fragment is not ready. A fragment of the cycle in
which its group stops co-issues still (R37, R349). -/
def attempt (s : State) (r : FragRef) : Option State :=
  match stopNow s r with
  | none => runNow s r
  | some x => (runNow (setStop s r fun _ => none) r).map fun s1 => setStop s1 r fun y => some (firstStop x y)

/-! ### Which fragment issues (R37, R38) -/

/-- The state in which a fragment stands in a clause: it does already, or it enters one that its mill holds. -/
def inClause (s : State) (r : FragRef) : Option State :=
  match s.frag? r with
  | none => none
  | some (_, _, f) =>
    if f.line.isSome then some s
    else match execClauseEntry r true s with
      | .next s1 => if (match s1.frag? r with | some (_, _, f1) => f1.line.isSome | none => false) then some s1 else none
      | _ => none

/-- R36: the fragment is ready: in its clause, or before one that its mill holds (log entry 26). -/
def readyTo (s : State) (r : FragRef) : Bool := match inClause s r with | some s1 => (attempt s1 r).isSome | none => false

/-- R38: the fragment is starved. -/
def starved (s : State) (f : Frag) : Bool := f.starved || starving s f

/-- R37, R38: one fragment goes before another of its stone; blocks and groups stand for group slots (log entry
28). -/
def goesFirst (s : State) (x y : FragRef × Frag) : Bool :=
  if starved s x.2 != starved s y.2 then starved s x.2
  else if x.2.age != y.2.age then decide (x.2.age < y.2.age)
  else if x.1.bid != y.1.bid then decide (x.1.bid < y.1.bid)
  else if x.1.gid != y.1.gid then decide (x.1.gid < y.1.gid)
  else decide (x.1.fid < y.1.fid)

/-- The fragments of a block on a stone. -/
def blockFrags (b : Block) (stone : Nat) : List (FragRef × Frag) :=
  (b.groups.filter (·.stone == stone)).flatMap fun (g : Group) =>
    g.frags.map fun (f : Frag) => (({ bid := b.bid, gid := g.gid, fid := f.fid } : FragRef), f)

/-- The fragments of a stone. -/
def stoneFrags (s : State) (mill stone : Nat) : List (FragRef × Frag) :=
  (s.blocks.filter fun b => b.resident && b.mill == mill).flatMap fun b => blockFrags b stone

/-- Some other fragment of the stone is ready and goes first. -/
def outranked (s : State) (b : Block) (g : Group) (r : FragRef) (f : Frag) : Bool :=
  (stoneFrags s b.mill g.stone).any fun y => y.1 != r && goesFirst s y (r, f) && readyTo s y.1

/-- R37: the code image a group runs. -/
def imageOf (b : Block) (g : Group) : W64 := match g.handler with | some h => h.kimg | none => b.kernel.image

/-- The slot lanes of a fragment. -/
def slotLanes (b : Block) (g : Group) (f : Frag) : LaneMask := f.held <<< (b.width * g.pos)

/-- What a fragment's issue takes of its stone in this cycle. -/
def issueMark (b : Block) (g : Group) (f : Frag) (x : Iss) : StoneIssue :=
  { who := x.f, mill := b.mill, stone := g.stone, ctx := b.ctx, image := imageOf b g, pc := f.pc, lanes := slotLanes b g f,
    mapped := mapSources (instrOf b g x) != 0 }

/-- R37: a fragment joins what its stone has issued in this cycle: the same code of the same context. -/
def coIssues (m x : StoneIssue) : Bool :=
  x.ctx == m.ctx && x.image == m.image && x.pc == m.pc && x.lanes &&& m.lanes == 0 && !x.mapped && !m.mapped

/-- R406: below the coolant's flow limit a stone issues once in 8 cycles (log entry 29). -/
def throttled (s : State) : Bool := s.coolSlow.contains .flow && s.cycle % 8 != 0

/-- R37: the stone lets the fragment issue in this cycle. -/
def mayIssue (s : State) (b : Block) (g : Group) (r : FragRef) (f : Frag) (m : StoneIssue) : Bool :=
  let mine := s.issued.filter fun x => x.mill == m.mill && x.stone == m.stone
  !throttled s && (if mine.isEmpty then !outranked s b g r f else mine.all (coIssues m))

/-! ### What an issue leaves (R294) -/

/-- The scratchpad words some accesses of lanes reach. -/
def bankWords (as : List Acc) : List Nat :=
  nub (as.flatMap fun a => match a.space, a.body with
    | .scratch, .load _ _ _ src => src.map (· / 4)
    | .scratch, .store bytes => bytes.map fun (p : Nat × Byte) => p.1 / 4
    | .scratch, .atom x _ _ _ _ => [x / 4]
    | _, _ => [])

/-- R106: the cycles beyond the first in which an instruction's scratchpad words are served. -/
def bankExtra (as : List Acc) : Nat :=
  let ws := bankWords as
  (ws.foldl (fun m w => max m ((ws.filter fun x => x % 128 == w % 128).length)) 0) - 1

/-- R294: the accesses that an issue has put in flight. -/
def newAccs (s s1 : State) : List Acc := (s1.ops.filter fun o => decide (s.nextId ≤ o.id)).flatMap (·.accs)

/-- R294: `$pcis` and `$pcbank` of the issuing group. -/
def countIssue (s s1 : State) (r : FragRef) : State := bumpCtr (bumpCtr s1 r.bid r.gid 0 1) r.bid r.gid 5 (bankExtra (newAccs s s1))

/-- R227: the first cycle in which the map datapath is free again after the sources of an instruction. -/
def mapUntil (s : State) (b : Block) (i : Instr) : Nat := s.cycle + mapSources i * max 1 (b.width / 16)

/-- R18, R227: the sources of an instruction occupy the map datapath of its stone. -/
def takeMap (s s1 : State) (b : Block) (m : StoneIssue) (i : Instr) : State :=
  if m.mapped then { s1 with mapFree := sset 0 s1.mapFree (stoneKey m.mill m.stone) (mapUntil s b i) } else s1

/-- The state after an issue: what the stone has issued, the counters, and the fragment's last issue. -/
def issued (s s1 : State) (r : FragRef) (m : StoneIssue) : State :=
  (countIssue s { s1 with issued := s1.issued ++ [m] } r).onFrag r fun f => { f with last := s.cycle, starved := false }

/-- The move in which a fragment issues its next instruction (R37). -/
def issueTurn (s : State) (r : FragRef) : Option State :=
  match s.frag? r with
  | none => none
  | some (b, g, f) =>
    match f.line with
    | none => none
    | some l =>
      let m := issueMark b g f (issOf r f l)
      if !mayIssue s b g r f m then none else (attempt s r).map fun s1 => issued s (takeMap s s1 b m (instrOf b g (issOf r f l))) r m

/-! ### What a cycle must issue (R36 to R38) -/

/-- The fragment issues in this cycle, entering its clause first where it stands before one. -/
def canIssue (s : State) (r : FragRef) : Bool := match inClause s r with | some s1 => (issueTurn s1 r).isSome | none => false

/-- Every fragment of the device. -/
def allFrags (s : State) : List FragRef :=
  s.blocks.flatMap fun b => b.groups.flatMap fun g => g.frags.map fun f => { bid := b.bid, gid := g.gid, fid := f.fid }

/-- R20, R406: the issue rate of a fragment's stone is lowered for its die's power or for the coolant's temperature: a
cycle may pass in which the stone does not issue, as the order of moves has it (log entry 29). -/
def slowed (s : State) (r : FragRef) : Bool :=
  s.coolSlow.contains .temperature || (match s.block? r.bid with | some b => s.slow.contains (dieOf b.mill) | none => false)

/-- R37: nothing is left that this cycle issues. -/
def cycleDone (s : State) : Bool := (allFrags s).all fun r => slowed s r || !canIssue s r

/-- No fragment is ready, whatever the datapaths and the coolant let issue. -/
def idle (s : State) : Bool := (allFrags s).all fun r => !readyTo { s with mapFree := [], coolSlow := [] } r

/-- A stone has no ready fragment and has issued nothing in this cycle. -/
def stoneIdle (s : State) (mill stone : Nat) : Bool :=
  (stoneFrags s mill stone).all (fun y => !readyTo s y.1) && s.issued.all fun m => !(m.mill == mill && m.stone == stone)

end Sys2Proof.Machine
end

