-- ==== Sys2Proof/Machine/Turns.lean ====
section
/-! DEFINITION. The moves of a step: an issue, an event, an access served, time, a soft error; and the model's own
scheduler (log entry 2). -/

namespace Sys2Proof.Machine

/-! ### Time (R12, R75, R294) -/

/-- The wait mask of the clause a fragment stands before, where its mill holds the line: whether it is clear. -/
def clauseWait (s : State) (b : Block) (g : Group) (f : Frag) : Option Bool :=
  match translate s b.mill b.ctx (lineAddr f.pc).toNat with
  | .error _ => none
  | .ok x => (iFind s b.mill g.stone (lineOf x.pa)).map fun y => mayEnter s { bid := b.bid, gid := g.gid, fid := f.fid } g f (y.words.headD 0)

/-- R81: a fragment waits on flags to enter a clause that its mill holds. -/
def waitsClause (s : State) (b : Block) (g : Group) (f : Frag) : Bool := f.st == .running && f.line.isNone && clauseWait s b g f == some false

/-- R36: the fragment is ready. -/
def readyNow (s : State) (b : Block) (g : Group) (f : Frag) : Bool := readyTo s { bid := b.bid, gid := g.gid, fid := f.fid }

/-- R36: a fragment that is not ready as time passes has the new cycle for its age; the cycle of its last issue stays (R38). -/
def ageFrag (s : State) (b : Block) (g : Group) (cycles : Nat) (f : Frag) : Frag :=
  if readyNow s b g f then f else { f with age := s.cycle + cycles }

/-- R294: `$pcres` and `$pcwait` of a group over some cycles, and the ages of its fragments. -/
def ageGroup (s : State) (b : Block) (cycles : Nat) (g : Group) : Group :=
  let n := (g.frags.filter (waitsClause s b g)).length
  let c1 := sset 0 g.ctr 1 (sget 0 g.ctr 1 + BitVec.ofNat 64 cycles)
  { g with ctr := sset 0 c1 2 (sget 0 c1 2 + BitVec.ofNat 64 (n * cycles)), frags := g.frags.map (ageFrag s b g cycles) }

/-- The resident groups over some cycles. -/
def ageBlock (s : State) (cycles : Nat) (b : Block) : Block :=
  if b.resident && !b.ended then { b with groups := updIf (fun g => !g.ended) (ageGroup s b cycles) b.groups } else b

/-- A slice instant that has come is dealt with before time goes on (R58, R308). -/
def sliceKept (s : State) (ns : Nat) : Bool :=
  ns == 0 || !bitOf s.slper.toNat 20 || decide (slicesBegun (BitVec.ofNat 64 (s.gtime.toNat + ns - 1)) s.slt0 s.slper ≤ s.slBegun)

/-- R37, R38: a cycle passes when it has issued what it must, and several only while no fragment is ready. -/
def mayTick (s : State) (cycles ns : Nat) : Bool := (cycles == 0 || cycleDone s) && (cycles ≤ 1 || idle s) && sliceKept s ns

/-- Cycles and nanoseconds of domain time pass; a new cycle has issued nothing. -/
def tick (s : State) (cycles ns : Nat) : State :=
  barrierSweep { s with
    cycle := s.cycle + cycles
    gtime := BitVec.ofNat 64 (min (s.gtime.toNat + ns) (2 ^ 64 - 1))
    issued := if cycles == 0 then s.issued else []
    blocks := s.blocks.map (ageBlock s cycles) }

/-- R75, R302: the host sets the time of the grandmaster, rank 0 of its domain; `$gtime` never decreases (log
entry 34). -/
def setTime (s : State) (ns : Nat) : Option State :=
  if s.ctxs.all fun p => !p.2.present || s.rankOf p.1 == 0 then some (barrierSweep { s with gtime := BitVec.ofNat 64 (max s.gtime.toNat (min ns (2 ^ 64 - 1))) }) else none

/-! ### One move -/

/-- A move that may not come about. -/
def orStop (x : Option State) : Out := match x with | some s => .next s | none => .fault .notEnabled

/-- R41: a scout's stone has a ready fragment, or has issued in this cycle. -/
def scoutBusy (s : State) : Instr → Bool
  | .scoutPrefetch r _ => match s.group? r.bid r.gid with | some (b, g) => !stoneIdle s b.mill g.stone | none => false
  | _ => false

/-- R403, R406: what comes about without power, and while bring-up is held in a step: the host's own memory, and another
bring-up, whole or failing; or the loss of power. -/
def resetTurn (t : Turn) (s : State) : Out :=
  match t with
  | .event .coldReset => exec .coldReset s
  | .event .modulePowerLoss => if s.powered then exec .modulePowerLoss s else .fault .notEnabled
  | .bringUpFails k => orStop (bringUpFails s k)
  | .hostMem bytes => orStop (hostMem s bytes)
  | .hostFails k => orStop (hostFail s k)
  | _ => .fault .notEnabled

/-- One move of one agent. -/
def turn (t : Turn) (s : State) : Out :=
  if !s.powered || s.heldStep.isSome then resetTurn t s
  else match t with
    | .issue r => orStop (issueTurn s r)
    | .event e => if scoutBusy s e then .fault .notEnabled else exec e s
    | .perform op k level => orStop (performTurn s op k level)
    | .tick c n => if mayTick s c n then .next (tick s c n) else .fault .notEnabled
    | .setTime ns => orStop (setTime s ns)
    | .softError l c => orStop (softError s l c)
    | .forget m d c page => .next (tlbDrop s m d c page)
    | .forgetCode m st line => .next (forgetCode s m st line)
    | .hostMem bytes => orStop (hostMem s bytes)
    | .hostStore line bytes => orStop (hostStore s line bytes)
    | .hostFails k => orStop (hostFail s k)
    | .replicaSpace c rank full => orStop (replicaSpace s c rank full)
    | .acked c q rank gen => orStop (arrivalAcked s c q rank gen)
    | .domAcked lid rank => orStop (domainAcked s lid rank)
    | .armSlice idx sl => orStop (armSlice s idx sl)
    | .disarmSlice idx sl => orStop (disarmSlice s idx sl)
    | .bringUpFails k => orStop (bringUpFails s k)
    | .adopt c l xs => orStop (adopt s c l xs)
    | .headTold lid h => orStop (headTold s lid h)
    | .conflictMet o => orStop (conflictMet s o)
    | .sendAway bid => orStop (sendAway s bid)
    | .powerWithin die => if s.slow.contains die then .next { s with slow := s.slow.filter (· != die) } else .fault .notEnabled
    | .awayEnded bid => orStop (awayEnded s bid)
    | .auto _ => .next s

/-! ### The model's own scheduler (log entry 2) -/

/-- The moves that serve an in-flight instruction. -/
def opTurns (o : LongOp) : List Turn :=
  if o.fail.isSome then [.conflictMet o.id]
  else
  (numbered o.accs).map (fun (p : Nat × Acc) =>
    if atHome o p.2 then Turn.event (.homeWritePerform o.id (lineOf (p.2.touches.headD 0))) else Turn.perform o.id p.1 (levelOf o.scope)) ++
  [.event (.longLatencyComplete o.id)]

/-- A free stretch of the arena for a group's image. -/
def seekImage (s : State) (b : Block) (g : Group) : Option W64 :=
  (firstFit (s.arena b.ctx).1 (s.arena b.ctx).2 (s.ctx b.ctx).arena (imgSize b.width g.base)).map (BitVec.ofNat 64)

/-- The moves of a group's traps and faults. -/
def trapTurns (s : State) (b : Block) (g : Group) : List Turn :=
  if g.stop.isNone && g.handler.isNone then []
  else
    let a := seekImage s b g
    (match a with | some x => [Turn.event (.trapHandlerStart b.bid g.gid x)] | none => []) ++
      [.event (.faultFreeze b.bid g.gid a), .event (.handlerRunEnd b.bid g.gid)]

/-- The moves of a group's fragments that wait, or that enter a clause. -/
def fragTurns (s : State) (b : Block) (g : Group) : List Turn :=
  g.frags.flatMap fun f =>
    let r : FragRef := { bid := b.bid, gid := g.gid, fid := f.fid }
    match f.st with
    | .sleeping _ _ => [Turn.event (.sleepWake r)]
    | .blocked (.arming _ _) _ => [.event (.watchArmEffective r)]
    | .blocked (.disarming _) _ => [.event (.unwatchDone r)]
    | .running => if f.line.isNone then (if waitsClause s b g f then [] else [.event (.clauseEntry r true), .event (.clauseEntry r false)]) else []
    | _ => []

/-- The moves of a block. -/
def blockTurns (s : State) (b : Block) : List Turn :=
  [.event (.blockEnd b.bid)] ++
    (if b.saving then [Turn.event (.blockSaveComplete b.bid)] else []) ++
    (if b.resident || b.ended then [] else match tryRestore s b some with | some p => [Turn.event (.blockRestore b.bid p)] | none => [])

/-- A placement for what cannot be bound. -/
def noPlace : Placement := { mill := 0, pos := [], priv := 0, save := 0, stage := 0 }

/-- A placement for a trigger block on its die. -/
def seekRecord (s : State) (c : Nat) (t : TrigRec) : Option Placement :=
  match bindKernel s c t.kernel with
  | .error _ => some noPlace
  | .ok k => tryPlacement s c k (planGroups k (some t.sectors.length)) false (some t.die) some

/-- The moves that dispatch a launch's blocks. -/
def launchTurns (s : State) (l : Launch) : List Turn :=
  match kernelNow s l with
  | .error _ => [if l.gang then .event (.gangDispatch l.ctx l.queue []) else .event (.blockDispatch l.ctx l.queue noPlace)]
  | .ok k =>
    match seekLaunch s l k with
    | none => []
    | some ps => if l.gang then [.event (.gangDispatch l.ctx l.queue ps)] else ps.map fun p => .event (.blockDispatch l.ctx l.queue p)

/-- The moves of a context's queues, highest priority first. -/
def queueTurns (s : State) (c : Nat) : List Turn :=
  (match (s.ctx c).trig.head? with
   | none => []
   | some t => match seekRecord s c t with | some p => [Turn.event (.triggerBlockDispatch c p)] | none => []) ++
  (List.range 8).reverse.flatMap fun q =>
    if queueEmpty s c q && (headLaunch s c q).isNone && (replicaDue s c q).isNone then []
    else [Turn.event (.launchPacketHead c q), .event (.startBarrierArrival c q), .event (.startBarrierComplete c q),
      .event (.startBarrierDispatch c q)] ++
      (match headLaunch s c q with | none => [] | some l => if launchReady s l then launchTurns s l else [])

/-- The moves of this device's own far requests (R300). -/
def spurTurns (s : State) : List Turn :=
  s.spurOut.filterMap fun m => match m with
    | .request rank r => if rank == s.rankOf r.ctx && r.rank == rank then some (Turn.event (.farRequestReceive r)) else none
    | .answer rank id r => if s.awaits.any (fun a => a.id == id && a.rank == some rank) then some (.event (.farAnswer id r)) else none
    | _ => none

/-- The moves of a collective that has one member, or that has failed. -/
def collTurns (s : State) (c : Coll) : List Turn :=
  if c.fail.isSome then [.event (.collectiveExchange c.lid c.tag [])]
  else match s.launch? c.lid with
  | some l => if l.nrank == 0 then [.event (.collectiveExchange c.lid c.tag []), .event (.collectiveComplete c.lid c.tag [])] else []
  | none => []

/-- Eight lines that no memory has: as many as one access brings in, and more. -/
def eightLines : List Nat := span (2 ^ 56) 8

/-- The moves that make room in a full cache: its oldest line goes (R11, R16; log entry 9). -/
def roomTurns (s : State) : List Turn :=
  (if s.l1.length + 8 ≤ l1Lines then [] else match s.l1.find? fun x => !l1Room s x.mill eightLines with
    | some x => [Turn.event (.l1Eviction x.mill x.line)] | none => []) ++
  (if s.rdc.length + 8 ≤ rdcLines then [] else match s.rdc.find? fun x => !rdcRoom s x.die eightLines with
    | some x => [Turn.event (.rdcEviction x.die x.line)] | none => []) ++
  (if s.icache.length < codeLines (some 0) then [] else match s.icache.find? fun x => !codeRoom s x.mill x.stone (2 ^ 56) with
    | some x => [Turn.forgetCode x.mill x.stone x.line] | none => [])

/-- The moves of the agents, in the order the scheduler tries them; time passes last. -/
def choices (s : State) : List Turn :=
  roomTurns s ++ s.ops.flatMap opTurns ++ spurTurns s ++
    (s.leats.filter fun l => l.frozen.isNone).map (fun l => Turn.event (.leatElementTransfer l.mill l.idx)) ++
    s.blocks.flatMap (fun b => b.groups.flatMap fun g => trapTurns s b g ++ fragTurns s b g) ++
    s.colls.flatMap (collTurns s) ++
    s.launches.flatMap (fun l => [Turn.event (.stagedOpRelease l.id), .event (.launchCompletion l.id)]) ++
    s.blocks.flatMap (blockTurns s) ++
    (if bitOf s.slper.toNat 20 then [Turn.event (.sliceInstant (slicesBegun s.gtime s.slt0 s.slper - 1))] else []) ++
    (presentCtxs s).flatMap (queueTurns s) ++
    (presentCtxs s).flatMap (fun c => (s.ctx c).images.map (fun u => Turn.event (.imageRetire c u.image)) ++
      [Turn.event (.contextDestroyDone c), .event (.tlbinvDone c)]) ++
    s.blocks.flatMap (fun b => b.groups.flatMap fun g => g.frags.map fun f => Turn.issue { bid := b.bid, gid := g.gid, fid := f.fid }) ++
    [.tick 1 1, .tick 1 0]

/-- The state after a move, where it comes about. -/
def turnNext (s : State) (t : Turn) : Option State := match turn t s with | .next s1 => some s1 | _ => none

/-- The scheduler's move: the first that comes about. -/
def autoMove (s : State) : State := ((choices s).findSome? (turnNext s)).getD s

/-! ### One instruction placed for the next step (log entry 30) -/

/-- The number as two words, the instruction's own and the one that may hold its literal. -/
def tableWords (nbits w : Nat) : List W64 :=
  let x := w % 2 ^ nbits
  [BitVec.ofNat 64 x, BitVec.ofNat 64 (x / 2 ^ 64)]

/-- A clause of seven slots that waits on nothing and names `w0` as set-flag A, with the instruction in slot 1. -/
def placedLine (nbits w : Nat) : Line := { va := 0, words := 0x00000000007F0000 :: tableWords nbits w ++ [0, 0, 0, 0, 0] }

/-- The kernel of the placed block: one group of width 8, 128 base registers, every map slot, no scratchpad. -/
def placedKernel : Kernel where
  image := 0
  index := 0
  width := 8
  roles := [{ entry := 128, groups := 1, base := 128 }]
  ext := 0
  maps := 14
  scratch := 0
  priv := 0
  checked := false
  det := false
  scout := false

/-- The group of the placed block, its fragment in the clause. -/
def placedGroup (l : Line) : Group :=
  let g := startGroup placedKernel { gid := 0, role := 0, spec := { entry := 128, groups := 1, base := 128 } } 0 0 (allLanes 8)
  { g with frags := [{ Frag.start 0 0 (allLanes 8) 0 with line := some l }] }

/-- A resident block of context 0 on mill 0 that runs the clause. -/
def placedBlock (bid : Nat) (l : Line) : Block where
  bid := bid
  ctx := 0
  launch := none
  trig := none
  index := 0
  kernel := placedKernel
  mill := 0
  resident := true
  saving := false
  priv := 0
  save := 0
  stage := none
  scratch := []
  tags := []
  slots := startSlots placedKernel [0]
  exts := []
  xus := []
  staged := []
  ident := { key := bid, blk := 0, launch := none }
  groups := [placedGroup l]
  ended := false
  away := false
  stuck := false
  taken := false
  killed := false

end Sys2Proof.Machine
end

