-- ==== Sys2Proof/Machine/Step.lean ====
section
/-! DEFINITION. The step of the machine, and the placing of one instruction for the next step (log entries 2, 4
and 30). -/

namespace Sys2Proof.Machine

open Sys2Proof

/-- One step: the next move of the agenda, or of the scheduler it names; where the agenda is empty, a free move,
which leaves the state as it is where it cannot come about (log entry 2). -/
def step (s : State) : Host.Outcome State Fault Refusal :=
  match s.agenda with
  | .auto 0 :: rest => .next { s with agenda := rest }
  | .auto (n + 1) :: rest => .next (autoMove { s with agenda := .auto n :: rest })
  | t :: rest => turn t { s with agenda := rest }
  | [] =>
    let s1 := { s with turnNo := s.turnNo + 1 }
    match Config.freeTurn s.turnNo with
    | none => .next s1
    | some t => .next ((turnNext s1 t).getD s1)

/-- The block that runs a placed instruction (log entry 30). -/
def State.withFetchWord (s : State) (nbits w : Nat) : State := { s with
  blocks := s.blocks ++ [placedBlock s.nextId (placedLine nbits w)]
  nextId := s.nextId + 1
  agenda := [.issue { bid := s.nextId, gid := 0, fid := 0 }] }

end Sys2Proof.Machine
end

