-- ==== Sys2Proof/Safety.lean ====
section
/-! DEFINITION. What claims speak of: the canonical form of the state's storage, what a state shows of a fragment,
when an instruction finds what it needs, and what a state may differ in after one. -/

namespace Sys2Proof.Machine

/-! ### Canonical forms -/

/-- The register files of a group are in canonical form. -/
def Group.wf (g : Group) : Prop :=
  swf 0 g.v = true ∧ swf 0 g.u = true ∧ swf 0 g.p = true ∧ swf 0 g.flags = true ∧ swf 0 g.draws = true ∧
    swf ownerNone g.xowner = true ∧ swf 0 g.ctr = true ∧ swf 0 g.aside = true

/-- The lists of an expansion are in canonical form. -/
def Expansion.wf (x : Expansion) : Prop :=
  swf 0 x.start = true ∧ swf 0 x.len = true ∧ swf (foldIdentity x.op) x.acc = true ∧ ∀ y ∈ x.slots, swf 0 y.contrib = true

/-- The storage of a block is in canonical form. -/
def Block.wf (b : Block) : Prop :=
  (∀ g ∈ b.groups, g.wf) ∧ (∀ x ∈ b.exts, swf 0 x.regs = true) ∧ swf 0 b.scratch = true ∧ swf 0 b.tags = true ∧
    (∀ m ∈ b.slots, swf 0 m.image = true) ∧ ∀ x ∈ b.xus, x.wf

/-- The device's own tables are in canonical form. -/
def State.tablesWf (s : State) : Prop :=
  swf Ctx.reset s.ctxs = true ∧ (∀ c, swf 0 (s.ctx c).regs = true) ∧ swf 0 s.stamps = true ∧ swf 0 s.arms = true ∧
    swf 0 s.stcov = true ∧ swf 0 s.rasce = true ∧ swf 0 s.turns = true ∧ swf 0 s.mapFree = true ∧ (∀ x ∈ s.l1, swf none x.cells = true) ∧
    ∀ x ∈ s.rdc, swf none x.cells = true

/-- Memory, the storage of every block and the device's own tables are in canonical form. -/
def State.wf (s : State) : Prop := Memory.wf s.mem ∧ (∀ b ∈ s.blocks, b.wf) ∧ s.tablesWf

/-! ### The issuing fragment -/

/-- The fragment `e.f` issues in the state (R37). -/
def Issues (s : State) (e : Env) : Prop := e.s = s ∧ s.cur = some e.i ∧ s.frag? e.i.f = some (e.b, e.g, e.f)

/-- R176, R65: a register that exists and that the group holds. -/
def Env.holds (e : Env) (r : Reg) : Prop := r.wf = true ∧ heldReg e.b e.g r = true

/-- The group holds every register of some uses. -/
def Env.holdsAll (e : Env) (uses : List RegUse) : Prop := ∀ u ∈ uses, ∀ i < u.2.2, e.holds (regUp u.2.1 i)

/-- R224, R227, R357: a mapped source finds its slot bound, no `MBIND` or `MPUT` of it in flight, and, where the
slot takes MX sources, an even register whose pair is held; `msum` needs no slot. -/
def Env.slotReady (e : Env) (o : Opnd) : Prop :=
  match o.src with
  | .map k n => k = 15 ∨ (slotBusy e.s e.b e.g.stone k = false ∧ ∃ x, e.b.slot? e.g.stone k = some x ∧ x.bound = true ∧
      (isMx (fwSfmt x.fmt) = true → n % 2 = 0 ∧ heldReg e.b e.g (.v (n + 1)) = true))
  | _ => True

/-- R334: an instruction of rows 0x1 to 0x5 passes its checks: no uncorrectable error stands, its registers are
held, its map slots are ready. -/
def Env.laneReady (e : Env) (srcs : List Opnd) (dst : List RegUse) : Prop :=
  e.s.errs = [] ∧ e.holdsAll (srcs.flatMap Opnd.regs ++ dst) ∧ ∀ o ∈ srcs, e.slotReady o

/-- The values of the sources of an instruction of rows 0x1 to 0x5, source by source and lane by lane; with `every`
(`.all`) a map reads every lane of the group (R223). -/
def Env.vals (e : Env) (x : Guard) (every : Bool) (srcs : List Opnd) (k l : Nat) : W64 :=
  ((srcs.map (e.srcVals (if every then allLanes e.b.width else e.active x))).getD k fun _ => 0) l

/-! ### What an instruction writes -/

/-- No register, predicate or lane is written. -/
def noWrite {α β γ : Type} : α → β → Option γ := fun _ _ => none

/-- R69: a 32-bit result in the active lanes of a vector register, or the lowest active lane's in a uniform one. -/
def lands (d : Reg) (act : LaneMask) (f : Nat → W32) (l : Nat) (r : Reg) : Option W32 :=
  if r = d then
    (match d with
     | .v _ => if hasLane act l then some (f l) else none
     | .s _ => if act = 0 then none else some (f (lowLane act)))
  else none

/-- R66, R69: a result of one register, or of a pair. -/
def landsW (wide : Bool) (d : Reg) (act : LaneMask) (f : Nat → W64) (l : Nat) (r : Reg) : Option W32 :=
  (lands d act (fun i => lo32 (f i)) l r).or (if wide then lands (regUp d 1) act (fun i => hi32 (f i)) l r else none)

/-- A predicate result in the active lanes. -/
def landsP (k : Nat) (act : LaneMask) (f : Nat → Bool) (l n : Nat) : Option Bool :=
  if n = k ∧ hasLane act l = true then some (f l) else none

/-- R168: the draws taken in the active lanes. -/
def takes (act : LaneMask) (n l : Nat) : W32 := if hasLane act l then BitVec.ofNat 32 n else 0

/-- The state `t` follows an instruction of the fragment `e.f` that completed and changed no storage but registers:
`regs` and `preds` say what each lane's registers and predicates became where they were written, `draws` how many
random draws each lane took. Everything else of the machine is as before, but for the counter of mapped
instructions (R294), soft errors in registers written anew (R398), and the fragment's own progress. -/
structure Wrote (e : Env) (t : State) (regs : Nat → Reg → Option W32) (preds : Nat → Nat → Option Bool) (draws : Nat → W32) : Prop where
  /-- What the fragment shows. -/
  shown : ∃ b g f, t.frag? e.i.f = some (b, g, f) ∧ f = e.f.goOn e.i.next e.s.cycle ∧
    (∀ l r, r.wf = true → rget b g l r = (regs l r).getD (rget e.b e.g l r)) ∧
    (∀ l k, pget g l k = (preds l k).getD (pget e.g l k)) ∧
    (∀ l, sget 0 g.draws l = sget 0 e.g.draws l + draws l) ∧
    (∀ k, k ≠ 3 → sget 0 g.ctr k = sget 0 e.g.ctr k) ∧
    (∀ fid, fid ≠ e.i.f.fid → g.frag? fid = e.g.frag? fid) ∧
    (∀ gid, gid ≠ e.i.f.gid → b.group? gid = e.b.group? gid) ∧
    { g with v := e.g.v, u := e.g.u, p := e.g.p, draws := e.g.draws, ctr := e.g.ctr, frags := e.g.frags } = e.g ∧
    { b with groups := e.b.groups, exts := e.b.exts } = e.b
  /-- Memory. -/
  mem : ∀ a, t.rd a = e.s.rd a
  /-- Other blocks. -/
  others : ∀ bid, bid ≠ e.i.f.bid → t.block? bid = e.s.block? bid
  /-- Everything else; no instruction is left issuing. -/
  rest : t.cur = none ∧ { t with cur := e.s.cur, blocks := e.s.blocks, errs := e.s.errs } = e.s

/-- An instruction of rows 0x1 to 0x5 with a register destination: wherever it finds what it needs, it completes,
and its result is `f` of its sources' values in every active lane. `n` is the draws each active lane takes. -/
def Computes (i : Instr) (x : Guard) (every : Bool) (srcs : List Opnd) (wide : Bool) (d : Reg)
    (f : Env → (Nat → Nat → W64) → Nat → W64) (n : Nat) : Prop :=
  i.wf = true → ∀ s e, Issues s e → s.wf → e.laneReady srcs (useD wide d) →
    ∃ t, exec i s = .next t ∧
      Wrote e t (landsW wide d (e.active x) (f e (e.vals x every srcs))) noWrite (takes (e.active x) n)

/-- An instruction of rows 0x1 to 0x5 with a predicate destination. -/
def Decides (i : Instr) (x : Guard) (every : Bool) (srcs : List Opnd) (pd : Nat)
    (f : Env → (Nat → Nat → W64) → Nat → Bool) : Prop :=
  i.wf = true → ∀ s e, Issues s e → s.wf → e.laneReady srcs [] →
    ∃ t, exec i s = .next t ∧ Wrote e t noWrite (landsP pd (e.active x) (f e (e.vals x every srcs))) fun _ => 0

/-! ### Shapes of claims -/

/-- R187, R190: the result of a typed integer instruction, formed exactly, reduced modulo 2^n and extended. -/
def Integer (i : Instr) (g : Guard) (all : Bool) (t : IntTy) (d : Reg) (srcs : List Opnd) (r : (Nat → Int) → Int) : Prop :=
  Computes i g all srcs t.wide d (fun _ v l => intOut t (r fun k => intIn t (v k l))) 0

/-- An instruction of rows 0x1 to 0x5 whose result is given bit by bit below bit `n`. -/
def Bitwise (i : Instr) (g : Guard) (srcs : List Opnd) (wide : Bool) (d : Reg) (n : Nat) (bit : (Nat → W64) → Nat → Bool) : Prop :=
  ∃ r, Computes i g false srcs wide d r 0 ∧ ∀ e v l j, j < n → (r e v l).getLsbD j = bit (fun k => v k l) j

/-- R154, R158: a rounded binary32 instruction: `f` gives the result's pattern from the draw and the sources' patterns. -/
def Rounded (i : Instr) (g : Guard) (all : Bool) (m : Mode) (d : Reg) (srcs : List Opnd) (f : Nat → (Nat → Nat) → Nat) : Prop :=
  Computes i g all srcs false d
    (fun e v l => BitVec.ofNat 64 (f (if m = .sr then (e.draw l 0).toNat else 0) fun k => (v k l).toNat))
    (if m = .sr then 1 else 0)

/-- R240: a packed instruction: each half on its own, in a half format; with `sr` the low half takes the first draw. -/
def RoundedHalves (i : Instr) (g : Guard) (all : Bool) (m : Mode) (d : Reg) (srcs : List Opnd) (f : Nat → (Nat → Nat) → Nat) : Prop :=
  Computes i g all srcs false d
    (fun e v l =>
      BitVec.ofNat 64 (f (if m = .sr then (e.draw l 0).toNat else 0) fun k => (v k l).toNat % 2 ^ 16) +
      BitVec.ofNat 64 (2 ^ 16 * f (if m = .sr then (e.draw l 1).toNat else 0) fun k => (v k l).toNat / 2 ^ 16 % 2 ^ 16))
    (if m = .sr then 2 else 0)

/-- R158, R159: the first NaN of the sources quieted, else an exact value rounded once. -/
def nanOr (f : FFmt) (xs : List Nat) (y : Nat) : Nat :=
  match xs.find? f.isNan with
  | some x => f.quiet x
  | none => y

/-- The state `u` follows an instruction of `e.f` that changed nothing outside its own block; no instruction is
left issuing, and every byte of memory reads as before. -/
def BlockOnly (e : Env) (u : State) : Prop :=
  u.cur = none ∧ (∀ a, u.rd a = e.s.rd a) ∧ { u with cur := e.s.cur, blocks := e.s.blocks } = e.s ∧
    ∀ bid, bid ≠ e.i.f.bid → u.block? bid = e.s.block? bid

/-- The state `u` follows an instruction that changed nothing but its own group, whose new form, and that of its
fragment, meet `P`. -/
def GroupOnly (e : Env) (u : State) (P : Group → Frag → Prop) : Prop :=
  BlockOnly e u ∧ ∃ b g f, u.frag? e.i.f = some (b, g, f) ∧ { b with groups := e.b.groups } = e.b ∧
    (∀ gid, gid ≠ e.i.f.gid → b.group? gid = e.b.group? gid) ∧ P g f

/-- The state `u` follows an instruction that changed nothing but fragments of its group. -/
def FragsOnly (e : Env) (u : State) (P : Group → Frag → Prop) : Prop :=
  GroupOnly e u fun g f => { g with frags := e.g.frags } = e.g ∧ P g f

/-- The next state where an instruction changes nothing but its fragment, which becomes `f'`. -/
def Moved (e : Env) (f' : Frag) (u : State) : Prop := FragsOnly e u fun g f => f = f' ∧ ∀ j, j ≠ e.i.f.fid → g.frag? j = e.g.frag? j

/-- R31, R32, R213: a divergent branch: the larger set stays, the not-taken one on a tie; the other becomes a fragment of
its own with the lowest free id, or, with 8 fragments live, a pending side on the innermost token. Where the branch peels
one target off, its not-taken set at the instruction itself, that set is the pending side. -/
def Diverged (e : Env) (t n : LaneMask) (tpc npc : W64) (u : State) : Prop :=
  let free := (List.range 8).find? fun k => !(e.g.frags.any (·.fid == k))
  let takenStays := popCount n < popCount t ∨ npc = e.i.pc ∧ free = none
  let big := if takenStays then t else n
  let bigPc := if takenStays then tpc else npc
  let small := if takenStays then n else t
  let smallPc := if takenStays then npc else tpc
  FragsOnly e u fun g f => f.pc = bigPc ∧ f.exm = big ∧
    match free with
    | some k => f.held = e.f.held &&& ~~~small ∧
        (∃ o, g.frag? k = some o ∧ o.pc = smallPc ∧ o.held = small ∧ o.exm = small ∧ o.st = .running) ∧
        ∀ j, j ≠ e.i.f.fid → j ≠ k → g.frag? j = e.g.frag? j
    | none => f.held = e.f.held ∧ f.pends = e.f.pends ++ [{ pc := smallPc, mask := small, tok := (innerTok e.g e.f).map (·.id) }] ∧
        ∀ j, j ≠ e.i.f.fid → g.frag? j = e.g.frag? j

/-- R211: lanes `t` of `$exm` go to a target, the others go on at `npc`; with `$exm` empty the fragment moves as a
whole where the guard is always. -/
def Transfers (e : Env) (always : Bool) (t : LaneMask) (target npc : W64) (u : State) : Prop :=
  if e.f.exm = 0 then Moved e (if always then e.f.branchTo target e.s.cycle else e.f.goOn e.i.next e.s.cycle) u
  else if t = 0 then Moved e (e.f.goOn e.i.next e.s.cycle) u
  else if e.f.exm &&& ~~~t = 0 then Moved e (e.f.branchTo target e.s.cycle) u
  else Diverged e t (e.f.exm &&& ~~~t) target npc u

/-- R334, R340 step 1: the instruction has not begun; its group stops for an event, which keeps where and when. -/
def Stopped (e : Env) (ev : Raised) (u : State) : Prop :=
  GroupOnly e u fun g f => f = { e.f with reply := none, st := .running } ∧
    { g with frags := e.g.frags, stop := e.g.stop } = e.g ∧ (∀ j, j ≠ e.i.f.fid → g.frag? j = e.g.frag? j) ∧
    g.stop = some { fid := e.i.f.fid, pc := e.i.pc, next := e.i.next, word := e.i.word, ev := ev, time := e.s.gtime, cycle := e.s.cycle }

/-- A lane that some fragment of a group holds. -/
def Group.holdsLane (g : Group) (l : Nat) : Prop := ∃ f ∈ g.frags, hasLane f.held l = true

/-- The fragments and tokens of a group are told apart by their ids. -/
def Group.named (g : Group) : Prop := (g.frags.map (·.fid)).Nodup ∧ (g.toks.map (·.id)).Nodup

/-- R71, R73, R131, R144, R313, R400: nothing of the machine's state holds up, checks or stages a memory instruction
that counts a flag: no uncorrectable error stands, its flag has room, no acquire of the fragment is on its way, the
kernel is not checked, and the block does not run deterministic. -/
def Env.memReady (e : Env) (fl : FlagSel) : Prop :=
  e.s.errs = [] ∧ e.s.poison = [] ∧ (∀ k, e.flag fl = some k → e.g.flag k < 63) ∧ (∀ o ∈ e.opsMine, o.acq = true → o.accs = []) ∧
    e.b.kernel.checked = false ∧ e.s.detBlock e.b = false

/-- R96 to R98, R123, R369: a virtual address translates, for a use, to a physical one the access may reach, on a page
that is neither checked nor a host page. -/
def Env.reaches (e : Env) (use : Use) (ordered : Bool) (va pa : Nat) : Prop :=
  va < 2 ^ 56 ∧ inHost pa = false ∧
    ∃ x, reach e.s e.b.mill e.b.ctx use ordered false va = .ok x ∧ x.pa = pa ∧ leafChecked x.leaf = false

/-- R71: a long-latency instruction is in flight, as `P` says of it: the flag it names counts one more, the fragment
goes on, and no register, no byte of scratchpad and no byte of memory has changed yet. -/
def LaunchedOn (e : Env) (flag : Option Nat) (u : State) (P : LongOp → Prop) : Prop :=
  ∃ op, P op ∧ op.id = e.s.nextId ∧ op.bid = e.i.f.bid ∧ op.gid = e.i.f.gid ∧ op.fid = e.i.f.fid ∧ op.flag = flag ∧
    u.ops = e.s.ops ++ [op] ∧ u.nextId = e.s.nextId + 1 ∧ u.cur = none ∧ (∀ a, u.rd a = e.s.rd a) ∧
    { u with cur := e.s.cur, blocks := e.s.blocks, ops := e.s.ops, nextId := e.s.nextId, tlb := e.s.tlb } = e.s ∧
    (∀ bid, bid ≠ e.i.f.bid → u.block? bid = e.s.block? bid) ∧
    ∃ b g f, u.frag? e.i.f = some (b, g, f) ∧ f = e.f.goOn e.i.next e.s.cycle ∧ { b with groups := e.b.groups } = e.b ∧
      { g with frags := e.g.frags, flags := e.g.flags, ctr := e.g.ctr } = e.g ∧
      (∀ k, k ≠ 3 → sget 0 g.ctr k = sget 0 e.g.ctr k) ∧
      ∀ k, g.flag k = e.g.flag k + if flag = some k then 1 else 0

/-- A long-latency instruction is in flight on the flag its clause names. -/
def Launched (e : Env) (fl : FlagSel) (u : State) (P : LongOp → Prop) : Prop := LaunchedOn e (e.flag fl) u P

/-- R230: an instruction on a map slot is in flight; with no active lane it is over at once, and changes nothing but the PC. -/
def Delivered (e : Env) (fl : FlagSel) (act : LaneMask) (u : State) (P : LongOp → Prop) : Prop :=
  if act = 0 then Moved e (e.f.goOn e.i.next e.s.cycle) u else Launched e fl u P

/-- R69, R249: the lanes whose accesses an instruction with a register destination makes. -/
def oneLane (d : Reg) (act : LaneMask) : LaneMask := if d.isVec then act else maskOf ((lanesOf act).take 1)

/-- R94: a lane's global address. -/
def Env.lane64 (e : Env) (a : Reg) (off : BitVec 12) (l : Nat) : Nat := (rget64 e.b e.g l a + off.signExtend 64).toNat

/-- R94: a lane's scratchpad or private offset. -/
def Env.lane32 (e : Env) (a : Reg) (off : BitVec 12) (l : Nat) : Nat := (rget e.b e.g l a + off.signExtend 32).toNat

/-- The bytes an access stores. -/
def Acc.stored (a : Acc) : List (Nat × Byte) := match a.body with | .store bytes => bytes | _ => []

/-- R127: an instruction stores, in each lane `l` of `act`, the low `n` bytes of `v l` at `pa l`, each byte once, the
highest lane's value where lanes name one address. -/
def StoresLanes (accs : List Acc) (act : LaneMask) (n : Nat) (pa v : Nat → Nat) : Prop :=
  ∀ x y, (x, y) ∈ accs.flatMap Acc.stored ↔ ∃ l ∈ lanesOf act, (∀ m ∈ lanesOf act, l < m → pa m ≠ pa l) ∧
    ∃ k < n, x = pa l + k ∧ y = BitVec.ofNat 8 (v l / 2 ^ (8 * k))

/-- R250: the value a store takes from its source in a lane. -/
def Env.storing (e : Env) (act : LaneMask) (t : DType) (b : Src) (l : Nat) : Nat :=
  match b with
  | .reg r => (match t with
    | .w64 => (rget64 e.b e.g l r).toNat
    | .b128 => (rget64 e.b e.g l r).toNat + 2 ^ 64 * (rget64 e.b e.g l (regUp r 2)).toNat
    | _ => (rget e.b e.g l r).toNat)
  | b => (e.srcVals act (opB .int false b) l).toNat

/-- The registers a store's source names. -/
def storeReads (t : DType) (b : Src) : List RegUse :=
  match b with
  | .reg r => [(3, r, dtRegs t)]
  | .map _ n => [(3, .v n, 1)]
  | _ => []

/-- The state `u` follows an instruction that changed nothing of its own block but fragments. -/
def OwnKept (e : Env) (u : State) : Prop :=
  u.cur = none ∧ ∃ b g f, u.frag? e.i.f = some (b, g, f) ∧ f = e.f.goOn e.i.next e.s.cycle ∧
    { b with groups := e.b.groups } = e.b ∧ { g with frags := e.g.frags } = e.g

/-- The L1 lists each line of a mill once, with offsets inside the line, each dirty byte once. -/
def L1Kept (s : State) : Prop := (s.l1.map fun x => (x.mill, x.line)).Nodup ∧ ∀ x ∈ s.l1, (∀ d ∈ x.dirty, d.1 < 64) ∧ (x.dirty.map (·.1)).Nodup

/-- R257: the atomic serves each active lane once, at its address, with its values. -/
def AtomLanes (accs : List Acc) (op : AtomOp) (w : AtomWidth) (d : Option Reg) (sp : Space) (act : LaneMask) (pa : Nat → Nat) (v : Nat → W64 × W64) : Prop :=
  (∀ a ∈ accs, a.space = sp ∧ ∃ x q ls, a.body = .atom x op w q ls ∧ (q = d ∨ q = none) ∧ (d.all Reg.isVec = true → q = d)) ∧
  ((accs.map fun a => a.touches.headD 0)).Nodup ∧
  ∀ x l y, (∃ a ∈ accs, ∃ q ls, a.body = .atom x op w q ls ∧ (l, y) ∈ ls) ↔ l ∈ lanesOf act ∧ x = pa l ∧ y = v l

/-- The state `u` follows a short instruction that changed its block's scratchpad inside `spans` alone, registers and
predicates as `regs` and `preds` say, and fragments; `P` says what else became of its block and its fragment. -/
def Synced (e : Env) (u : State) (spans : List (Nat × Nat)) (regs : Nat → Reg → Option W32) (preds : Nat → Nat → Option Bool)
    (P : Block → Frag → Prop) : Prop :=
  BlockOnly e u ∧ ∃ b g f, u.frag? e.i.f = some (b, g, f) ∧ P b f ∧
    (∀ a, (∀ p ∈ spans, a < p.1 ∨ p.1 + p.2 ≤ a) → b.sb a = e.b.sb a) ∧
    (∀ l r, r.wf = true → rget b g l r = (regs l r).getD (rget e.b e.g l r)) ∧
    (∀ l k, pget g l k = (preds l k).getD (pget e.g l k)) ∧
    { g with frags := e.g.frags, v := e.g.v, u := e.g.u, p := e.g.p } = e.g ∧
    ∀ gid h, gid ≠ e.i.f.gid → e.b.group? gid = some h → ∃ h', b.group? gid = some h' ∧ { h' with frags := h.frags } = h

/-- The fragment goes on. -/
def Env.goesOn (e : Env) (f : Frag) : Prop := f = e.f.goOn e.i.next e.s.cycle

/-- R362, R371: an offset an operand supplies is aligned and lies in the scratchpad. -/
def Env.inScratch (e : Env) (off n align : Nat) : Prop := off % align = 0 ∧ off + n ≤ e.b.kernel.scratch

/-- R107, R353: the phaser `p` stands at an offset. -/
def Env.phaserIs (e : Env) (off : Nat) (p : Phaser) : Prop :=
  e.inScratch off 16 16 ∧ phaserBad (e.b.sbNat off 16) = false ∧ p = phaserOf (e.b.sbNat off 16)

/-- The phaser of a block at an offset. -/
def Block.phaser (b : Block) (off : Nat) : Phaser := phaserOf (b.sbNat off 16)

/-- R108, R353: the queue header `q` stands at an offset, its ring in the scratchpad and apart from it. -/
def Env.queueIs (e : Env) (off : Nat) (q : QHead) : Prop :=
  e.inScratch off 16 16 ∧ qheadBad (e.b.sbNat off 16) = false ∧ q = qheadOf (e.b.sbNat off 16) ∧ q.cap ≠ 0 ∧
    e.inScratch q.ring (4 * q.cap) 4 ∧ (q.ring + 4 * q.cap ≤ off ∨ off + 16 ≤ q.ring)

/-- No other fragment of the block waits in an instruction of one sort (R264). -/
def Env.firstIn (e : Env) (p : Wait → Bool) : Prop := waitersOf e.b p = []

/-- The state `u` follows an instruction that is in flight with no access left, counted on its flag; registers became
what `regs` says, and `P` says what else became of its block. -/
def InFlight (e : Env) (fl : FlagSel) (u : State) (regs : Nat → Reg → Option W32) (P : Block → LongOp → Prop) : Prop :=
  u.cur = none ∧ (∀ a, u.rd a = e.s.rd a) ∧ (∀ bid, bid ≠ e.i.f.bid → u.block? bid = e.s.block? bid) ∧
  ∃ op b g f, P b op ∧ op.id = e.s.nextId ∧ op.bid = e.i.f.bid ∧ op.gid = e.i.f.gid ∧ op.fid = e.i.f.fid ∧ op.flag = e.flag fl ∧
    op.accs = [] ∧ u.ops = e.s.ops ++ [op] ∧ u.frag? e.i.f = some (b, g, f) ∧ e.goesOn f ∧
    (∀ l r, r.wf = true → rget b g l r = (regs l r).getD (rget e.b e.g l r)) ∧ (∀ l k, pget g l k = pget e.g l k) ∧
    ∀ k, g.flag k = e.g.flag k + if e.flag fl = some k then 1 else 0

/-- R117: the scratchpad element that a global element goes to or comes from, for kinds 0 to 2. -/
def CopyDesc.index (d : CopyDesc) (i2 i1 i0 : Nat) : Nat :=
  let b0 := d.byte 0
  let b1 := d.byte 1
  let c0 := d.byte 2
  let c1 := d.byte 3
  let inner := (i1 % b1) * b0 + i0 % b0
  i2 * d.n0 * d.n1 + match d.kind with
    | 0 => i1 * d.n0 + i0
    | 1 => (i1 / b1 * (d.n0 / b0) + i0 / b0) * b0 * b1 + inner
    | _ => ((i1 / b1 / c1 * (d.n0 / b0 / c0) + i0 / b0 / c0) * c0 * c1 + (i1 / b1 % c1 * c0 + i0 / b0 % c0)) * b0 * b1 + inner

/-- No byte of a mill's L1 is dirty. -/
def cleanL1 (s : State) (mill : Nat) : Prop := ∀ x ∈ s.l1, x.mill = mill → x.dirty = []

/-- The value a data type's load gives a register: sign-extended, or one of the words of the bytes read. -/
def loadWord (t : DType) (x i : Nat) : W32 :=
  match t with
  | .i8 => BitVec.ofInt 32 (signed 8 x)
  | .i16 => BitVec.ofInt 32 (signed 16 x)
  | _ => BitVec.ofNat 32 (x / 2 ^ (32 * i))

/-- The registers a load of a data type writes in each lane of `act`, from the bytes `x` each lane has read. -/
def loadLands (t : DType) (d : Reg) (act : LaneMask) (x : Nat → Nat) (l : Nat) (r : Reg) : Option W32 :=
  match (List.range (dtRegs t)).find? fun i => r == regUp d i with
  | some i => lands (regUp d i) act (fun l => loadWord t (x l) i) l r
  | none => none

/-- R71, R73, R131: nothing holds a long-latency instruction back: no uncorrectable error stands, its flag has room, no
acquire of the fragment is on its way. -/
def Env.issueReady (e : Env) (fl : FlagSel) : Prop :=
  e.s.errs = [] ∧ (∀ k, e.flag fl = some k → e.g.flag k < 63) ∧ ∀ o ∈ e.opsMine, o.acq = true → o.accs = []

/-- The state `u` is `s` with some 64-bit registers of a context's page changed: `f` gives their new values. -/
def RegsSet (s u : State) (c : Nat) (f : Nat → Option W64) : Prop :=
  (∀ d o, (u.ctx d).reg o = if d = c then (f o).getD ((s.ctx d).reg o) else (s.ctx d).reg o) ∧
    { u with ctxs := s.ctxs } = s ∧ ∀ d, { u.ctx d with regs := (s.ctx d).regs } = s.ctx d

/-- A launch queue that may read and dispatch (R43, R46, R348). -/
def openQueue (s : State) (c q : Nat) : Prop :=
  c < 1024 ∧ (s.ctx c).present = true ∧ (s.ctx c).leaving = false ∧ q < 8 ∧ q < (s.ctx c).queues.length ∧ ((s.ctx c).queue q).frozen = none

/-- R23, R29, R68, R235, R295: a group at its start: everything of it at its reset value, and one fragment that holds the
lanes `m`, all active, at the entry of its role. -/
def Group.fresh (b : Block) (g : Group) (m : LaneMask) : Prop :=
  (∀ l r, rget b g l r = 0) ∧ (∀ l k, pget g l k = false) ∧ (∀ k, g.flag k = 0) ∧ (∀ l, sget ownerNone g.xowner l = ownerNone) ∧
    (∀ l, sget 0 g.draws l = 0) ∧ (∀ k, sget 0 g.ctr k = 0) ∧ g.toks = [] ∧ g.stop = none ∧ g.frozen = none ∧ g.handler = none ∧ g.ended = false ∧
    ∃ f r, g.frags = [f] ∧ b.kernel.roles[g.role]? = some r ∧ f.fid = 0 ∧ f.held = m ∧ f.exm = m ∧ f.st = .running ∧ f.line = none ∧
      f.pc = b.kernel.image + BitVec.ofNat 64 r.entry

/-- R22, R23, R50, R235: `u` is `s` with one block more, at its start; memory reads as before. -/
def Starts (s u : State) (k : Kernel) (mill c : Nat) (launch : Option Nat) (trig : Option TrigRec) (index : W32) (gids : List Nat) (lanes : Nat → LaneMask) : Prop :=
  (∀ a, u.rd a = s.rd a) ∧ ∃ b, u.blocks = s.blocks ++ [b] ∧ b.bid = s.nextId ∧ b.ctx = c ∧ b.launch = launch ∧ b.trig = trig ∧ b.index = index ∧
    b.kernel = k ∧ b.mill = mill ∧ b.resident = true ∧ b.ended = false ∧ (∀ a, b.sb a = 0) ∧ (∀ x ∈ b.slots, x.bound = false) ∧ b.staged = [] ∧
    b.groups.map (·.gid) = gids ∧ ∀ g ∈ b.groups, g.fresh b (lanes g.gid)

/-- R31, R33: the fragments and tokens of a group, and those its handler run keeps aside, are told apart by their ids, and
every token's id has been given out. -/
def Group.kept (g : Group) : Prop :=
  g.named ∧ (∀ t ∈ g.toks, t.id < g.nextTok) ∧
    ∀ h, g.handler = some h → (h.frags.map (·.fid)).Nodup ∧ (h.toks.map (·.id)).Nodup ∧ ∀ t ∈ h.toks, t.id < g.nextTok

/-- What every step keeps: the canonical forms of all storage; each line of an L1 once; blocks, launches, fragments and
tokens told apart by ids that have been given out. -/
def State.kept (s : State) : Prop :=
  s.wf ∧ L1Kept s ∧ (s.blocks.map (·.bid)).Nodup ∧ (∀ b ∈ s.blocks, b.bid < s.nextId ∧ ∀ g ∈ b.groups, g.kept) ∧
    (s.launches.map (·.id)).Nodup ∧ ∀ l ∈ s.launches, l.id < s.nextId

/-- R110: the byte that a mill's L1 holds dirty at an address. -/
def dirtyByte (s : State) (mill a : Nat) : Option Byte :=
  match l1Find s mill (lineOf a) with
  | some x => if x.dirty.any (·.1 == a % 64) then sget none x.cells (a % 64) else none
  | none => none

/-- R113, R251: the bytes `v` are those that a load of one line finds, from a level downward: 0 its mill's L1, where that holds
every byte; 1 its die's RDC, where that does; 2 the line's home. Bytes dirty in the L1 come from there at every level. -/
def Finds (s : State) (mill level : Nat) (src : List Nat) (v : Nat → Byte) : Prop :=
  let line := lineOf (src.headD 0)
  let inL1 := ∃ x, l1Find s mill line = some x ∧ ∀ a ∈ src, (sget none x.cells (a % 64)).isSome = true
  let inRdc := remoteHome (dieOf mill) line = true ∧ ∃ y, rdcFind s (dieOf mill) line = some y ∧ ∀ a ∈ src, (sget none y.cells (a % 64)).isSome = true
  (level = 0 ∧ inL1 → ∀ x, l1Find s mill line = some x → ∀ a ∈ src, sget none x.cells (a % 64) = some (v a)) ∧
    (¬(level = 0 ∧ inL1) → level ≤ 1 → inRdc → ∀ y, rdcFind s (dieOf mill) line = some y → ∀ a ∈ src,
      some (v a) = (dirtyByte s mill a).or (sget none y.cells (a % 64))) ∧
    (¬(level = 0 ∧ inL1) → ¬(level ≤ 1 ∧ inRdc) → ∀ a ∈ src, v a = (dirtyByte s mill a).getD (s.rd a))

/-- An access of an in-flight instruction is served, and nothing else of it changes but what it has counted and collected. -/
def Taken (u : State) (oid k : Nat) (o : LongOp) : Prop :=
  ∃ o', u.op? oid = some o' ∧ o'.accs = o.accs.eraseIdx k ∧ { o' with accs := o.accs, missed := o.missed, coll := o.coll } = o

/-- R256, R257: what an atomic returns in its destination: each lane its own value, a uniform register the first lane's. -/
def atomLands (w : AtomWidth) (d : Option Reg) (lanes : List Nat) (vals : List W64) (l : Nat) (q : Reg) : Option W32 :=
  match d with
  | none => none
  | some r => match (List.zip lanes vals).find? fun p => !r.isVec || p.1 == l with
    | none => none
    | some p => if q = r then some (lo32 p.2) else if w = .b64 ∧ q = regUp r 1 then some (hi32 p.2) else none

/-- The group holds every register of an atomic's destination. -/
def holdsDest (b : Block) (g : Group) (w : AtomWidth) (d : Option Reg) : Prop :=
  ∀ r, d = some r → ∀ i, i < (if w = .b64 then 2 else 1) → (regUp r i).wf = true ∧ heldReg b g (regUp r i) = true

/-- The duty of the device that an event fulfils, with the choices left out that the device makes as it does (a placement, an
image's address, where a fetch is served); none for what the host, the driver, other devices and errors bring about. -/
def dutyOf : Instr → Option Instr
  | .clauseEntry r _ => some (.clauseEntry r false)
  | .sleepWake r => some (.sleepWake r)
  | .longLatencyComplete o => some (.longLatencyComplete o)
  | .homeWritePerform o l => some (.homeWritePerform o l)
  | .leatElementTransfer m l => some (.leatElementTransfer m l)
  | .launchPacketHead c q => some (.launchPacketHead c q)
  | .blockDispatch c q _ => some (.blockDispatch c q noPlace)
  | .gangDispatch c q _ => some (.gangDispatch c q [])
  | .triggerBlockDispatch c _ => some (.triggerBlockDispatch c noPlace)
  | .blockEnd b => some (.blockEnd b)
  | .launchCompletion l => some (.launchCompletion l)
  | .stagedOpRelease l => some (.stagedOpRelease l)
  | .sliceInstant _ => some (.sliceInstant 0)
  | .blockSaveComplete b => some (.blockSaveComplete b)
  | .blockRestore b _ => some (.blockRestore b noPlace)
  | .trapHandlerStart b g _ => some (.trapHandlerStart b g 0)
  | .handlerRunEnd b g => some (.handlerRunEnd b g)
  | .faultFreeze b g _ => some (.faultFreeze b g none)
  | .contextDestroyDone c => some (.contextDestroyDone c)
  | .tlbinvDone c => some (.tlbinvDone c)
  | .imageRetire c a => some (.imageRetire c a)
  | .watchArmEffective r => some (.watchArmEffective r)
  | .unwatchDone r => some (.unwatchDone r)
  | .startBarrierArrival c q => some (.startBarrierArrival c q)
  | .startBarrierComplete c q => some (.startBarrierComplete c q)
  | .startBarrierDispatch c q => some (.startBarrierDispatch c q)
  | .starvationIssue r => some (.starvationIssue r)
  | _ => none

/-- The duty of the device that a move fulfils: one of its events, an access served, a conflict told, time that passes. -/
def dutyMove : Turn → Option Turn
  | .event i => (dutyOf i).map .event
  | .perform o k _ => some (.perform o k 0)
  | .conflictMet o => some (.conflictMet o)
  | .tick c n => if 0 < c ∧ 0 < n then some (.tick 1 1) else none
  | _ => none

/-- A fragment stands before a clause that its mill does not hold. -/
def needsLine (s : State) (r : FragRef) : Bool :=
  match entering s r with
  | none => false
  | some (b, g, f) => match translate s b.mill b.ctx (lineAddr f.pc).toNat with
    | .error _ => false
    | .ok x => (iFind s b.mill g.stone (lineOf x.pa)).isNone

/-- A run of moves that keeps the manual's promises of progress. No single step shows these, so a claim about progress takes
such a run as its hypothesis (log entry 2). -/
structure FairRun (run : Nat → State) (move : Nat → Turn) : Prop where
  /-- Each state follows by its move. -/
  moves : ∀ n, turn (move n) (run n) = .next (run (n + 1))
  /-- R59: a fragment that is ready again and again issues. -/
  issues : ∀ r n, (∀ m, n ≤ m → ∃ k, m ≤ k ∧ readyTo (run k) r = true) → ∃ m, n ≤ m ∧ move m = .issue r
  /-- R60, R72: accesses are served, but where one meets a conflict and waits for its group. -/
  serves : ∀ n o, o ∈ (run n).ops → waitsOutside o = false → ∃ m, n ≤ m ∧ ∀ x ∈ (run m).ops, x.id = o.id → waitsOutside x = true
  /-- R59, R60: a clause that the mill does not hold is fetched; what it replaces is the mill's choice. -/
  fetches : ∀ r n, (∀ m, n ≤ m → needsLine (run m) r = true) → ∃ m, n ≤ m ∧ move m = .event (.clauseEntry r false)
  /-- R38, R53, R58, R60 to R62, R314, R340: what the device may do again and again it does: fetches, wakes, copies, completions,
  dispatches, saves, restores, releases, traps, freezes, ends, slices and time. -/
  duties : ∀ d n, (∀ m, n ≤ m → ∃ k t u, m ≤ k ∧ dutyMove t = some d ∧ turn t (run k) = .next u) → ∃ m, n ≤ m ∧ dutyMove (move m) = some d
  /-- R61: a gang of which some blocks have been restored is whole again, or is saved, or its queue is frozen for a failed restore. -/
  gangs : ∀ n l, l ∈ (run n).launches → partRestored (run n) l = true →
    ∃ m, n ≤ m ∧ ∀ x ∈ (run m).launches, x.id = l.id → partRestored (run m) x = false ∨ (((run m).ctx x.ctx).queue x.queue).frozen ≠ none
  /-- R62: a trigger queue that holds records and is not frozen for ever dispatches its first, or freezes for it. -/
  records : ∀ n c, (∀ m, n ≤ m → ((run m).ctx c).trig ≠ []) → (∀ m, n ≤ m → ∃ k, m ≤ k ∧ ((run k).ctx c).trigStop = none) →
    ∃ m p, n ≤ m ∧ move m = .event (.triggerBlockDispatch c p)

end Sys2Proof.Machine
end

