-- ==== Sys2Proof/Certificates/Slice0/Obligations.lean ====
section
/-! DEFINITION. The statements this model makes for the provers, by family of the opcode table. -/

open Sys2Proof Sys2Proof.Machine



/-! ### Rows 0x1 to 0x5 -/

/-- R187, R190: reading a typed value keeps its low n bits in the range of its type; a result is congruent to the exact
one modulo 2^n, sign-extended for the `.i` types and zero-extended for the `.n` types; and the arithmetic instructions
complete, for every type, form and mapped source, with the exact result of their table so reduced and extended; with no
active lane they write nothing. -/
def Obligations.IntegerArithmetic : Prop :=
  (∀ t : IntTy, (∀ x : W64, ((2 ^ t.width : Nat) : Int) ∣ (x.toNat : Int) - intIn t x ∧
      (if t.signed then -((2 ^ (t.width - 1) : Nat) : Int) ≤ intIn t x ∧ intIn t x < ((2 ^ (t.width - 1) : Nat) : Int)
       else 0 ≤ intIn t x ∧ intIn t x < ((2 ^ t.width : Nat) : Int))) ∧
    ∀ r : Int, ((2 ^ t.width : Nat) : Int) ∣ r - intIn t (intOut t r) ∧
      (if t.signed then (intOut t r).toInt = intIn t (intOut t r) else ((intOut t r).toNat : Int) = intIn t (intOut t r))) ∧
  ∀ g all t d a b c,
  Integer (.iadd g all t d a b) g all t d [opA .int t.wide a, opB .int t.wide b] (fun v => v 0 + v 1) ∧
  Integer (.iadd3 g all t d a b c) g all t d [opA .int t.wide a, opB .int t.wide b, opC .int t.wide c] (fun v => v 0 + v 1 + v 2) ∧
  Integer (.isub g all t d a b) g all t d [opA .int t.wide a, opB .int t.wide b] (fun v => v 0 - v 1) ∧
  Integer (.imul g all t d a b) g all t d [opA .int t.wide a, opB .int t.wide b] (fun v => v 0 * v 1) ∧
  Integer (.imulh g all t d a b) g all t d [opA .int t.wide a, opB .int t.wide b] (fun v => v 0 * v 1 / ((2 ^ t.width : Nat) : Int)) ∧
  Integer (.imad g all t d a b c) g all t d [opA .int t.wide a, opB .int t.wide b, opC .int t.wide c] (fun v => v 0 * v 1 + v 2) ∧
  Integer (.imin g all t d a b) g all t d [opA .int t.wide a, opB .int t.wide b] (fun v => if v 1 < v 0 then v 1 else v 0) ∧
  Integer (.imax g all t d a b) g all t d [opA .int t.wide a, opB .int t.wide b] (fun v => if v 0 < v 1 then v 1 else v 0) ∧
  Integer (.iabs g all t d a) g all t d [opA .int t.wide a] (fun v => if v 0 < 0 then -v 0 else v 0) ∧
  Integer (.ineg g all t d a) g all t d [opA .int t.wide a] (fun v => -v 0)

/-- R191, R192, R194, R195: `LEA`, `LOP`, the shifts and `FSH`. A shift count is one 32-bit register read unsigned,
not reduced: at n or more, `SHL` and `SHR` give 0 and `SAR` gives n copies of the top bit. -/
def Obligations.AddressesLogicAndShifts : Prop := ∀ g t sgn sh op b64 left clamp d a a' b c,
  Computes (.lea g sgn sh d a b) g false [opA .int true (.reg a), opB .int false b] true d
    (fun _ v l => v 0 l + (if sgn then (lo32 (v 1 l)).signExtend 64 else (lo32 (v 1 l)).setWidth 64) <<< sh) 0 ∧
  Computes (.lop g op b64 d a b) g false [opA .int b64 (.reg a), opB .int b64 b] b64 d
    (fun _ v l => match op with
      | .and => v 0 l &&& v 1 l
      | .or => v 0 l ||| v 1 l
      | .xor => v 0 l ^^^ v 1 l
      | .andn => v 0 l &&& ~~~(v 1 l)
      | .orn => v 0 l ||| ~~~(v 1 l)
      | .xnor => ~~~(v 0 l ^^^ v 1 l)) 0 ∧
  Computes (.shl g t d a b) g false [opA .int t.wide (.reg a), opB .int false b] t.wide d
    (fun _ v l => intOut t (if t.width ≤ (lo32 (v 1 l)).toNat then 0 else intIn t (v 0 l) * ((2 ^ (lo32 (v 1 l)).toNat : Nat) : Int))) 0 ∧
  Computes (.shr g t d a b) g false [opA .int t.wide (.reg a), opB .int false b] t.wide d
    (fun _ v l => intOut t (if t.width ≤ (lo32 (v 1 l)).toNat then 0
      else (((v 0 l).toNat % 2 ^ t.width / 2 ^ (lo32 (v 1 l)).toNat : Nat) : Int))) 0 ∧
  Computes (.sar g t d a b) g false [opA .int t.wide (.reg a), opB .int false b] t.wide d
    (fun _ v l => intOut t (if t.width ≤ (lo32 (v 1 l)).toNat then (if bitOf (v 0 l).toNat (t.width - 1) then -1 else 0)
      else signed t.width (v 0 l).toNat / ((2 ^ (lo32 (v 1 l)).toNat : Nat) : Int))) 0 ∧
  Computes (.fsh g left clamp d a a' c) g false [opA .int false (.reg a), opB .int false (.reg a'), opC .int false c] false d
    (fun _ v l =>
      let x := pair64 (lo32 (v 0 l)) (lo32 (v 1 l))
      let k := if clamp then min (lo32 (v 2 l)).toNat 32 else (lo32 (v 2 l)).toNat % 32
      if left then x <<< k >>> 32 else x >>> k) 0

/-- R193, R196 to R199: the bitwise table, fields, bytes and counts, bit by bit. -/
def Obligations.BitsAndFields : Prop := ∀ (g : Guard) (t : IntTy) (f : BitVec 8) (d a b c : Reg) (y z : Src),
  Bitwise (.bits3 g f d a b c) g [opA .int false (.reg a), opB .int false (.reg b), opC .int false (.reg c)] false d 32
    (fun v j => f.getLsbD (((v 0).getLsbD j).toNat + 2 * ((v 1).getLsbD j).toNat + 4 * ((v 2).getLsbD j).toNat)) ∧
  Bitwise (.bfe g t d a y) g [opA .int t.wide (.reg a), opB .int false y] t.wide d t.width
    (fun v j =>
      let pos := (v 1).toNat % 2 ^ 8
      let m := min ((v 1).toNat / 2 ^ 8 % 2 ^ 8) t.width
      let bit := fun i => if i < t.width then (v 0).getLsbD i else t.signed && (v 0).getLsbD (t.width - 1)
      if j < m then bit (pos + j) else decide (0 < m) && (t.signed && bit (pos + (m - 1)))) ∧
  Bitwise (.bfi g t d a b z) g [opA .int t.wide (.reg a), opB .int false (.reg b), opC .int t.wide z] t.wide d t.width
    (fun v j =>
      let pos := (v 1).toNat % 2 ^ 8
      let len := (v 1).toNat / 2 ^ 8 % 2 ^ 8
      if pos ≤ j ∧ j < pos + len then (v 0).getLsbD (j - pos) else (v 2).getLsbD j) ∧
  Bitwise (.bysel g d a b z) g [opA .int false (.reg a), opB .int false (.reg b), opC .int false z] false d 32
    (fun v j =>
      let x := pair64 (lo32 (v 0)) (lo32 (v 1))
      let k := (v 2).toNat / 2 ^ (6 * (j / 8)) % 2 ^ 6
      let y := fun i => x.getLsbD (8 * (k % 8) + i)
      let z := fun i => match k / 8 % 4 with
        | 0 => y i
        | 1 => false
        | 2 => true
        | _ => y 7
      if 32 ≤ k then z (7 - j % 8) else z (j % 8)) ∧
  Computes (.popc g t d z) g false [opA .int t.wide z] false d
    (fun _ v l => BitVec.ofNat 64 ((List.range t.width).countP fun j => (v 0 l).getLsbD j)) 0 ∧
  (∃ r, Computes (.clz g t d z) g false [opA .int t.wide z] false d r 0 ∧ ∀ e v l, (r e v l).toNat ≤ t.width ∧
    (∀ j, t.width - (r e v l).toNat ≤ j → j < t.width → (v 0 l).getLsbD j = false) ∧
    ((r e v l).toNat < t.width → (v 0 l).getLsbD (t.width - 1 - (r e v l).toNat) = true)) ∧
  Bitwise (.brev g t d z) g [opA .int t.wide z] t.wide d t.width (fun v j => (v 0).getLsbD (t.width - 1 - j))

/-- R200 to R205: compares, selects, moves and predicates. `PMOV.unpack` writes only the predicates its mask names. -/
def Obligations.ComparesAndMoves : Prop := ∀ g all cc t pd pa pb pc d a b x f (r : Reg),
  Decides (.icmp g all cc t pd a b) g all [opA .int t.wide a, opB .int t.wide b] pd
    (fun _ v l =>
      let p := intIn t (v 0 l)
      let q := intIn t (v 1 l)
      match cc with
      | .eq => decide (p = q)
      | .ne => decide (p ≠ q)
      | .lt => decide (p < q)
      | .le => decide (p ≤ q)
      | .gt => decide (q < p)
      | .ge => decide (q ≤ p)
      | .f => false
      | .t => true) ∧
  Computes (.sel g all t d a b pc) g all [opA .int t.wide a, opB .int t.wide b] t.wide d
    (fun e v l => if pget e.g l pc then v 0 l else v 1 l) 0 ∧
  Computes (.mov g t d a) g false [opA .int t.wide a] t.wide d (fun _ v l => v 0 l) 0 ∧
  Computes (.movi g t d x) g false [] t.wide d (fun _ _ _ => x.signExtend 64) 0 ∧
  Decides (.plop g f pd pa pb pc) g false [] pd
    (fun e _ l => f.getLsbD ((pget e.g l pa).toNat + 2 * (pget e.g l pb).toNat + 4 * (pget e.g l pc).toNat)) ∧
  (∃ h, Computes (.pmovPack g d) g false [] false d h 0 ∧
    ∀ e v l j, j < 32 → (h e v l).getLsbD j = (decide (j < 12) && pget e.g l j)) ∧
  Decides (.pmovCopy g pd pa) g false [] pd (fun e _ l => pget e.g l pa) ∧
  ((Instr.pmovUnpack g r b).wf = true → ∀ s e, Issues s e → s.wf → e.laneReady [opA .int false (.reg r), opB .int false b] [] →
    ∃ u, exec (.pmovUnpack g r b) s = .next u ∧ Wrote e u noWrite (fun l k =>
      let v := e.vals g false [opA .int false (.reg r), opB .int false b]
      if hasLane (e.active g) l = true ∧ k < 12 ∧ (v 1 l).getLsbD k = true then some ((v 0 l).getLsbD k) else none) fun _ => 0)

/-- R206, R207, R209: `POLL` gathers over the active lanes alone, `MASK.rd` reads the fragment's masks, `LANEX` moves
bits from the lane it names where that lane is active and inside the group. R208: `MASK.wr` acts once for the fragment,
from the lowest held lane in which the guard passes, whatever `$exm` holds; where the guard passes in no held lane
nothing changes. -/
def Obligations.LanesTogether : Prop := ∀ g pd pa d a b b64 m op x,
  ((Instr.maskWr g op x).wf = true → ∀ s e, Issues s e → s.wf → e.s.errs = [] →
    e.holdsAll (opA .int true x).regs →
    let pass := guarded e.g e.f.held g
    let y := e.srcVals 0 (opA .int true x) (lowLane pass)
    let m := match op with
      | .set => y
      | .and => e.f.exm &&& y
      | .or => e.f.exm ||| y
      | .andn => e.f.exm &&& ~~~y
    ∃ t, exec (.maskWr g op x) s = .next t ∧
      Moved e (({ e.f with exm := if pass = 0 then e.f.exm else m &&& e.f.held } : Frag).goOn e.i.next s.cycle) t) ∧
  Decides (.poll g (.every pd) pa) g false [] pd (fun e _ _ => (lanesOf (e.active g)).all fun k => pget e.g k pa) ∧
  Decides (.poll g (.some pd) pa) g false [] pd (fun e _ _ => (lanesOf (e.active g)).any fun k => pget e.g k pa) ∧
  Decides (.poll g (.same pd) pa) g false [] pd (fun e _ _ =>
    ((lanesOf (e.active g)).all fun k => pget e.g k pa) || ((lanesOf (e.active g)).all fun k => !pget e.g k pa)) ∧
  (∃ h, Computes (.poll g (.bits d) pa) g false [] true d h 0 ∧
    ∀ e v l k, k < 64 → (h e v l).getLsbD k = (hasLane (e.active g) k && pget e.g k pa)) ∧
  Computes (.poll g (.count d) pa) g false [] false d
    (fun e _ _ => BitVec.ofNat 64 ((lanesOf (e.active g)).countP fun k => pget e.g k pa)) 0 ∧
  Computes (.poll g (.first d) pa) g false [] false d
    (fun e _ _ => match (lanesOf (e.active g)).find? fun k => pget e.g k pa with
      | some k => BitVec.ofNat 64 k
      | none => 0xFFFFFFFF) 0 ∧
  Computes (.maskRd g d) g false [] true d (fun e _ _ => e.f.exm) 0 ∧
  Computes (.maskRdHeld g d) g false [] true d (fun e _ _ => e.f.held) 0 ∧
  Computes (.lanex g m b64 d a b) g false (opA .int b64 (.reg a) :: if m = .rev then [] else [opB .int false b]) b64 d
    (fun e v l =>
      let w : Int := e.b.width
      let n : Int := (lo32 (v 1 l)).toNat
      let z : Int := (lo32 (v 1 l)).toInt
      let j : Int := match m with
        | .idx => n
        | .off => (l : Int) + z
        | .rot => ((l : Int) + z) % w
        | .flip => ((l ^^^ (lo32 (v 1 l)).toNat : Nat) : Int)
        | .rev => w - 1 - l
      if 0 ≤ j ∧ j < w ∧ hasLane (e.active g) j.toNat = true then v 0 j.toNat else v 0 l) 0

/-- R236 to R240: binary32 and packed 16-bit arithmetic: a NaN source gives the first NaN quieted, else one
rounding of the exact result by the mode; minimum, maximum, compares and classes. -/
def Obligations.FloatArithmetic : Prop := ∀ g all m k h cc pd d a b c,
  Rounded (.fadd g all m d a b) g all m d [opA .f32 false a, opB .f32 false b] (fun r v =>
    nanOr f32 [v 0, v 1] (f32.round m r (valAdd m (f32.decode (v 0)) (f32.decode (v 1))))) ∧
  Rounded (.fmul g all m d a b) g all m d [opA .f32 false a, opB .f32 false b] (fun r v =>
    nanOr f32 [v 0, v 1] (f32.round m r (valMul (f32.decode (v 0)) (f32.decode (v 1))))) ∧
  Rounded (.ffma g all m d a b c) g all m d [opA .f32 false a, opB .f32 false b, opC .f32 false c] (fun r v =>
    nanOr f32 [v 0, v 1, v 2] (f32.round m r (valAdd m (valMul (f32.decode (v 0)) (f32.decode (v 1))) (f32.decode (v 2))))) ∧
  Rounded (.fmin g all k d a b) g all .rn d [opA .f32 false a, opB .f32 false b] (fun _ v =>
    if k = .num ∧ f32.isNan (v 0) ≠ f32.isNan (v 1) then (if f32.isNan (v 0) then v 1 else v 0)
    else nanOr f32 [v 0, v 1] (f32.minOf (v 0) (v 1))) ∧
  Rounded (.fmax g all k d a b) g all .rn d [opA .f32 false a, opB .f32 false b] (fun _ v =>
    if k = .num ∧ f32.isNan (v 0) ≠ f32.isNan (v 1) then (if f32.isNan (v 0) then v 1 else v 0)
    else nanOr f32 [v 0, v 1] (f32.maxOf (v 0) (v 1))) ∧
  Decides (.fcmp g all cc pd a b) g all [opA .f32 false a, opB .f32 false b] pd (fun _ v l =>
    let o := f32.compare (v 0 l).toNat (v 1 l).toNat
    match cc with
    | .eq => o == some .eq
    | .ne => o != some .eq
    | .lt => o == some .lt
    | .le => o == some .lt || o == some .eq
    | .gt => o == some .gt
    | .ge => o == some .gt || o == some .eq
    | .un => o == none
    | .ordered => o != none) ∧
  Rounded (.fclass g all d a) g all .rn d [opA .f32 false a] (fun _ v => class32 (v 0)) ∧
  Decides (.fclassTest g all pd a b) g all [opA .f32 false a, opB .int false b] pd
    (fun _ v l => BitVec.ofNat 32 (class32 (v 0 l).toNat) &&& lo32 (v 1 l) != 0) ∧
  RoundedHalves (.hadd2 g all h m d a b) g all m d [opA (.half h) false a, opB (.half h) false b] (fun r v =>
    nanOr (halfOf h) [v 0, v 1] ((halfOf h).round m r (valAdd m ((halfOf h).decode (v 0)) ((halfOf h).decode (v 1))))) ∧
  RoundedHalves (.hmul2 g all h m d a b) g all m d [opA (.half h) false a, opB (.half h) false b] (fun r v =>
    nanOr (halfOf h) [v 0, v 1] ((halfOf h).round m r (valMul ((halfOf h).decode (v 0)) ((halfOf h).decode (v 1))))) ∧
  RoundedHalves (.hfma2 g all h m d a b c) g all m d [opA (.half h) false a, opB (.half h) false b, opC (.half h) false c] (fun r v =>
    nanOr (halfOf h) [v 0, v 1, v 2]
      ((halfOf h).round m r (valAdd m (valMul ((halfOf h).decode (v 0)) ((halfOf h).decode (v 1))) ((halfOf h).decode (v 2)))))

/-- R241, R242: reciprocal, roots and the transcendentals complete with the value of their algorithm; and of those values,
the special cases of both rules, whatever the mode and the draw, the powers of two that the roots and the reciprocal give
exactly, and the manual's example. -/
def Obligations.FloatFunctions : Prop := ∀ g all m d a,
  Rounded (.frcp g all m d a) g all m d [opA .f32 false a] (fun r v => rcp32 m r (v 0)) ∧
  Rounded (.frsq g all m d a) g all m d [opA .f32 false a] (fun r v => rsq32 m r (v 0)) ∧
  Rounded (.fsqrt g all m d a) g all m d [opA .f32 false a] (fun r v => sqrt32 m r (v 0)) ∧
  Rounded (.fexp2 g all d a) g all .rn d [opA .f32 false a] (fun _ v => exp2f (v 0)) ∧
  Rounded (.flog2 g all d a) g all .rn d [opA .f32 false a] (fun _ v => log2f (v 0)) ∧
  Rounded (.fsin g all d a) g all .rn d [opA .f32 false a] (fun _ v => sinf (v 0)) ∧
  Rounded (.fcos g all d a) g all .rn d [opA .f32 false a] (fun _ v => cosf (v 0)) ∧
  Rounded (.ftanh g all d a) g all .rn d [opA .f32 false a] (fun _ v => tanhf (v 0)) ∧
  (∀ r, rcp32 m r 0xFF800000 = 0x80000000 ∧ rcp32 m r 0x80000000 = 0xFF800000 ∧ rcp32 m r 0 = 0x7F800000 ∧ rcp32 m r 0x7F800000 = 0 ∧
    rsq32 m r 0x80000000 = 0xFF800000 ∧ rsq32 m r 0 = 0x7F800000 ∧ rsq32 m r 0x7F800000 = 0 ∧
    sqrt32 m r 0x80000000 = 0x80000000 ∧ sqrt32 m r 0 = 0 ∧ sqrt32 m r 0x7F800000 = 0x7F800000 ∧
    ∀ x, 0x80000000 < x → x ≤ 0xFF800000 → rsq32 m r x = 0x7FC00000 ∧ sqrt32 m r x = 0x7FC00000) ∧
  (m ≠ .sr → (∀ e, 1 ≤ e → e ≤ 253 → rcp32 m 0 (e * 2 ^ 23) = (254 - e) * 2 ^ 23) ∧
    ∀ k, k ≤ 126 → sqrt32 m 0 ((1 + 2 * k) * 2 ^ 23) = (64 + k) * 2 ^ 23 ∧ rsq32 m 0 ((1 + 2 * k) * 2 ^ 23) = (190 - k) * 2 ^ 23) ∧
  (∀ x, 0x43000000 ≤ x → x ≤ 0x7F800000 → exp2f x = 0x7F800000) ∧ (∀ x, 0xC3160000 < x → x ≤ 0xFF800000 → exp2f x = 0) ∧
  exp2f 0x3F400000 = 0x3FD744FD ∧
  log2f 0 = 0xFF800000 ∧ log2f 0x80000000 = 0xFF800000 ∧ log2f 0x7F800000 = 0x7F800000 ∧
  (∀ x, 0x80000000 < x → x ≤ 0xFF800000 → log2f x = 0x7FC00000) ∧
  (∀ x ∈ [0, 0x80000000], sinf x = x ∧ cosf x = 0x3F800000 ∧ tanhf x = x) ∧
  (∀ x ∈ [0x7F800000, 0xFF800000], sinf x = 0x7FC00000 ∧ cosf x = 0x7FC00000) ∧
  ∀ x, 0x41200000 ≤ x → x ≤ 0x7F800000 → tanhf x = 0x3F800000 ∧ tanhf (x + 2 ^ 31) = 0xBF800000

/-- R153, R154, R160: rounding a value the format holds gives its own pattern, in every mode and for every draw. -/
def Obligations.ExactValuesRoundToThemselves : Prop :=
  ∀ f ∈ [f32, f16, bf16, e4m3, e5m2, e3m2, e2m3, e2m1], ∀ m d x, x < 2 ^ f.bits → f.isNan x = false → f.round m d (f.decode x) = x

/-- R243: `CVT` converts one element of its source and places it in one element of its destination, whose other bits
are kept, but for bits 31 and 30 of a `wt6` destination, which are zero; with `sr` each active lane takes one draw. -/
def Obligations.Conversions : Prop := ∀ g all m dt st d j a i, (Instr.cvt g all m dt st d j a i).wf = true →
  ∃ h, Computes (.cvt g all m dt st d j a i) g all [opA .f32 st.wide a] dt.wide d h (if m = .sr then 1 else 0) ∧
    ∀ e v l,
      let y := convert dt st m (if m = .sr then (e.draw l 0).toNat else 0) ((v 0 l).toNat / 2 ^ (cbits st * i) % 2 ^ cbits st)
      if dt.wide then (h e v l).toNat = y
      else ∀ k, k < 32 → (h e v l).getLsbD k =
        if cbits dt * j ≤ k ∧ k < cbits dt * (j + 1) then bitOf y (k - cbits dt * j)
        else if dt = .wt6 ∧ 30 ≤ k then false
        else (rget e.b e.g l d).getLsbD k

/-- R244 to R246: `QNT` forms each block's scale byte from the inputs of active lanes, +0 for the others, packs each
active lane's elements, and writes the scale bytes to the odd register; `DQNT` multiplies each element by its scale;
`RAND` draws. A uniform pair as destination of `QNT` takes the scale word of the lowest active lane, the model's own
reading (assumption 31). -/
def Obligations.QuantiseAndDraw : Prop :=
  (∀ g m f d a, (Instr.qnt g m f d a).wf = true → ∀ s e, Issues s e → s.wf → s.errs = [] →
    e.holdsAll [(2, a, perWord (Machine.mxCode f)), (1, d, 2)] →
    let n := perWord (Machine.mxCode f)
    let act := e.active g
    let x : Nat → Nat → Nat := fun l j => if hasLane act l then (rget e.b e.g l (regUp a j)).toNat else 0
    let xs := (List.range e.b.width).flatMap fun l => (List.range n).map (x l)
    let byte : Nat → Nat := fun c => if c < ceilDiv (e.b.width * n) 32 then quantScale (Machine.mxCode f) (((xs.drop (32 * c)).take 32).map f32.decode) else 0
    let word : Nat → W32 := fun q => BitVec.ofNat 32 (byte (4 * q) + 2 ^ 8 * byte (4 * q + 1) + 2 ^ 16 * byte (4 * q + 2) + 2 ^ 24 * byte (4 * q + 3))
    ∃ t, exec (.qnt g m f d a) s = .next t ∧
      Wrote e t (fun l r =>
        if r = regUp d 1 then
          (let q := if d.isVec then l else lowLane act
           if act ≠ 0 ∧ q < 4 then some (word q) else none)
        else lands d act (fun l => packElems (Machine.mxCode f) ((List.range n).map fun j =>
          quantElem (Machine.mxCode f) m (if m = .sr then (e.draw l j).toNat else 0) (byte ((l * n + j) / 32)) (x l j))) l r)
        noWrite (takes act (if m = .sr then n else 0))) ∧
  (∀ g f d a, (Instr.dqnt g f d a).wf = true → ∀ s e, Issues s e → s.wf → s.errs = [] →
    e.holdsAll [(2, a, 2), (1, d, perWord (Machine.mxCode f))] →
    let n := perWord (Machine.mxCode f)
    ∃ t, exec (.dqnt g f d a) s = .next t ∧
      Wrote e t (fun l r => ((List.range n).find? fun j => r == regUp d j).bind fun j =>
        lands r (e.active g) (fun k =>
          let c := (k * n + j) / 32
          dequantElem (Machine.mxCode f) ((rget e.b e.g (c / 4) (regUp a 1)).toNat / 2 ^ (8 * (c % 4)) % 2 ^ 8)
            ((rget e.b e.g k a).toNat / 2 ^ (elemBits (Machine.mxCode f) * j) % 2 ^ elemBits (Machine.mxCode f))) l r)
        noWrite fun _ => 0) ∧
  ∀ g d, Computes (.rand g .n32 d) g false [] false d (fun e _ l => (e.draw l 0).setWidth 64) 1 ∧
    Computes (.rand g .n64 d) g false [] true d (fun e _ l => pair64 (e.draw l 0) (e.draw l 1)) 2 ∧
    ∃ h, Computes (.rand g .f32 d) g false [] false d h 1 ∧ ∀ e v l,
      f32.compare (h e v l).toNat 0x3F800000 = some .lt ∧
      ∃ s n k, f32.decode (lo32 (h e v l)).toNat = .fin s n k ∧ scaledTo s n k (-160) = (((e.draw l 0).toNat / 256 * 2 ^ 136 : Nat) : Int)

/-! ### Row 0x0: control -/

/-- R211 to R214: transfers complete for every guard and mask. The target of `BRA` and `CALL` is the slot's PC plus eight
times the displacement; that of `BRX` and `RET` comes from a pair, and lanes with another target than the lowest one's peel
off later, their PC this same instruction. `CALL` moves lanes as `BRA` does, with its link written in every lane that
moves. A target that names no slot is a fault and not this (R355). -/
def Obligations.TransfersOfControl : Prop :=
  (∀ g d, (Instr.bra g d).wf = true → ∀ s e, Issues s e → s.wf → e.g.named → s.errs = [] →
    noSlot (e.i.pc + d.signExtend 64 * 8) = false →
    ∃ u, exec (.bra g d) s = .next u ∧
      Transfers e (decide (12 ≤ g.idx)) (e.active g) (e.i.pc + d.signExtend 64 * 8) e.i.next u) ∧
  (∀ g a, ∀ i ∈ [Instr.brx g a, .ret g a], i.wf = true → ∀ s e, Issues s e → s.wf → e.g.named → s.errs = [] →
    e.holdsAll [(2, a, 2)] →
    let t := e.active g
    let reads := if e.f.exm = 0 ∧ 12 ≤ g.idx then maskOf [lowLane e.f.held] else t
    let target := rget64 e.b e.g (lowLane reads) a
    let x := maskOf ((lanesOf t).filter fun l => rget64 e.b e.g l a = target)
    (∀ l ∈ lanesOf reads, noSlot (rget64 e.b e.g l a) = false) →
    ∃ u, exec i s = .next u ∧ Transfers e (decide (12 ≤ g.idx)) x target (if x = t then e.i.next else e.i.pc) u) ∧
  (∀ g r d, (Instr.call g r d).wf = true → ∀ s e, Issues s e → s.wf → e.g.named → s.errs = [] → e.holdsAll (useD true r) →
    noSlot (e.i.pc + d.signExtend 64 * 8) = false →
    ∃ u e1, exec (.call g r d) s = .next u ∧
      Transfers e1 (decide (12 ≤ g.idx)) (e.active g) (e.i.pc + d.signExtend 64 * 8) e.i.next u ∧
      e1.i = e.i ∧ e1.f = e.f ∧ { e1.s with blocks := s.blocks } = s ∧
      { e1.g with v := e.g.v, u := e.g.u } = e.g ∧ { e1.b with groups := e.b.groups, exts := e.b.exts } = e.b ∧
      ∀ l q, q.wf = true → rget e1.b e1.g l q =
        (landsW true r (if e.f.exm = 0 ∧ 12 ≤ g.idx then e.f.held else e.active g) (fun _ => e.i.next) l q).getD (rget e.b e.g l q))

/-- R215, R216: `EXIT` takes the lanes whose guard passes out of the group and leaves every other lane in it; it waits
only while lanes of an open token have stores on the way. No register and no byte of memory changes. -/
def Obligations.ExitLanes : Prop := ∀ g, (Instr.exit g).wf = true → ∀ s e, Issues s e → s.wf → e.g.named → s.errs = [] →
  (∀ b ∈ s.blocks, ∀ g ∈ b.groups, ∀ f ∈ g.frags, inDbarF f = false) →
  (∀ f ∈ e.g.frags, f.fid ≠ e.f.fid → f.held &&& e.active g = 0) →
  (e.active g = 0 → ∃ u, exec (.exit g) s = .next u ∧ Moved e (e.f.goOn e.i.next s.cycle) u) ∧
  (e.active g ≠ 0 → ((e.g.toks.all fun t => t.part &&& e.active g == 0) = true ∨ ∀ o ∈ e.opsMine, o.accs = []) →
    ∃ u, exec (.exit g) s = .next u ∧ u.cur = none ∧ (∀ a, u.rd a = s.rd a) ∧
      { u with cur := s.cur, blocks := s.blocks } = s ∧
      ∃ b h, u.group? e.i.f.bid e.i.f.gid = some (b, h) ∧
        { h with frags := e.g.frags, toks := e.g.toks, filter := e.g.filter, ended := e.g.ended } = e.g ∧
        ∀ l, h.holdsLane l ↔ e.g.holdsLane l ∧ hasLane (e.active g) l = false)

/-- R33, R34, R217, R218: `TOK` opens a token over the fragment's held mask. `JOIN` parks at its innermost token's join
point, or starts a pending side recorded on that token or within it; that a side on the innermost token goes first is the model's
choice (assumption 60). When every lane of the token is parked there or has exited, the parked fragments merge: the union of
their lanes and masks, the lowest id, the instruction after the `JOIN`. -/
def Obligations.Tokens : Prop :=
  (∀ d, ∀ s e, Issues s e → s.wf → noSlot (e.i.pc + d.signExtend 64 * 8) = false → e.g.toks.length < 16 →
    ∃ u, exec (.tok d) s = .next u ∧ GroupOnly e u fun g f => f = e.f.goOn e.i.next s.cycle ∧
      { g with frags := e.g.frags, toks := e.g.toks, nextTok := e.g.nextTok } = e.g ∧
      g.toks = e.g.toks ++ [{ id := e.g.nextTok, join := e.i.pc + d.signExtend 64 * 8, part := e.f.held }] ∧
      ∀ j, j ≠ e.i.f.fid → g.frag? j = e.g.frag? j) ∧
  (∀ s e, Issues s e → s.wf → (∀ t, innerTok e.g e.f = some t → t.join ≠ e.i.pc) →
    ∃ u, exec .join s = .next u ∧ Moved e (e.f.goOn e.i.next s.cycle) u) ∧
  (∀ s e t, Issues s e → s.wf → e.g.named → innerTok e.g e.f = some t → t.join = e.i.pc → (∀ o ∈ e.opsMine, o.accs = []) →
    ∃ u b g, exec .join s = .next u ∧ u.cur = none ∧ (∀ a, u.rd a = s.rd a) ∧ { u with cur := s.cur, blocks := s.blocks } = s ∧
      u.group? e.i.f.bid e.i.f.gid = some (b, g) ∧ (∀ l, g.holdsLane l ↔ e.g.holdsLane l) ∧
      { g with frags := e.g.frags, toks := e.g.toks, filter := e.g.filter, ended := e.g.ended } = e.g ∧
      if e.f.pends.any (fun p => p.tok.any fun k => decide (t.id ≤ k)) then
        ∃ f, ∃ p ∈ e.f.pends, (∃ k, p.tok = some k ∧ t.id ≤ k ∧ ∀ q ∈ e.f.pends, ∀ j, q.tok = some j → j ≤ k) ∧
          g.frag? e.i.f.fid = some f ∧ f.pc = p.pc ∧ f.exm = p.mask &&& e.f.held ∧ f.st = .running
      else
        let exm := e.f.exm ||| (match e.f.arrived.find? fun a => a.tok == t.id with | some a => a.exm | none => 0)
        let here := (e.g.setFrag (parkFrag e.f t.id exm e.i.next)).frags.filter fun f => f.st == .parked t.id
        let union := here.foldl (fun m f => m ||| f.held) 0
        if t.part &&& ~~~union = 0 then
          ∃ m ∈ g.frags, m.st = .running ∧ m.held = union ∧ m.exm = here.foldl (fun m f => m ||| f.exm) 0 ∧
            (∀ p ∈ here, m.fid ≤ p.fid) ∧ ((∀ p ∈ here, p.pc = e.i.next) → m.pc = e.i.next)
        else ∃ f, g.frag? e.i.f.fid = some f ∧ f.st = .parked t.id ∧ f.exm = exm ∧ f.pc = e.i.next)

/-- R40, R173, R182, R219, R220: `NOP`, whatever its fields hold, and a reserved-hint encoding do nothing, `YIELD` makes the fragment the
youngest, `SLEEP` puts it to sleep until its wake time, and once `$gtime` has reached that time it goes on at the next slot. -/
def Obligations.NothingYieldAndSleep : Prop :=
  (∀ w, ∀ i ∈ [Instr.nop, .reservedHint w], ∀ s e, Issues s e → ∃ u, exec i s = .next u ∧ Moved e (e.f.goOn e.i.next s.cycle) u) ∧
  (∀ k lit (w : W64), w.toNat % 2 ^ 8 = 0 → decodeSlot k w lit = .nop) ∧
  (∀ s e, Issues s e → ∃ u, exec .yield s = .next u ∧ Moved e { e.f.goOn e.i.next s.cycle with age := s.cycle } u) ∧
  (∀ a s e, Issues s e → s.errs = [] → ∃ u, exec (.sleepRel a) s = .next u ∧
    Moved e { e.f with st := .sleeping (s.gtime + BitVec.ofInt 64 (max (uget e.g a).toInt 0)) e.i.next } u) ∧
  (∀ a s e, Issues s e → s.errs = [] → ∃ u, exec (.sleepAbs a) s = .next u ∧
    Moved e { e.f with st := .sleeping (pair64 (uget e.g a) (uget e.g (a + 1))) e.i.next } u) ∧
  ∀ r s b g f w n, s.frag? r = some (b, g, f) → f.st = .sleeping w n → w.toNat ≤ s.gtime.toNat → g.frozen = none →
    ∃ u, exec (.sleepWake r) s = .next u ∧ u = s.onFrag r fun f => { f.goOn n s.cycle with age := s.cycle }

/-- R173, R182, R296, R334: `TRAP` raises trap 0x03 with its code in the lanes whose guard passes; `BKPT` trap 0x04 where
the driver has enabled debugging, else nothing; a reserved-emulable encoding trap 0x01, a reserved-invalid one fault
0x02. The group stops with the slot's PC, the next PC and the time; no register and no byte of memory changes. -/
def Obligations.TrapsAndReservedEncodings : Prop := ∀ g c w s e, g.wf = true → Issues s e → s.wf → s.errs = [] → e.g.stop = none →
  (∃ u, exec (.trap g c) s = .next u ∧
    if e.active g = 0 then Moved e (e.f.goOn e.i.next s.cycle) u else Stopped e (mkEv 0x03 c.toNat 0 (e.active g)) u) ∧
  (∃ u, exec (.bkpt g) s = .next u ∧
    if e.active g = 0 ∨ bitOf (s.creg e.b.ctx oTRAPH) 1 = false then Moved e (e.f.goOn e.i.next s.cycle) u
    else Stopped e (mkEv 0x04 0 0 (e.active g)) u) ∧
  (∃ u ev, exec (.reservedEmulable w) s = .next u ∧ Stopped e ev u ∧ ev.cause = 0x01 ∧ ev.code = 0) ∧
  ∃ u ev, exec (.reservedInvalid w) s = .next u ∧ Stopped e ev u ∧ ev.cause = 0x02 ∧ ev.code = 0

/-! ### Rows 0x7 and 0x8: memory -/

/-- R94, R104, R249, R250, R251, R252: loads. Each active lane reads the bytes of its data type at its address, the
lowest alone where the destination is uniform; the instruction is then in flight, counted on its flag, and has
changed nothing yet. A misaligned address is a fault and not this. -/
def Obligations.LoadsIssue : Prop := ∀ g fl t sc d a off s e, Issues s e → s.wf → e.memReady fl →
  let act := oneLane d (e.active g)
  let n := dtBytes t
  (∀ p ∈ [(Instr.ld g fl t sc d a off, false), (Instr.ldAcq g fl t sc d a off, true)], p.1.wf = true →
    e.holdsAll [(2, a, 2), (1, d, dtRegs t)] → ∀ pa : Nat → Nat,
    (∀ l ∈ lanesOf act, e.lane64 a off l % n = 0 ∧ e.reaches .load p.2 (e.lane64 a off l) (pa l)) →
    ∃ u, exec p.1 s = .next u ∧ Launched e fl u fun op => (act ≠ 0 → op.scope = sc ∧ op.acq = p.2) ∧
      op.accs = (lanesOf act).map fun l =>
        { space := if inRegs (pa l) then .regs else .global, lanes := maskOf [l], body := .load l d t (span (pa l) n) }) ∧
  ((Instr.lds g fl t d a off).wf = true → e.holdsAll [(2, a, 1), (1, d, dtRegs t)] →
    (∀ l ∈ lanesOf act, e.lane32 a off l % n = 0 ∧ e.lane32 a off l + n ≤ e.b.kernel.scratch) →
    ∃ u, exec (.lds g fl t d a off) s = .next u ∧ Launched e fl u fun op =>
      op.accs = (lanesOf act).map fun l =>
        { space := .scratch, lanes := maskOf [l], body := .load l d t (span (e.lane32 a off l) n) }) ∧
  ((Instr.ldl g fl t d a off).wf = true → e.holdsAll [(2, a, 1), (1, d, dtRegs t)] → ∀ pa : Nat → Nat → Nat,
    (∀ l ∈ lanesOf act, e.lane32 a off l % n = 0 ∧ e.lane32 a off l + n ≤ e.b.kernel.priv ∧
      ∀ i < ceilDiv n 4, e.reaches .load false (privAddr e.b e.g l (e.lane32 a off l + 4 * i)) (pa l i)) →
    ∃ u, exec (.ldl g fl t d a off) s = .next u ∧ Launched e fl u fun op =>
      op.accs = (lanesOf act).flatMap fun l => (List.range (ceilDiv n 4)).map fun i =>
        { space := if inRegs (pa l i) then .regs else .priv, lanes := maskOf [l]
          body := .load l (if n ≤ 4 then d else regUp d i) (if n ≤ 4 then t else .w32) (span (pa l i) (min n 4)) })

/-- R94, R104, R127, R250, R252: stores. Each active lane's value, from a register, a pair, four registers or a map, is
on its way to the bytes at its address, and to no other byte: of lanes that name one address the highest wins. -/
def Obligations.StoresIssue : Prop := ∀ g fl t sc a off b s e, Issues s e → s.wf → e.memReady fl → e.slotReady (opB .int false b) →
  let act := e.active g
  let n := dtBytes t
  (∀ p ∈ [(Instr.st g fl t sc a off b, false), (Instr.stRel g fl t sc a off b, true)], p.1.wf = true →
    e.holdsAll ((2, a, 2) :: storeReads t b) → ∀ pa : Nat → Nat,
    (∀ l ∈ lanesOf act, e.lane64 a off l % n = 0 ∧ e.reaches .store p.2 (e.lane64 a off l) (pa l)) →
    ∃ u, exec p.1 s = .next u ∧ Launched e fl u fun op => (act ≠ 0 → op.scope = sc ∧ op.rel = p.2) ∧
      StoresLanes op.accs act n pa (e.storing act t b) ∧ ∀ x ∈ op.accs, x.space = if inRegs (x.touches.headD 0) then .regs else .global) ∧
  ((Instr.sts g fl t a off b).wf = true → e.holdsAll ((2, a, 1) :: storeReads t b) →
    (∀ l ∈ lanesOf act, e.lane32 a off l % n = 0 ∧ e.lane32 a off l + n ≤ e.b.kernel.scratch) →
    ∃ u, exec (.sts g fl t a off b) s = .next u ∧ Launched e fl u fun op =>
      StoresLanes op.accs act n (e.lane32 a off) (e.storing act t b) ∧ ∀ x ∈ op.accs, x.space = .scratch) ∧
  ((Instr.stl g fl t a off b).wf = true → e.holdsAll ((2, a, 1) :: storeReads t b) → n ≤ 4 → ∀ pa : Nat → Nat,
    (∀ l ∈ lanesOf act, e.lane32 a off l % n = 0 ∧ e.lane32 a off l + n ≤ e.b.kernel.priv ∧
      e.reaches .store false (privAddr e.b e.g l (e.lane32 a off l)) (pa l)) →
    ∃ u, exec (.stl g fl t a off b) s = .next u ∧ Launched e fl u fun op => StoresLanes op.accs act n pa (e.storing act t b)) ∧
  ((Instr.stl g fl t a off b).wf = true → e.holdsAll ((2, a, 1) :: storeReads t b) → 4 < n → ∀ pa : Nat → Nat → Nat,
    (∀ l ∈ lanesOf act, e.lane32 a off l % n = 0 ∧ e.lane32 a off l + n ≤ e.b.kernel.priv ∧
      ∀ i < n / 4, e.reaches .store false (privAddr e.b e.g l (e.lane32 a off l + 4 * i)) (pa l i)) →
    (∀ l ∈ lanesOf act, ∀ m ∈ lanesOf act, ∀ i < n / 4, ∀ j < n / 4, pa l i = pa m j → l = m ∧ i = j) →
    ∃ u, exec (.stl g fl t a off b) s = .next u ∧ Launched e fl u fun op => ∀ x y, (x, y) ∈ op.accs.flatMap Acc.stored ↔
      ∃ l ∈ lanesOf act, ∃ i < n / 4, ∃ k < 4, x = pa l i + k ∧ y = BitVec.ofNat 8 (e.storing act t b l / 2 ^ (8 * (4 * i + k))))

/-- R253, R361: `MXLD` reads each active lane's word and every scale byte, `MXST` stores them, to no other byte. -/
def Obligations.MxTransfersIssue : Prop := ∀ g fl fmt sc d a b c off s e, Issues s e → s.wf → e.memReady fl →
  let per := perWord (Machine.mxCode fmt)
  let nb := ceilDiv (e.b.width * per) 32
  ((Instr.mxld g fl fmt sc d a b off).wf = true → e.holdsAll [(2, a, 2), (3, b, 2), (1, d, 2)] → ∀ (pa : Nat → Nat) qa,
    let act := oneLane d (e.active g)
    e.lane64 a off 0 % 32 = 0 → (rget64 e.b e.g 0 b).toNat % powerUp nb = 0 →
    (∀ l ∈ lanesOf act, l < e.b.width ∧ e.reaches .mxload false (e.lane64 a off 0 + 4 * l) (pa l) ∧ e.reaches .mxload false (rget64 e.b e.g 0 b).toNat qa) →
    ∃ u, exec (.mxld g fl fmt sc d a b off) s = .next u ∧ Launched e fl u fun op => act ≠ 0 →
      op.fin = .scales d act ∧ op.scope = sc ∧
      (∀ l x, (∃ z ∈ op.accs, ∃ ws ss, z.body = .mxload d ws ss ∧ (l, x) ∈ ws) ↔ l ∈ lanesOf act ∧ x = pa l) ∧
      ∀ k x, (∃ z ∈ op.accs, ∃ ws ss, z.body = .mxload d ws ss ∧ (k, x) ∈ ss) ↔ k < nb ∧ x = qa + k) ∧
  ((Instr.mxst g fl fmt sc a b c).wf = true → e.holdsAll [(2, a, 2), (3, b, 2), (4, c, 2)] → ∀ (pa : Nat → Nat) qa,
    let act := e.active g
    e.lane64 a 0 0 % 32 = 0 → (rget64 e.b e.g 0 c).toNat % powerUp nb = 0 →
    (∀ l ∈ lanesOf act, e.reaches .mxstore false (e.lane64 a 0 0 + 4 * l) (pa l) ∧ e.reaches .mxstore false (rget64 e.b e.g 0 c).toNat qa) →
    ∃ u, exec (.mxst g fl fmt sc a b c) s = .next u ∧ Launched e fl u fun op => act ≠ 0 → op.scope = sc ∧
      ((op.accs.flatMap Acc.stored).map (·.1)).Nodup ∧
      (∀ x, x ∈ (op.accs.flatMap Acc.stored).map (·.1) ↔ (∃ l ∈ lanesOf act, ∃ k < 4, x = pa l + k) ∨ ∃ k < nb, x = qa + k) ∧
      ∀ x y, (x, y) ∈ op.accs.flatMap Acc.stored →
        (∃ l ∈ lanesOf act, ∃ k < 4, x = pa l + k ∧ y = BitVec.ofNat 8 ((rget e.b e.g l b).toNat / 2 ^ (8 * k))) ∨
        ∃ k < nb, x = qa + k ∧ y = BitVec.ofNat 8 ((rget e.b e.g (k / 4) (regUp b 1)).toNat / 2 ^ (8 * (k % 4))))

/-- R256, R257: atomics are served in one access for each address, with every active lane once and its own values;
`RED` returns nothing. -/
def Obligations.AtomicsIssue : Prop := ∀ g fl op w o sc d a b c s e, Issues s e → s.wf → e.memReady fl →
  let act := e.active g
  let n := atomBytes w
  let k := if w = .b64 then 2 else 1
  let vals := fun l => if w = .b64 then (rget64 e.b e.g l b, rget64 e.b e.g l c)
    else ((rget e.b e.g l b).setWidth 64, (rget e.b e.g l c).setWidth 64)
  (∀ p ∈ [(Instr.atom g fl op w o sc d a b c, some d), (Instr.red g fl op w o sc a b c, none)], p.1.wf = true →
    e.holdsAll ([(2, a, 2), (3, b, k)] ++ (if op = .cas then [(4, c, k)] else [])) → (∀ r, p.2 = some r → e.holdsAll [(1, r, k)]) →
    ∀ pa : Nat → Nat, (∀ l ∈ lanesOf act, e.lane64 a 0 l % n = 0 ∧ e.reaches .atomic (decide (o ≠ .plain)) (e.lane64 a 0 l) (pa l)) →
    ∃ u, exec p.1 s = .next u ∧ Launched e fl u fun q => AtomLanes q.accs op w p.2 .global act pa vals ∧
      (act ≠ 0 → q.scope = sc ∧ q.acq = decide (o = .acq ∨ o = .ar) ∧ q.rel = decide (o = .rel ∨ o = .ar))) ∧
  ((Instr.atoms g fl op w d a b c).wf = true →
    e.holdsAll ([(2, a, 1), (3, b, k)] ++ (if op = .cas then [(4, c, k)] else []) ++ [(1, d, k)]) →
    (∀ l ∈ lanesOf act, e.lane32 a 0 l % n = 0 ∧ e.lane32 a 0 l + n ≤ e.b.kernel.scratch) →
    ∃ u, exec (.atoms g fl op w d a b c) s = .next u ∧ Launched e fl u fun q => AtomLanes q.accs op w (some d) .scratch act (e.lane32 a 0) vals)

/-- R257: what an atomic returns and leaves, over any number of lanes in lane order: each lane receives the value as
the lanes before it leave it. Sums do not depend on how lanes are grouped; a compare-and-swap stores a lane's second value
where the location holds its first; `.fadd` returns sums over the pairwise tree of the lanes before. -/
def Obligations.AtomicValues : Prop := ∀ w (old : W64) (vs : List (W64 × W64)), atomCut w old = old → (∀ p ∈ vs, atomCut w p.1 = p.1 ∧ atomCut w p.2 = p.2) →
  let n := 8 * atomBytes w
  let run := fun op => atomServe op w old vs
  (∀ op, (op = .fadd → w = .b32) → (run op).1.length = vs.length ∧ ∀ k, k < vs.length → (run op).1[k]? = some (if k = 0 then old else (atomServe op w old (vs.take k)).2)) ∧
  (run .add).2.toNat = (old.toNat + (vs.map fun p => p.1.toNat).sum) % 2 ^ n ∧
  (∀ i, (run .and).2.getLsbD i = (old.getLsbD i && vs.all fun p => p.1.getLsbD i)) ∧
  (∀ i, (run .or).2.getLsbD i = (old.getLsbD i || vs.any fun p => p.1.getLsbD i)) ∧
  (run .umax).2.toNat = (vs.map fun p => p.1.toNat).foldl max old.toNat ∧
  (run .umin).2.toNat = (vs.map fun p => p.1.toNat).foldl min old.toNat ∧
  signed n (run .smax).2.toNat = (vs.map fun p => signed n p.1.toNat).foldl max (signed n old.toNat) ∧
  signed n (run .smin).2.toNat = (vs.map fun p => signed n p.1.toNat).foldl min (signed n old.toNat) ∧
  (run .xchg).2 = ((vs.map (·.1)).getLast?).getD old ∧
  (run .cas).2 = vs.foldl (fun cur p => if cur = p.1 then p.2 else cur) old ∧
  (w = .b32 → vs ≠ [] → lo32 (run .fadd).2 = add32 (lo32 old) (treeSum vs.length (vs.map fun p => lo32 p.1)))

/-- R111, R112, R146, R254, R255: cache control and fences complete, and change no register. `PREF` and `CINV` change no
byte of memory; `PREF` at mill scope or narrower brings every byte of its lines into the L1, where there is room, and a lane
whose address fails is dropped; `CINV` at die scope or wider leaves the mill's L1 no clean byte of its lines and the die's RDC
none of them, keeps the L1's dirty bytes, and touches no other line; narrower it does nothing; `CWB` writes its lines' dirty
bytes to their homes, where the scope is wider than the line's tag, and leaves them clean, and writes no line but those and
the lines that MX units tie to them; `FENCE` and `IFENCE` at die scope or wider bring to its home every dirty byte of the mill's
global lines whose tag is narrower than the scope, leave the mill no clean byte of a line that is not private and its die's RDC
nothing, and write no line but the mill's; narrower a `FENCE` changes no cache; `IFENCE` empties the mill's instruction cache
and its stones' loop buffers. A fragment with accesses on the way, or for `CWB` and `CINV` an address that fails, is not this. -/
def Obligations.CacheControlAndFences : Prop := ∀ g sc a off s e, Issues s e → s.wf → s.errs = [] → s.poison = [] → s.watches = [] → L1Kept s →
  (∀ o ∈ e.opsMine, o.accs = []) → s.detBlock e.b = false →
  let act := e.active g
  ((Instr.pref g sc a off).wf = true → e.holdsAll [(2, a, 2)] →
    ∃ u, exec (.pref g sc a off) s = .next u ∧ OwnKept e u ∧ (∀ x, u.rd x = s.rd x) ∧
      (scopeNum sc ≤ 2 → s.l1.length + 64 ≤ l1Lines → s.rdc.length + 64 ≤ rdcLines → ∀ l ∈ lanesOf act, ∀ pa,
        e.reaches .prefetch false (e.lane64 a off l) pa → inRegs pa = false →
        ∃ y, l1Find u e.b.mill (lineOf pa) = some y ∧ ∀ k, k < 64 → (sget none y.cells k).isSome = true ∨ y.dirty.any (·.1 == k) = true)) ∧
  (∀ pa : Nat → Nat, e.holdsAll [(2, a, 2)] → (∀ l ∈ lanesOf act, e.reaches .cacheOp false (e.lane64 a off l) (pa l)) →
    ((Instr.cwb g sc a off).wf = true → ∃ u, exec (.cwb g sc a off) s = .next u ∧ OwnKept e u ∧
      (∀ x, (∀ l ∈ lanesOf act, lineOf x ∉ mateLines s e.b.mill s.l1.length [lineOf (pa l)]) → u.rd x = s.rd x) ∧
      ∀ l ∈ lanesOf act, ∀ x, l1Find s e.b.mill (lineOf (pa l)) = some x → inRegs (pa l) = false → x.priv = none →
        wideScope sc = true → scopeNum x.tag < scopeNum sc →
        (∀ k ∈ x.dirty, u.rd (x.line * 64 + k.1) = (sget none x.cells k.1).getD 0) ∧
        ∃ y, l1Find u e.b.mill (lineOf (pa l)) = some y ∧ y.dirty = []) ∧
    ((Instr.cinv g sc a off).wf = true → ∃ u, exec (.cinv g sc a off) s = .next u ∧ OwnKept e u ∧ (∀ x, u.rd x = s.rd x) ∧
      (∀ y ∈ s.l1, (y.mill ≠ e.b.mill ∨ ∀ l ∈ lanesOf act, y.line ≠ lineOf (pa l)) → y.cells ≠ [] → y ∈ u.l1) ∧
      (wideScope sc = false → u.l1 = s.l1 ∧ u.rdc = s.rdc) ∧
      (wideScope sc = true → ∀ l ∈ lanesOf act, inRegs (pa l) = false →
        (∀ y ∈ u.l1, y.mill = e.b.mill → y.line = lineOf (pa l) → ∀ k, k < 64 → (sget none y.cells k).isSome = true → y.dirty.any (·.1 == k) = true) ∧
        (∀ y ∈ s.l1, y.mill = e.b.mill → y.line = lineOf (pa l) → ∀ d ∈ y.dirty, (sget none y.cells d.1).isSome = true →
          ∃ z ∈ u.l1, z.mill = y.mill ∧ z.line = y.line ∧ z.dirty = y.dirty ∧ sget none z.cells d.1 = sget none y.cells d.1) ∧
        ∀ y ∈ u.rdc, y.die = dieOf e.b.mill → y.line ≠ lineOf (pa l)))) ∧
  (∀ i ∈ [Instr.fence sc, .ifence], ∃ u, exec i s = .next u ∧ OwnKept e u ∧
    (∀ x, (∀ y ∈ s.l1, y.mill = e.b.mill → lineOf x ≠ y.line) → u.rd x = s.rd x) ∧
    (i = .ifence → ∀ x ∈ u.icache, x.mill ≠ e.b.mill) ∧
    let at_ := if i = .ifence then Scope.device else sc
    (wideScope at_ = false → u.l1 = s.l1 ∧ u.rdc = s.rdc) ∧
    (wideScope at_ = true →
      (∀ x ∈ s.l1, x.mill = e.b.mill → x.priv = none → scopeNum x.tag < scopeNum at_ →
        (∀ k ∈ x.dirty, u.rd (x.line * 64 + k.1) = (sget none x.cells k.1).getD 0) ∧ ∀ y ∈ u.l1, y.mill = e.b.mill → y.line = x.line → y.dirty = []) ∧
      (∀ x ∈ u.l1, x.mill = e.b.mill → x.priv = none → ∀ k, k < 64 → (sget none x.cells k).isSome = true → x.dirty.any (·.1 == k) = true) ∧
      ∀ x ∈ u.rdc, x.die ≠ dieOf e.b.mill))

/-- R113, R146, R231 to R233, R250, R251, R253: the memories serve a load of global or private memory, of the scratchpad or of
register space: a lane's register receives the bytes at its addresses, zero-extended, sign-extended, or whole, from the level that
serves it; an `MXLD`'s words come from their homes, with the bytes dirty in the L1, and its scale bytes are collected; the words that
an `MBIND` reads and an `MPUT` writes stand in the slot's image; an `MGET`'s are in its registers. Nothing else of the group's
registers changes, and no byte of memory. -/
def Obligations.LoadsServed : Prop := ∀ s oid k o a b g, s.wf → s.op? oid = some o → o.accs[k]? = some a → s.group? o.bid o.gid = some (b, g) →
  mayPerform s o a = true → accRoom s o a = true → o.acq = false → o.rel = false →
  let does := fun (level : Nat) (regs : Nat → Reg → Option W32) (P : State → Block → Prop) =>
    ∃ u b' g', performTurn s oid k level = some u ∧ Taken u oid k o ∧ u.group? o.bid o.gid = some (b', g') ∧ P u b' ∧
      { b' with groups := b.groups, exts := b.exts, slots := b.slots } = b ∧
      (∀ y, u.rd y = s.rd y) ∧ (∀ l n, pget g' l n = pget g l n) ∧ ∀ l r, r.wf = true → rget b' g' l r = (regs l r).getD (rget b g l r)
  (∀ lane d t src, a.body = .load lane d t src → src.length = dtBytes t → d.wf = true →
    (∀ i < dtRegs t, (regUp d i).wf = true ∧ heldReg b g (regUp d i) = true) →
    let gets := fun (bytes : List Byte) (l : Nat) (r : Reg) => match (List.range (dtRegs t)).find? fun i => r == regUp d i with
      | some i => if d.isVec = true ∧ l ≠ lane then none else some (loadWord t (leNat bytes) i)
      | none => none
    (∀ level, a.space = .global ∨ a.space = .priv → b.staged = [] → (∀ x ∈ src, lineOf x = lineOf (src.headD 0)) → level ≤ 2 →
      (a.space = .global → (scopeNum o.scope = 3 → 1 ≤ level) ∧ (3 < scopeNum o.scope → level = 2)) →
      ∃ v, Finds s b.mill level src v ∧ does level (gets (src.map v)) fun _ b' => b'.slots = b.slots) ∧
    (a.space = .scratch → does 2 (gets (src.map b.sb)) fun _ b' => b'.slots = b.slots) ∧
    (a.space = .regs → does 2 (gets (if src.length = 8 ∧ src.headD 0 % 8 = 0 then leBytes 8 (regRead s (src.headD 0)).toNat else src.map fun _ => 0))
      fun _ b' => b'.slots = b.slots)) ∧
  (∀ d words scales, a.body = .mxload d words scales → a.space = .global → b.staged = [] → d.wf = true → heldReg b g d = true →
    let v := fun (x : Nat) => (dirtyByte s b.mill x).getD (s.rd x)
    does 2 (fun l r => if r = d then ((words.filter fun p => !d.isVec || p.1 == l).getLast?).map fun p => BitVec.ofNat 32 (leNat ((span p.2 4).map v)) else none)
      fun u b' => b'.slots = b.slots ∧ ∃ o', u.op? oid = some o' ∧ o'.coll = o.coll ++ scales.map fun p => (p.1, v p.2)) ∧
  (a.space = .scratch → ∀ st j m, b.slot? st j = some m →
    let becomes := fun (word : Nat → Option W32) => does 2 noWrite fun _ b' => b'.exts = b.exts ∧ ∃ m', b'.slot? st j = some m' ∧ { m' with image := m.image } = m ∧
      (∀ q, sget 0 m'.image q = (word q).getD (sget 0 m.image q)) ∧ ∀ st' j', (st', j') ≠ (st, j) → b'.slot? st' j' = b.slot? st' j'
    (∀ q src, a.body = .bind st j q src → becomes fun x => if x = q then some (BitVec.ofNat 32 (b.sbNat src 4)) else none) ∧
    ∀ ws, a.body = .put st j ws → becomes fun x => ((ws.filter fun p => p.1 == x).getLast?).map (·.2)) ∧
  ∀ ws, a.body = .regs ws → a.space = .scratch → (∀ w ∈ ws, (Reg.v w.2.1).wf = true ∧ heldReg b g (.v w.2.1) = true) →
    does 2 (fun l r => ((ws.filter fun w => w.1 == l && r == .v w.2.1).getLast?).map (·.2.2)) fun _ b' => b'.slots = b.slots

/-- R110, R113, R125, R126, R257, R258: stores and atomics are performed. A home performs those of an instruction to a line: the stored
bytes read as the instruction gave them, an atomic's location as its lanes leave it and its destination as it returns, and
every other byte reads as before. A store of mill scope or narrower and a private store stand in the mill's L1, dirty, at their
scope, and no byte of memory changes yet; stores and atomics of the scratchpad are performed there. -/
def Obligations.HomesPerform : Prop := ∀ s oid o b, s.wf → s.op? oid = some o → s.block? o.bid = some b → o.acq = false → o.rel = false →
  (∀ line, s.watches = [] → s.hostDirty = [] →
    let as := homeAccs s o line
    as ≠ [] →
    ∃ u, exec (.homeWritePerform oid line) s = .next u ∧
      (l1Find s b.mill line = none → ((∀ p ∈ as, ∃ bytes, p.2.body = .store bytes) ∨ ∃ f w, ∀ p ∈ as, ∃ x d ls, p.2.body = .atom x f w d ls) → ∀ x, (∀ p ∈ as, x ∉ p.2.touches) → u.rd x = s.rd x) ∧
      (∀ k a bytes, as = [(k, a)] → a.body = .store bytes → (bytes.map (·.1)).Nodup → ∀ p ∈ bytes, u.rd p.1 = p.2) ∧
      ∀ k a x f w d ls, as = [(k, a)] → a.body = .atom x f w d ls → l1Find s b.mill line = none →
        let r := atomServe f w (BitVec.ofNat 64 (s.rdNat x (atomBytes w))) (ls.map (·.2))
        u.rdNat x (atomBytes w) = r.2.toNat % 2 ^ (8 * atomBytes w) ∧
        ∀ g, s.group? o.bid o.gid = some (b, g) → holdsDest b g w d → (ls.map (·.1)).Nodup → ∃ b' g', u.group? o.bid o.gid = some (b', g') ∧
          ∀ l q, q.wf = true → rget b' g' l q = (atomLands w d (ls.map (·.1)) r.1 l q).getD (rget b g l q)) ∧
  ∀ k a, o.accs[k]? = some a → mayPerform s o a = true → accRoom s o a = true →
    (∀ bytes, a.body = .store bytes → (bytes.map (·.1)).Nodup →
      (a.space = .priv ∨ a.space = .global ∧ scopeNum o.scope ≤ 2 →
        ∃ u, performTurn s oid k 0 = some u ∧ Taken u oid k o ∧ u.blocks = s.blocks ∧ (∀ y, u.rd y = s.rd y) ∧
          (∀ p ∈ bytes, dirtyByte u b.mill p.1 = some p.2 ∧ ∃ x, l1Find u b.mill (lineOf p.1) = some x ∧ x.tag = o.scope ∧ (a.space = .priv → x.priv.isSome = true)) ∧
          (∀ y, (∀ p ∈ bytes, p.1 ≠ y) → dirtyByte u b.mill y = dirtyByte s b.mill y) ∧
          ∀ m line, (m ≠ b.mill ∨ ∀ p ∈ bytes, lineOf p.1 ≠ line) → l1Find u m line = l1Find s m line) ∧
      (a.space = .scratch → ∃ u b', performTurn s oid k 0 = some u ∧ Taken u oid k o ∧ u.block? o.bid = some b' ∧ { b' with scratch := b.scratch } = b ∧
        (∀ y, u.rd y = s.rd y) ∧ (∀ p ∈ bytes, b'.sb p.1 = p.2) ∧ ∀ y, (∀ p ∈ bytes, p.1 ≠ y) → b'.sb y = b.sb y)) ∧
    ∀ x f w d ls g, a.body = .atom x f w d ls → a.space = .scratch → s.group? o.bid o.gid = some (b, g) → holdsDest b g w d → (ls.map (·.1)).Nodup →
      let n := atomBytes w
      let r := atomServe f w (BitVec.ofNat 64 (b.sbNat x n)) (ls.map (·.2))
      ∃ u b' g', performTurn s oid k 0 = some u ∧ Taken u oid k o ∧ u.group? o.bid o.gid = some (b', g') ∧ (∀ y, u.rd y = s.rd y) ∧
        b'.sbNat x n = r.2.toNat % 2 ^ (8 * n) ∧ (∀ y, y < x ∨ x + n ≤ y → b'.sb y = b.sb y) ∧
        (∀ l q, pget g' l q = pget g l q) ∧ ∀ l q, q.wf = true → rget b' g' l q = (atomLands w d (ls.map (·.1)) r.1 l q).getD (rget b g l q)

/-- R71, R72, R231, R253, R278: an in-flight instruction whose every access is served completes: it is in flight no longer and its
flag counts one less. An `MBIND` or `MPUT` leaves its slot bound, with its format word; an `MXLD` its scale bytes in
lanes 0 to 3 of the odd register; an `XEND` its group's totals. -/
def Obligations.Completion : Prop := ∀ s oid o b g, s.wf → s.op? oid = some o → o.accs = [] → s.group? o.bid o.gid = some (b, g) →
  b.resident = true → finReady s o = true →
  ∃ u b' g', exec (.longLatencyComplete oid) s = .next u ∧ u.op? oid = none ∧ u.group? o.bid o.gid = some (b', g') ∧
    (o.aside = false → ∀ k, g'.flag k = g.flag k - if o.flag = some k then 1 else 0) ∧
    (∀ st k fmt m, o.fin = .bind st k fmt → b.slot? st k = some m → b'.slot? st k = some { m with fmt := fmt, bound := true }) ∧
    (∀ n lanes, o.fin = .scales (.v n) lanes → n < 191 → heldReg b g (.v (n + 1)) = true → ∀ l r, r.wf = true → rget b' g' l r =
      if r = .v (n + 1) ∧ l < 4 then
        BitVec.ofNat 32 (leNat ((List.range 4).map fun i => ((o.coll.find? fun p => p.1 == 4 * l + i).map (·.2)).getD 0))
      else rget b g l r) ∧
    ∀ st d lanes x i y, o.fin = .xend st d lanes → b.xuEnding st o.gid = some x → slotOf x.slots o.gid 0 = some (i, y) → d.wf = true → heldReg b g d = true →
      ∀ l r, r.wf = true → rget b' g' l r = (lands d lanes (fun l => x.accOf (64 * i + l)) l r).getD (rget b g l r)

/-! ### Row 0x6: map slots -/

/-- R231 to R235: `MBIND` reads the image its format needs, `MPUT` writes words, and both leave the slot bound once they
complete; `MGET` delivers words of the image, `MGET.fmt` the format word with the bound bit at bit 31; `MFREE` unbinds.
R230: with no active lane nothing changes but the PC. -/
def Obligations.MapSlots : Prop := ∀ g fl k d a b c s e, Issues s e → s.wf → e.memReady fl → slotBusy s e.b e.g.stone k = false →
  let act := e.active g
  ((Instr.mbind g fl k a b).wf = true → e.holdsAll [(2, a, 1), (3, b, 1)] → ∀ fmt,
    (∀ l ∈ lanesOf act, rget e.b e.g l b = fmt) → fwValid fmt = true →
    let off := (rget e.b e.g (lowLane act) a).toNat
    e.inScratch off (4 * imageWords e.b.width fmt) 16 →
    ∃ u, exec (.mbind g fl k a b) s = .next u ∧ Delivered e fl act u fun op => op.fin = .bind e.g.stone k fmt ∧
      op.accs = (List.range (imageWords e.b.width fmt)).map fun i => { space := .scratch, lanes := 0, body := .bind e.g.stone k i (off + 4 * i) }) ∧
  ((Instr.mput g fl k a b c).wf = true → e.holdsAll [(2, a, 1), (3, b, 1), (4, c, 1)] → ∀ fmt,
    (∀ l ∈ lanesOf act, rget e.b e.g l c = fmt ∧ (rget e.b e.g l a).toNat < 4096) → fwValid fmt = true →
    ∃ u, exec (.mput g fl k a b c) s = .next u ∧ Delivered e fl act u fun op => op.fin = .bind e.g.stone k fmt ∧
      op.accs = [{ space := .scratch, lanes := act, body := .put e.g.stone k ((lanesOf act).map fun l => ((rget e.b e.g l a).toNat, rget e.b e.g l b)) }]) ∧
  (∀ m, e.b.slot? e.g.stone k = some m →
    ((Instr.mget g fl d k a).wf = true → e.holdsAll [(2, a, 1), (1, d, 1)] → m.bound = true →
      (∀ l ∈ lanesOf act, (rget e.b e.g l a).toNat < 4096) →
      ∃ u, exec (.mget g fl d k a) s = .next u ∧ Delivered e fl act u fun op =>
        op.accs = [{ space := .scratch, lanes := act, body := .regs ((lanesOf act).map fun l => (l, d.num, sget 0 m.image (rget e.b e.g l a).toNat)) }]) ∧
    ((Instr.mgetFmt g fl d k).wf = true → e.holdsAll [(1, d, 1)] →
      ∃ u, exec (.mgetFmt g fl d k) s = .next u ∧ Delivered e fl act u fun op =>
        op.accs = [{ space := .scratch, lanes := act, body := .regs ((lanesOf act).map fun l =>
          (l, d.num, m.fmt &&& 0x7FFFFFFF#32 ||| if m.bound then 0x80000000#32 else 0)) }]) ∧
    ∃ u, exec (.mfree k) s = .next u ∧ BlockOnly e u ∧ ∃ b' g' f, u.frag? e.i.f = some (b', g', f) ∧ e.goesOn f ∧
      { g' with frags := e.g.frags } = e.g ∧ { b' with groups := e.b.groups, slots := e.b.slots } = e.b ∧
      b'.slot? e.g.stone k = some { m with bound := m.bound && e.f.exm == 0 } ∧
      ∀ st j, (st, j) ≠ (e.g.stone, k) → b'.slot? st j = e.b.slot? st j)

/-! ### Row 0x9 and the waits: phasers, queues, tiles, locks, barriers -/

/-- R107, R261, R262: phasers. `PHARV` and `PHREG.unsig` count one arrival; the last one completes the phase: its bit
flips and the arrivals it awaits are counted anew. `PHWAIT` goes on once the phase differs from its predicate, and
blocks until then; `PHTEST` only says which. -/
def Obligations.Phasers : Prop := ∀ a b c pd pb s e, Issues s e → s.wf → e.g.named → s.errs = [] → e.g.gid < 32 → lockPartner e.b e.g = none →
  (∀ o ∈ e.opsMine, o.accs = []) → e.filtered = false → onPhaser (e.r32 a).toNat e.f = false → ∀ off, off = (e.r32 a).toNat → ∀ p,
  let me := 2 ^ e.g.gid
  let after := fun (q : Phaser) => if q.pending ≤ 1 then { q with phase := !q.phase, pending := groupCount q.sig } else { q with pending := q.pending - 1 }
  ((Instr.phinit a b c).wf = true → e.holdsAll [(2, a, 1), (3, b, 1), (4, c, 1)] → e.inScratch off 16 16 →
    (e.r32 b).toNat < 2 ^ e.b.groups.length → (e.r32 c).toNat < 2 ^ e.b.groups.length →
    e.firstIn (fun w => match w with | .phaser o _ => o == off | _ => false) →
    ∃ u, exec (.phinit a b c) s = .next u ∧ Synced e u [(off, 16)] noWrite noWrite fun b' f => e.goesOn f ∧
      b'.phaser off = { sig := (e.r32 b).toNat, wait := (e.r32 c).toNat, pending := groupCount (e.r32 b).toNat, phase := false }) ∧
  (e.phaserIs off p → e.holdsAll [(2, a, 1)] →
    (bitOf p.sig e.g.gid = false → ∃ u, exec (.phregSig a) s = .next u ∧ Synced e u [(off, 16)] noWrite noWrite fun b' f => e.goesOn f ∧
      b'.phaser off = { p with sig := p.sig + me, pending := p.pending + 1 }) ∧
    (bitOf p.sig e.g.gid = true → p.pending ≠ 0 →
      (∃ u, exec (.phregUnsig a) s = .next u ∧ Synced e u [(off, 16)] noWrite noWrite fun b' f => e.goesOn f ∧
        b'.phaser off = after { p with sig := p.sig - me }) ∧
      ((Instr.pharv pd a).wf = true → ∃ u, exec (.pharv pd a) s = .next u ∧
        Synced e u [(off, 16)] noWrite (landsP pd e.f.exm fun _ => p.phase) fun b' f => e.goesOn f ∧ b'.phaser off = after p)) ∧
    (∃ u, exec (.phregWait a) s = .next u ∧ Synced e u [(off, 16)] noWrite noWrite fun b' f => e.goesOn f ∧
      b'.phaser off = { p with wait := if bitOf p.wait e.g.gid then p.wait else p.wait + me }) ∧
    (∃ u, exec (.phregUnwait a) s = .next u ∧ Synced e u [(off, 16)] noWrite noWrite fun b' f => e.goesOn f ∧
      b'.phaser off = { p with wait := if bitOf p.wait e.g.gid then p.wait - me else p.wait }) ∧
    (bitOf p.wait e.g.gid = true →
      (∃ u, exec (.phwait a pb) s = .next u ∧ Moved e (if p.phase ≠ pget e.g e.lead pb then e.f.goOn e.i.next s.cycle
        else { e.f with st := .blocked (.phaser off (pget e.g e.lead pb)) s.cycle }) u) ∧
      ((Instr.phtest pd a pb).wf = true → ∃ u, exec (.phtest pd a pb) s = .next u ∧
        Synced e u [] noWrite (landsP pd e.f.exm fun _ => p.phase != pget e.g e.lead pb) fun _ f => e.goesOn f)))

/-- R108, R263, R264: queues. A push writes the entry at the tail and takes one of the allowance, a pop delivers the
entry at the head in the active lanes and gives it back, first come first served; the blocking forms block where
there is no room or no entry, and the others say so in a predicate. A queue of tile handles takes the handles of defined
tiles; any other value pushed to it is misuse. -/
def Obligations.Queues : Prop := ∀ a b c d pd s e, Issues s e → s.wf → e.g.named → s.errs = [] → lockPartner e.b e.g = none →
  (∀ o ∈ e.opsMine, o.accs = []) → e.filtered = false → e.f.st = .running → ∀ off, off = (e.r32 a).toNat → ∀ q,
  ((Instr.qinit a b c).wf = true → e.holdsAll [(2, a, 1), (3, b, 1), (4, c, 1)] → e.inScratch off 16 16 →
    let cap := (e.r32 c).toNat % 2 ^ 16
    e.inScratch (e.r32 b).toNat (4 * cap) 4 → (e.r32 b).toNat < 2 ^ 20 → cap ≠ 0 → (e.r32 c).toNat < 2 ^ 17 →
    e.firstIn (fun w => pushWait off w || popWait off w) →
    ∃ u, exec (.qinit a b c) s = .next u ∧ Synced e u [(off, 16)] noWrite noWrite fun b' f => e.goesOn f ∧
      qheadOf (b'.sbNat off 16) = { ring := (e.r32 b).toNat, cap := cap, kind := bitOf (e.r32 c).toNat 16, head := 0, tail := 0, allow := cap }) ∧
  (e.queueIs off q →
    (e.holdsAll [(2, a, 1), (3, b, 1)] → q.kind = true → (64 ≤ (e.r32 b).toNat ∨ ∀ t, e.b.tile? (e.r32 b).toNat = some t → t.defined = false) → e.g.stop = none →
      ∀ i ∈ [Instr.qpush a b, .qpushNb pd a b], ∃ u ev, exec i s = .next u ∧ Stopped e ev u ∧ ev.cause = 0x0A ∧ ev.code = 9) ∧
    (e.holdsAll [(2, a, 1), (3, b, 1)] → (Instr.qpushNb pd a b).wf = true →
      (q.kind = false ∨ (e.r32 b).toNat < 64 ∧ ∃ t, e.b.tile? (e.r32 b).toNat = some t ∧ t.defined = true) →
      (q.allow ≠ 0 → e.firstIn (pushWait off) →
        ∀ x ∈ [(Instr.qpush a b, noWrite), (.qpushNb pd a b, landsP pd e.f.exm fun _ => true)],
        ∃ u, exec x.1 s = .next u ∧ Synced e u [(off, 16), (q.ring + 4 * q.tail, 4)] noWrite x.2 fun b' f => e.goesOn f ∧
          b'.sbNat (q.ring + 4 * q.tail) 4 = (e.r32 b).toNat ∧
          qheadOf (b'.sbNat off 16) = { q with tail := (q.tail + 1) % q.cap, allow := q.allow - 1 }) ∧
      (q.allow = 0 →
        (∃ u, exec (.qpush a b) s = .next u ∧ Moved e { e.f with st := .blocked (.push off) s.cycle } u) ∧
        ∃ u, exec (.qpushNb pd a b) s = .next u ∧ Synced e u [] noWrite (landsP pd e.f.exm fun _ => false) fun _ f => e.goesOn f)) ∧
    (e.holdsAll [(2, a, 1), (1, d, 1)] → (Instr.qpopNb d pd a).wf = true →
      (q.allow ≠ q.cap → e.firstIn (popWait off) →
        ∀ x ∈ [(Instr.qpop d a, noWrite), (.qpopNb d pd a, landsP pd e.f.exm fun _ => true)],
        ∃ u, exec x.1 s = .next u ∧
          Synced e u [(off, 16)] (lands d e.f.exm fun _ => BitVec.ofNat 32 (e.b.sbNat (q.ring + 4 * q.head) 4)) x.2 fun b' f => e.goesOn f ∧
            qheadOf (b'.sbNat off 16) = { q with head := (q.head + 1) % q.cap, allow := q.allow + 1 }) ∧
      (q.allow = q.cap →
        (∃ u, exec (.qpop d a) s = .next u ∧ Moved e { e.f with st := .blocked (.pop off) s.cycle } u) ∧
        ∃ u, exec (.qpopNb d pd a) s = .next u ∧ Synced e u [] noWrite (landsP pd e.f.exm fun _ => false) fun _ f => e.goesOn f)))

/-- R67, R109, R265, R266, R269: tiles, the extended-register lock and the pointer wait. `REGX.acq` takes a free set and
blocks while the partner holds it; `REGX.rel` gives the set up, or over to a partner that waits for it, which goes on. -/
def Obligations.TilesLocksAndWaits : Prop := ∀ h a b c pd s e, Issues s e → s.wf → e.g.named → s.errs = [] → e.filtered = false → e.acqPending = false →
  (1024 ≤ e.b.kernel.scratch → h < 64 →
    let t := tileOff e.b h
    let base := (e.r32 a).toNat
    let size := (e.r32 b).toNat
    let ok := e.inScratch base size 16 ∧ size ≠ 0 ∧ size % 16 = 0 ∧ base + size ≤ e.b.kernel.scratch - 1024 ∧ size < 2 ^ 20 ∧ base < 2 ^ 20
    ((Instr.tdef h a b).wf = true → e.holdsAll [(2, a, 1), (3, b, 1)] → ok →
      ∃ u, exec (.tdef h a b) s = .next u ∧ Synced e u [(t, 16)] noWrite noWrite fun b' f => e.goesOn f ∧
        ∃ x, b'.tile? h = some x ∧ x.base = base ∧ x.size = size ∧ x.defined = true ∧ x.attached = false) ∧
    ((Instr.tdefAtt h a b c).wf = true → e.holdsAll [(2, a, 1), (3, b, 1), (4, c, 1)] → ok → e.inScratch (e.r32 c).toNat 16 16 → (e.r32 c).toNat < 2 ^ 20 →
      ∃ u, exec (.tdefAtt h a b c) s = .next u ∧ Synced e u [(t, 16)] noWrite noWrite fun b' f => e.goesOn f ∧
        b'.tile? h = some { base := base, size := size, phaser := (e.r32 c).toNat, defined := true, attached := true }) ∧
    ∃ u, exec (.tdefUndef h) s = .next u ∧ Synced e u [(t, 16)] noWrite noWrite fun b' f => e.goesOn f ∧
      ∃ x, b'.tile? h = some x ∧ x.defined = false ∧ x.attached = false) ∧
  (e.b.kernel.ext ≠ 0 → e.g.handler = none → (e.b.exts.any fun x => x.pair == e.g.gid / 2) = true →
    ((e.b.extSet e.g.gid).holder = none ∨ e.b.holdsExt e.g = true → ∃ u, exec .regxAcq s = .next u ∧
      Synced e u [] noWrite noWrite fun b' f => e.goesOn f ∧ (b'.extSet e.g.gid).holder = some e.g.gid) ∧
    (∀ y, (e.b.extSet e.g.gid).holder = some y → y ≠ e.g.gid → ∃ u b' g', exec .regxAcq s = .next u ∧
      u.frag? e.i.f = some (b', g', { e.f with st := .blocked .regx s.cycle }) ∧
      ((∀ x, e.b.group? y = some x → x.waits = true → ∀ f ∈ x.frags, lockWait f.st = false) → Moved e { e.f with st := .blocked .regx s.cycle } u)) ∧
    (e.b.holdsExt e.g = true → (∀ o ∈ s.opsOf e.b.bid e.g.gid, o.ext = false) → (∀ x ∈ s.awaits, x.f.bid = e.b.bid → x.f.gid = e.g.gid → x.ext = false) →
      ((∀ x ∈ e.b.groups, x.gid / 2 = e.g.gid / 2 → x.gid ≠ e.g.gid → x.frags.any inRegx = false) → ∃ u, exec .regxRel s = .next u ∧
        Synced e u [] noWrite noWrite fun b' f => e.goesOn f ∧ (b'.extSet e.g.gid).holder = none) ∧
      ∀ y x, e.b.group? y = some x → y / 2 = e.g.gid / 2 → y ≠ e.g.gid → x.frags.any inRegx = true → ∃ u, exec .regxRel s = .next u ∧
        Synced e u [] noWrite noWrite fun b' f => e.goesOn f ∧ (b'.extSet e.g.gid).holder = some y ∧
          ∃ x', b'.group? y = some x' ∧ ∀ k f, x.frag? k = some f →
            x'.frag? k = some (if inRegx f = true then { f.goOn f.after s.cycle with age := s.cycle } else f))) ∧
  (e.holdsAll [(2, a, 1), (3, b, 1)] → (Instr.lwaitNb pd a b).wf = true → e.inScratch (e.r32 a).toNat 4 4 →
    let met := decide ((e.r32 b).toNat ≤ e.b.sbNat (e.r32 a).toNat 4)
    (∃ u, exec (.lwait a b) s = .next u ∧ Moved e (if met then e.f.goOn e.i.next s.cycle
      else { e.f with st := .blocked (.pointer (e.r32 a).toNat (e.r32 b)) s.cycle }) u) ∧
    ∃ u, exec (.lwaitNb pd a b) s = .next u ∧ Synced e u [] noWrite (landsP pd e.f.exm fun _ => met) fun _ f => e.goesOn f)

/-- R267, R317: a fragment waits in `DBAR` while a group of its gang launch has not arrived, and goes on past it once
every group has arrived or ended, the launch's barrier count one higher; in a domain barrier the other ranks'
messages count too, each once. -/
def Obligations.GangBarrier : Prop :=
  (∀ s e l, Issues s e → s.wf → s.launchOf e.b = some l → l.gang = true → (∀ o ∈ e.opsMine, o.accs = []) →
    lockPartner e.b e.g = none → cleanL1 s e.b.mill → ∀ x ∈ [(Instr.dbarDev, false), (.dbarDom, true)],
    ((∃ o ∈ s.blocks, o.launch = some l.id ∧ ∃ h ∈ o.groups, (o.bid ≠ e.b.bid ∨ h.gid ≠ e.g.gid) ∧ groupArrived h = false) →
      ∃ u, exec x.1 s = .next u ∧ Moved e { e.f with st := .inDbar x.2 e.i.next } u) ∧
    (l.nrank = 0 → e.g.waits = true → (∀ f ∈ e.g.frags, f.fid ≠ e.f.fid → inDbarF f = true) →
      (∀ b ∈ s.blocks, b.launch = some l.id → (b.resident = true ∨ b.ended = true) ∧ b.staged = [] ∧ ∀ g ∈ b.groups, groupArrived g = true ∨ (b = e.b ∧ g = e.g)) →
      ∃ u b' g' f, exec x.1 s = .next u ∧ u.cur = none ∧ (∀ a, u.rd a = s.rd a) ∧ u.frag? e.i.f = some (b', g', f) ∧ f.st = .running ∧
        f.pc = e.i.next ∧ f.exm = e.f.exm ∧ (∀ k r, rget b' g' k r = rget e.b e.g k r) ∧ (∀ k n, pget g' k n = pget e.g k n) ∧
        ∃ l', u.launch? l.id = some l' ∧ l'.barGen = l.barGen + 1)) ∧
  ∀ s l r, s.launch? l.id = some l → r ∈ l.others → r ∉ l.domArr → ∃ u, exec (.domainBarrierMessage l.id (.arrived r)) s = .next u ∧
    (barrierFull s l.id = false → u = s.onLaunch l.id fun x => { x with domArr := x.domArr ++ [r] }) ∧
    (barrierFull s l.id = true → barrierDom s l.id = true → l.domSent = true →
      ∃ v, exec (.domainBarrierMessage l.id .completed) s = .next v ∧ ∃ l', v.launch? l.id = some l' ∧ l'.barGen = l.barGen + 1)

/-! ### Row 0xA: the expand unit -/

/-- R274: the iterations below the total are dealt to the owners in ascending order, each owner's lengths of them in a
row, and an iteration's value is its owner's start plus its place among the owner's. -/
def Obligations.IterationNumbering : Prop := ∀ x : Expansion, swf 0 x.len = true → ∀ t,
  (t < x.sumLen → ∃ o, x.ownerOf t = some o ∧ x.baseOf o ≤ t ∧ t < x.baseOf o + x.lenOf o ∧
    x.valueOf t = sget 0 x.start o + BitVec.ofNat 32 (t - x.baseOf o)) ∧
  (x.sumLen ≤ t → x.ownerOf t = none ∧ x.valueOf t = 0) ∧
  ∀ o p, o < p → x.baseOf o + x.lenOf o ≤ x.baseOf p

/-- R272 to R278, R354: `XBEGIN` opens its stone's expansion, or joins it, with the starts and lengths of its active lanes, the
slots in ascending `$grp`; the one that completes the deal set makes the expansion fail where the lengths come to 2^32 or more; in
each round `XNEXT` gives every active lane its iteration, its owner and whether it has one; `XRED` hands in a round's
values, and every value then held, of whatever group, is folded into its owner's accumulator in ascending iteration as far as the
owner's iterations before it are resolved; `XEND` is in flight until every group has ended its part. -/
def Obligations.ExpandUnit : Prop := ∀ op vs vl deal n vi vo pd g v fl d s e, Issues s e → s.wf → s.errs = [] → e.g.handler = none → e.xuMine true = none →
  ((Instr.xbegin op vs vl deal n).wf = true → e.holdsAll [(2, vs, 1), (3, vl, 1)] → e.b.openXu? e.g.stone = none →
    n ≤ stoneGroups e.b e.g.stone → e.xuForeign = false →
    ((lanesOf e.f.exm).map fun l => (rget e.b e.g l vl).toNat).sum < 2 ^ 32 →
    ∃ u, exec (.xbegin op vs vl deal n) s = .next u ∧ Synced e u [] noWrite noWrite fun b' f => e.goesOn f ∧
      ∃ x, b'.openXu? e.g.stone = some x ∧ x.deal = deal ∧ x.n = n ∧ x.op = op ∧ x.slots.map (·.gid) = [e.g.gid] ∧ x.acc = [] ∧
        ∀ l, l < 64 → sget 0 x.start l = (if hasLane e.f.exm l then rget e.b e.g l vs else 0) ∧
          sget 0 x.len l = if hasLane e.f.exm l then rget e.b e.g l vl else 0) ∧
  (∀ x, (Instr.xbegin op vs vl deal n).wf = true → e.holdsAll [(2, vs, 1), (3, vl, 1)] → e.b.openXu? e.g.stone = some x →
    (∀ y ∈ x.slots, y.gid ≠ e.g.gid) → x.deal = deal → x.n = n → x.op = op → x.complete = false → n ≤ stoneGroups e.b e.g.stone →
    x.slots.length + 1 ≤ n →
    let place := (x.slots.filter fun y => decide (y.gid < e.g.gid)).length
    let fails := x.slots.length + 1 = n ∧ 2 ^ 32 ≤ x.sumLen + ((lanesOf e.f.exm).map fun l => (rget e.b e.g l vl).toNat).sum
    let joined := fun (old : Sparse W32) (v : Reg) (j l : Nat) =>
      if j < place then sget 0 old (64 * j + l) else if j = place then (if hasLane e.f.exm l then rget e.b e.g l v else 0) else sget 0 old (64 * (j - 1) + l)
    ∃ u, exec (.xbegin op vs vl deal n) s = .next u ∧ Synced e u [] noWrite noWrite fun b' f => e.goesOn f ∧
      (fails → b'.openXu? e.g.stone = none ∧ ∃ x' ∈ b'.xus, x'.stone = e.g.stone ∧ x'.bad = true ∧ x'.deal = deal) ∧
      (¬fails → ∃ x', b'.openXu? e.g.stone = some x' ∧ x'.n = n ∧ x'.op = op ∧ x'.acc = x.acc ∧ (x'.complete = true ↔ x.slots.length + 1 = n) ∧
        x'.slots.map (·.gid) = (x.slots.map (·.gid)).take place ++ [e.g.gid] ++ (x.slots.map (·.gid)).drop place ∧
        ∀ j l, l < 64 → sget 0 x'.start (64 * j + l) = joined x.start vs j l ∧ sget 0 x'.len (64 * j + l) = joined x.len vl j l)) ∧
  (∀ x i y, e.xuSlot e.whole = .ok (x, i, y) → x.complete = true → (Instr.xnext vi vo pd).wf = true → e.holdsAll [(2, vo, 1), (1, vi, 1)] →
    let t := fun l => y.rounds * (x.n * e.b.width) + i * e.b.width + l
    let owner := fun l => match x.ownerOf (t l) with | some o => BitVec.ofNat 32 o | none => ownerNone
    ∃ u b' g' f, exec (.xnext vi vo pd) s = .next u ∧ BlockOnly e u ∧ u.frag? e.i.f = some (b', g', f) ∧ e.goesOn f ∧
      (∀ l r, r.wf = true → rget b' g' l r =
        ((lands vo e.f.exm owner l r).or (lands vi e.f.exm (fun l => x.valueOf (t l)) l r)).getD (rget e.b e.g l r)) ∧
      (∀ l k, pget g' l k = (landsP pd e.f.exm (fun l => (x.ownerOf (t l)).isSome) l k).getD (pget e.g l k)) ∧
      (∀ l, l < e.b.width → sget ownerNone g'.xowner l = if hasLane e.f.exm l then owner l else ownerNone) ∧
      { g' with frags := e.g.frags, v := e.g.v, u := e.g.u, p := e.g.p, xowner := e.g.xowner } = e.g) ∧
  (∀ x i y, e.xuSlot (e.recLanes (e.active g)) = .ok (x, i, y) → (Instr.xred g v).wf = true → e.holdsAll [(2, v, 1)] → y.rounds ≠ 0 → y.resolved = false → y.unapplied = 0 →
    ∃ u, exec (.xred g v) s = .next u ∧ Synced e u [] noWrite noWrite fun b' f => e.goesOn f ∧
      (x.complete = true → (x.slots.map (·.gid)).Nodup → (∀ l ∈ lanesOf (e.active g), l < e.b.width) → (∀ z ∈ x.slots, ∀ l ∈ lanesOf z.unapplied, l < e.b.width) →
        (e.b.xus.filter fun z => z.stone == x.stone && z.bad == x.bad) = [x] → x.stone = e.g.stone →
        let w := e.b.width
        let slot := fun (t : Nat) => t % (x.n * w) / w
        let resolved := fun (t : Nat) => match x.slots[slot t]? with
          | none => false
          | some z => z.ended || decide (t / (x.n * w) < if slot t = i ∨ z.resolved = true then z.rounds else z.rounds - 1)
        let value := fun (t : Nat) => match x.slots[slot t]? with
          | none => none
          | some z =>
            if slot t = i then
              (if t / (x.n * w) = y.rounds - 1 ∧ hasLane (e.active g) (t % w) = true ∧ sget ownerNone e.g.xowner (t % w) ≠ ownerNone then some (rget e.b e.g (t % w) v) else none)
            else if t / (x.n * w) = z.heldRound ∧ hasLane z.unapplied (t % w) = true then some (sget 0 z.contrib (t % w)) else none
        ∃ x' ∈ b'.xus, x'.stone = x.stone ∧ ∀ o, x'.accOf o =
          (((List.range (x.lenOf o)).map (x.baseOf o + ·)).filterMap fun t =>
            if ((List.range t).all fun t' => decide (t' < x.baseOf o) || resolved t') = true then value t else none).foldl (foldStep x.op) (x.accOf o))) ∧
  (∀ x i y, e.xuSlot e.whole = .ok (x, i, y) → (Instr.xend fl d).wf = true → e.holdsAll [(1, d, 1)] → (∀ k, e.flag fl = some k → e.g.flag k < 63) →
    ∃ u b' g' f o, exec (.xend fl d) s = .next u ∧ u.frag? e.i.f = some (b', g', f) ∧ e.goesOn f ∧ (∀ a, u.rd a = s.rd a) ∧
      u.ops = s.ops ++ [o] ∧ o.fin = .xend e.g.stone d e.f.exm ∧ o.flag = e.flag fl ∧ o.accs = [] ∧
      (∀ k, g'.flag k = e.g.flag k + if e.flag fl = some k then 1 else 0) ∧ (∀ l, l < e.b.width → sget ownerNone g'.xowner l = ownerNone) ∧
      (∀ l r, rget b' g' l r = rget e.b e.g l r) ∧ ∀ l k, pget g' l k = pget e.g l k)

/-! ### Row 0xA: copies -/

/-- R115, R120, R121, R268: a copy whose descriptor is sound goes to the mill's lowest free leat, which keeps the
descriptor as it was read and writes 0 to its pointer word; in flight, the instruction counts its flag. Where the guard
passes in no lane nothing is read and no leat is taken. -/
def Obligations.Copies : Prop := ∀ window g fl n s e, let i := if window then Instr.cpyw g fl n else .cpy g fl n
  i.wf = true → Issues s e → s.wf → e.issueReady fl → e.f.st = .running → e.b.kernel.checked = false →
  let ws := (List.range 8).map fun k => (uget e.g (n + k)).toNat
  let d := copyDesc ws
  (e.active g = 0 → ∃ u, exec i s = .next u ∧ Launched e fl u fun op => op.accs = []) ∧
  (e.active g ≠ 0 → descBad window ws = none → descCode e.b d = none →
    ∀ k, k < 16 → (∀ l ∈ s.leats, l.mill = e.b.mill → l.idx ≠ k) → (∀ j, j < k → ∃ l ∈ s.leats, l.mill = e.b.mill ∧ l.idx = j) →
    ∃ u, exec i s = .next u ∧
      u.leats = s.leats ++ [{ mill := e.b.mill, idx := k, bid := e.b.bid, gid := e.g.gid, fid := e.f.fid, ctx := e.b.ctx, pc := e.i.pc,
                              word := e.i.word, desc := d, done := 0, seq := s.nextId, frozen := none }] ∧
      { u with cur := s.cur, blocks := s.blocks, ops := s.ops, nextId := s.nextId, leats := s.leats } = s ∧
      InFlight e fl u noWrite fun b op => op.fin = .plain ∧ { b with groups := e.b.groups, scratch := e.b.scratch } = e.b ∧
        ∀ a, b.sb a = if d.wptr ≤ a ∧ a < d.wptr + 4 then 0 else e.b.sb a)

/-- R117, R118: the order in which a leat walks a region: for kinds 0 to 2 element `Index(i2, i1, i0)` of the scratchpad
belongs to the global element (i2, i1, i0), and lies inside the copy; for a window, element `k` of plane `p`, output
row `oy`, column `ox` and window place (`ky`, `kx`) belongs to its global element, or is padding. -/
def Obligations.CopyOrder : Prop := ∀ d : CopyDesc, d.shapeBad = false → d.countsBad = false → d.n0 ≠ 0 → d.n1 ≠ 0 → d.e ≠ 0 →
  (d.kind ≤ 2 → ∀ i2 i1 i0, i2 < d.n2 → i1 < d.n1 → i0 < d.n0 →
    d.addr (d.index i2 i1 i0) = some (w64 (d.g.toNat + i2 * d.st2 + i1 * d.st1 + i0 * d.e)).toNat ∧ d.index i2 i1 i0 * d.e < d.total) ∧
  (d.kind = 3 → ∀ p oy ox ky kx, p < d.n2 → oy < d.outH → ox < d.outW → ky < d.byte 1 → kx < d.byte 0 →
    let k := (((p * d.outH + oy) * d.outW + ox) * d.byte 1 + ky) * d.byte 0 + kx
    let y : Int := oy * d.stepY + ky - d.padT
    let x : Int := ox * d.stepX + kx - d.padL
    k * d.e < d.total ∧
      d.addr k = if 0 ≤ y ∧ y < d.n1 ∧ 0 ≤ x ∧ x < d.n0 then some (w64 (d.g.toNat + p * d.st2 + y * d.st1 + x * d.e)).toNat else none)

/-- R117, R118, R119, R120: a leat's next element. With dir 0 its bytes come from their home, or are zero for padding,
and stand in the scratchpad; with dir 1 they go from the scratchpad to their home, and no other byte of memory changes; that a copy with dir 1 takes its
elements in ascending order too is the model's choice (assumption 49: R118 and R120 order copies into the scratchpad alone).
The pointer word holds the count of bytes complete, a multiple of 16 or the total with dir 0, and the leat is free once
the total is reached. -/
def Obligations.CopyElements : Prop := ∀ mill k s l b, s.wf → s.leat? mill k = some l → s.block? l.bid = some b → b.resident = true → b.mill = mill →
  l.frozen = none → s.errs = [] → s.poison = [] → s.awaits = [] → s.watches = [] → s.hostDirty = [] → s.detBlock b = false → b.kernel.checked = false → b.staged = [] →
  let d := l.desc
  let off := d.d + l.done
  let done := l.done + d.e
  d.e ≠ 0 → (d.wptr + 4 ≤ off ∨ off + d.e ≤ d.wptr) →
  let becomes := fun (u : State) (v : Nat → Option Byte) (m : Nat → Byte) =>
    (∀ a, u.rd a = m a) ∧ (u.leat? mill k = if d.total ≤ done then none else some { l with done := done }) ∧
    ∃ b', u.block? l.bid = some b' ∧ { b' with scratch := b.scratch, groups := b.groups } = b ∧
      (∀ gid g, b.group? gid = some g → ∃ g', b'.group? gid = some g' ∧ { g' with frags := g.frags } = g) ∧
      b'.sbNat d.wptr 4 = (if d.dir = true ∨ done = d.total then done else done / 16 * 16) % 2 ^ 32 ∧
      ∀ a, a < d.wptr ∨ d.wptr + 4 ≤ a → b'.sb a = (v a).getD (b.sb a)
  (d.addr (l.done / d.e) = none → ∃ u, exec (.leatElementTransfer mill k) s = .next u ∧
    becomes u (fun a => if off ≤ a ∧ a < off + d.e then some 0 else none) s.rd) ∧
  ∀ va x, d.addr (l.done / d.e) = some va → va < 2 ^ 56 →
    reach s mill l.ctx (if d.dir then .leatStore else .leatLoad) false false va = .ok x →
    inHost x.pa = false → leafChecked x.leaf = false → (∀ a, x.pa ≤ a → a < x.pa + d.e → l1Find s mill (lineOf a) = none) →
    ∃ u, exec (.leatElementTransfer mill k) s = .next u ∧
      if d.dir = true then becomes u (fun _ => none) fun a => if x.pa ≤ a ∧ a < x.pa + d.e then b.sb (off + (a - x.pa)) else s.rd a
      else becomes u (fun a => if off ≤ a ∧ a < off + d.e then some (s.rd (x.pa + (a - off))) else none) s.rd

/-! ### Rows 0xB and 0xC: watches, special registers, launches and signals -/

/-- R281, R282, R283, R390: `WATCH` takes a free entry with its descriptor's fields and blocks until the arm is in effect;
then its id is in the destination and the fragment goes on. `UNWATCH` blocks until its entry is disarmed; an id that
names no armed entry of the context is ignored. -/
def Obligations.Watches : Prop :=
  (∀ d n s e, (Instr.watch d n).wf = true → Issues s e → s.wf → s.errs = [] → (∀ o ∈ e.opsMine, o.acq = true → o.accs = []) → e.holdsAll [(1, d, 1)] →
    let ws := (List.range 8).map fun k => (uget e.g (n + k)).toNat
    let x := watchDesc ws
    watchBad ws = none → (∃ image, kernelEntry s e.b.ctx x.kernel = .ok image) →
    ∀ pages, watchPages s e.b.mill e.b.ctx (s.detBlock e.b) x.base (List.range (2 ^ (x.lg - 12))) = .ok pages →
    (s.watches.filter fun w => w.ctx == e.b.ctx).length < fld (s.creg e.b.ctx oWQUOTA) 0 11 → (∃ i < 1024, ∀ w ∈ s.watches, w.idx ≠ i) →
    ∃ u w, exec (.watch d n) s = .next u ∧ u.watches = s.watches ++ [w] ∧
      Moved e { e.f with st := .blocked (.arming w.idx d) s.cycle } { u with watches := s.watches, nextId := s.nextId } ∧
      w.idx < 1024 ∧ (∀ y ∈ s.watches, y.idx ≠ w.idx) ∧ w.ctx = e.b.ctx ∧ w.base.toNat = x.base ∧ w.lg = x.lg ∧ w.depth = x.depth ∧
      w.kernel = x.kernel ∧ w.budget = x.budget ∧ w.arg = x.arg ∧ w.pages = pages ∧ w.armed = false ∧ w.live = [] ∧ w.gone = [] ∧
      w.wid = (sget 0 s.arms w.idx).setWidth 32 <<< 10 ||| BitVec.ofNat 32 w.idx) ∧
  (∀ r s b g f k d t w, s.wf → s.errs = [] → s.frag? r = some (b, g, f) → cleanL1 s b.mill → g.frozen = none →
    f.st = .blocked (.arming k d) t → (∀ o ∈ s.opsOf r.bid r.gid, o.accs = []) → b.staged = [] → s.watch? k = some w → d.wf = true → heldReg b g d = true →
    ∃ u b' g' f', exec (.watchArmEffective r) s = .next u ∧ u.watch? k = some { w with armed := true, live := [] } ∧ sget 0 u.arms k = sget 0 s.arms k + 1 ∧
      u.frag? r = some (b', g', f') ∧ f'.st = .running ∧ f'.pc = f.after ∧ f'.exm = f.exm ∧ (∀ a, u.rd a = s.rd a) ∧
      ∀ l q, q.wf = true → rget b' g' l q = (lands d f.exm (fun _ => w.wid) l q).getD (rget b g l q)) ∧
  (∀ a s e, Issues s e → s.wf → s.errs = [] → e.holdsAll [(2, a, 1)] →
    ((∀ w ∈ s.watches, w.ctx = e.b.ctx → w.armed = true → w.wid ≠ e.r32 a) → ∃ u, exec (.unwatch a) s = .next u ∧ Moved e (e.f.goOn e.i.next s.cycle) u) ∧
    ∀ w, (s.watches.find? fun w => w.ctx == e.b.ctx && w.armed && w.wid == e.r32 a) = some w →
      ∃ u, exec (.unwatch a) s = .next u ∧ Moved e { e.f with st := .blocked (.disarming w.idx) s.cycle } u) ∧
  ∀ r s b g f k t w, s.frag? r = some (b, g, f) → g.frozen = none → f.st = .blocked (.disarming k) t → s.watch? k = some w →
    ∃ u b' g' f', exec (.unwatchDone r) s = .next u ∧ u.frag? r = some (b', g', f') ∧ f'.st = .running ∧ f'.pc = f.after ∧
      { g' with frags := g.frags } = g ∧ (∀ a, u.rd a = s.rd a) ∧ ∀ y, u.watch? k = some y → y = { w with armed := false, live := [], gone := [], susp := false, held := none }

/-- R75, R286, R293, R294: `SRD` reads each special register; `SWR` writes `$exm` as `MASK.wr.set` does and faults on any
other; `TRIGI` reads the record behind a trigger group, its lane's changed sector where the record has one, and
zeros elsewhere. -/
def Obligations.SpecialRegisters : Prop := ∀ g d,
  (let launch := fun (e : Env) (f : Launch → W64) => match e.s.launchOf e.b with | none => (0 : W64) | some l => f l
   ∀ p ∈ ([(0x00, false, fun _ l => BitVec.ofNat 64 l), (0x01, false, fun e _ => BitVec.ofNat 64 e.g.gid), (0x02, false, fun e _ => e.b.index.setWidth 64),
      (0x03, false, fun e _ => BitVec.ofNat 64 e.g.role), (0x04, false, fun e _ => BitVec.ofNat 64 e.b.kernel.width),
      (0x05, false, fun e _ => launch e fun l => l.packet.getD 0 0 >>> 32), (0x06, true, fun e _ => e.f.exm),
      (0x07, true, fun e _ => match e.g.handler, e.b.trig with
        | some h, _ => h.image
        | none, some t => t.arg
        | none, none => launch e fun l => BitVec.ofNat 64 ((l.packet.getD 1 0).toNat % 2 ^ 56)),
      (0x08, true, fun e _ => match e.g.handler with | some h => h.kimg | none => e.b.kernel.image), (0x09, true, fun e _ => e.s.gtime),
      (0x0A, false, fun e l => (sget 0xFFFFFFFF e.g.xowner l).setWidth 64), (0x0B, false, fun e _ => BitVec.ofNat 64 e.f.fid),
      (0x0C, false, fun e _ => launch e fun l => BitVec.ofNat 64 l.rank), (0x0D, false, fun e _ => launch e fun l => BitVec.ofNat 64 l.nrank),
      (0x0E, false, fun e _ => BitVec.ofNat 64 e.b.ctx), (0x0F, false, fun e _ => match e.b.trig with | none => 0 | some t => BitVec.ofNat 64 t.depth)]
      : List (Nat × Bool × (Env → Nat → W64))),
     Computes (.srd g d p.1) g false [] p.2.1 d (fun e _ l => p.2.2 e l) 0) ∧
  (∀ k, k < 8 → Computes (.srd g d (0x40 + k)) g false [] true d (fun e _ _ => sget 0 e.g.ctr k) 0) ∧
  (∀ a s e, (Instr.swr g 6 a).wf = true → Issues s e → s.wf → s.errs = [] → e.holdsAll [(2, a, 2)] →
    let pass := guarded e.g e.f.held g
    let m := if pass = 0 then e.f.exm else rget64 e.b e.g (lowLane pass) a &&& e.f.held
    ∃ u, exec (.swr g 6 a) s = .next u ∧ Moved e (({ e.f with exm := m } : Frag).goOn e.i.next s.cycle) u) ∧
  (∀ r a s e, r ≠ 6 → Issues s e → e.g.stop = none → ∃ u ev, exec (.swr g r a) s = .next u ∧ Stopped e ev u ∧ ev.cause = 0x02 ∧ ev.code = 5) ∧
  ∀ k s e, (Instr.trigi g k d).wf = true → Issues s e → s.wf → e.laneReady [] (useD (TrigField.wide k) d) →
    ∃ u, exec (.trigi g k d) s = .next u ∧
      (e.b.trig = none → Wrote e { u with nextId := s.nextId } (landsW (TrigField.wide k) d (e.active g) fun _ => 0) noWrite fun _ => 0) ∧
      ∀ t, e.b.trig = some t → ∃ sec : Nat → Nat, (∀ l, 8 * e.g.gid + l < t.sectors.length → sec l = t.sectors.getD (8 * e.g.gid + l) 0) ∧
        Wrote e { u with nextId := s.nextId } (landsW (TrigField.wide k) d (e.active g) fun l => match k with
          | .wid => t.wid.setWidth 64
          | .addr => t.region + BitVec.ofNat 64 (16 * sec l)
          | .sector => BitVec.ofNat 64 (sec l)
          | .sblk => (storerBlk t.storer).setWidth 64
          | .origin => (fromCode t.storer).setWidth 64
          | .depth => BitVec.ofNat 64 t.depth
          | .arg => t.arg
          | .count => BitVec.ofNat 64 t.sectors.length) noWrite fun _ => 0

/-- R45, R291, R292: `LAUNCH` writes its packet of sixteen registers into the ring slot at the write index and raises the
index by one, and changes no other byte or register of the context; `SIGNAL` puts one atomic add with release at
system scope in flight, which no flag counts. -/
def Obligations.ChildLaunchesAndSignals : Prop :=
  (∀ p n s e, (Instr.launch p n).wf = true → Issues s e → s.wf → s.errs = [] → s.poison = [] → s.watches = [] → s.hostDirty = [] → (∀ o ∈ e.opsMine, o.accs = []) →
    s.detBlock e.b = false → e.filtered = false → cleanL1 s e.b.mill →
    let w := s.writeIdx e.b.ctx p
    (w + 1) % s.ringSize e.b.ctx p ≠ s.readIdx e.b.ctx p → ∀ pa, e.reaches .mxstore false (s.ringSlot e.b.ctx p w) pa →
    ∃ u b g f, exec (.launch p n) s = .next u ∧ u.cur = none ∧ u.frag? e.i.f = some (b, g, f) ∧ e.goesOn f ∧
      { b with groups := e.b.groups } = e.b ∧ { g with frags := e.g.frags } = e.g ∧
      (∀ i, i < 64 → u.rd (pa + i) = BitVec.ofNat 8 ((uget e.g (n + i / 4)).toNat / 2 ^ (8 * (i % 4)))) ∧
      (∀ a, a < pa ∨ pa + 64 ≤ a → u.rd a = s.rd a) ∧ u.writeIdx e.b.ctx p = (w + 1) % s.ringSize e.b.ctx p ∧
      ∀ c off, (c ≠ e.b.ctx ∨ off ≠ oDB p) → u.creg c off = s.creg c off) ∧
  ∀ a b s e, (Instr.signal a b).wf = true → Issues s e → s.wf → s.errs = [] → s.poison = [] → (∀ o ∈ e.opsMine, o.acq = true → o.accs = []) →
    e.b.kernel.checked = false → s.detBlock e.b = false → e.holdsAll [(2, a, 2), (3, b, 2)] →
    ∀ pa, (e.r64 a).toNat % 8 = 0 → e.reaches .atomic false (e.r64 a).toNat pa →
    ∃ u, exec (.signal a b) s = .next u ∧ LaunchedOn e none u fun op => op.rel = true ∧ op.acq = false ∧ op.scope = .system ∧
      op.accs = [{ space := .global, lanes := e.whole, body := .atom pa .add .b64 none [(e.lead, e.r64 b, 0)] }]

/-! ### Row 0xB: far memory and collectives -/

/-- R98, R287, R288, R380: an instruction of far memory sends each active lane's access to the rank its window address
names and waits for the answer, with no register changed; answered, it completes: a load's bytes are in its
destination, and the flag it names has counted once. (A kernel under checks whose group has diverged meets its filter first,
R144, and is not this.) -/
def Obligations.FarAccesses : Prop := ∀ g fl acq rel t op w o sc d a b off s e, Issues s e → s.wf → e.issueReady fl → e.filtered = false →
  let sends := fun (i : Instr) (uses : List RegUse) (kind : FarKind) (ordered : Bool) (n : Nat) (act : LaneMask) (off : BitVec 12)
      (val : Nat → BitVec 128) (regs : (Nat → BitVec 128) → Nat → Reg → Option W32) => i.wf = true → e.holdsAll uses →
    (act = 0 → ∃ u, exec i s = .next u ∧ Launched e fl u fun op => op.accs = []) ∧
    (act ≠ 0 → (∀ l ∈ lanesOf act, e.lane64 a off l % n = 0) →
      (∀ r, e.f.reply = none → (∀ o ∈ e.opsMine, o.accs = []) → s.detBlock e.b = false → cleanL1 s e.b.mill → r ≤ s.domSize e.b.ctx → r ∉ s.lost →
        (∀ l ∈ lanesOf act, e.lane64 a off l < 2 ^ 56 ∧ farRank (e.lane64 a off l) = r ∧
          ∃ x, reach s e.b.mill e.b.ctx (if kind = .load then .far else .farWrite) false false (e.lane64 a off l) = .ok x) →
        ∃ u, exec i s = .next u ∧
          let accs : List FarAcc := (lanesOf act).map fun l => { lane := l, addr := BitVec.ofNat 64 (e.lane64 a off l), size := n, val := val l }
          let q : FarReq := { id := s.nextId, rank := s.rankOf e.b.ctx, ctx := e.b.ctx, kind := kind, ordered := ordered, det := false, accs := accs,
                              sblk := e.b.index, depth := e.b.depth, key := e.b.bid, srank := s.replicaRank e.b }
          u.spurOut = s.spurOut ++ [.request r q] ∧
          u.awaits = s.awaits ++ [{ id := s.nextId, f := e.i.f, rank := some r, since := s.gtime, req := some q, got := none, ev := none, ext := extUses uses }] ∧
          Moved e { e.f with st := .awaiting s.nextId } { u with spurOut := s.spurOut, awaits := s.awaits, nextId := s.nextId, tlb := s.tlb }) ∧
      ∀ v : Nat → BitVec 128, e.f.reply = some (.far (.ok ((lanesOf act).map v))) → e.b.staged = [] →
        ∃ u, exec i s = .next u ∧ InFlight e fl u (regs v) fun b op => op.fin = .plain ∧ { b with groups := e.b.groups, exts := e.b.exts } = e.b)
  sends (.ldf g fl acq t sc d a off) [(2, a, 2), (1, d, dtRegs t)] .load acq (dtBytes t) (oneLane d (e.active g)) off (fun _ => 0)
    (fun v => loadLands t d (oneLane d (e.active g)) fun l => (v l).toNat % 2 ^ (8 * dtBytes t)) ∧
  sends (.stf g fl rel t sc a off b) [(2, a, 2), (3, b, dtRegs t)] .store rel (dtBytes t) (e.active g) off
    (fun l => BitVec.ofNat 128 (e.storing (e.active g) t (.reg b) l)) (fun _ => noWrite) ∧
  sends (.redf g fl op w o sc a b) [(2, a, 2), (3, b, if w = .b64 then 2 else 1)] (.red op) (Order.acquires o || Order.releases o) (atomBytes w) (e.active g) 0
    (fun l => match w with | .b32 => (rget e.b e.g l b).setWidth 128 | .b64 => (rget64 e.b e.g l b).setWidth 128) (fun _ => noWrite)

/-- R98, R287, R288, R300, R380: a target translates a request in its own tables of the shared context, performs it at
the home and answers; a member that does not share the context is refused and its endpoint freezes. An answer, or 1 ms
without one, lets the waiting fragment go on with it. -/
def Obligations.FarService : Prop :=
  (∀ r s a pa, s.wf → ownRequest s r = false → s.watches = [] → s.hostDirty = [] → (r.ctx, r.rank) ∉ s.endpoints → (s.ctx r.ctx).present = true → r.rank ≤ s.domSize r.ctx →
    r.accs = [a] → farTarget s r a = .ok pa →
    ∃ u v, exec (.farRequestReceive r) s = .next u ∧ u.spurOut = s.spurOut ++ [.answer r.rank r.id (.ok [v])] ∧
      (∀ x, x < pa ∨ pa + a.size ≤ x → u.rd x = s.rd x) ∧
      (r.kind = .load → v = BitVec.ofNat 128 (s.rdNat pa a.size) ∧ ∀ x, u.rd x = s.rd x) ∧
      (r.kind = .store → ∀ i < a.size, u.rd (pa + i) = BitVec.ofNat 8 (a.val.toNat / 2 ^ (8 * i))) ∧
      ∀ op w, r.kind = .red op → a.size = atomBytes w → u.rdNat pa a.size =
        (atomServe op w (BitVec.ofNat 64 (s.rdNat pa a.size)) [(a.val.setWidth 64, 0)]).2.toNat % 2 ^ (8 * a.size)) ∧
  (∀ r s, ownRequest s r = false → (s.ctx r.ctx).present = false ∨ s.domSize r.ctx < r.rank →
    ∃ u, exec (.farRequestReceive r) s = .next u ∧ (r.ctx, r.rank) ∈ u.endpoints ∧
      u.spurOut = s.spurOut ++ [.answer r.rank r.id (.fail 0x27 2 (maskOf (r.accs.map (·.lane))))]) ∧
  ∀ s id y q b g f m, s.awaits = [y] → y.id = id → y.req = some q → y.got = none → y.rank ≠ some q.rank → y.f.fid < 8 → s.frag? y.f = some (b, g, f) → g.stop = none →
    q.accs.map (·.lane) = lanesOf m → m ≠ 0 →
    let got := fun (u : State) (x : FarReply) => u.awaits = [] ∧
      ∃ b' g' f', u.frag? y.f = some (b', g', f') ∧ f' = { f with st := .running, reply := some (.far x), age := s.cycle } ∧
        { u with blocks := s.blocks, awaits := s.awaits } = s
    (∀ x, answerFits q x = true → ∃ u, exec (.farAnswer id x) s = .next u ∧ got u x) ∧
    (y.since.toNat + 1000000 ≤ s.gtime.toNat → ∃ u, exec (.farAccessTimeout id) s = .next u ∧ got u (.fail 0x27 1 m))

/-- R134, R171, R289, R290, R299, R374, R389: `COLL` contributes its descriptor and is in flight until the collective is over. The
replicas exchange their descriptors, which must agree; then the engine, whose own reads and writes pass the checks of the epoch
that holds as it makes them, writes the destination: the sum over the ranks in
ascending order, every rank's elements, this rank's part of the sum, or the root's elements. A route that comes
back is a route again. -/
def Obligations.Collectives : Prop :=
  (∀ g fl n s e, (Instr.coll g fl n).wf = true → Issues s e → s.wf → e.issueReady fl →
    let ws := (List.range 8).map fun k => (uget e.g (n + k)).toNat
    let x := collDesc ws
    (e.active g = 0 → ∃ u, exec (.coll g fl n) s = .next u ∧ Launched e fl u fun op => op.accs = []) ∧
    (e.active g ≠ 0 → e.collCheck ws = none → (∀ c ∈ s.colls, c.tag ≠ x.tag) → cleanL1 s e.b.mill →
      ∃ u c, exec (.coll g fl n) s = .next u ∧ u.colls = s.colls ++ [c] ∧ c.tag = x.tag ∧ c.op = x.op ∧ c.type = x.type ∧ c.count = x.count ∧
        c.root = x.root ∧ c.src.toNat = x.src ∧ c.dst.toNat = x.dst ∧ c.opId = s.nextId ∧ c.mill = e.b.mill ∧ c.exchanged = false ∧ c.done = false ∧ c.fail = none ∧
        u.spurOut = s.spurOut ++ [.coll c.lid c.tag { rank := s.replicaRank e.b, op := x.op, type := x.type, count := x.count }] ∧
        InFlight e fl u noWrite fun b op => op.fin = .coll x.tag ∧ { b with groups := e.b.groups } = e.b)) ∧
  (∀ lid tag hs s c b, s.coll? lid tag = some c → s.block? c.bid = some b → c.exchanged = false → c.fail = none → (∃ own, ownSource s b c = .ok own) →
    collWaits s b c = false → (∃ v, stampAll s b.ident .read (collTouches s b c false 0) = .ok v) →
    hs.map (·.rank) = (List.range (s.replicas b)).filter (· != s.replicaRank b) → s.replicaRank b < s.replicas b →
    (∀ h ∈ hs, h.op = c.op ∧ h.type = c.type ∧ h.count = c.count) →
    ∃ u, exec (.collectiveExchange lid tag hs) s = .next u ∧ u.coll? lid tag = some { c with exchanged := true } ∧
      { u with colls := s.colls, spurOut := s.spurOut, stamps := s.stamps, sids := s.sids, ids := s.ids } = s) ∧
  (∀ lid tag vals s c b own pas v w, s.wf → s.watches = [] → s.hostDirty = [] → s.coll? lid tag = some c → s.block? c.bid = some b → cleanL1 s c.mill → c.fail = none →
    c.exchanged = true → c.done = false → vals.length + 1 = s.replicas b → s.replicaRank b ≤ vals.length → (∀ v ∈ vals, v.length = c.count) →
    ownSource s b c = .ok own → collWaits s b c = false → stampAll s b.ident .read (collTouches s b c false 0) = .ok v →
    let n := elemBytes c.type
    let k := s.replicaRank b
    let src := (vals.take k).map (·.map fun x => x.toNat % 2 ^ (8 * n)) ++ [own] ++ (vals.drop k).map (·.map fun x => x.toNat % 2 ^ (8 * n))
    let sum := fun (i : Nat) => let xs := src.map fun x => x.getD i 0
      match c.type with
      | 0 => xs.tail.foldl (fun a x => f32.add .rn 0 a x) (xs.headD 0)
      | 1 | 2 => let h : CTy := if c.type = 1 then .f16 else .bf16
        let wide := xs.map (convert .f32 h .rn 0)
        convert h .f32 .rn 0 (wide.tail.foldl (fun a x => f32.add .rn 0 a x) (wide.headD 0))
      | _ => xs.foldl (· + ·) 0 % 2 ^ (8 * n)
    let dst := match c.op with
      | 0 => (List.range c.count).map sum
      | 1 => src.flatten
      | 2 => (List.range (c.count / src.length)).map fun i => sum (k * (c.count / src.length) + i)
      | _ => src.getD c.root []
    stampAll v b.ident .write (collTouches v b c true dst.length) = .ok w →
    devMap s b.ctx true c.dst.toNat (dst.length * n) = .ok pas → pas.Nodup →
    ∃ u, exec (.collectiveComplete lid tag vals) s = .next u ∧ u.coll? lid tag = some { c with done := true } ∧
      (∀ a, a ∉ pas → u.rd a = s.rd a) ∧ pas.map u.rd = (dst.flatMap fun x => leBytes n x).take pas.length) ∧
  ∀ rank s, rank < 64 →
    (rank ∈ s.lost → ∃ u, exec (.spurRouteChange rank true) s = .next u ∧ u = { s with lost := s.lost.filter (· != rank) }) ∧
    (rank ∉ s.lost → s.colls = [] → ∃ u, exec (.spurRouteChange rank false) s = .next u ∧ u = { s with lost := s.lost ++ [rank] })

/-! ### Events: the driver's registers -/

/-- R45, R46, R47, R101, R307, R308, R378, R415: a doorbell takes an index below the ring's size; a ring's base and size
change only while its queue is empty, and a new size sets the indices, and with them the places of waiting replicas, to 0; a plain register of the privileged view
keeps its defined bits, and the tenant's view changes nothing but doorbells, `TLBINV` and `FQHEAD`; the slice
registers change at once while slicing is off, and else wait; stamp coverage changes only with no context present, and
clears its die's stamps. -/
def Obligations.RegisterWrites : Prop := ∀ s c q x, s.wf → c < 1024 → q < 8 →
  let idx := x.toNat % 2 ^ 32
  let size := x.toNat % 2 ^ 16
  (∃ u, exec (.doorbellWrite c q x) s = .next u ∧
    if (s.ctx c).present = true ∧ idx < s.ringSize c q then RegsSet s u c fun o => if o = oDB q then some (BitVec.ofNat 64 idx) else none else u = s) ∧
  (∃ u, exec (.ringControlWrite c q false x) s = .next u ∧
    if (s.ctx c).present = true ∧ s.readIdx c q = s.writeIdx c q then
      RegsSet s u c fun o => if o = oRING q then some (BitVec.ofNat 64 (x.toNat % 2 ^ 56 / 64 * 64)) else none
    else u = s) ∧
  (∃ u, exec (.ringControlWrite c q true x) s = .next u ∧
    if (s.ctx c).present = true ∧ s.readIdx c q = s.writeIdx c q ∧ size + 1 ≠ s.ringSize c q then
      RegsSet s (u.onCtx c fun y => { y with queues := (s.ctx c).queues }) c
          (fun o => if o = oRCTL q then some (BitVec.ofNat 64 size) else if o = oDB q then some 0 else none) ∧
        (∀ k, k ≠ q → (u.ctx c).queue k = (s.ctx c).queue k) ∧
        (u.ctx c).queue q = { (s.ctx c).queue q with replicas := ((s.ctx c).queue q).replicas.map fun r => (0, r.2) }
    else u = s) ∧
  (∀ p ∈ ([(oTTROOT, 0x00FFFFFFFFFFF001), (oDOMCFG, 0x00000000000F3F3F), (oKTBASE, 0x00FFFFFFFFFFFFF8), (oKRDONE, 0x00FFFFFFFFFFFFF8),
      (oKTSIZE, 0x000000000000FFFF), (oKRIDX, 0x000000000000FFFF), (oTRAPH, 0x00FFFFFFFFFFFF83), (oFQBASE, 0x00FFFFFFFFFFFF80),
      (oFQCTL, 0x000000000001FFFF), (oWQUOTA, 0x00000000000007FF)] : List (Nat × W64)), s.launches = [] → (s.ctx c).present = true →
    ∃ u, exec (.registerWrite (BitVec.ofNat 64 (regBase + 0x10000000 + 65536 * c + p.1)) x) s = .next u ∧
      RegsSet s u c fun o => if o = p.1 then some (x &&& p.2) else none) ∧
  (∀ off, off < 65536 → off % 8 = 0 → 0x40 ≤ off → off ≠ oTLBINV → off ≠ oFQHEAD → s.launches = [] →
    ∃ u, exec (.registerWrite (BitVec.ofNat 64 (regBase + 0x20000000 + 65536 * c + off)) x) s = .next u ∧ u = s) ∧
  (∀ r, ∃ u, exec (.sliceScheduleWrite r x) s = .next u ∧
    if bitOf s.slper.toNat 20 = true then
      { u with slNext := s.slNext } = s ∧ u.slNext = some (match r with
        | .slt0 => (x, (s.slNext.getD (s.slt0, s.slper)).2)
        | .slper => ((s.slNext.getD (s.slt0, s.slper)).1, BitVec.ofNat 64 (x.toNat % 2 ^ 21)))
    else { u with slt0 := s.slt0, slper := s.slper, slBegun := s.slBegun } = s ∧ (u.slt0, u.slper) = (match r with
      | .slt0 => (x, s.slper)
      | .slper => (s.slt0, BitVec.ofNat 64 (x.toNat % 2 ^ 21)))) ∧
  ∀ die, die < 4 → ∃ u, exec (.stcovWrite die x) s = .next u ∧
    ((∃ p ∈ s.ctxs, p.2.present = true) → u = s) ∧
    ((∀ p ∈ s.ctxs, p.2.present = false) → { u with stcov := s.stcov, stamps := s.stamps } = s ∧
      (∀ d, u.coverage d = if d = die then min (x.toNat / 2 ^ 16 % 2 ^ 24 * 65536) stcovMax else s.coverage d) ∧
      ∀ line, sget 0 u.stamps line = if homeDie (line * 64) = some die then 0 else sget 0 s.stamps line)

/-- R46, R101, R102, R319, R320, R321: creating, destroying and removing a context; dropping translations; replacing a
kernel-table entry in one step. -/
def Obligations.ContextsAndTables : Prop := ∀ s c, s.wf → c < 1024 →
  (∀ act ∈ [Instr.ctxcmdCreate c, .ctxcmdDestroy c], bitOf s.ctxcmd.toNat 63 = true → ∃ u, exec act s = .next u ∧ u = s) ∧
  (bitOf s.ctxcmd.toNat 63 = false → ∃ u, exec (.ctxcmdCreate c) s = .next u ∧ { u with ctxs := s.ctxs, ctxcmd := s.ctxcmd } = s ∧
    bitOf u.ctxcmd.toNat 63 = false ∧ (∀ d, d ≠ c → u.ctx d = s.ctx d) ∧
    u.ctx c = if (s.ctx c).present = true then s.ctx c else { Ctx.reset with present := true }) ∧
  (bitOf s.ctxcmd.toNat 63 = false → (s.ctx c).present = true → ∃ u, exec (.ctxcmdDestroy c) s = .next u ∧ bitOf u.ctxcmd.toNat 63 = true ∧
    (u.ctx c).leaving = true ∧ (u.ctx c).trig = [] ∧ (∀ l ∈ u.launches, l.ctx = c → l.dropped = true) ∧ (∀ l ∈ u.leats, l.ctx ≠ c) ∧
    (∀ w ∈ u.watches, w.ctx ≠ c) ∧ ∀ y ∈ u.tlb, y.ctx ≠ c) ∧
  ((s.ctx c).leaving = true → (∀ b ∈ s.blocks, b.ctx ≠ c) → (∀ l ∈ s.launches, l.ctx ≠ c) → (∀ l ∈ s.leats, l.ctx ≠ c) →
    (∀ x ∈ s.l1, x.ctx = c → x.dirty = []) → ∃ u, exec (.contextDestroyDone c) s = .next u ∧ bitOf u.ctxcmd.toNat 63 = false ∧
      u.ctx c = Ctx.reset ∧ (∀ d, d ≠ c → u.ctx d = s.ctx d) ∧ u.tlb = s.tlb.filter (·.ctx != c) ∧
      { u with ctxs := s.ctxs, ctxcmd := s.ctxcmd, tlb := s.tlb } = s) ∧
  ((s.ctx c).present = true → bitOf (s.creg c oTLBINV) 0 = false →
    (∀ va sz, let n := match sz with | .k64 => 16 | .m2 => 21 | .m512 => 29
      let code := match sz with | .k64 => 0 | .m2 => 1 | .m512 => 2
      ∃ u, exec (.tlbinvPage c va sz) s = .next u ∧
        RegsSet s { u with tlb := s.tlb } c (fun o => if o = oTLBINV then some (BitVec.ofNat 64 (va.toNat % 2 ^ 56 / 2 ^ 16 * 2 ^ 16 + code * 16 + 1)) else none) ∧
        u.tlb = s.tlb.filter fun y => !(y.ctx == c && va.toNat % 2 ^ 56 / 2 ^ max n y.bits == y.va.toNat / 2 ^ max n y.bits)) ∧
    ∃ u, exec (.tlbinvAll c) s = .next u ∧ u.tlb = s.tlb.filter (·.ctx != c) ∧
      RegsSet s { u with tlb := s.tlb } c fun o => if o = oTLBINV then some 3 else none) ∧
  (bitOf (s.creg c oTLBINV) 0 = true → (∀ o ∈ s.ops, ∀ b, s.block? o.bid = some b → b.ctx = c → o.accs = []) → (∀ b ∈ s.blocks, b.ctx = c → b.staged = []) →
    (∀ a ∈ s.awaits, a.req ≠ none → a.got = none → ∀ b, s.block? a.f.bid = some b → b.ctx ≠ c) →
    ∃ u, exec (.tlbinvDone c) s = .next u ∧ RegsSet s u c fun o => if o = oTLBINV then some (BitVec.ofNat 64 (s.creg c oTLBINV / 2 * 2)) else none) ∧
  ∀ x, ∃ u, exec (.krepl c x) s = .next u ∧
    ((s.ctx c).present = false → u = s) ∧
    ((s.ctx c).present = true → (u.ctx c).reg oKREPL = BitVec.ofNat 64 (x.toNat % 2 ^ 56 / 128 * 128) ∧
      (bitOf x.toNat 0 = false → ∀ a, u.rd a = s.rd a) ∧
      ∀ pa, bitOf x.toNat 0 = true → s.hostDirty = [] → devReach s c true (s.creg c oKTBASE % 2 ^ 56 / 8 * 8 + 8 * (s.creg c oKRIDX % 2 ^ 16)) = .ok pa →
        u.rdNat pa 8 = 2 ^ 63 + x.toNat % 2 ^ 56 / 128 * 128 ∧ (∀ a, a < pa ∨ pa + 8 ≤ a → u.rd a = s.rd a) ∧
        (u.ctx c).images = (s.ctx c).images ++ if bitOf (s.rdNat pa 8) 63 = true then
          [{ image := BitVec.ofNat 64 (s.rdNat pa 8 % 2 ^ 56), counter := BitVec.ofNat 64 (s.creg c oKRDONE % 2 ^ 56 / 8 * 8) }] else [])

/-! ### Events: launches -/

/-- R43, R44, R47, R48, R303, R319, R367: an open queue reads the packet at its head: a skip packet is passed over, a launch
packet becomes a launch that waits, and one with a reserved value freezes the queue. That the read index still stands at a
launch packet that has been read is the model's choice (assumption 18: R47 says only that it advances as packets are
consumed). A launch whose dependence counter
has reached its value waits no longer. A replica stands behind the packets its queue's doorbell covers. -/
def Obligations.PacketHeads : Prop := ∀ s c q, s.wf → openQueue s c q → (∀ x ∈ s.launches, x.id ≠ s.nextId) →
  (∀ pa, ((s.ctx c).queue q).head = none → ((s.ctx c).queue q).replicas = [] → (∀ x ∈ s.fullAt, x.1 ≠ c) → s.readIdx c q ≠ s.writeIdx c q →
    devGet s c false (s.ringSlot c q (s.readIdx c q)) 64 = .ok pa →
    let p := (List.range 8).map fun i => BitVec.ofNat 64 (s.rdNat (pa + 8 * i) 8)
    let w := (p.getD 0 0).toNat
    (packetBad (packetNat p) = none → w % 256 = 0 → ∃ u, exec (.launchPacketHead c q) s = .next u ∧
      u.readIdx c q = (s.readIdx c q + 1) % s.ringSize c q ∧ { u with ctxs := s.ctxs } = s) ∧
    (packetBad (packetNat p) = none → w % 256 = 1 → ∃ u l, exec (.launchPacketHead c q) s = .next u ∧ u.launches = s.launches ++ [l] ∧
      l.id = s.nextId ∧ l.ctx = c ∧ l.queue = q ∧ l.packet = p ∧ l.phase = .waiting ∧ l.kernel = none ∧ l.next = 0 ∧ l.replica = false ∧
      ((u.ctx c).queue q).head = some l.id ∧ u.readIdx c q = s.readIdx c q ∧ (∀ a, u.rd a = s.rd a) ∧
      (l.rank, l.nrank) = (if bitOf w 10 = true then (s.rankOf c, s.domSize c) else (0, 0)) ∧
      u.spurOut = s.spurOut ++ if bitOf w 10 = true then l.others.map fun r => .replica r c q p else []) ∧
    ∀ k, packetBad (packetNat p) = some k → ∃ u, exec (.launchPacketHead c q) s = .next u ∧ ((u.ctx c).queue q).frozen = some .entry ∧
      u.launches = s.launches) ∧
  (∀ l, headLaunch s c q = some l → l.packet ≠ [] → l.phase = .waiting → l.ctx = c →
    let ctr := (l.packet.getD 2 0).toNat % 2 ^ 56
    (ctr = 0 ∨ ∃ pa, devGet s c false ctr 8 = .ok pa ∧ (l.packet.getD 3 0).toNat ≤ s.rdNat pa 8) →
    ∃ u, exec (.launchPacketHead c q) s = .next u ∧ u.launch? l.id = some { l with phase := .met } ∧ { u with launches := s.launches } = s) ∧
  ∀ p, p.length = 8 → bitOf (p.getD 0 0).toNat 10 = true → replicaCount s c < 16 →
    ∃ u, exec (.replicaReceive c q p) s = .next u ∧ { u with ctxs := s.ctxs } = s ∧
      (u.ctx c).queue q = { (s.ctx c).queue q with replicas := ((s.ctx c).queue q).replicas ++ [(BitVec.ofNat 32 (s.writeIdx c q), p)] }

/-- R22, R23, R50, R51, R52, R68, R313: dispatch: the next block of a launch, every block of a gang in one step, or the
block of a trigger record starts at its placement, and nothing else of memory or of another block changes. -/
def Obligations.Dispatch : Prop :=
  (∀ s c q p l k, s.wf → headLaunch s c q = some l → l.ctx = c → l.queue = q → l.gang = false → launchReady s l = true →
    (if l.next = 0 then bindKernel s c l.kindex = .ok k else l.kernel = some k) → queueTurn s c q = true →
    let bound := s.onLaunch l.id fun l => { l with kernel := some k }
    firstDie bound k p = true → placeable bound c k (planGroups k none) (launchDet l k) p = true →
    (∀ m ∈ s.launches, partRestored s m = false ∧ (m.id ≠ l.id → reserved m = false)) →
    ∃ u, exec (.blockDispatch c q p) s = .next u ∧
      Starts s u k p.mill c (some l.id) none (BitVec.ofNat 32 l.next) ((planGroups k none).map (·.gid)) (fun _ => allLanes k.width) ∧
      u.launch? l.id = some { l with kernel := some k, next := l.next + 1, phase := if l.next + 1 = l.blocks then .dispatched else .dispatching }) ∧
  (∀ s c q ps l k v, s.wf → headLaunch s c q = some l → l.gang = true → launchReady s l = true → l.next = 0 → bindKernel s l.ctx l.kindex = .ok k →
    ps.length = l.blocks → queueTurn s c q = true → placeGang k ps l.id (s.onLaunch l.id fun l => { l with kernel := some k }) = some v →
    (∀ m ∈ s.launches, partRestored s m = false ∧ (m.id ≠ l.id → reserved m = false)) →
    ∃ u bs, exec (.gangDispatch c q ps) s = .next u ∧ u.blocks = s.blocks ++ bs ∧ bs.length = l.blocks ∧ (∀ a, u.rd a = s.rd a) ∧
      (∀ b ∈ bs, b.launch = some l.id ∧ b.kernel = k ∧ b.resident = true) ∧ bs.map (·.index) = (List.range l.blocks).map (BitVec.ofNat 32) ∧
      bs.map (·.mill) = ps.map (·.mill)) ∧
  ∀ s c p t k, s.wf → headRecord s c = some t → t.ctx = c → bindKernel s c t.kernel = .ok k → k.width = 8 → k.roles ≠ [] → dieOf p.mill = t.die →
    placeable s c k (planGroups k (some t.sectors.length)) false p = true → (∀ m ∈ s.launches, partRestored s m = false) →
    ∃ u, exec (.triggerBlockDispatch c p) s = .next u ∧ (u.ctx c).trig = (s.ctx c).trig.drop 1 ∧
      Starts s u k p.mill c none (some t) (BitVec.ofNat 32 (recordsSent s t)) (List.range (ceilDiv t.sectors.length 8))
        fun gid => allLanes (min 8 (t.sectors.length - 8 * gid))

/-- R49, R103, R105, R134, R215, R316, R321: a block that is over leaves: dirty bytes of its mill go home, its private lines
are dropped, its areas are free. A launch whose last block has left advances the epoch and adds to its counter. An
image that nothing runs any more is retired: its counter counts once. -/
def Obligations.EndsOfWork : Prop :=
  (∀ s bid b, s.wf → L1Kept s → s.block? bid = some b → blockOver s b = true → b.resident = true → s.detBlock b = false →
    ∃ u, exec (.blockEnd bid) s = .next u ∧ u.block? bid = none ∧ (∀ t ∈ (u.ctx b.ctx).arena, t.bid ≠ bid) ∧
      (∀ t ∈ (u.ctx b.ctx).saves, t.bid ≠ bid) ∧ (∀ l ∈ u.leats, l.bid ≠ bid) ∧
      (∀ x ∈ s.l1, x.mill = b.mill → x.priv = none → ∀ k ∈ x.dirty, u.rd (x.line * 64 + k.1) = (sget none x.cells k.1).getD 0) ∧
      ∀ x ∈ u.l1, x.priv ≠ some bid ∧ (x.mill = b.mill → x.priv = none → x.dirty = [])) ∧
  (∀ s lid l pa, s.wf → s.watches = [] → s.hostDirty = [] → s.launch? lid = some l → (∀ b ∈ s.blocks, b.launch ≠ some lid) → l.dropped = false → l.adopted = false → l.killed = false → l.phase = .dispatched →
    let ctr := (l.packet.getD 4 0).toNat % 2 ^ 56
    (ctr ≠ 0 → devGet s l.ctx true ctr 8 = .ok pa) →
    ∃ u, exec (.launchCompletion lid) s = .next u ∧ u.launch? lid = none ∧ u.epoch = s.epoch + 1 ∧ ((∀ o ∈ s.ops, o.marks = []) → u.sids = [] ∧ u.ids = 0) ∧
      (ctr = 0 → ∀ a, u.rd a = s.rd a) ∧
      (ctr ≠ 0 → u.rdNat pa 8 = (s.rdNat pa 8 + (l.packet.getD 5 0).toNat) % 2 ^ 64 ∧ ∀ a, a < pa ∨ pa + 8 ≤ a → u.rd a = s.rd a)) ∧
  ∀ s c image y pa, s.wf → s.watches = [] → s.hostDirty = [] → (s.ctx c).images.find? (·.image == image) = some y → imageIdle s c image = true →
    devGet s c true y.counter.toNat 8 = .ok pa →
    ∃ u, exec (.imageRetire c image) s = .next u ∧ (u.ctx c).images = (s.ctx c).images.erase y ∧ u.rdNat pa 8 = (s.rdNat pa 8 + 1) % 2 ^ 64 ∧
      ∀ a, a < pa ∨ pa + 8 ≤ a → u.rd a = s.rd a

/-- R304, R386, R387: start barriers. A domain launch tells the others its arrival; when every other has arrived with the
same generation, dispatch starts 20 µs after the latest arrival, and not before. A member that does not acknowledge
within 1 ms is fault 0x45 at the queue, or fault 0x27 in every group that waits in the domain's barrier. -/
def Obligations.StartBarriers : Prop :=
  (∀ s c q l, domainHead s c q = some l →
    (l.phase = .met → l.gang = false → ((s.ctx c).queue q).frozen = none → ∃ u, exec (.startBarrierArrival c q) s = .next u ∧
      u.spurOut = s.spurOut ++ [.arrival c q { rank := l.rank, gen := (l.packet.getD 7 0).setWidth 32, time := s.gtime }] ∧
      u.launch? l.id = some { l with phase := .arrived, arrTime := s.gtime, acks := [] } ∧ { u with spurOut := s.spurOut, launches := s.launches } = s) ∧
    ∀ t, l.phase = .starting t → t.toNat ≤ s.gtime.toNat → ∃ u, exec (.startBarrierDispatch c q) s = .next u ∧
      u.launch? l.id = some { l with phase := .dispatching } ∧ { u with launches := s.launches } = s) ∧
  (∀ s c q l (at_ : Nat → Arrival), s.wf → q < (s.ctx c).queues.length → domainHead s c q = some l → l.phase = .arrived → l.ctx = c → l.queue = q →
    ((∀ r ∈ l.others, ((s.ctx c).queue q).arrivals.find? (·.rank == r) = some (at_ r) ∧ (at_ r).gen = (l.packet.getD 7 0).setWidth 32) →
      ∃ u x, exec (.startBarrierComplete c q) s = .next u ∧ x ∈ l.arrTime :: l.others.map (fun r => (at_ r).time) ∧
        (∀ y ∈ l.arrTime :: l.others.map (fun r => (at_ r).time), y.toNat ≤ x.toNat) ∧
        u.launch? l.id = some { l with phase := .starting (x + 20000) } ∧ ((u.ctx c).queue q).arrivals = []) ∧
    ∀ r, r ∈ l.others → r ∉ l.acks → l.arrTime.toNat + 1000000 ≤ s.gtime.toNat → ((s.ctx c).queue q).frozen = none → ∃ u, exec (.startBarrierTimeout c q r) s = .next u ∧
      ((u.ctx c).queue q).frozen = some .barrier ∧ u.launch? l.id = some { l with phase := .waiting, acks := [] }) ∧
  (∀ s c q a, s.wf → openQueue s c q → a.rank ≠ s.rankOf c → a.rank ≤ s.domSize c → domainHead s c q = none →
    ∃ u, exec (.arrivalMessageReceive c q a) s = .next u ∧ u.spurOut = s.spurOut ++ [.arrivalAck a.rank c q a.gen] ∧
      (u.ctx c).queue q = { (s.ctx c).queue q with arrivals := ((s.ctx c).queue q).arrivals.filter (·.rank != a.rank) ++ [a] }) ∧
  ∀ s lid l r, s.launch? lid = some l → l.domSent = true → r ∈ l.others → r ∉ l.domAcks → l.domSince.toNat + 1000000 ≤ s.gtime.toNat →
    ∃ u, exec (.dbarDomTimeout lid r) s = .next u ∧ u.launch? lid = some { l with domSent := false } ∧ (∀ a, u.rd a = s.rd a) ∧
      ∀ bid gid b g f, s.group? bid gid = some (b, g) → b.launch = some lid → dbarFrag g = some f →
        ∃ b' g' x, u.group? bid gid = some (b', g') ∧ g'.stop = some x ∧ x.ev.cause = 0x27 ∧ x.ev.code = 1

/-! ### Events: pre-emption, staged ops, traps and faults -/

/-- R53 to R58, R105, R146, R280, R295, R308, R412: at a slice instant every block whose context does not own the slice is to be saved;
a saved block keeps everything but its place, its image stands in the save area, its mill's dirty bytes are home; restored elsewhere, every register,
predicate, flag and fragment is as it was saved, with the counters at zero. -/
def Obligations.Preemption : Prop :=
  (∀ s n, slicing s = true → slicesBegun s.gtime s.slt0 s.slper = n + 1 → s.slBegun ≤ n → s.slNext = none →
    ∃ u, exec (.sliceInstant n) s = .next u ∧ { u with blocks := s.blocks, slBegun := s.slBegun } = s ∧ u.slBegun = n + 1 ∧
      ∀ bid, u.block? bid = (s.block? bid).map fun b => { b with saving := b.saving || (b.resident && !b.ended && !ownsSlice s b.ctx) }) ∧
  (∀ s bid b, s.wf → L1Kept s → s.watches = [] → s.block? bid = some b → b.saving = true → b.resident = true → b.ended = false →
    (∀ g ∈ b.groups, groupSavable s b g = true) → (∀ l ∈ s.leats, l.bid = bid → l.frozen ≠ none) →
    ∃ u, exec (.blockSaveComplete bid) s = .next u ∧ u.block? bid = some { b with resident := false, saving := false } ∧
      (∀ i x, (saveImage s b)[i]? = some (some x) → u.rd (b.save + i) = x) ∧
      (∀ k, k ≠ bid → u.block? k = s.block? k) ∧
      (∀ x ∈ s.l1, x.mill = b.mill → x.priv = none → (∀ i, i < (saveImage s b).length → lineOf (b.save + i) ≠ x.line) →
        ∀ k ∈ x.dirty, u.rd (x.line * 64 + k.1) = (sget none x.cells k.1).getD 0) ∧
      ∀ x ∈ u.l1, x.priv ≠ some bid ∧ (x.mill = b.mill → x.priv = none → x.dirty = [])) ∧
  ∀ s bid b p, s.wf → s.block? bid = some b → b.saved = true → b.stuck = false → ctxOpen s b.ctx = true →
    ownsSlice s b.ctx = true → restoreCode s b = none → imageKept s b = true → restorable s b p = true → gangFits (restoreBlock s b p) b = true →
    (∀ m ∈ s.launches, reserved m = false ∧ (partRestored s m = true → s.launchOf b = some m)) →
    ∃ u b', exec (.blockRestore bid p) s = .next u ∧ u.block? bid = some b' ∧ b'.resident = true ∧ b'.mill = p.mill ∧ (∀ a, u.rd a = s.rd a) ∧
      { b' with resident := b.resident, mill := b.mill, groups := b.groups } = b ∧
      ∀ gid g, b.group? gid = some g → ∃ g', b'.group? gid = some g' ∧ (∀ l r, rget b' g' l r = rget b g l r) ∧ (∀ k, sget 0 g'.ctr k = 0) ∧ g'.stop = keptStop g.stop ∧
        { g' with pos := g.pos, ctr := g.ctr, stop := g.stop, frags := g.frags, handler := g.handler } = g ∧
        g'.frags.map (fun f => (f.fid, f.pc, f.held, f.exm, f.pends, f.arrived)) = g.frags.map fun f => (f.fid, f.pc, f.held, f.exm, f.pends, f.arrived)

/-- R313, R314, R330: the sequencer performs the staged ops of the head block in order: a staged store writes its bytes at
their homes and no other byte, and leaves the staging area. -/
def Obligations.StagedRelease : Prop := ∀ s lid l b x rest bytes, s.wf → s.watches = [] → s.errs = [] → s.hostDirty = [] → s.hostFails = none → s.launch? lid = some l → l.relStop = none → releaser s l = some b →
  s.block? b.bid = some b → stagedOrder b = x :: rest →
  x.body = .access [{ space := .global, lanes := x.lanes, body := .store bytes }] [] → (bytes.map (·.1)).Nodup → (x.leat = true → cleanL1 s b.mill) →
  ∃ u, exec (.stagedOpRelease lid) s = .next u ∧ (∀ p ∈ bytes, u.rd p.1 = p.2) ∧ (∀ a, a ∉ bytes.map (·.1) → u.rd a = s.rd a) ∧
    ∀ b', u.block? b.bid = some b' → b'.staged = b.staged.erase x

/-- R339 to R344: taking a trap and returning from it. The drained group's image, with the trap's record, is written to the
arena, and the group runs the handler from its entry with zeroed registers; at the end of the run the image's registers
are the group's again, and its disposition says how the fragment goes on. The image gives back every register it took. -/
def Obligations.TrapsTakenAndLeft : Prop :=
  (∀ b g h rcd cause, g.wf → b.kernel.width ≤ 64 → rcd.length = 16 → h.base = g.base →
    let r := imageRead b.kernel.width h (imageBytes b g rcd cause)
    (∀ l n, l < b.kernel.width → n < g.base → g.base ≤ 128 → sget 0 r.v (128 * l + n) = sget 0 g.v (128 * l + n)) ∧
    (∀ n, n < 64 → sget 0 r.u n = sget 0 g.u n) ∧
    ∀ l, l < b.kernel.width → sget 0 r.p l = sget 0 g.p l ∧ sget 0 r.draws l = sget 0 g.draws l) ∧
  (∀ s bid gid b g x image pas, s.wf → s.group? bid gid = some (b, g) → g.stop = some x → classOf x.ev.cause = 0 → b.resident = true → b.saving = false →
    groupDrained s bid g = true → stopFresh s bid gid x = false → s.hostDirty = [] → trapCase s b g (some image) = none → arenaFits s b.ctx image.toNat (imgSize b.width g.base) = true →
    devMap s b.ctx true image.toNat (imgSize b.width g.base) = .ok pas → pas.Nodup →
    ∃ u b' g' h f, exec (.trapHandlerStart bid gid image) s = .next u ∧ u.group? bid gid = some (b', g') ∧ { b' with groups := b.groups } = b ∧
      g'.handler = some h ∧ h.stop = x ∧ h.frags = g.frags ∧ h.toks = g.toks ∧ h.image = image ∧ h.seq = (s.ctx b.ctx).seq ∧
      (u.ctx b.ctx).seq = (s.ctx b.ctx).seq + 1 ∧ g'.stop = none ∧ g'.frags = [f] ∧ f.st = .running ∧ f.held = allLanes b.width ∧ f.exm = allLanes b.width ∧
      f.pc = BitVec.ofNat 64 (handlerImage s b.ctx + (handlerRole s b.ctx).1) ∧ g'.base = (handlerRole s b.ctx).2 ∧
      (∀ l n, n < 128 → rget b' g' l (.v n) = 0 ∧ rget b' g' l (.s n) = 0) ∧ (∀ l k, pget g' l k = false) ∧ (∀ k, g'.flag k = 0) ∧
      h.rcd.length = 16 ∧ h.rcd.getD 3 0 = x.ev.lanes ∧ (h.rcd.getD 4 0).toNat = x.pc.toNat % 2 ^ 56 ∧ h.rcd.getD 5 0 = x.word ∧
      pas.map u.rd = (imageBytes b g h.rcd x.ev.cause).take pas.length ∧ ∀ a, a ∉ pas → u.rd a = s.rd a) ∧
  ∀ s bid gid b g h pas, s.wf → s.group? bid gid = some (b, g) → g.handler = some h → b.resident = true → b.saving = false → handlerOver s bid g = true →
    devMapGet s b.ctx h.image.toNat (imgSize b.width h.base) = .ok pas → cleanL1 s b.mill → b.staged = [] → s.launchOf b = none → h.frags ≠ [] → (∀ o ∈ s.opsOf bid gid, o.fail = none) →
    let img := pas.map s.rd
    let word := leNat ((img.drop 0x80).take 8)
    let act := word / 2 ^ 56
    (act = 0 ∧ h.stop.ev.cause ≠ 0x01 ∧ h.stop.ev.cause ≠ 0x03) ∨ act = 1 ∨ act = 2 →
    ∃ u b' g', exec (.handlerRunEnd bid gid) s = .next u ∧ u.group? bid gid = some (b', g') ∧ (∀ a, u.rd a = s.rd a) ∧ g'.handler = none ∧ g'.base = h.base ∧
      g'.toks = h.toks ∧ g'.flags = g.aside ∧ (let r := imageRead b.width { g with base := h.base } img; (g'.v, g'.u, g'.p, g'.draws) = (r.v, r.u, r.p, r.draws)) ∧
      g'.frags.map (fun f => (f.fid, f.pc, f.held, f.exm)) = h.frags.map fun f => (f.fid,
        (if f.fid = h.stop.fid ∧ act ≠ 0 then (if act = 1 then h.stop.next else BitVec.ofNat 64 (word % 2 ^ 56)) else f.pc), f.held, f.exm)

/-- R345 to R348: a drained group that has met a fault or a breakpoint freezes: it keeps its registers and fragments, its
record names it under the next number, and a fault freezes the queue its work came from. `FCMD` lets it retry its
instruction, go on past it, or ends it; a number that names nothing frozen changes nothing but the register. -/
def Obligations.FaultsAndCommands : Prop :=
  (∀ s bid gid b g x image, s.wf → s.group? bid gid = some (b, g) → g.stop = some x → classOf x.ev.cause ≠ 0 → b.resident = true → groupDrained s bid g = true →
    stopFresh s bid gid x = false → recordWaits s b g x = false → imageChoice s b g image = true →
    ∃ u b' g' z, exec (.faultFreeze bid gid image) s = .next u ∧ u.group? bid gid = some (b', g') ∧ { b' with groups := b.groups } = b ∧
      g'.frozen = some z ∧ z.stop = x ∧ z.seq = (s.ctx b.ctx).seq ∧ { g' with stop := g.stop, frozen := g.frozen } = g ∧
      (z.seq, Master.group bid gid) ∈ (u.ctx b.ctx).masters ∧
      ∀ l, classOf x.ev.cause = 1 → b.trig = none → s.launchOf b = some l → l.queue < (s.ctx b.ctx).queues.length →
        ((u.ctx b.ctx).queue l.queue).frozen ≠ none) ∧
  ∀ s c seq, s.wf → c < 1024 → (s.ctx c).present = true → s.launches = [] → (s.blocks.map (·.bid)).Nodup →
    (fcmdTarget s c seq = none → ∀ i ∈ [Instr.fcmdRetry c seq, .fcmdSkip c seq, .fcmdKill c seq], ∃ u v, exec i s = .next u ∧
      RegsSet s u c fun o => if o = oFCMD then some v else none) ∧
    ∀ bid gid b g z f, fcmdTarget s c seq = some (.group bid gid) → s.group? bid gid = some (b, g) → g.frozen = some z → g.handler = none →
      g.frag? z.stop.fid = some f → f.pc = z.stop.pc → (∀ o ∈ s.opsOf bid gid, o.fail = none) →
      (∀ i, i ∈ [(Instr.fcmdRetry c seq, z.stop.pc), (.fcmdSkip c seq, z.stop.next)] →
        ∃ u b' g' f', exec i.1 s = .next u ∧ u.group? bid gid = some (b', g') ∧ { g' with frozen := g.frozen, frags := g.frags } = g ∧ g'.frozen = none ∧
          g'.frag? z.stop.fid = some f' ∧ f'.pc = i.2 ∧ f'.held = f.held ∧ f'.exm = f.exm ∧ (b.resident = true → ∀ a, u.rd a = s.rd a)) ∧
      ∃ u, exec (.fcmdKill c seq) s = .next u ∧ ∀ b' g', u.group? bid gid = some (b', g') → g'.frags = [] ∧ g'.frozen = none ∧ g'.stop = none

/-! ### Events: the host, the miller, clauses and caches -/

/-- R99, R284, R309 to R311, R345, R381, R415: the host's transactions. A line read returns the bytes at the line's home, a
line write and an atomic are performed there, and only eight aligned bytes reach a register; a reserved range freezes the
port, which then refuses: that an access no context owns counts for context 0, and that the whole port of that context refuses,
is the model's choice (assumption 25). A line read that meets a poisoned word is refused (R400; that the port goes on is the
model's choice, assumption 35). What the host has written in its own copy of a line comes home with its write of that line. An answer
of the host, or 1 ms without one, lets the waiting fragment go on; one that fails while its group drains for a trap makes that
fault the group's stop (R340). -/
def Obligations.HostTransactions : Prop :=
  (∀ s line cached, s.ports = [] → inHbm (64 * line) = true → (∀ i, i < 64 → poisoned s (64 * line + i) = false) → ∃ u, exec (.hostLineRead line cached) s = .next u ∧
    u.felmirOut = s.felmirOut ++ [.lineData line ((List.range 64).map fun i => s.rd (64 * line + i))] ∧
    { u with felmirOut := s.felmirOut, hostCopies := s.hostCopies } = s ∧
    ∀ x, x ∈ u.hostCopies ↔ x ∈ s.hostCopies ∨ (cached = true ∧ x = line)) ∧
  (∀ s line cached i, s.ports = [] → inHbm (64 * line) = true → i < 64 → poisoned s (64 * line + i) = true →
    ∃ u, exec (.hostLineRead line cached) s = .next u ∧ u.ports = [] ∧ (∀ x ∈ u.hostCopies, x ∈ s.hostCopies) ∧
      u.felmirOut.getLast? = some (.refused (BitVec.ofNat 64 (64 * line)))) ∧
  (∀ s line bytes, s.wf → s.watches = [] → s.ports = [] → inHbm (64 * line) = true → (bytes.map (·.1)).Nodup → (∀ p ∈ bytes, p.1 < 64) →
    ∃ u, exec (.hostLineWrite line bytes) s = .next u ∧ line ∉ u.hostCopies ∧ (∀ p ∈ bytes, u.rd (64 * line + p.1) = p.2) ∧
      (∀ q ∈ s.hostDirty, lineOf q.1 = line → (s.hostDirty.map (·.1)).Nodup → (∀ p ∈ bytes, q.1 ≠ 64 * line + p.1) → u.rd q.1 = q.2) ∧
      ∀ a, (∀ p ∈ bytes, a ≠ 64 * line + p.1) → (∀ q ∈ s.hostDirty, lineOf q.1 = line → a ≠ q.1) → u.rd a = s.rd a) ∧
  (∀ s (pa : W64) op w v c, (op = .fadd → w = .b32) → s.wf → s.watches = [] → s.ports = [] → inHbm pa.toNat = true → pa.toNat % atomBytes w = 0 →
    (∀ i, i < atomBytes w → poisoned s (pa.toNat + i) = false) → (∀ q ∈ s.hostDirty, lineOf q.1 ≠ lineOf pa.toNat) →
    let n := atomBytes w
    let r := atomServe op w (BitVec.ofNat 64 (s.rdNat pa.toNat n)) [(v, c)]
    ∃ u, exec (.hostAtomic pa op w v c) s = .next u ∧ u.felmirOut.getLast? = some (.atomicResult (BitVec.ofNat 64 (s.rdNat pa.toNat n))) ∧
      u.rdNat pa.toNat n = r.2.toNat % 2 ^ (8 * n) ∧ ∀ a, a < pa.toNat ∨ pa.toNat + n ≤ a → u.rd a = s.rd a) ∧
  (∀ s (pa : W64) size, inRegs pa.toNat = true → 0 < size → size ≤ 8 →
    (∃ u, exec (.hostRegisterAccess pa size none) s = .next u ∧ u = { s with felmirOut := s.felmirOut ++
      [.registerData (if size = 8 ∧ pa.toNat % 8 = 0 then regRead s pa.toNat else 0)] }) ∧
    ∀ x, ¬(size = 8 ∧ pa.toNat % 8 = 0) → ∃ u, exec (.hostRegisterAccess pa size (some x)) s = .next u ∧ u = s) ∧
  (∀ s, ∀ p ∈ [(0, s.slt0), (8, s.slper), (0x100, s.rasth), (0x130, s.rasst), (0x200, s.ctxcmd)],
    ∃ u, exec (.hostRegisterAccess (BitVec.ofNat 64 (regBase + p.1)) 8 none) s = .next u ∧ u.felmirOut = s.felmirOut ++ [.registerData p.2]) ∧
  (∀ s line, s.ports = [] → 64 * line < 2 ^ 56 → inHbm (64 * line) = false → inRegs (64 * line) = false → inHost (64 * line) = false →
    ∃ u, exec (.hostLineRead line false) s = .next u ∧ u.ports = [0] ∧ u.felmirOut.getLast? = some (.refused (BitVec.ofNat 64 (64 * line))) ∧
      ∀ k, 64 * k < 2 ^ 56 → inHost (64 * k) = false → ∃ v, exec (.hostLineRead k false) u = .next v ∧
        v = { u with felmirOut := u.felmirOut ++ [.refused (BitVec.ofNat 64 (64 * k))] }) ∧
  ∀ s id y b g f, s.awaits = [y] → y.id = id → y.rank = none → y.f.fid < 8 → s.frag? y.f = some (b, g, f) →
    let late := y.since.toNat + 1000000 ≤ s.gtime.toNat
    let got := fun (u : State) (x : Reply) => u.awaits = [] ∧ { u with blocks := s.blocks, awaits := s.awaits } = s ∧
      ∃ b' g', u.frag? y.f = some (b', g', { f with st := .running, reply := some x, age := s.cycle })
    (∀ x, g.stop = none ∨ y.ev = none ∨ x = .ok → ∃ u, exec (.hostAnswer id x) s = .next u ∧ got u (.host x)) ∧
    (g.stop = none ∨ y.ev = none → late → ∃ u, exec (.hostAccessTimeout id) s = .next u ∧ got u .timeout) ∧
    ∀ z ev, g.stop = some z → classOf z.ev.cause = 0 → y.ev = some ev → classOf ev.cause ≠ 0 →
      let fails := fun (i : Instr) (code : W32) => ∃ u b' g' z', exec i s = .next u ∧ u.awaits = [] ∧ u.group? y.f.bid y.f.gid = some (b', g') ∧
        g'.stop = some z' ∧ z'.fid = y.f.fid ∧ z'.pc = f.pc ∧ z'.ev = { ev with code := code }
      fails (.hostAnswer id .error) ev.code ∧ (late → fails (.hostAccessTimeout id) 1)

/-- R12, R20, R302, R312, R401 to R410: the miller. A cold reset is bring-up anew, with the waiting firmware where its
signature and rollback number are accepted; where the flash's image is not, step 2 holds the device, which reports it. A warm
reset keeps time, firmware, measurements and limits; without power nothing else is left. The host's own memory is no part of
any reset. Limits slow or stop stones and end, measurements extend, and nothing else changes. The model's choices: `$gtime`, the cycle count
and the epoch are 0 after a cold reset (assumption 5), what a warm reset keeps (assumption 32), and `$gtime` stays at
2^64 − 1 where an adjustment would pass it (assumption 34). -/
def Obligations.ResetsAndLimits : Prop := ∀ s,
  (let ok := fun (f : Firmware) => Config.slhVerify Config.firmwareKey (fwBytes f) f.sig = true ∧ s.fuse.toNat ≤ f.rollback.toNat
   let held := hostBytesOf s
   let taken := ok s.firmware ∨ ∃ f, s.waiting = some f ∧ ok f
   (∃ u, exec .coldReset s = .next u ∧
     { u with agenda := [], turnNo := 0, nextId := 0, firmware := factoryFirmware, fuse := 0, meas := bringUpMeas factoryFirmware,
              mem := [], hostFails := none, heldStep := none, felmirOut := [], waiting := none } = State.reset ∧
     u.mem = held ∧ u.hostFails = s.hostFails ∧
     (taken → u.heldStep = none ∧ u.felmirOut = [] ∧ u.waiting = none ∧ u.meas = bringUpMeas u.firmware ∧
       (∀ f, s.waiting = some f → ok f → u.firmware = f ∧ u.fuse = f.rollback) ∧
       ((s.waiting = none ∨ ∃ f, s.waiting = some f ∧ ¬ok f) → u.firmware = s.firmware ∧ u.fuse = s.fuse)) ∧
     (¬taken → u.heldStep = some 2 ∧ u.felmirOut = [.bringUp 2] ∧ u.waiting = s.waiting ∧ u.firmware = s.firmware ∧ u.fuse = s.fuse ∧
       u.meas = (bringUpMeas s.firmware).take 1 ++ List.replicate 7 0)) ∧
   (∃ u, exec .warmReset s = .next u ∧ u = { State.reset with agenda := s.agenda, turnNo := s.turnNo, nextId := s.nextId, powered := s.powered,
                                                              cycle := s.cycle, gtime := s.gtime, fuse := s.fuse, firmware := s.firmware,
                                                              waiting := s.waiting, meas := s.meas, slow := s.slow, coolSlow := s.coolSlow,
                                                              stopped := s.stopped, mem := held, hostFails := s.hostFails,
                                                              heldStep := s.heldStep.filter fun k => decide (k ≤ 2) }) ∧
   ∀ die, die < 4 → ∀ i ∈ [Instr.modulePowerLoss, .thermalShutdown die], ∃ u, exec i s = .next u ∧
     u = { State.reset with agenda := s.agenda, turnNo := s.turnNo, nextId := s.nextId, powered := false, firmware := s.firmware,
                            fuse := s.fuse, waiting := s.waiting, meas := List.replicate 8 0, mem := held, hostFails := s.hostFails }) ∧
  (∀ f, ∃ u, exec (.firmwareUpdate f) s = .next u ∧ u = { s with waiting := some f }) ∧
  (∀ die, die < 4 →
    (∃ u, exec (.powerLimit die) s = .next u ∧ { u with slow := s.slow } = s ∧ ∀ d, d ∈ u.slow ↔ d ∈ s.slow ∨ d = die) ∧
    (∃ u, exec (.junctionCritical die) s = .next u ∧ { u with stopped := s.stopped, rasst := s.rasst } = s ∧ u.rasst = s.rasst ||| 8 ∧
      ∀ d, d ∈ u.stopped ↔ d ∈ s.stopped ∨ d = die) ∧
    (die ∈ s.stopped → ∃ u, exec (.junctionRecover die) s = .next u ∧ { u with stopped := s.stopped } = s ∧ ∀ d, d ∈ u.stopped ↔ d ∈ s.stopped ∧ d ≠ die)) ∧
  (∀ k, (∃ u, exec (.coolantLimit k) s = .next u ∧ { u with coolSlow := s.coolSlow } = s ∧ ∀ d, d ∈ u.coolSlow ↔ d ∈ s.coolSlow ∨ d = k) ∧
    (k ∈ s.coolSlow → ∃ u, exec (.coolantRecovery k) s = .next u ∧ { u with coolSlow := s.coolSlow } = s ∧ ∀ d, d ∈ u.coolSlow ↔ d ∈ s.coolSlow ∧ d ≠ k)) ∧
  (∀ r x h, r < s.meas.length → (r = 2 ∧ (∃ pa n, x = .kernel pa n ∧ h = sha256 ((List.range n).map fun i => s.rd (pa + i))) ∨
      3 ≤ r ∧ r < 8 ∧ x = .digest h) → ∃ u, exec (.measureRequest r x) s = .next u ∧ { u with meas := s.meas } = s ∧
    u.meas[r]? = some (sha256 (beBytes 32 (s.meas.getD r 0).toNat ++ beBytes 32 h.toNat)) ∧ ∀ k, k ≠ r → u.meas[k]? = s.meas[k]?) ∧
  (∀ n, ∃ u b, exec (.attestationRequest n) s = .next u ∧ u = { s with felmirOut := s.felmirOut ++ [.report (b ++ (Config.slhSign b).toList)] }) ∧
  (∀ k, k < 8 → ∃ u, exec (.hbmRefresh k) s = .next u ∧ u = s) ∧
  (s.wf → s.window ≠ s.gtime.toNat / (fld s.rasth.toNat 32 16 * 1000000) → ∃ u, exec .rasWindowRestart s = .next u ∧
    u.window = s.gtime.toNat / (fld s.rasth.toNat 32 16 * 1000000) ∧ { u with rasce := s.rasce, window := s.window } = s ∧
    ∀ d, d < 4 → (sget 0 u.rasce d).toNat = (sget 0 s.rasce d).toNat / 2 ^ 32 * 2 ^ 32) ∧
  ∀ x, ∃ u, exec (.ptpEventMessage x) s = .next u ∧ { u with gtime := s.gtime } = s ∧ u.gtime.toNat = min (s.gtime.toNat + x.toNat) (2 ^ 64 - 1)

/-- R38, R41, R42, R73, R79, R81, R85, R100, R105, R110, R113, R141, R174: a fragment enters the clause its PC names once the flags of the
header's wait mask are clear and no instruction without a flag is in flight in its lanes, and stops where the header refuses it. A starved fragment is marked. Scout prefetches,
translations and the sweep of stamps change no register and no byte of memory; an evicted L1 line's dirty bytes reach their home,
and no other line is touched but those that MX units tie to it; an evicted RDC line is gone and nothing else changes. -/
def Obligations.ClausesAndCaches : Prop :=
  (∀ r s b g f x cached words, entering s r = some (b, g, f) → noSlot f.pc = false →
    reach s b.mill b.ctx .fetch false (s.detBlock b) ((lineAddr f.pc).toNat % 2 ^ 56) = .ok x →
    (if cached = true then ∃ y, iFind s b.mill g.stone (lineOf x.pa) = some y ∧ y.words = words
     else s.poison = [] ∧ codeRoom s b.mill none (lineOf x.pa) = true ∧ lineTorn s (lineOf x.pa) = false ∧ words = (List.range 8).map fun i => BitVec.ofNat 64 (s.rdNat (64 * lineOf x.pa + 8 * i) 8)) →
    let h := words.headD 0
    (headerRefuses h f.pc = false →
      (f.mid = false → (∀ i, i < 12 → bitOf h.toNat i = true → g.flag i = 0) ∧
        ∀ o ∈ s.opsOf r.bid r.gid, o.aside = false → o.hold &&& f.held = 0) →
      ∃ u b' g', exec (.clauseEntry r cached) s = .next u ∧ (∀ a, u.rd a = s.rd a) ∧ { g' with frags := g.frags } = g ∧
        u.frag? r = some (b', g', { f with line := some { va := lineAddr f.pc, words := words }, mid := false, age := if cached = true then f.age else s.cycle }) ∧
        (cached = false → ∃ y, codeFind u b.mill none (lineOf x.pa) = some y ∧ y.words = words)) ∧
    (headerRefuses h f.pc = true → ∃ u b' g' z, exec (.clauseEntry r cached) s = .next u ∧ u.group? r.bid r.gid = some (b', g') ∧ g'.stop = some z ∧
      z.fid = r.fid ∧ z.pc = f.pc ∧ z.ev.cause = 0x02 ∧ z.ev.code = 1 ∧ g'.frags = g.frags)) ∧
  (∀ r s b g f, s.frag? r = some (b, g, f) → groupRuns s b g = true → f.st = .running → f.last + 256 ≤ s.cycle → f.starved = false →
    ∃ u b' g', exec (.starvationIssue r) s = .next u ∧ u.frag? r = some (b', g', { f with starved := true }) ∧ { u with blocks := s.blocks } = s) ∧
  (∀ r va s b g f, entering s r = some (b, g, f) → b.kernel.scout = true → g.handler = none → scoutWaits s b g f = true →
    scoutReaches va.toNat r scoutReach (scoutStart s r) f.pc = true → va.toNat < 2 ^ 56 →
    ∃ u b' g', exec (.scoutPrefetch r va) s = .next u ∧ (∀ a, u.rd a = s.rd a) ∧ u.group? r.bid r.gid = some (b', g') ∧ { g' with ctr := g.ctr } = g ∧
      { b' with groups := b.groups } = b) ∧
  (∀ c die va s, (s.ctx c).present = true → (s.ctx c).leaving = false → die < 4 → ∃ u, exec (.pageWalkComplete c die va) s = .next u ∧ { u with tlb := s.tlb } = s ∧
    ∀ x, walk s c va.toNat = .ok x → s.tlb.length < 16384 → ∃ y ∈ u.tlb, y.mill = none ∧ y.die = die ∧ y.ctx = c ∧ y.va.toNat / 2 ^ y.bits = va.toNat % 2 ^ 56 / 2 ^ y.bits) ∧
  (∀ mill line s x, s.wf → s.watches = [] → s.hostDirty = [] → L1Kept s → l1Find s mill line = some x → ∃ u, exec (.l1Eviction mill line) s = .next u ∧
    l1Find u mill line = none ∧ (∀ a, lineOf a = line → u.rd a = if x.isDirty a = true then (x.cell a).getD 0 else s.rd a) ∧
    (x.mates = [] → (∀ k, k ≠ line → l1Find u mill k = l1Find s mill k) ∧ ∀ a, lineOf a ≠ line → u.rd a = s.rd a)) ∧
  (∀ die line s x, rdcFind s die line = some x → ∃ u, exec (.rdcEviction die line) s = .next u ∧ { u with rdc := s.rdc } = s ∧ rdcFind u die line = none ∧
    ∀ k, k ≠ line → rdcFind u die k = rdcFind s die k) ∧
  ∀ line s, s.wf → sget 0 s.stamps line ≠ 0 → (sget 0 s.stamps line).extractLsb' 56 8 ≠ s.epoch → ∃ u, exec (.stampSweep line) s = .next u ∧
    { u with stamps := s.stamps } = s ∧ ∀ k, u.stamp k = s.stamp k

/-! ### Conflict checks -/

/-- R138, R139, R142: a stamp catches every race on a sector: after a write of one block, any access of another conflicts;
after a read of one, another's write conflicts; plain and atomic accesses conflict; and one block alone never conflicts
with itself. The same of a scratchpad tag and groups. -/
def Obligations.RacesDetected : Prop :=
  (∀ t b sec k t', sec ≠ 0 → stampCheck t b sec k = .ok t' →
    (k = .write → ∀ c k', c ≠ b → ∃ x, stampCheck t' c sec k' = .error x) ∧
    (k = .read → ∀ c, c ≠ b → ∃ x, stampCheck t' c sec .write = .error x) ∧
    (k = .atomic → ∀ c k', k' ≠ .atomic → ∃ x, stampCheck t' c sec k' = .error x)) ∧
  (∀ b (ks : List (Bool × BitVec 4)), ∃ t, ks.foldlM (fun t p => stampCheck t b p.2 (if p.1 then .write else .read))
    (stampOf 0 0) = .ok t) ∧
  (∀ e (t : Stamp), t.wb < 2 ^ 20 → t.rb < 2 ^ 20 → stampOf e (t.word e) = t) ∧
  (∀ e e' (t : Stamp), e' ≠ e → stampOf e' (t.word e) = stampOf e' 0) ∧
  ∀ x g w y, g < 32 → tagStep x g w = some y → ∀ h, h < 32 → h ≠ g →
    (w = true → ∀ w', tagStep y h w' = none) ∧ (w = false → tagStep y h true = none) ∧ tagStep y g w = some y


/-! ### The machine as a whole -/

/-- R174 to R185: every well-formed instruction is what its own words decode to, whatever follows them; and every word
decodes to a well-formed instruction, which is no event and, but for `NOP`, has that word, with its literal where it
takes one, as its words. `NOP` ignores every field but its opcode. -/
def Obligations.EncodingsAgree : Prop :=
  (∀ i : Instr, i.wf = true → i.isEvent = false → (∀ w, i ≠ .reservedEmulable w ∧ i ≠ .reservedInvalid w) →
    ∃ w rest, encode i = w :: rest ∧ rest.length ≤ 1 ∧ ∀ lit, decodeSlot 14 w (rest.head?.or lit) = i) ∧
  ∀ k w lit, k ≤ 14 →
    (decodeSlot k w lit).wf = true ∧ (decodeSlot k w lit).isEvent = false ∧
      (decodeSlot k w lit = .nop ∨ encode (decodeSlot k w lit) = [w] ∨ ∃ x, lit = some x ∧ encode (decodeSlot k w lit) = [w, x])

/-- The canonical form of memory is kept by every step, the model's own moves included. -/
def Obligations.StepKeepsMemory : Prop := ∀ s t, Memory.wf s.mem → step s = .next t → Memory.wf t.mem

/-- Every step keeps the canonical forms of all storage, each L1 line once, and the ids of blocks, launches, fragments and
tokens apart. -/
def Obligations.StepKeepsForm : Prop := ∀ s t, s.kept → step s = .next t → t.kept

/-- R46, R307, R378, R401, R403: reset. Every context is absent with every register of its page 0, memory reads 0, nothing
runs, SLT0 is 0, SLPER 1, STCOV and RASCE 0, RASTH 0x000003E800041000; and what every step keeps holds. The reset values
of the model's own choice are those of assumption 5. -/
def Obligations.ResetState : Prop :=
  let s := State.reset
  s.kept ∧ (∀ c, (s.ctx c).present = false ∧ ∀ o, (s.ctx c).reg o = 0) ∧ (∀ a, s.rd a = 0) ∧
    s.blocks = [] ∧ s.launches = [] ∧ s.ops = [] ∧ s.watches = [] ∧ s.leats = [] ∧ s.l1 = [] ∧ s.rdc = [] ∧ s.icache = [] ∧ s.tlb = [] ∧
    s.slt0 = 0 ∧ s.slper = 1 ∧ (∀ d, sget 0 s.stcov d = 0) ∧ (∀ d, sget 0 s.rasce d = 0) ∧ s.rasth = 0x000003E800041000 ∧ s.rasst = 0 ∧
    s.epoch = 0 ∧ (∀ x, sget 0 s.stamps x = 0) ∧ s.powered = true ∧ s.heldStep = none ∧ s.hostCopies = [] ∧ s.hostDirty = [] ∧ s.poison = [] ∧ s.errs = []

/-- R37, R79, R82, R179: a step that issues a fragment runs the instruction that the word at its PC decodes to, with the
map slots the group may use and the next slot as its literal where the clause has one, and goes on after it; then the
step adds what the stone has issued, how long its map datapath is taken (R18, R227), the issue counters of the group, and the
cycle of the fragment's last issue. An
instruction that has to wait does not issue: such a move cannot come about. An instruction placed by `withFetchWord` is the next step's. -/
def Obligations.StepRunsDecoded : Prop :=
  (∀ s r rest b g f l, s.agenda = .issue r :: rest → s.powered = true → s.heldStep = none → s.errs = [] →
    let s1 : State := { s with agenda := rest }
    let x : Iss := issOf r f l
    s1.frag? r = some (b, g, f) → f.line = some l → groupRuns s1 b g = true → retries f.st = true → dieOf b.mill ∉ s.stopped →
    mapTaken s1 b g (instrOf b g x) = false → mayIssue s1 b g r f (issueMark b g f x) = true →
    x.word = l.slot (slotIndex f.pc) ∧ x.pc = f.pc ∧ x.lit = (if slotIndex f.pc + 1 < l.count then some (l.slot (slotIndex f.pc + 1)) else none) ∧
    x.next = nextPc l f.pc (slotsTaken x.word x.lit) ∧
    (∀ t, exec (decodeSlot (slotsOf b g) x.word x.lit) { s1 with cur := some x } = .next t → t.cur = none → stillBlocked f t r = false →
      ∃ u, step s = .next u ∧ { u with issued := t.issued, blocks := t.blocks, mapFree := t.mapFree } = t ∧
        (u.mapFree = if mapSources (instrOf b g x) = 0 then t.mapFree else
          sset 0 t.mapFree (stoneKey b.mill g.stone) (s.cycle + mapSources (instrOf b g x) * max 1 (b.width / 16))) ∧ u.issued = t.issued ++ [issueMark b g f x] ∧
        (∀ bid, bid ≠ r.bid → u.block? bid = t.block? bid) ∧
        ∀ b1 g1 f1, t.frag? r = some (b1, g1, f1) → ∃ b2 g2, u.frag? r = some (b2, g2, { f1 with last := s.cycle, starved := false }) ∧
          { b2 with groups := b1.groups } = b1 ∧ { g2 with frags := g1.frags, ctr := g1.ctr } = g1 ∧
          (∀ fid, fid ≠ r.fid → g2.frag? fid = g1.frag? fid) ∧ ∀ k, k ≠ 0 → k ≠ 5 → sget 0 g2.ctr k = sget 0 g1.ctr k) ∧
    ∀ t, exec (decodeSlot (slotsOf b g) x.word x.lit) { s1 with cur := some x } = .next t → t.cur ≠ none ∨ stillBlocked f t r = true →
      step s = .fault .notEnabled) ∧
  ∀ nbits w i, decodeTableWord nbits w = some i → ∃ r b g f l,
    (State.reset.withFetchWord nbits w).agenda = [.issue r] ∧ (State.reset.withFetchWord nbits w).frag? r = some (b, g, f) ∧
    f.line = some l ∧ instrOf b g (issOf r f l) = i

/-- Words the manual writes out decode to the instructions they stand for, with the literal of the L-form, and words of
the three fates of R173 by an example each: a reserved hint, a map slot the kernel does not declare, an opcode point that is
reserved-invalid. -/
def Obligations.DecodesSpecWords : Prop :=
  decodeSlot 1 0x4C00400000004F22 none = .shl Guard.always .n32 (.v 2) (.v 0) (.imm 2) ∧
  decodeSlot 2 0x0000841000A08F42 none = .ffma Guard.always false .rn (.v 4) (.reg (.v 5)) (.map 2 8) (.reg (.v 4)) ∧
  decodeSlot 1 0x0000841000A08F42 none = .reservedEmulable 0x0000841000A08F42 ∧
  decodeSlot 0 0x8C0000000000CF32 (some 0x3F800000) = .mov Guard.always .n32 (.v 6) (.lit 0x3F800000) ∧
  decodeSlot 0 0x4401400000644F30 none = .icmp Guard.always false .lt .i32 2 (.reg (.v 3)) (.imm 10) ∧
  decodeSlot 0 0x01FFFFFFFEE01201 none = .bra { idx := 2, neg := true } (-9) ∧
  decodeSlot 0 0x1D0060040020EF21 none = .bits3 Guard.always 0xE8 (.v 7) (.v 1) (.v 2) (.v 3) ∧
  decodeSlot 0 0x0008600000406F58 none = .cvt Guard.always false .rn .e4m3 .f32 (.v 3) 2 (.reg (.v 2)) 0 ∧
  decodeSlot 3 0x0000001418806F60 none = .mbind Guard.always .A 3 (.s 4) (.v 10) ∧
  decodeSlot 0 0x6A01000C18800F73 none = .stRel Guard.always .A .w64 .system (.s 4) 8 (.reg (.v 6)) ∧
  decodeSlot 0 0x6F41C01800414F84 none = .atom Guard.always .A .cas .b64 .ar .system (.v 10) (.v 2) (.v 12) (.v 14) ∧
  decodeSlot 0 0x0200001218804F96 none = .qpushNb 2 (.s 4) (.v 9) ∧
  decodeSlot 0 0x0202200600400FA8 none = .xbegin .fadd (.v 2) (.v 3) 1 2 ∧
  decodeSlot 0 0x5802000A00400FB8 none = .stf Guard.always .A false .w32 .domain (.v 2) 16 (.v 5) ∧
  decodeSlot 0 0x0000000003C0CFC1 none = .swr Guard.always 6 (.v 30) ∧
  decodeSlot 0 0x0C none = .reservedHint 0x0C ∧ decodeSlot 0 0xF00 none = .nop ∧ decodeSlot 0 0xFF0 none = .reservedInvalid 0xFF0
end

