-- ==== Sys2Proof/Laws/Exec.lean ====
section
/-! SUPPORT. What `exec` is of each instruction: its meaning, by its own name. -/

namespace Sys2Proof.Machine

@[simp] theorem exec_nop (s : State) : exec .nop s = execNop s := rfl
@[simp] theorem exec_bra (s : State) : ∀ g disp, exec (.bra g disp) s = execBra g disp s := fun _ _ => rfl
@[simp] theorem exec_brx (s : State) : ∀ g a, exec (.brx g a) s = execBrx g a s := fun _ _ => rfl
@[simp] theorem exec_call (s : State) : ∀ g d disp, exec (.call g d disp) s = execCall g d disp s := fun _ _ _ => rfl
@[simp] theorem exec_ret (s : State) : ∀ g a, exec (.ret g a) s = execRet g a s := fun _ _ => rfl
@[simp] theorem exec_exit (s : State) : ∀ g, exec (.exit g) s = execExit g s := fun _ => rfl
@[simp] theorem exec_tok (s : State) : ∀ disp, exec (.tok disp) s = execTok disp s := fun _ => rfl
@[simp] theorem exec_join (s : State) : exec .join s = execJoin s := rfl
@[simp] theorem exec_yield (s : State) : exec .yield s = execYield s := rfl
@[simp] theorem exec_sleepRel (s : State) : ∀ a, exec (.sleepRel a) s = execSleepRel a s := fun _ => rfl
@[simp] theorem exec_sleepAbs (s : State) : ∀ a, exec (.sleepAbs a) s = execSleepAbs a s := fun _ => rfl
@[simp] theorem exec_trap (s : State) : ∀ g code, exec (.trap g code) s = execTrap g code s := fun _ _ => rfl
@[simp] theorem exec_bkpt (s : State) : ∀ g, exec (.bkpt g) s = execBkpt g s := fun _ => rfl
@[simp] theorem exec_reservedHint (s : State) : ∀ w, exec (.reservedHint w) s = execReservedHint w s := fun _ => rfl
@[simp] theorem exec_reservedEmulable (s : State) : ∀ w, exec (.reservedEmulable w) s = execReservedEmulable w s := fun _ => rfl
@[simp] theorem exec_reservedInvalid (s : State) : ∀ w, exec (.reservedInvalid w) s = execReservedInvalid w s := fun _ => rfl
@[simp] theorem exec_iadd (s : State) : ∀ g all t d a b, exec (.iadd g all t d a b) s = execIadd g all t d a b s := fun _ _ _ _ _ _ => rfl
@[simp] theorem exec_iadd3 (s : State) : ∀ g all t d a b c, exec (.iadd3 g all t d a b c) s = execIadd3 g all t d a b c s := fun _ _ _ _ _ _ _ => rfl
@[simp] theorem exec_isub (s : State) : ∀ g all t d a b, exec (.isub g all t d a b) s = execIsub g all t d a b s := fun _ _ _ _ _ _ => rfl
@[simp] theorem exec_imul (s : State) : ∀ g all t d a b, exec (.imul g all t d a b) s = execImul g all t d a b s := fun _ _ _ _ _ _ => rfl
@[simp] theorem exec_imulh (s : State) : ∀ g all t d a b, exec (.imulh g all t d a b) s = execImulh g all t d a b s := fun _ _ _ _ _ _ => rfl
@[simp] theorem exec_imad (s : State) : ∀ g all t d a b c, exec (.imad g all t d a b c) s = execImad g all t d a b c s := fun _ _ _ _ _ _ _ => rfl
@[simp] theorem exec_imin (s : State) : ∀ g all t d a b, exec (.imin g all t d a b) s = execImin g all t d a b s := fun _ _ _ _ _ _ => rfl
@[simp] theorem exec_imax (s : State) : ∀ g all t d a b, exec (.imax g all t d a b) s = execImax g all t d a b s := fun _ _ _ _ _ _ => rfl
@[simp] theorem exec_iabs (s : State) : ∀ g all t d a, exec (.iabs g all t d a) s = execIabs g all t d a s := fun _ _ _ _ _ => rfl
@[simp] theorem exec_ineg (s : State) : ∀ g all t d a, exec (.ineg g all t d a) s = execIneg g all t d a s := fun _ _ _ _ _ => rfl
@[simp] theorem exec_lea (s : State) : ∀ g sgn sh d a b, exec (.lea g sgn sh d a b) s = execLea g sgn sh d a b s := fun _ _ _ _ _ _ => rfl
@[simp] theorem exec_lop (s : State) : ∀ g op b64 d a b, exec (.lop g op b64 d a b) s = execLop g op b64 d a b s := fun _ _ _ _ _ _ => rfl
@[simp] theorem exec_bits3 (s : State) : ∀ g f d a b c, exec (.bits3 g f d a b c) s = execBits3 g f d a b c s := fun _ _ _ _ _ _ => rfl
@[simp] theorem exec_shl (s : State) : ∀ g t d a b, exec (.shl g t d a b) s = execShl g t d a b s := fun _ _ _ _ _ => rfl
@[simp] theorem exec_shr (s : State) : ∀ g t d a b, exec (.shr g t d a b) s = execShr g t d a b s := fun _ _ _ _ _ => rfl
@[simp] theorem exec_sar (s : State) : ∀ g t d a b, exec (.sar g t d a b) s = execSar g t d a b s := fun _ _ _ _ _ => rfl
@[simp] theorem exec_fsh (s : State) : ∀ g left clamp d a b c, exec (.fsh g left clamp d a b c) s = execFsh g left clamp d a b c s := fun _ _ _ _ _ _ _ => rfl
@[simp] theorem exec_bfe (s : State) : ∀ g t d a b, exec (.bfe g t d a b) s = execBfe g t d a b s := fun _ _ _ _ _ => rfl
@[simp] theorem exec_bfi (s : State) : ∀ g t d a b c, exec (.bfi g t d a b c) s = execBfi g t d a b c s := fun _ _ _ _ _ _ => rfl
@[simp] theorem exec_bysel (s : State) : ∀ g d a b c, exec (.bysel g d a b c) s = execBysel g d a b c s := fun _ _ _ _ _ => rfl
@[simp] theorem exec_popc (s : State) : ∀ g t d a, exec (.popc g t d a) s = execPopc g t d a s := fun _ _ _ _ => rfl
@[simp] theorem exec_clz (s : State) : ∀ g t d a, exec (.clz g t d a) s = execClz g t d a s := fun _ _ _ _ => rfl
@[simp] theorem exec_brev (s : State) : ∀ g t d a, exec (.brev g t d a) s = execBrev g t d a s := fun _ _ _ _ => rfl
@[simp] theorem exec_icmp (s : State) : ∀ g all cc t pd a b, exec (.icmp g all cc t pd a b) s = execIcmp g all cc t pd a b s := fun _ _ _ _ _ _ _ => rfl
@[simp] theorem exec_sel (s : State) : ∀ g all t d a b pc, exec (.sel g all t d a b pc) s = execSel g all t d a b pc s := fun _ _ _ _ _ _ _ => rfl
@[simp] theorem exec_mov (s : State) : ∀ g t d a, exec (.mov g t d a) s = execMov g t d a s := fun _ _ _ _ => rfl
@[simp] theorem exec_movi (s : State) : ∀ g t d x, exec (.movi g t d x) s = execMovi g t d x s := fun _ _ _ _ => rfl
@[simp] theorem exec_plop (s : State) : ∀ g f pd pa pb pc, exec (.plop g f pd pa pb pc) s = execPlop g f pd pa pb pc s := fun _ _ _ _ _ _ => rfl
@[simp] theorem exec_pmovPack (s : State) : ∀ g d, exec (.pmovPack g d) s = execPmovPack g d s := fun _ _ => rfl
@[simp] theorem exec_pmovUnpack (s : State) : ∀ g a b, exec (.pmovUnpack g a b) s = execPmovUnpack g a b s := fun _ _ _ => rfl
@[simp] theorem exec_pmovCopy (s : State) : ∀ g pd pa, exec (.pmovCopy g pd pa) s = execPmovCopy g pd pa s := fun _ _ _ => rfl
@[simp] theorem exec_poll (s : State) : ∀ g op pa, exec (.poll g op pa) s = execPoll g op pa s := fun _ _ _ => rfl
@[simp] theorem exec_maskRd (s : State) : ∀ g d, exec (.maskRd g d) s = execMaskRd g d s := fun _ _ => rfl
@[simp] theorem exec_maskRdHeld (s : State) : ∀ g d, exec (.maskRdHeld g d) s = execMaskRdHeld g d s := fun _ _ => rfl
@[simp] theorem exec_maskWr (s : State) : ∀ g op a, exec (.maskWr g op a) s = execMaskWr g op a s := fun _ _ _ => rfl
@[simp] theorem exec_lanex (s : State) : ∀ g m b64 d a b, exec (.lanex g m b64 d a b) s = execLanex g m b64 d a b s := fun _ _ _ _ _ _ => rfl
@[simp] theorem exec_fadd (s : State) : ∀ g all m d a b, exec (.fadd g all m d a b) s = execFadd g all m d a b s := fun _ _ _ _ _ _ => rfl
@[simp] theorem exec_fmul (s : State) : ∀ g all m d a b, exec (.fmul g all m d a b) s = execFmul g all m d a b s := fun _ _ _ _ _ _ => rfl
@[simp] theorem exec_ffma (s : State) : ∀ g all m d a b c, exec (.ffma g all m d a b c) s = execFfma g all m d a b c s := fun _ _ _ _ _ _ _ => rfl
@[simp] theorem exec_fmin (s : State) : ∀ g all k d a b, exec (.fmin g all k d a b) s = execFmin g all k d a b s := fun _ _ _ _ _ _ => rfl
@[simp] theorem exec_fmax (s : State) : ∀ g all k d a b, exec (.fmax g all k d a b) s = execFmax g all k d a b s := fun _ _ _ _ _ _ => rfl
@[simp] theorem exec_fcmp (s : State) : ∀ g all cc pd a b, exec (.fcmp g all cc pd a b) s = execFcmp g all cc pd a b s := fun _ _ _ _ _ _ => rfl
@[simp] theorem exec_fclass (s : State) : ∀ g all d a, exec (.fclass g all d a) s = execFclass g all d a s := fun _ _ _ _ => rfl
@[simp] theorem exec_fclassTest (s : State) : ∀ g all pd a b, exec (.fclassTest g all pd a b) s = execFclassTest g all pd a b s := fun _ _ _ _ _ => rfl
@[simp] theorem exec_hadd2 (s : State) : ∀ g all h m d a b, exec (.hadd2 g all h m d a b) s = execHadd2 g all h m d a b s := fun _ _ _ _ _ _ _ => rfl
@[simp] theorem exec_hmul2 (s : State) : ∀ g all h m d a b, exec (.hmul2 g all h m d a b) s = execHmul2 g all h m d a b s := fun _ _ _ _ _ _ _ => rfl
@[simp] theorem exec_hfma2 (s : State) : ∀ g all h m d a b c, exec (.hfma2 g all h m d a b c) s = execHfma2 g all h m d a b c s := fun _ _ _ _ _ _ _ _ => rfl
@[simp] theorem exec_frcp (s : State) : ∀ g all m d a, exec (.frcp g all m d a) s = execFrcp g all m d a s := fun _ _ _ _ _ => rfl
@[simp] theorem exec_frsq (s : State) : ∀ g all m d a, exec (.frsq g all m d a) s = execFrsq g all m d a s := fun _ _ _ _ _ => rfl
@[simp] theorem exec_fsqrt (s : State) : ∀ g all m d a, exec (.fsqrt g all m d a) s = execFsqrt g all m d a s := fun _ _ _ _ _ => rfl
@[simp] theorem exec_fexp2 (s : State) : ∀ g all d a, exec (.fexp2 g all d a) s = execFexp2 g all d a s := fun _ _ _ _ => rfl
@[simp] theorem exec_flog2 (s : State) : ∀ g all d a, exec (.flog2 g all d a) s = execFlog2 g all d a s := fun _ _ _ _ => rfl
@[simp] theorem exec_fsin (s : State) : ∀ g all d a, exec (.fsin g all d a) s = execFsin g all d a s := fun _ _ _ _ => rfl
@[simp] theorem exec_fcos (s : State) : ∀ g all d a, exec (.fcos g all d a) s = execFcos g all d a s := fun _ _ _ _ => rfl
@[simp] theorem exec_ftanh (s : State) : ∀ g all d a, exec (.ftanh g all d a) s = execFtanh g all d a s := fun _ _ _ _ => rfl
@[simp] theorem exec_cvt (s : State) : ∀ g all m dt st d j a ix, exec (.cvt g all m dt st d j a ix) s = execCvt g all m dt st d j a ix s := fun _ _ _ _ _ _ _ _ _ => rfl
@[simp] theorem exec_qnt (s : State) : ∀ g m f d a, exec (.qnt g m f d a) s = execQnt g m f d a s := fun _ _ _ _ _ => rfl
@[simp] theorem exec_dqnt (s : State) : ∀ g f d a, exec (.dqnt g f d a) s = execDqnt g f d a s := fun _ _ _ _ => rfl
@[simp] theorem exec_rand (s : State) : ∀ g k d, exec (.rand g k d) s = execRand g k d s := fun _ _ _ => rfl
@[simp] theorem exec_mbind (s : State) : ∀ g fl k a b, exec (.mbind g fl k a b) s = execMbind g fl k a b s := fun _ _ _ _ _ => rfl
@[simp] theorem exec_mput (s : State) : ∀ g fl k a b c, exec (.mput g fl k a b c) s = execMput g fl k a b c s := fun _ _ _ _ _ _ => rfl
@[simp] theorem exec_mget (s : State) : ∀ g fl d k a, exec (.mget g fl d k a) s = execMget g fl d k a s := fun _ _ _ _ _ => rfl
@[simp] theorem exec_mgetFmt (s : State) : ∀ g fl d k, exec (.mgetFmt g fl d k) s = execMgetFmt g fl d k s := fun _ _ _ _ => rfl
@[simp] theorem exec_mfree (s : State) : ∀ k, exec (.mfree k) s = execMfree k s := fun _ => rfl
@[simp] theorem exec_ld (s : State) : ∀ g fl t sc d a off, exec (.ld g fl t sc d a off) s = execLd g fl t sc d a off s := fun _ _ _ _ _ _ _ => rfl
@[simp] theorem exec_ldAcq (s : State) : ∀ g fl t sc d a off, exec (.ldAcq g fl t sc d a off) s = execLdAcq g fl t sc d a off s := fun _ _ _ _ _ _ _ => rfl
@[simp] theorem exec_st (s : State) : ∀ g fl t sc a off b, exec (.st g fl t sc a off b) s = execSt g fl t sc a off b s := fun _ _ _ _ _ _ _ => rfl
@[simp] theorem exec_stRel (s : State) : ∀ g fl t sc a off b, exec (.stRel g fl t sc a off b) s = execStRel g fl t sc a off b s := fun _ _ _ _ _ _ _ => rfl
@[simp] theorem exec_mxld (s : State) : ∀ g fl f sc d a b off, exec (.mxld g fl f sc d a b off) s = execMxld g fl f sc d a b off s := fun _ _ _ _ _ _ _ _ => rfl
@[simp] theorem exec_mxst (s : State) : ∀ g fl f sc a b c, exec (.mxst g fl f sc a b c) s = execMxst g fl f sc a b c s := fun _ _ _ _ _ _ _ => rfl
@[simp] theorem exec_pref (s : State) : ∀ g sc a off, exec (.pref g sc a off) s = execPref g sc a off s := fun _ _ _ _ => rfl
@[simp] theorem exec_cwb (s : State) : ∀ g sc a off, exec (.cwb g sc a off) s = execCwb g sc a off s := fun _ _ _ _ => rfl
@[simp] theorem exec_cinv (s : State) : ∀ g sc a off, exec (.cinv g sc a off) s = execCinv g sc a off s := fun _ _ _ _ => rfl
@[simp] theorem exec_fence (s : State) : ∀ sc, exec (.fence sc) s = execFence sc s := fun _ => rfl
@[simp] theorem exec_ifence (s : State) : exec .ifence s = execIfence s := rfl
@[simp] theorem exec_lds (s : State) : ∀ g fl t d a off, exec (.lds g fl t d a off) s = execLds g fl t d a off s := fun _ _ _ _ _ _ => rfl
@[simp] theorem exec_sts (s : State) : ∀ g fl t a off b, exec (.sts g fl t a off b) s = execSts g fl t a off b s := fun _ _ _ _ _ _ => rfl
@[simp] theorem exec_ldl (s : State) : ∀ g fl t d a off, exec (.ldl g fl t d a off) s = execLdl g fl t d a off s := fun _ _ _ _ _ _ => rfl
@[simp] theorem exec_stl (s : State) : ∀ g fl t a off b, exec (.stl g fl t a off b) s = execStl g fl t a off b s := fun _ _ _ _ _ _ => rfl
@[simp] theorem exec_atom (s : State) : ∀ g fl op w o sc d a b c, exec (.atom g fl op w o sc d a b c) s = execAtom g fl op w o sc d a b c s := fun _ _ _ _ _ _ _ _ _ _ => rfl
@[simp] theorem exec_red (s : State) : ∀ g fl op w o sc a b c, exec (.red g fl op w o sc a b c) s = execRed g fl op w o sc a b c s := fun _ _ _ _ _ _ _ _ _ => rfl
@[simp] theorem exec_atoms (s : State) : ∀ g fl op w d a b c, exec (.atoms g fl op w d a b c) s = execAtoms g fl op w d a b c s := fun _ _ _ _ _ _ _ _ => rfl
@[simp] theorem exec_phinit (s : State) : ∀ a b c, exec (.phinit a b c) s = execPhinit a b c s := fun _ _ _ => rfl
@[simp] theorem exec_phregSig (s : State) : ∀ a, exec (.phregSig a) s = execPhregSig a s := fun _ => rfl
@[simp] theorem exec_phregUnsig (s : State) : ∀ a, exec (.phregUnsig a) s = execPhregUnsig a s := fun _ => rfl
@[simp] theorem exec_phregWait (s : State) : ∀ a, exec (.phregWait a) s = execPhregWait a s := fun _ => rfl
@[simp] theorem exec_phregUnwait (s : State) : ∀ a, exec (.phregUnwait a) s = execPhregUnwait a s := fun _ => rfl
@[simp] theorem exec_pharv (s : State) : ∀ pd a, exec (.pharv pd a) s = execPharv pd a s := fun _ _ => rfl
@[simp] theorem exec_phwait (s : State) : ∀ a pb, exec (.phwait a pb) s = execPhwait a pb s := fun _ _ => rfl
@[simp] theorem exec_phtest (s : State) : ∀ pd a pb, exec (.phtest pd a pb) s = execPhtest pd a pb s := fun _ _ _ => rfl
@[simp] theorem exec_qinit (s : State) : ∀ a b c, exec (.qinit a b c) s = execQinit a b c s := fun _ _ _ => rfl
@[simp] theorem exec_qpush (s : State) : ∀ a b, exec (.qpush a b) s = execQpush a b s := fun _ _ => rfl
@[simp] theorem exec_qpushNb (s : State) : ∀ pd a b, exec (.qpushNb pd a b) s = execQpushNb pd a b s := fun _ _ _ => rfl
@[simp] theorem exec_qpop (s : State) : ∀ d a, exec (.qpop d a) s = execQpop d a s := fun _ _ => rfl
@[simp] theorem exec_qpopNb (s : State) : ∀ d pc a, exec (.qpopNb d pc a) s = execQpopNb d pc a s := fun _ _ _ => rfl
@[simp] theorem exec_tdef (s : State) : ∀ h a b, exec (.tdef h a b) s = execTdef h a b s := fun _ _ _ => rfl
@[simp] theorem exec_tdefAtt (s : State) : ∀ h a b c, exec (.tdefAtt h a b c) s = execTdefAtt h a b c s := fun _ _ _ _ => rfl
@[simp] theorem exec_tdefUndef (s : State) : ∀ h, exec (.tdefUndef h) s = execTdefUndef h s := fun _ => rfl
@[simp] theorem exec_regxAcq (s : State) : exec .regxAcq s = execRegxAcq s := rfl
@[simp] theorem exec_regxRel (s : State) : exec .regxRel s = execRegxRel s := rfl
@[simp] theorem exec_dbarDev (s : State) : exec .dbarDev s = execDbarDev s := rfl
@[simp] theorem exec_dbarDom (s : State) : exec .dbarDom s = execDbarDom s := rfl
@[simp] theorem exec_cpy (s : State) : ∀ g fl n, exec (.cpy g fl n) s = execCpy g fl n s := fun _ _ _ => rfl
@[simp] theorem exec_cpyw (s : State) : ∀ g fl n, exec (.cpyw g fl n) s = execCpyw g fl n s := fun _ _ _ => rfl
@[simp] theorem exec_lwait (s : State) : ∀ a b, exec (.lwait a b) s = execLwait a b s := fun _ _ => rfl
@[simp] theorem exec_lwaitNb (s : State) : ∀ pd a b, exec (.lwaitNb pd a b) s = execLwaitNb pd a b s := fun _ _ _ => rfl
@[simp] theorem exec_xbegin (s : State) : ∀ op vs vl deal n, exec (.xbegin op vs vl deal n) s = execXbegin op vs vl deal n s := fun _ _ _ _ _ => rfl
@[simp] theorem exec_xnext (s : State) : ∀ vi vo pd, exec (.xnext vi vo pd) s = execXnext vi vo pd s := fun _ _ _ => rfl
@[simp] theorem exec_xred (s : State) : ∀ g v, exec (.xred g v) s = execXred g v s := fun _ _ => rfl
@[simp] theorem exec_xend (s : State) : ∀ fl d, exec (.xend fl d) s = execXend fl d s := fun _ _ => rfl
@[simp] theorem exec_watch (s : State) : ∀ d n, exec (.watch d n) s = execWatch d n s := fun _ _ => rfl
@[simp] theorem exec_unwatch (s : State) : ∀ a, exec (.unwatch a) s = execUnwatch a s := fun _ => rfl
@[simp] theorem exec_trigi (s : State) : ∀ g k d, exec (.trigi g k d) s = execTrigi g k d s := fun _ _ _ => rfl
@[simp] theorem exec_ldf (s : State) : ∀ g fl acq t sc d a off, exec (.ldf g fl acq t sc d a off) s = execLdf g fl acq t sc d a off s := fun _ _ _ _ _ _ _ _ => rfl
@[simp] theorem exec_stf (s : State) : ∀ g fl rel t sc a off b, exec (.stf g fl rel t sc a off b) s = execStf g fl rel t sc a off b s := fun _ _ _ _ _ _ _ _ => rfl
@[simp] theorem exec_redf (s : State) : ∀ g fl op w o sc a b, exec (.redf g fl op w o sc a b) s = execRedf g fl op w o sc a b s := fun _ _ _ _ _ _ _ _ => rfl
@[simp] theorem exec_coll (s : State) : ∀ g fl n, exec (.coll g fl n) s = execColl g fl n s := fun _ _ _ => rfl
@[simp] theorem exec_launch (s : State) : ∀ prio n, exec (.launch prio n) s = execLaunch prio n s := fun _ _ => rfl
@[simp] theorem exec_signal (s : State) : ∀ a b, exec (.signal a b) s = execSignal a b s := fun _ _ => rfl
@[simp] theorem exec_srd (s : State) : ∀ g d r, exec (.srd g d r) s = execSrd g d r s := fun _ _ _ => rfl
@[simp] theorem exec_swr (s : State) : ∀ g r a, exec (.swr g r a) s = execSwr g r a s := fun _ _ _ => rfl
@[simp] theorem exec_clauseEntry (s : State) : ∀ f cached, exec (.clauseEntry f cached) s = execClauseEntry f cached s := fun _ _ => rfl
@[simp] theorem exec_starvationIssue (s : State) : ∀ f, exec (.starvationIssue f) s = execStarvationIssue f s := fun _ => rfl
@[simp] theorem exec_sleepWake (s : State) : ∀ f, exec (.sleepWake f) s = execSleepWake f s := fun _ => rfl
@[simp] theorem exec_scoutPrefetch (s : State) : ∀ f va, exec (.scoutPrefetch f va) s = execScoutPrefetch f va s := fun _ _ => rfl
@[simp] theorem exec_longLatencyComplete (s : State) : ∀ op, exec (.longLatencyComplete op) s = execLongLatencyComplete op s := fun _ => rfl
@[simp] theorem exec_homeWritePerform (s : State) : ∀ op line, exec (.homeWritePerform op line) s = execHomeWritePerform op line s := fun _ _ => rfl
@[simp] theorem exec_pageWalkComplete (s : State) : ∀ ctx die va, exec (.pageWalkComplete ctx die va) s = execPageWalkComplete ctx die va s := fun _ _ _ => rfl
@[simp] theorem exec_l1Eviction (s : State) : ∀ mill line, exec (.l1Eviction mill line) s = execL1Eviction mill line s := fun _ _ => rfl
@[simp] theorem exec_leatElementTransfer (s : State) : ∀ mill leat, exec (.leatElementTransfer mill leat) s = execLeatElementTransfer mill leat s := fun _ _ => rfl
@[simp] theorem exec_stampSweep (s : State) : ∀ line, exec (.stampSweep line) s = execStampSweep line s := fun _ => rfl
@[simp] theorem exec_doorbellWrite (s : State) : ∀ ctx q x, exec (.doorbellWrite ctx q x) s = execDoorbellWrite ctx q x s := fun _ _ _ => rfl
@[simp] theorem exec_ringControlWrite (s : State) : ∀ ctx q ctl x, exec (.ringControlWrite ctx q ctl x) s = execRingControlWrite ctx q ctl x s := fun _ _ _ _ => rfl
@[simp] theorem exec_launchPacketHead (s : State) : ∀ ctx q, exec (.launchPacketHead ctx q) s = execLaunchPacketHead ctx q s := fun _ _ => rfl
@[simp] theorem exec_blockDispatch (s : State) : ∀ ctx q p, exec (.blockDispatch ctx q p) s = execBlockDispatch ctx q p s := fun _ _ _ => rfl
@[simp] theorem exec_gangDispatch (s : State) : ∀ ctx q ps, exec (.gangDispatch ctx q ps) s = execGangDispatch ctx q ps s := fun _ _ _ => rfl
@[simp] theorem exec_triggerBlockDispatch (s : State) : ∀ ctx p, exec (.triggerBlockDispatch ctx p) s = execTriggerBlockDispatch ctx p s := fun _ _ => rfl
@[simp] theorem exec_blockEnd (s : State) : ∀ bid, exec (.blockEnd bid) s = execBlockEnd bid s := fun _ => rfl
@[simp] theorem exec_launchCompletion (s : State) : ∀ lid, exec (.launchCompletion lid) s = execLaunchCompletion lid s := fun _ => rfl
@[simp] theorem exec_stagedOpRelease (s : State) : ∀ lid, exec (.stagedOpRelease lid) s = execStagedOpRelease lid s := fun _ => rfl
@[simp] theorem exec_sliceInstant (s : State) : ∀ n, exec (.sliceInstant n) s = execSliceInstant n s := fun _ => rfl
@[simp] theorem exec_blockSaveComplete (s : State) : ∀ bid, exec (.blockSaveComplete bid) s = execBlockSaveComplete bid s := fun _ => rfl
@[simp] theorem exec_blockRestore (s : State) : ∀ bid p, exec (.blockRestore bid p) s = execBlockRestore bid p s := fun _ _ => rfl
@[simp] theorem exec_trapHandlerStart (s : State) : ∀ bid gid image, exec (.trapHandlerStart bid gid image) s = execTrapHandlerStart bid gid image s := fun _ _ _ => rfl
@[simp] theorem exec_handlerRunEnd (s : State) : ∀ bid gid, exec (.handlerRunEnd bid gid) s = execHandlerRunEnd bid gid s := fun _ _ => rfl
@[simp] theorem exec_faultFreeze (s : State) : ∀ bid gid image, exec (.faultFreeze bid gid image) s = execFaultFreeze bid gid image s := fun _ _ _ => rfl
@[simp] theorem exec_fcmdRetry (s : State) : ∀ ctx seq, exec (.fcmdRetry ctx seq) s = execFcmdRetry ctx seq s := fun _ _ => rfl
@[simp] theorem exec_fcmdSkip (s : State) : ∀ ctx seq, exec (.fcmdSkip ctx seq) s = execFcmdSkip ctx seq s := fun _ _ => rfl
@[simp] theorem exec_fcmdKill (s : State) : ∀ ctx seq, exec (.fcmdKill ctx seq) s = execFcmdKill ctx seq s := fun _ _ => rfl
@[simp] theorem exec_ctxcmdCreate (s : State) : ∀ ctx, exec (.ctxcmdCreate ctx) s = execCtxcmdCreate ctx s := fun _ => rfl
@[simp] theorem exec_ctxcmdDestroy (s : State) : ∀ ctx, exec (.ctxcmdDestroy ctx) s = execCtxcmdDestroy ctx s := fun _ => rfl
@[simp] theorem exec_contextDestroyDone (s : State) : ∀ ctx, exec (.contextDestroyDone ctx) s = execContextDestroyDone ctx s := fun _ => rfl
@[simp] theorem exec_tlbinvPage (s : State) : ∀ ctx va sz, exec (.tlbinvPage ctx va sz) s = execTlbinvPage ctx va sz s := fun _ _ _ => rfl
@[simp] theorem exec_tlbinvAll (s : State) : ∀ ctx, exec (.tlbinvAll ctx) s = execTlbinvAll ctx s := fun _ => rfl
@[simp] theorem exec_tlbinvDone (s : State) : ∀ ctx, exec (.tlbinvDone ctx) s = execTlbinvDone ctx s := fun _ => rfl
@[simp] theorem exec_krepl (s : State) : ∀ ctx x, exec (.krepl ctx x) s = execKrepl ctx x s := fun _ _ => rfl
@[simp] theorem exec_imageRetire (s : State) : ∀ ctx image, exec (.imageRetire ctx image) s = execImageRetire ctx image s := fun _ _ => rfl
@[simp] theorem exec_sliceScheduleWrite (s : State) : ∀ r x, exec (.sliceScheduleWrite r x) s = execSliceScheduleWrite r x s := fun _ _ => rfl
@[simp] theorem exec_stcovWrite (s : State) : ∀ die x, exec (.stcovWrite die x) s = execStcovWrite die x s := fun _ _ => rfl
@[simp] theorem exec_registerWrite (s : State) : ∀ pa x, exec (.registerWrite pa x) s = execRegisterWrite pa x s := fun _ _ => rfl
@[simp] theorem exec_watchArmEffective (s : State) : ∀ f, exec (.watchArmEffective f) s = execWatchArmEffective f s := fun _ => rfl
@[simp] theorem exec_unwatchDone (s : State) : ∀ f, exec (.unwatchDone f) s = execUnwatchDone f s := fun _ => rfl
@[simp] theorem exec_farRequestReceive (s : State) : ∀ r, exec (.farRequestReceive r) s = execFarRequestReceive r s := fun _ => rfl
@[simp] theorem exec_farAccessTimeout (s : State) : ∀ id, exec (.farAccessTimeout id) s = execFarAccessTimeout id s := fun _ => rfl
@[simp] theorem exec_hostAccessTimeout (s : State) : ∀ id, exec (.hostAccessTimeout id) s = execHostAccessTimeout id s := fun _ => rfl
@[simp] theorem exec_replicaReceive (s : State) : ∀ ctx q pkt, exec (.replicaReceive ctx q pkt) s = execReplicaReceive ctx q pkt s := fun _ _ _ => rfl
@[simp] theorem exec_startBarrierArrival (s : State) : ∀ ctx q, exec (.startBarrierArrival ctx q) s = execStartBarrierArrival ctx q s := fun _ _ => rfl
@[simp] theorem exec_startBarrierComplete (s : State) : ∀ ctx q, exec (.startBarrierComplete ctx q) s = execStartBarrierComplete ctx q s := fun _ _ => rfl
@[simp] theorem exec_startBarrierDispatch (s : State) : ∀ ctx q, exec (.startBarrierDispatch ctx q) s = execStartBarrierDispatch ctx q s := fun _ _ => rfl
@[simp] theorem exec_startBarrierTimeout (s : State) : ∀ ctx q rank, exec (.startBarrierTimeout ctx q rank) s = execStartBarrierTimeout ctx q rank s := fun _ _ _ => rfl
@[simp] theorem exec_dbarDomTimeout (s : State) : ∀ lid rank, exec (.dbarDomTimeout lid rank) s = execDbarDomTimeout lid rank s := fun _ _ => rfl
@[simp] theorem exec_collectiveExchange (s : State) : ∀ lid tag heads, exec (.collectiveExchange lid tag heads) s = execCollectiveExchange lid tag heads s := fun _ _ _ => rfl
@[simp] theorem exec_collectiveComplete (s : State) : ∀ lid tag vals, exec (.collectiveComplete lid tag vals) s = execCollectiveComplete lid tag vals s := fun _ _ _ => rfl
@[simp] theorem exec_ptpEventMessage (s : State) : ∀ slew, exec (.ptpEventMessage slew) s = execPtpEventMessage slew s := fun _ => rfl
@[simp] theorem exec_hostLineRead (s : State) : ∀ line cached, exec (.hostLineRead line cached) s = execHostLineRead line cached s := fun _ _ => rfl
@[simp] theorem exec_hostLineWrite (s : State) : ∀ line bytes, exec (.hostLineWrite line bytes) s = execHostLineWrite line bytes s := fun _ _ => rfl
@[simp] theorem exec_hostAtomic (s : State) : ∀ pa op w v c, exec (.hostAtomic pa op w v c) s = execHostAtomic pa op w v c s := fun _ _ _ _ _ => rfl
@[simp] theorem exec_hostRegisterAccess (s : State) : ∀ pa size wr, exec (.hostRegisterAccess pa size wr) s = execHostRegisterAccess pa size wr s := fun _ _ _ => rfl
@[simp] theorem exec_rasWindowRestart (s : State) : exec .rasWindowRestart s = execRasWindowRestart s := rfl
@[simp] theorem exec_powerLimit (s : State) : ∀ die, exec (.powerLimit die) s = execPowerLimit die s := fun _ => rfl
@[simp] theorem exec_coolantLimit (s : State) : ∀ k, exec (.coolantLimit k) s = execCoolantLimit k s := fun _ => rfl
@[simp] theorem exec_junctionCritical (s : State) : ∀ die, exec (.junctionCritical die) s = execJunctionCritical die s := fun _ => rfl
@[simp] theorem exec_junctionRecover (s : State) : ∀ die, exec (.junctionRecover die) s = execJunctionRecover die s := fun _ => rfl
@[simp] theorem exec_thermalShutdown (s : State) : ∀ die, exec (.thermalShutdown die) s = execThermalShutdown die s := fun _ => rfl
@[simp] theorem exec_coldReset (s : State) : exec .coldReset s = execColdReset s := rfl
@[simp] theorem exec_warmReset (s : State) : exec .warmReset s = execWarmReset s := rfl
@[simp] theorem exec_firmwareUpdate (s : State) : ∀ fw, exec (.firmwareUpdate fw) s = execFirmwareUpdate fw s := fun _ => rfl
@[simp] theorem exec_measureRequest (s : State) : ∀ r x, exec (.measureRequest r x) s = execMeasureRequest r x s := fun _ _ => rfl
@[simp] theorem exec_attestationRequest (s : State) : ∀ nonce, exec (.attestationRequest nonce) s = execAttestationRequest nonce s := fun _ => rfl
@[simp] theorem exec_hbmRefresh (s : State) : ∀ stack, exec (.hbmRefresh stack) s = execHbmRefresh stack s := fun _ => rfl
@[simp] theorem exec_farAnswer (s : State) : ∀ id r, exec (.farAnswer id r) s = execFarAnswer id r s := fun _ _ => rfl
@[simp] theorem exec_hostAnswer (s : State) : ∀ id r, exec (.hostAnswer id r) s = execHostAnswer id r s := fun _ _ => rfl
@[simp] theorem exec_spurRouteChange (s : State) : ∀ rank live, exec (.spurRouteChange rank live) s = execSpurRouteChange rank live s := fun _ _ => rfl
@[simp] theorem exec_arrivalMessageReceive (s : State) : ∀ ctx q a, exec (.arrivalMessageReceive ctx q a) s = execArrivalMessageReceive ctx q a s := fun _ _ _ => rfl
@[simp] theorem exec_domainBarrierMessage (s : State) : ∀ lid m, exec (.domainBarrierMessage lid m) s = execDomainBarrierMessage lid m s := fun _ _ => rfl
@[simp] theorem exec_rdcEviction (s : State) : ∀ die line, exec (.rdcEviction die line) s = execRdcEviction die line s := fun _ _ => rfl
@[simp] theorem exec_coolantRecovery (s : State) : ∀ k, exec (.coolantRecovery k) s = execCoolantRecovery k s := fun _ => rfl
@[simp] theorem exec_modulePowerLoss (s : State) : exec .modulePowerLoss s = execModulePowerLoss s := rfl

end Sys2Proof.Machine
end

