-- ==== Sys2Proof/Laws/State.lean ====
section
/-! SUPPORT. What each elementary update of the state leaves of each field. -/

namespace Sys2Proof.Machine

/-! ### `State.wr` -/

@[simp] theorem State.wr_cur (s : State) (a : Nat) (b : Byte) : (s.wr a b).cur = s.cur := rfl
@[simp] theorem State.wr_agenda (s : State) (a : Nat) (b : Byte) : (s.wr a b).agenda = s.agenda := rfl
@[simp] theorem State.wr_turnNo (s : State) (a : Nat) (b : Byte) : (s.wr a b).turnNo = s.turnNo := rfl
@[simp] theorem State.wr_powered (s : State) (a : Nat) (b : Byte) : (s.wr a b).powered = s.powered := rfl
@[simp] theorem State.wr_heldStep (s : State) (a : Nat) (b : Byte) : (s.wr a b).heldStep = s.heldStep := rfl
@[simp] theorem State.wr_cycle (s : State) (a : Nat) (b : Byte) : (s.wr a b).cycle = s.cycle := rfl
@[simp] theorem State.wr_gtime (s : State) (a : Nat) (b : Byte) : (s.wr a b).gtime = s.gtime := rfl
@[simp] theorem State.wr_issued (s : State) (a : Nat) (b : Byte) : (s.wr a b).issued = s.issued := rfl
@[simp] theorem State.wr_mapFree (s : State) (a : Nat) (b : Byte) : (s.wr a b).mapFree = s.mapFree := rfl
@[simp] theorem State.wr_mem (s : State) (a : Nat) (b : Byte) : (s.wr a b).mem = sset 0 s.mem a b := rfl
@[simp] theorem State.wr_l1 (s : State) (a : Nat) (b : Byte) : (s.wr a b).l1 = s.l1 := rfl
@[simp] theorem State.wr_rdc (s : State) (a : Nat) (b : Byte) : (s.wr a b).rdc = s.rdc := rfl
@[simp] theorem State.wr_icache (s : State) (a : Nat) (b : Byte) : (s.wr a b).icache = s.icache := rfl
@[simp] theorem State.wr_tlb (s : State) (a : Nat) (b : Byte) : (s.wr a b).tlb = s.tlb := rfl
@[simp] theorem State.wr_poison (s : State) (a : Nat) (b : Byte) : (s.wr a b).poison = s.poison := rfl
@[simp] theorem State.wr_errs (s : State) (a : Nat) (b : Byte) : (s.wr a b).errs = s.errs := rfl
@[simp] theorem State.wr_epoch (s : State) (a : Nat) (b : Byte) : (s.wr a b).epoch = s.epoch := rfl
@[simp] theorem State.wr_ids (s : State) (a : Nat) (b : Byte) : (s.wr a b).ids = s.ids := rfl
@[simp] theorem State.wr_sids (s : State) (a : Nat) (b : Byte) : (s.wr a b).sids = s.sids := rfl
@[simp] theorem State.wr_stamps (s : State) (a : Nat) (b : Byte) : (s.wr a b).stamps = s.stamps := rfl
@[simp] theorem State.wr_seen (s : State) (a : Nat) (b : Byte) : (s.wr a b).seen = s.seen := rfl
@[simp] theorem State.wr_hostCopies (s : State) (a : Nat) (b : Byte) : (s.wr a b).hostCopies = s.hostCopies := rfl
@[simp] theorem State.wr_hostDirty (s : State) (a : Nat) (b : Byte) : (s.wr a b).hostDirty = s.hostDirty := rfl
@[simp] theorem State.wr_hostFails (s : State) (a : Nat) (b : Byte) : (s.wr a b).hostFails = s.hostFails := rfl
@[simp] theorem State.wr_ctxs (s : State) (a : Nat) (b : Byte) : (s.wr a b).ctxs = s.ctxs := rfl
@[simp] theorem State.wr_launches (s : State) (a : Nat) (b : Byte) : (s.wr a b).launches = s.launches := rfl
@[simp] theorem State.wr_blocks (s : State) (a : Nat) (b : Byte) : (s.wr a b).blocks = s.blocks := rfl
@[simp] theorem State.wr_ops (s : State) (a : Nat) (b : Byte) : (s.wr a b).ops = s.ops := rfl
@[simp] theorem State.wr_awaits (s : State) (a : Nat) (b : Byte) : (s.wr a b).awaits = s.awaits := rfl
@[simp] theorem State.wr_leats (s : State) (a : Nat) (b : Byte) : (s.wr a b).leats = s.leats := rfl
@[simp] theorem State.wr_watches (s : State) (a : Nat) (b : Byte) : (s.wr a b).watches = s.watches := rfl
@[simp] theorem State.wr_arms (s : State) (a : Nat) (b : Byte) : (s.wr a b).arms = s.arms := rfl
@[simp] theorem State.wr_colls (s : State) (a : Nat) (b : Byte) : (s.wr a b).colls = s.colls := rfl
@[simp] theorem State.wr_turns (s : State) (a : Nat) (b : Byte) : (s.wr a b).turns = s.turns := rfl
@[simp] theorem State.wr_nextId (s : State) (a : Nat) (b : Byte) : (s.wr a b).nextId = s.nextId := rfl
@[simp] theorem State.wr_ctxcmd (s : State) (a : Nat) (b : Byte) : (s.wr a b).ctxcmd = s.ctxcmd := rfl
@[simp] theorem State.wr_slt0 (s : State) (a : Nat) (b : Byte) : (s.wr a b).slt0 = s.slt0 := rfl
@[simp] theorem State.wr_slper (s : State) (a : Nat) (b : Byte) : (s.wr a b).slper = s.slper := rfl
@[simp] theorem State.wr_slNext (s : State) (a : Nat) (b : Byte) : (s.wr a b).slNext = s.slNext := rfl
@[simp] theorem State.wr_slBegun (s : State) (a : Nat) (b : Byte) : (s.wr a b).slBegun = s.slBegun := rfl
@[simp] theorem State.wr_stcov (s : State) (a : Nat) (b : Byte) : (s.wr a b).stcov = s.stcov := rfl
@[simp] theorem State.wr_rasth (s : State) (a : Nat) (b : Byte) : (s.wr a b).rasth = s.rasth := rfl
@[simp] theorem State.wr_rasce (s : State) (a : Nat) (b : Byte) : (s.wr a b).rasce = s.rasce := rfl
@[simp] theorem State.wr_rasst (s : State) (a : Nat) (b : Byte) : (s.wr a b).rasst = s.rasst := rfl
@[simp] theorem State.wr_window (s : State) (a : Nat) (b : Byte) : (s.wr a b).window = s.window := rfl
@[simp] theorem State.wr_lost (s : State) (a : Nat) (b : Byte) : (s.wr a b).lost = s.lost := rfl
@[simp] theorem State.wr_fullAt (s : State) (a : Nat) (b : Byte) : (s.wr a b).fullAt = s.fullAt := rfl
@[simp] theorem State.wr_endpoints (s : State) (a : Nat) (b : Byte) : (s.wr a b).endpoints = s.endpoints := rfl
@[simp] theorem State.wr_ports (s : State) (a : Nat) (b : Byte) : (s.wr a b).ports = s.ports := rfl
@[simp] theorem State.wr_spurOut (s : State) (a : Nat) (b : Byte) : (s.wr a b).spurOut = s.spurOut := rfl
@[simp] theorem State.wr_felmirOut (s : State) (a : Nat) (b : Byte) : (s.wr a b).felmirOut = s.felmirOut := rfl
@[simp] theorem State.wr_slow (s : State) (a : Nat) (b : Byte) : (s.wr a b).slow = s.slow := rfl
@[simp] theorem State.wr_coolSlow (s : State) (a : Nat) (b : Byte) : (s.wr a b).coolSlow = s.coolSlow := rfl
@[simp] theorem State.wr_stopped (s : State) (a : Nat) (b : Byte) : (s.wr a b).stopped = s.stopped := rfl
@[simp] theorem State.wr_meas (s : State) (a : Nat) (b : Byte) : (s.wr a b).meas = s.meas := rfl
@[simp] theorem State.wr_fuse (s : State) (a : Nat) (b : Byte) : (s.wr a b).fuse = s.fuse := rfl
@[simp] theorem State.wr_firmware (s : State) (a : Nat) (b : Byte) : (s.wr a b).firmware = s.firmware := rfl
@[simp] theorem State.wr_waiting (s : State) (a : Nat) (b : Byte) : (s.wr a b).waiting = s.waiting := rfl

/-! ### `State.wrAll` -/

@[simp] theorem State.wrAll_cur (s : State) (ws : List (Nat × Byte)) : (s.wrAll ws).cur = s.cur := rfl
@[simp] theorem State.wrAll_agenda (s : State) (ws : List (Nat × Byte)) : (s.wrAll ws).agenda = s.agenda := rfl
@[simp] theorem State.wrAll_turnNo (s : State) (ws : List (Nat × Byte)) : (s.wrAll ws).turnNo = s.turnNo := rfl
@[simp] theorem State.wrAll_powered (s : State) (ws : List (Nat × Byte)) : (s.wrAll ws).powered = s.powered := rfl
@[simp] theorem State.wrAll_heldStep (s : State) (ws : List (Nat × Byte)) : (s.wrAll ws).heldStep = s.heldStep := rfl
@[simp] theorem State.wrAll_cycle (s : State) (ws : List (Nat × Byte)) : (s.wrAll ws).cycle = s.cycle := rfl
@[simp] theorem State.wrAll_gtime (s : State) (ws : List (Nat × Byte)) : (s.wrAll ws).gtime = s.gtime := rfl
@[simp] theorem State.wrAll_issued (s : State) (ws : List (Nat × Byte)) : (s.wrAll ws).issued = s.issued := rfl
@[simp] theorem State.wrAll_mapFree (s : State) (ws : List (Nat × Byte)) : (s.wrAll ws).mapFree = s.mapFree := rfl
@[simp] theorem State.wrAll_mem (s : State) (ws : List (Nat × Byte)) : (s.wrAll ws).mem = ssetAll 0 s.mem ws := rfl
@[simp] theorem State.wrAll_l1 (s : State) (ws : List (Nat × Byte)) : (s.wrAll ws).l1 = s.l1 := rfl
@[simp] theorem State.wrAll_rdc (s : State) (ws : List (Nat × Byte)) : (s.wrAll ws).rdc = s.rdc := rfl
@[simp] theorem State.wrAll_icache (s : State) (ws : List (Nat × Byte)) : (s.wrAll ws).icache = s.icache := rfl
@[simp] theorem State.wrAll_tlb (s : State) (ws : List (Nat × Byte)) : (s.wrAll ws).tlb = s.tlb := rfl
@[simp] theorem State.wrAll_poison (s : State) (ws : List (Nat × Byte)) : (s.wrAll ws).poison = s.poison := rfl
@[simp] theorem State.wrAll_errs (s : State) (ws : List (Nat × Byte)) : (s.wrAll ws).errs = s.errs := rfl
@[simp] theorem State.wrAll_epoch (s : State) (ws : List (Nat × Byte)) : (s.wrAll ws).epoch = s.epoch := rfl
@[simp] theorem State.wrAll_ids (s : State) (ws : List (Nat × Byte)) : (s.wrAll ws).ids = s.ids := rfl
@[simp] theorem State.wrAll_sids (s : State) (ws : List (Nat × Byte)) : (s.wrAll ws).sids = s.sids := rfl
@[simp] theorem State.wrAll_stamps (s : State) (ws : List (Nat × Byte)) : (s.wrAll ws).stamps = s.stamps := rfl
@[simp] theorem State.wrAll_seen (s : State) (ws : List (Nat × Byte)) : (s.wrAll ws).seen = s.seen := rfl
@[simp] theorem State.wrAll_hostCopies (s : State) (ws : List (Nat × Byte)) : (s.wrAll ws).hostCopies = s.hostCopies := rfl
@[simp] theorem State.wrAll_hostDirty (s : State) (ws : List (Nat × Byte)) : (s.wrAll ws).hostDirty = s.hostDirty := rfl
@[simp] theorem State.wrAll_hostFails (s : State) (ws : List (Nat × Byte)) : (s.wrAll ws).hostFails = s.hostFails := rfl
@[simp] theorem State.wrAll_ctxs (s : State) (ws : List (Nat × Byte)) : (s.wrAll ws).ctxs = s.ctxs := rfl
@[simp] theorem State.wrAll_launches (s : State) (ws : List (Nat × Byte)) : (s.wrAll ws).launches = s.launches := rfl
@[simp] theorem State.wrAll_blocks (s : State) (ws : List (Nat × Byte)) : (s.wrAll ws).blocks = s.blocks := rfl
@[simp] theorem State.wrAll_ops (s : State) (ws : List (Nat × Byte)) : (s.wrAll ws).ops = s.ops := rfl
@[simp] theorem State.wrAll_awaits (s : State) (ws : List (Nat × Byte)) : (s.wrAll ws).awaits = s.awaits := rfl
@[simp] theorem State.wrAll_leats (s : State) (ws : List (Nat × Byte)) : (s.wrAll ws).leats = s.leats := rfl
@[simp] theorem State.wrAll_watches (s : State) (ws : List (Nat × Byte)) : (s.wrAll ws).watches = s.watches := rfl
@[simp] theorem State.wrAll_arms (s : State) (ws : List (Nat × Byte)) : (s.wrAll ws).arms = s.arms := rfl
@[simp] theorem State.wrAll_colls (s : State) (ws : List (Nat × Byte)) : (s.wrAll ws).colls = s.colls := rfl
@[simp] theorem State.wrAll_turns (s : State) (ws : List (Nat × Byte)) : (s.wrAll ws).turns = s.turns := rfl
@[simp] theorem State.wrAll_nextId (s : State) (ws : List (Nat × Byte)) : (s.wrAll ws).nextId = s.nextId := rfl
@[simp] theorem State.wrAll_ctxcmd (s : State) (ws : List (Nat × Byte)) : (s.wrAll ws).ctxcmd = s.ctxcmd := rfl
@[simp] theorem State.wrAll_slt0 (s : State) (ws : List (Nat × Byte)) : (s.wrAll ws).slt0 = s.slt0 := rfl
@[simp] theorem State.wrAll_slper (s : State) (ws : List (Nat × Byte)) : (s.wrAll ws).slper = s.slper := rfl
@[simp] theorem State.wrAll_slNext (s : State) (ws : List (Nat × Byte)) : (s.wrAll ws).slNext = s.slNext := rfl
@[simp] theorem State.wrAll_slBegun (s : State) (ws : List (Nat × Byte)) : (s.wrAll ws).slBegun = s.slBegun := rfl
@[simp] theorem State.wrAll_stcov (s : State) (ws : List (Nat × Byte)) : (s.wrAll ws).stcov = s.stcov := rfl
@[simp] theorem State.wrAll_rasth (s : State) (ws : List (Nat × Byte)) : (s.wrAll ws).rasth = s.rasth := rfl
@[simp] theorem State.wrAll_rasce (s : State) (ws : List (Nat × Byte)) : (s.wrAll ws).rasce = s.rasce := rfl
@[simp] theorem State.wrAll_rasst (s : State) (ws : List (Nat × Byte)) : (s.wrAll ws).rasst = s.rasst := rfl
@[simp] theorem State.wrAll_window (s : State) (ws : List (Nat × Byte)) : (s.wrAll ws).window = s.window := rfl
@[simp] theorem State.wrAll_lost (s : State) (ws : List (Nat × Byte)) : (s.wrAll ws).lost = s.lost := rfl
@[simp] theorem State.wrAll_fullAt (s : State) (ws : List (Nat × Byte)) : (s.wrAll ws).fullAt = s.fullAt := rfl
@[simp] theorem State.wrAll_endpoints (s : State) (ws : List (Nat × Byte)) : (s.wrAll ws).endpoints = s.endpoints := rfl
@[simp] theorem State.wrAll_ports (s : State) (ws : List (Nat × Byte)) : (s.wrAll ws).ports = s.ports := rfl
@[simp] theorem State.wrAll_spurOut (s : State) (ws : List (Nat × Byte)) : (s.wrAll ws).spurOut = s.spurOut := rfl
@[simp] theorem State.wrAll_felmirOut (s : State) (ws : List (Nat × Byte)) : (s.wrAll ws).felmirOut = s.felmirOut := rfl
@[simp] theorem State.wrAll_slow (s : State) (ws : List (Nat × Byte)) : (s.wrAll ws).slow = s.slow := rfl
@[simp] theorem State.wrAll_coolSlow (s : State) (ws : List (Nat × Byte)) : (s.wrAll ws).coolSlow = s.coolSlow := rfl
@[simp] theorem State.wrAll_stopped (s : State) (ws : List (Nat × Byte)) : (s.wrAll ws).stopped = s.stopped := rfl
@[simp] theorem State.wrAll_meas (s : State) (ws : List (Nat × Byte)) : (s.wrAll ws).meas = s.meas := rfl
@[simp] theorem State.wrAll_fuse (s : State) (ws : List (Nat × Byte)) : (s.wrAll ws).fuse = s.fuse := rfl
@[simp] theorem State.wrAll_firmware (s : State) (ws : List (Nat × Byte)) : (s.wrAll ws).firmware = s.firmware := rfl
@[simp] theorem State.wrAll_waiting (s : State) (ws : List (Nat × Byte)) : (s.wrAll ws).waiting = s.waiting := rfl

/-! ### `State.setCtx` -/

@[simp] theorem State.setCtx_cur (s : State) (c : Nat) (x : Ctx) : (s.setCtx c x).cur = s.cur := rfl
@[simp] theorem State.setCtx_agenda (s : State) (c : Nat) (x : Ctx) : (s.setCtx c x).agenda = s.agenda := rfl
@[simp] theorem State.setCtx_turnNo (s : State) (c : Nat) (x : Ctx) : (s.setCtx c x).turnNo = s.turnNo := rfl
@[simp] theorem State.setCtx_powered (s : State) (c : Nat) (x : Ctx) : (s.setCtx c x).powered = s.powered := rfl
@[simp] theorem State.setCtx_heldStep (s : State) (c : Nat) (x : Ctx) : (s.setCtx c x).heldStep = s.heldStep := rfl
@[simp] theorem State.setCtx_cycle (s : State) (c : Nat) (x : Ctx) : (s.setCtx c x).cycle = s.cycle := rfl
@[simp] theorem State.setCtx_gtime (s : State) (c : Nat) (x : Ctx) : (s.setCtx c x).gtime = s.gtime := rfl
@[simp] theorem State.setCtx_issued (s : State) (c : Nat) (x : Ctx) : (s.setCtx c x).issued = s.issued := rfl
@[simp] theorem State.setCtx_mapFree (s : State) (c : Nat) (x : Ctx) : (s.setCtx c x).mapFree = s.mapFree := rfl
@[simp] theorem State.setCtx_mem (s : State) (c : Nat) (x : Ctx) : (s.setCtx c x).mem = s.mem := rfl
@[simp] theorem State.setCtx_l1 (s : State) (c : Nat) (x : Ctx) : (s.setCtx c x).l1 = s.l1 := rfl
@[simp] theorem State.setCtx_rdc (s : State) (c : Nat) (x : Ctx) : (s.setCtx c x).rdc = s.rdc := rfl
@[simp] theorem State.setCtx_icache (s : State) (c : Nat) (x : Ctx) : (s.setCtx c x).icache = s.icache := rfl
@[simp] theorem State.setCtx_tlb (s : State) (c : Nat) (x : Ctx) : (s.setCtx c x).tlb = s.tlb := rfl
@[simp] theorem State.setCtx_poison (s : State) (c : Nat) (x : Ctx) : (s.setCtx c x).poison = s.poison := rfl
@[simp] theorem State.setCtx_errs (s : State) (c : Nat) (x : Ctx) : (s.setCtx c x).errs = s.errs := rfl
@[simp] theorem State.setCtx_epoch (s : State) (c : Nat) (x : Ctx) : (s.setCtx c x).epoch = s.epoch := rfl
@[simp] theorem State.setCtx_ids (s : State) (c : Nat) (x : Ctx) : (s.setCtx c x).ids = s.ids := rfl
@[simp] theorem State.setCtx_sids (s : State) (c : Nat) (x : Ctx) : (s.setCtx c x).sids = s.sids := rfl
@[simp] theorem State.setCtx_stamps (s : State) (c : Nat) (x : Ctx) : (s.setCtx c x).stamps = s.stamps := rfl
@[simp] theorem State.setCtx_seen (s : State) (c : Nat) (x : Ctx) : (s.setCtx c x).seen = s.seen := rfl
@[simp] theorem State.setCtx_hostCopies (s : State) (c : Nat) (x : Ctx) : (s.setCtx c x).hostCopies = s.hostCopies := rfl
@[simp] theorem State.setCtx_hostDirty (s : State) (c : Nat) (x : Ctx) : (s.setCtx c x).hostDirty = s.hostDirty := rfl
@[simp] theorem State.setCtx_hostFails (s : State) (c : Nat) (x : Ctx) : (s.setCtx c x).hostFails = s.hostFails := rfl
@[simp] theorem State.setCtx_ctxs (s : State) (c : Nat) (x : Ctx) : (s.setCtx c x).ctxs = sset Ctx.reset s.ctxs c x := rfl
@[simp] theorem State.setCtx_launches (s : State) (c : Nat) (x : Ctx) : (s.setCtx c x).launches = s.launches := rfl
@[simp] theorem State.setCtx_blocks (s : State) (c : Nat) (x : Ctx) : (s.setCtx c x).blocks = s.blocks := rfl
@[simp] theorem State.setCtx_ops (s : State) (c : Nat) (x : Ctx) : (s.setCtx c x).ops = s.ops := rfl
@[simp] theorem State.setCtx_awaits (s : State) (c : Nat) (x : Ctx) : (s.setCtx c x).awaits = s.awaits := rfl
@[simp] theorem State.setCtx_leats (s : State) (c : Nat) (x : Ctx) : (s.setCtx c x).leats = s.leats := rfl
@[simp] theorem State.setCtx_watches (s : State) (c : Nat) (x : Ctx) : (s.setCtx c x).watches = s.watches := rfl
@[simp] theorem State.setCtx_arms (s : State) (c : Nat) (x : Ctx) : (s.setCtx c x).arms = s.arms := rfl
@[simp] theorem State.setCtx_colls (s : State) (c : Nat) (x : Ctx) : (s.setCtx c x).colls = s.colls := rfl
@[simp] theorem State.setCtx_turns (s : State) (c : Nat) (x : Ctx) : (s.setCtx c x).turns = s.turns := rfl
@[simp] theorem State.setCtx_nextId (s : State) (c : Nat) (x : Ctx) : (s.setCtx c x).nextId = s.nextId := rfl
@[simp] theorem State.setCtx_ctxcmd (s : State) (c : Nat) (x : Ctx) : (s.setCtx c x).ctxcmd = s.ctxcmd := rfl
@[simp] theorem State.setCtx_slt0 (s : State) (c : Nat) (x : Ctx) : (s.setCtx c x).slt0 = s.slt0 := rfl
@[simp] theorem State.setCtx_slper (s : State) (c : Nat) (x : Ctx) : (s.setCtx c x).slper = s.slper := rfl
@[simp] theorem State.setCtx_slNext (s : State) (c : Nat) (x : Ctx) : (s.setCtx c x).slNext = s.slNext := rfl
@[simp] theorem State.setCtx_slBegun (s : State) (c : Nat) (x : Ctx) : (s.setCtx c x).slBegun = s.slBegun := rfl
@[simp] theorem State.setCtx_stcov (s : State) (c : Nat) (x : Ctx) : (s.setCtx c x).stcov = s.stcov := rfl
@[simp] theorem State.setCtx_rasth (s : State) (c : Nat) (x : Ctx) : (s.setCtx c x).rasth = s.rasth := rfl
@[simp] theorem State.setCtx_rasce (s : State) (c : Nat) (x : Ctx) : (s.setCtx c x).rasce = s.rasce := rfl
@[simp] theorem State.setCtx_rasst (s : State) (c : Nat) (x : Ctx) : (s.setCtx c x).rasst = s.rasst := rfl
@[simp] theorem State.setCtx_window (s : State) (c : Nat) (x : Ctx) : (s.setCtx c x).window = s.window := rfl
@[simp] theorem State.setCtx_lost (s : State) (c : Nat) (x : Ctx) : (s.setCtx c x).lost = s.lost := rfl
@[simp] theorem State.setCtx_fullAt (s : State) (c : Nat) (x : Ctx) : (s.setCtx c x).fullAt = s.fullAt := rfl
@[simp] theorem State.setCtx_endpoints (s : State) (c : Nat) (x : Ctx) : (s.setCtx c x).endpoints = s.endpoints := rfl
@[simp] theorem State.setCtx_ports (s : State) (c : Nat) (x : Ctx) : (s.setCtx c x).ports = s.ports := rfl
@[simp] theorem State.setCtx_spurOut (s : State) (c : Nat) (x : Ctx) : (s.setCtx c x).spurOut = s.spurOut := rfl
@[simp] theorem State.setCtx_felmirOut (s : State) (c : Nat) (x : Ctx) : (s.setCtx c x).felmirOut = s.felmirOut := rfl
@[simp] theorem State.setCtx_slow (s : State) (c : Nat) (x : Ctx) : (s.setCtx c x).slow = s.slow := rfl
@[simp] theorem State.setCtx_coolSlow (s : State) (c : Nat) (x : Ctx) : (s.setCtx c x).coolSlow = s.coolSlow := rfl
@[simp] theorem State.setCtx_stopped (s : State) (c : Nat) (x : Ctx) : (s.setCtx c x).stopped = s.stopped := rfl
@[simp] theorem State.setCtx_meas (s : State) (c : Nat) (x : Ctx) : (s.setCtx c x).meas = s.meas := rfl
@[simp] theorem State.setCtx_fuse (s : State) (c : Nat) (x : Ctx) : (s.setCtx c x).fuse = s.fuse := rfl
@[simp] theorem State.setCtx_firmware (s : State) (c : Nat) (x : Ctx) : (s.setCtx c x).firmware = s.firmware := rfl
@[simp] theorem State.setCtx_waiting (s : State) (c : Nat) (x : Ctx) : (s.setCtx c x).waiting = s.waiting := rfl

/-! ### `State.onCtx` -/

@[simp] theorem State.onCtx_cur (s : State) (c : Nat) (f : Ctx → Ctx) : (s.onCtx c f).cur = s.cur := rfl
@[simp] theorem State.onCtx_agenda (s : State) (c : Nat) (f : Ctx → Ctx) : (s.onCtx c f).agenda = s.agenda := rfl
@[simp] theorem State.onCtx_turnNo (s : State) (c : Nat) (f : Ctx → Ctx) : (s.onCtx c f).turnNo = s.turnNo := rfl
@[simp] theorem State.onCtx_powered (s : State) (c : Nat) (f : Ctx → Ctx) : (s.onCtx c f).powered = s.powered := rfl
@[simp] theorem State.onCtx_heldStep (s : State) (c : Nat) (f : Ctx → Ctx) : (s.onCtx c f).heldStep = s.heldStep := rfl
@[simp] theorem State.onCtx_cycle (s : State) (c : Nat) (f : Ctx → Ctx) : (s.onCtx c f).cycle = s.cycle := rfl
@[simp] theorem State.onCtx_gtime (s : State) (c : Nat) (f : Ctx → Ctx) : (s.onCtx c f).gtime = s.gtime := rfl
@[simp] theorem State.onCtx_issued (s : State) (c : Nat) (f : Ctx → Ctx) : (s.onCtx c f).issued = s.issued := rfl
@[simp] theorem State.onCtx_mapFree (s : State) (c : Nat) (f : Ctx → Ctx) : (s.onCtx c f).mapFree = s.mapFree := rfl
@[simp] theorem State.onCtx_mem (s : State) (c : Nat) (f : Ctx → Ctx) : (s.onCtx c f).mem = s.mem := rfl
@[simp] theorem State.onCtx_l1 (s : State) (c : Nat) (f : Ctx → Ctx) : (s.onCtx c f).l1 = s.l1 := rfl
@[simp] theorem State.onCtx_rdc (s : State) (c : Nat) (f : Ctx → Ctx) : (s.onCtx c f).rdc = s.rdc := rfl
@[simp] theorem State.onCtx_icache (s : State) (c : Nat) (f : Ctx → Ctx) : (s.onCtx c f).icache = s.icache := rfl
@[simp] theorem State.onCtx_tlb (s : State) (c : Nat) (f : Ctx → Ctx) : (s.onCtx c f).tlb = s.tlb := rfl
@[simp] theorem State.onCtx_poison (s : State) (c : Nat) (f : Ctx → Ctx) : (s.onCtx c f).poison = s.poison := rfl
@[simp] theorem State.onCtx_errs (s : State) (c : Nat) (f : Ctx → Ctx) : (s.onCtx c f).errs = s.errs := rfl
@[simp] theorem State.onCtx_epoch (s : State) (c : Nat) (f : Ctx → Ctx) : (s.onCtx c f).epoch = s.epoch := rfl
@[simp] theorem State.onCtx_ids (s : State) (c : Nat) (f : Ctx → Ctx) : (s.onCtx c f).ids = s.ids := rfl
@[simp] theorem State.onCtx_sids (s : State) (c : Nat) (f : Ctx → Ctx) : (s.onCtx c f).sids = s.sids := rfl
@[simp] theorem State.onCtx_stamps (s : State) (c : Nat) (f : Ctx → Ctx) : (s.onCtx c f).stamps = s.stamps := rfl
@[simp] theorem State.onCtx_seen (s : State) (c : Nat) (f : Ctx → Ctx) : (s.onCtx c f).seen = s.seen := rfl
@[simp] theorem State.onCtx_hostCopies (s : State) (c : Nat) (f : Ctx → Ctx) : (s.onCtx c f).hostCopies = s.hostCopies := rfl
@[simp] theorem State.onCtx_hostDirty (s : State) (c : Nat) (f : Ctx → Ctx) : (s.onCtx c f).hostDirty = s.hostDirty := rfl
@[simp] theorem State.onCtx_hostFails (s : State) (c : Nat) (f : Ctx → Ctx) : (s.onCtx c f).hostFails = s.hostFails := rfl
@[simp] theorem State.onCtx_ctxs (s : State) (c : Nat) (f : Ctx → Ctx) : (s.onCtx c f).ctxs = sset Ctx.reset s.ctxs c (f (s.ctx c)) := rfl
@[simp] theorem State.onCtx_launches (s : State) (c : Nat) (f : Ctx → Ctx) : (s.onCtx c f).launches = s.launches := rfl
@[simp] theorem State.onCtx_blocks (s : State) (c : Nat) (f : Ctx → Ctx) : (s.onCtx c f).blocks = s.blocks := rfl
@[simp] theorem State.onCtx_ops (s : State) (c : Nat) (f : Ctx → Ctx) : (s.onCtx c f).ops = s.ops := rfl
@[simp] theorem State.onCtx_awaits (s : State) (c : Nat) (f : Ctx → Ctx) : (s.onCtx c f).awaits = s.awaits := rfl
@[simp] theorem State.onCtx_leats (s : State) (c : Nat) (f : Ctx → Ctx) : (s.onCtx c f).leats = s.leats := rfl
@[simp] theorem State.onCtx_watches (s : State) (c : Nat) (f : Ctx → Ctx) : (s.onCtx c f).watches = s.watches := rfl
@[simp] theorem State.onCtx_arms (s : State) (c : Nat) (f : Ctx → Ctx) : (s.onCtx c f).arms = s.arms := rfl
@[simp] theorem State.onCtx_colls (s : State) (c : Nat) (f : Ctx → Ctx) : (s.onCtx c f).colls = s.colls := rfl
@[simp] theorem State.onCtx_turns (s : State) (c : Nat) (f : Ctx → Ctx) : (s.onCtx c f).turns = s.turns := rfl
@[simp] theorem State.onCtx_nextId (s : State) (c : Nat) (f : Ctx → Ctx) : (s.onCtx c f).nextId = s.nextId := rfl
@[simp] theorem State.onCtx_ctxcmd (s : State) (c : Nat) (f : Ctx → Ctx) : (s.onCtx c f).ctxcmd = s.ctxcmd := rfl
@[simp] theorem State.onCtx_slt0 (s : State) (c : Nat) (f : Ctx → Ctx) : (s.onCtx c f).slt0 = s.slt0 := rfl
@[simp] theorem State.onCtx_slper (s : State) (c : Nat) (f : Ctx → Ctx) : (s.onCtx c f).slper = s.slper := rfl
@[simp] theorem State.onCtx_slNext (s : State) (c : Nat) (f : Ctx → Ctx) : (s.onCtx c f).slNext = s.slNext := rfl
@[simp] theorem State.onCtx_slBegun (s : State) (c : Nat) (f : Ctx → Ctx) : (s.onCtx c f).slBegun = s.slBegun := rfl
@[simp] theorem State.onCtx_stcov (s : State) (c : Nat) (f : Ctx → Ctx) : (s.onCtx c f).stcov = s.stcov := rfl
@[simp] theorem State.onCtx_rasth (s : State) (c : Nat) (f : Ctx → Ctx) : (s.onCtx c f).rasth = s.rasth := rfl
@[simp] theorem State.onCtx_rasce (s : State) (c : Nat) (f : Ctx → Ctx) : (s.onCtx c f).rasce = s.rasce := rfl
@[simp] theorem State.onCtx_rasst (s : State) (c : Nat) (f : Ctx → Ctx) : (s.onCtx c f).rasst = s.rasst := rfl
@[simp] theorem State.onCtx_window (s : State) (c : Nat) (f : Ctx → Ctx) : (s.onCtx c f).window = s.window := rfl
@[simp] theorem State.onCtx_lost (s : State) (c : Nat) (f : Ctx → Ctx) : (s.onCtx c f).lost = s.lost := rfl
@[simp] theorem State.onCtx_fullAt (s : State) (c : Nat) (f : Ctx → Ctx) : (s.onCtx c f).fullAt = s.fullAt := rfl
@[simp] theorem State.onCtx_endpoints (s : State) (c : Nat) (f : Ctx → Ctx) : (s.onCtx c f).endpoints = s.endpoints := rfl
@[simp] theorem State.onCtx_ports (s : State) (c : Nat) (f : Ctx → Ctx) : (s.onCtx c f).ports = s.ports := rfl
@[simp] theorem State.onCtx_spurOut (s : State) (c : Nat) (f : Ctx → Ctx) : (s.onCtx c f).spurOut = s.spurOut := rfl
@[simp] theorem State.onCtx_felmirOut (s : State) (c : Nat) (f : Ctx → Ctx) : (s.onCtx c f).felmirOut = s.felmirOut := rfl
@[simp] theorem State.onCtx_slow (s : State) (c : Nat) (f : Ctx → Ctx) : (s.onCtx c f).slow = s.slow := rfl
@[simp] theorem State.onCtx_coolSlow (s : State) (c : Nat) (f : Ctx → Ctx) : (s.onCtx c f).coolSlow = s.coolSlow := rfl
@[simp] theorem State.onCtx_stopped (s : State) (c : Nat) (f : Ctx → Ctx) : (s.onCtx c f).stopped = s.stopped := rfl
@[simp] theorem State.onCtx_meas (s : State) (c : Nat) (f : Ctx → Ctx) : (s.onCtx c f).meas = s.meas := rfl
@[simp] theorem State.onCtx_fuse (s : State) (c : Nat) (f : Ctx → Ctx) : (s.onCtx c f).fuse = s.fuse := rfl
@[simp] theorem State.onCtx_firmware (s : State) (c : Nat) (f : Ctx → Ctx) : (s.onCtx c f).firmware = s.firmware := rfl
@[simp] theorem State.onCtx_waiting (s : State) (c : Nat) (f : Ctx → Ctx) : (s.onCtx c f).waiting = s.waiting := rfl

/-! ### `State.setLaunch` -/

@[simp] theorem State.setLaunch_cur (s : State) (l : Launch) : (s.setLaunch l).cur = s.cur := rfl
@[simp] theorem State.setLaunch_agenda (s : State) (l : Launch) : (s.setLaunch l).agenda = s.agenda := rfl
@[simp] theorem State.setLaunch_turnNo (s : State) (l : Launch) : (s.setLaunch l).turnNo = s.turnNo := rfl
@[simp] theorem State.setLaunch_powered (s : State) (l : Launch) : (s.setLaunch l).powered = s.powered := rfl
@[simp] theorem State.setLaunch_heldStep (s : State) (l : Launch) : (s.setLaunch l).heldStep = s.heldStep := rfl
@[simp] theorem State.setLaunch_cycle (s : State) (l : Launch) : (s.setLaunch l).cycle = s.cycle := rfl
@[simp] theorem State.setLaunch_gtime (s : State) (l : Launch) : (s.setLaunch l).gtime = s.gtime := rfl
@[simp] theorem State.setLaunch_issued (s : State) (l : Launch) : (s.setLaunch l).issued = s.issued := rfl
@[simp] theorem State.setLaunch_mapFree (s : State) (l : Launch) : (s.setLaunch l).mapFree = s.mapFree := rfl
@[simp] theorem State.setLaunch_mem (s : State) (l : Launch) : (s.setLaunch l).mem = s.mem := rfl
@[simp] theorem State.setLaunch_l1 (s : State) (l : Launch) : (s.setLaunch l).l1 = s.l1 := rfl
@[simp] theorem State.setLaunch_rdc (s : State) (l : Launch) : (s.setLaunch l).rdc = s.rdc := rfl
@[simp] theorem State.setLaunch_icache (s : State) (l : Launch) : (s.setLaunch l).icache = s.icache := rfl
@[simp] theorem State.setLaunch_tlb (s : State) (l : Launch) : (s.setLaunch l).tlb = s.tlb := rfl
@[simp] theorem State.setLaunch_poison (s : State) (l : Launch) : (s.setLaunch l).poison = s.poison := rfl
@[simp] theorem State.setLaunch_errs (s : State) (l : Launch) : (s.setLaunch l).errs = s.errs := rfl
@[simp] theorem State.setLaunch_epoch (s : State) (l : Launch) : (s.setLaunch l).epoch = s.epoch := rfl
@[simp] theorem State.setLaunch_ids (s : State) (l : Launch) : (s.setLaunch l).ids = s.ids := rfl
@[simp] theorem State.setLaunch_sids (s : State) (l : Launch) : (s.setLaunch l).sids = s.sids := rfl
@[simp] theorem State.setLaunch_stamps (s : State) (l : Launch) : (s.setLaunch l).stamps = s.stamps := rfl
@[simp] theorem State.setLaunch_seen (s : State) (l : Launch) : (s.setLaunch l).seen = s.seen := rfl
@[simp] theorem State.setLaunch_hostCopies (s : State) (l : Launch) : (s.setLaunch l).hostCopies = s.hostCopies := rfl
@[simp] theorem State.setLaunch_hostDirty (s : State) (l : Launch) : (s.setLaunch l).hostDirty = s.hostDirty := rfl
@[simp] theorem State.setLaunch_hostFails (s : State) (l : Launch) : (s.setLaunch l).hostFails = s.hostFails := rfl
@[simp] theorem State.setLaunch_ctxs (s : State) (l : Launch) : (s.setLaunch l).ctxs = s.ctxs := rfl
@[simp] theorem State.setLaunch_launches (s : State) (l : Launch) : (s.setLaunch l).launches = updIf (·.id == l.id) (fun _ => l) s.launches := rfl
@[simp] theorem State.setLaunch_blocks (s : State) (l : Launch) : (s.setLaunch l).blocks = s.blocks := rfl
@[simp] theorem State.setLaunch_ops (s : State) (l : Launch) : (s.setLaunch l).ops = s.ops := rfl
@[simp] theorem State.setLaunch_awaits (s : State) (l : Launch) : (s.setLaunch l).awaits = s.awaits := rfl
@[simp] theorem State.setLaunch_leats (s : State) (l : Launch) : (s.setLaunch l).leats = s.leats := rfl
@[simp] theorem State.setLaunch_watches (s : State) (l : Launch) : (s.setLaunch l).watches = s.watches := rfl
@[simp] theorem State.setLaunch_arms (s : State) (l : Launch) : (s.setLaunch l).arms = s.arms := rfl
@[simp] theorem State.setLaunch_colls (s : State) (l : Launch) : (s.setLaunch l).colls = s.colls := rfl
@[simp] theorem State.setLaunch_turns (s : State) (l : Launch) : (s.setLaunch l).turns = s.turns := rfl
@[simp] theorem State.setLaunch_nextId (s : State) (l : Launch) : (s.setLaunch l).nextId = s.nextId := rfl
@[simp] theorem State.setLaunch_ctxcmd (s : State) (l : Launch) : (s.setLaunch l).ctxcmd = s.ctxcmd := rfl
@[simp] theorem State.setLaunch_slt0 (s : State) (l : Launch) : (s.setLaunch l).slt0 = s.slt0 := rfl
@[simp] theorem State.setLaunch_slper (s : State) (l : Launch) : (s.setLaunch l).slper = s.slper := rfl
@[simp] theorem State.setLaunch_slNext (s : State) (l : Launch) : (s.setLaunch l).slNext = s.slNext := rfl
@[simp] theorem State.setLaunch_slBegun (s : State) (l : Launch) : (s.setLaunch l).slBegun = s.slBegun := rfl
@[simp] theorem State.setLaunch_stcov (s : State) (l : Launch) : (s.setLaunch l).stcov = s.stcov := rfl
@[simp] theorem State.setLaunch_rasth (s : State) (l : Launch) : (s.setLaunch l).rasth = s.rasth := rfl
@[simp] theorem State.setLaunch_rasce (s : State) (l : Launch) : (s.setLaunch l).rasce = s.rasce := rfl
@[simp] theorem State.setLaunch_rasst (s : State) (l : Launch) : (s.setLaunch l).rasst = s.rasst := rfl
@[simp] theorem State.setLaunch_window (s : State) (l : Launch) : (s.setLaunch l).window = s.window := rfl
@[simp] theorem State.setLaunch_lost (s : State) (l : Launch) : (s.setLaunch l).lost = s.lost := rfl
@[simp] theorem State.setLaunch_fullAt (s : State) (l : Launch) : (s.setLaunch l).fullAt = s.fullAt := rfl
@[simp] theorem State.setLaunch_endpoints (s : State) (l : Launch) : (s.setLaunch l).endpoints = s.endpoints := rfl
@[simp] theorem State.setLaunch_ports (s : State) (l : Launch) : (s.setLaunch l).ports = s.ports := rfl
@[simp] theorem State.setLaunch_spurOut (s : State) (l : Launch) : (s.setLaunch l).spurOut = s.spurOut := rfl
@[simp] theorem State.setLaunch_felmirOut (s : State) (l : Launch) : (s.setLaunch l).felmirOut = s.felmirOut := rfl
@[simp] theorem State.setLaunch_slow (s : State) (l : Launch) : (s.setLaunch l).slow = s.slow := rfl
@[simp] theorem State.setLaunch_coolSlow (s : State) (l : Launch) : (s.setLaunch l).coolSlow = s.coolSlow := rfl
@[simp] theorem State.setLaunch_stopped (s : State) (l : Launch) : (s.setLaunch l).stopped = s.stopped := rfl
@[simp] theorem State.setLaunch_meas (s : State) (l : Launch) : (s.setLaunch l).meas = s.meas := rfl
@[simp] theorem State.setLaunch_fuse (s : State) (l : Launch) : (s.setLaunch l).fuse = s.fuse := rfl
@[simp] theorem State.setLaunch_firmware (s : State) (l : Launch) : (s.setLaunch l).firmware = s.firmware := rfl
@[simp] theorem State.setLaunch_waiting (s : State) (l : Launch) : (s.setLaunch l).waiting = s.waiting := rfl

/-! ### `State.onLaunch` -/

@[simp] theorem State.onLaunch_cur (s : State) (lid : Nat) (f : Launch → Launch) : (s.onLaunch lid f).cur = s.cur := rfl
@[simp] theorem State.onLaunch_agenda (s : State) (lid : Nat) (f : Launch → Launch) : (s.onLaunch lid f).agenda = s.agenda := rfl
@[simp] theorem State.onLaunch_turnNo (s : State) (lid : Nat) (f : Launch → Launch) : (s.onLaunch lid f).turnNo = s.turnNo := rfl
@[simp] theorem State.onLaunch_powered (s : State) (lid : Nat) (f : Launch → Launch) : (s.onLaunch lid f).powered = s.powered := rfl
@[simp] theorem State.onLaunch_heldStep (s : State) (lid : Nat) (f : Launch → Launch) : (s.onLaunch lid f).heldStep = s.heldStep := rfl
@[simp] theorem State.onLaunch_cycle (s : State) (lid : Nat) (f : Launch → Launch) : (s.onLaunch lid f).cycle = s.cycle := rfl
@[simp] theorem State.onLaunch_gtime (s : State) (lid : Nat) (f : Launch → Launch) : (s.onLaunch lid f).gtime = s.gtime := rfl
@[simp] theorem State.onLaunch_issued (s : State) (lid : Nat) (f : Launch → Launch) : (s.onLaunch lid f).issued = s.issued := rfl
@[simp] theorem State.onLaunch_mapFree (s : State) (lid : Nat) (f : Launch → Launch) : (s.onLaunch lid f).mapFree = s.mapFree := rfl
@[simp] theorem State.onLaunch_mem (s : State) (lid : Nat) (f : Launch → Launch) : (s.onLaunch lid f).mem = s.mem := rfl
@[simp] theorem State.onLaunch_l1 (s : State) (lid : Nat) (f : Launch → Launch) : (s.onLaunch lid f).l1 = s.l1 := rfl
@[simp] theorem State.onLaunch_rdc (s : State) (lid : Nat) (f : Launch → Launch) : (s.onLaunch lid f).rdc = s.rdc := rfl
@[simp] theorem State.onLaunch_icache (s : State) (lid : Nat) (f : Launch → Launch) : (s.onLaunch lid f).icache = s.icache := rfl
@[simp] theorem State.onLaunch_tlb (s : State) (lid : Nat) (f : Launch → Launch) : (s.onLaunch lid f).tlb = s.tlb := rfl
@[simp] theorem State.onLaunch_poison (s : State) (lid : Nat) (f : Launch → Launch) : (s.onLaunch lid f).poison = s.poison := rfl
@[simp] theorem State.onLaunch_errs (s : State) (lid : Nat) (f : Launch → Launch) : (s.onLaunch lid f).errs = s.errs := rfl
@[simp] theorem State.onLaunch_epoch (s : State) (lid : Nat) (f : Launch → Launch) : (s.onLaunch lid f).epoch = s.epoch := rfl
@[simp] theorem State.onLaunch_ids (s : State) (lid : Nat) (f : Launch → Launch) : (s.onLaunch lid f).ids = s.ids := rfl
@[simp] theorem State.onLaunch_sids (s : State) (lid : Nat) (f : Launch → Launch) : (s.onLaunch lid f).sids = s.sids := rfl
@[simp] theorem State.onLaunch_stamps (s : State) (lid : Nat) (f : Launch → Launch) : (s.onLaunch lid f).stamps = s.stamps := rfl
@[simp] theorem State.onLaunch_seen (s : State) (lid : Nat) (f : Launch → Launch) : (s.onLaunch lid f).seen = s.seen := rfl
@[simp] theorem State.onLaunch_hostCopies (s : State) (lid : Nat) (f : Launch → Launch) : (s.onLaunch lid f).hostCopies = s.hostCopies := rfl
@[simp] theorem State.onLaunch_hostDirty (s : State) (lid : Nat) (f : Launch → Launch) : (s.onLaunch lid f).hostDirty = s.hostDirty := rfl
@[simp] theorem State.onLaunch_hostFails (s : State) (lid : Nat) (f : Launch → Launch) : (s.onLaunch lid f).hostFails = s.hostFails := rfl
@[simp] theorem State.onLaunch_ctxs (s : State) (lid : Nat) (f : Launch → Launch) : (s.onLaunch lid f).ctxs = s.ctxs := rfl
@[simp] theorem State.onLaunch_launches (s : State) (lid : Nat) (f : Launch → Launch) : (s.onLaunch lid f).launches = updIf (·.id == lid) f s.launches := rfl
@[simp] theorem State.onLaunch_blocks (s : State) (lid : Nat) (f : Launch → Launch) : (s.onLaunch lid f).blocks = s.blocks := rfl
@[simp] theorem State.onLaunch_ops (s : State) (lid : Nat) (f : Launch → Launch) : (s.onLaunch lid f).ops = s.ops := rfl
@[simp] theorem State.onLaunch_awaits (s : State) (lid : Nat) (f : Launch → Launch) : (s.onLaunch lid f).awaits = s.awaits := rfl
@[simp] theorem State.onLaunch_leats (s : State) (lid : Nat) (f : Launch → Launch) : (s.onLaunch lid f).leats = s.leats := rfl
@[simp] theorem State.onLaunch_watches (s : State) (lid : Nat) (f : Launch → Launch) : (s.onLaunch lid f).watches = s.watches := rfl
@[simp] theorem State.onLaunch_arms (s : State) (lid : Nat) (f : Launch → Launch) : (s.onLaunch lid f).arms = s.arms := rfl
@[simp] theorem State.onLaunch_colls (s : State) (lid : Nat) (f : Launch → Launch) : (s.onLaunch lid f).colls = s.colls := rfl
@[simp] theorem State.onLaunch_turns (s : State) (lid : Nat) (f : Launch → Launch) : (s.onLaunch lid f).turns = s.turns := rfl
@[simp] theorem State.onLaunch_nextId (s : State) (lid : Nat) (f : Launch → Launch) : (s.onLaunch lid f).nextId = s.nextId := rfl
@[simp] theorem State.onLaunch_ctxcmd (s : State) (lid : Nat) (f : Launch → Launch) : (s.onLaunch lid f).ctxcmd = s.ctxcmd := rfl
@[simp] theorem State.onLaunch_slt0 (s : State) (lid : Nat) (f : Launch → Launch) : (s.onLaunch lid f).slt0 = s.slt0 := rfl
@[simp] theorem State.onLaunch_slper (s : State) (lid : Nat) (f : Launch → Launch) : (s.onLaunch lid f).slper = s.slper := rfl
@[simp] theorem State.onLaunch_slNext (s : State) (lid : Nat) (f : Launch → Launch) : (s.onLaunch lid f).slNext = s.slNext := rfl
@[simp] theorem State.onLaunch_slBegun (s : State) (lid : Nat) (f : Launch → Launch) : (s.onLaunch lid f).slBegun = s.slBegun := rfl
@[simp] theorem State.onLaunch_stcov (s : State) (lid : Nat) (f : Launch → Launch) : (s.onLaunch lid f).stcov = s.stcov := rfl
@[simp] theorem State.onLaunch_rasth (s : State) (lid : Nat) (f : Launch → Launch) : (s.onLaunch lid f).rasth = s.rasth := rfl
@[simp] theorem State.onLaunch_rasce (s : State) (lid : Nat) (f : Launch → Launch) : (s.onLaunch lid f).rasce = s.rasce := rfl
@[simp] theorem State.onLaunch_rasst (s : State) (lid : Nat) (f : Launch → Launch) : (s.onLaunch lid f).rasst = s.rasst := rfl
@[simp] theorem State.onLaunch_window (s : State) (lid : Nat) (f : Launch → Launch) : (s.onLaunch lid f).window = s.window := rfl
@[simp] theorem State.onLaunch_lost (s : State) (lid : Nat) (f : Launch → Launch) : (s.onLaunch lid f).lost = s.lost := rfl
@[simp] theorem State.onLaunch_fullAt (s : State) (lid : Nat) (f : Launch → Launch) : (s.onLaunch lid f).fullAt = s.fullAt := rfl
@[simp] theorem State.onLaunch_endpoints (s : State) (lid : Nat) (f : Launch → Launch) : (s.onLaunch lid f).endpoints = s.endpoints := rfl
@[simp] theorem State.onLaunch_ports (s : State) (lid : Nat) (f : Launch → Launch) : (s.onLaunch lid f).ports = s.ports := rfl
@[simp] theorem State.onLaunch_spurOut (s : State) (lid : Nat) (f : Launch → Launch) : (s.onLaunch lid f).spurOut = s.spurOut := rfl
@[simp] theorem State.onLaunch_felmirOut (s : State) (lid : Nat) (f : Launch → Launch) : (s.onLaunch lid f).felmirOut = s.felmirOut := rfl
@[simp] theorem State.onLaunch_slow (s : State) (lid : Nat) (f : Launch → Launch) : (s.onLaunch lid f).slow = s.slow := rfl
@[simp] theorem State.onLaunch_coolSlow (s : State) (lid : Nat) (f : Launch → Launch) : (s.onLaunch lid f).coolSlow = s.coolSlow := rfl
@[simp] theorem State.onLaunch_stopped (s : State) (lid : Nat) (f : Launch → Launch) : (s.onLaunch lid f).stopped = s.stopped := rfl
@[simp] theorem State.onLaunch_meas (s : State) (lid : Nat) (f : Launch → Launch) : (s.onLaunch lid f).meas = s.meas := rfl
@[simp] theorem State.onLaunch_fuse (s : State) (lid : Nat) (f : Launch → Launch) : (s.onLaunch lid f).fuse = s.fuse := rfl
@[simp] theorem State.onLaunch_firmware (s : State) (lid : Nat) (f : Launch → Launch) : (s.onLaunch lid f).firmware = s.firmware := rfl
@[simp] theorem State.onLaunch_waiting (s : State) (lid : Nat) (f : Launch → Launch) : (s.onLaunch lid f).waiting = s.waiting := rfl

/-! ### `State.setBlock` -/

@[simp] theorem State.setBlock_cur (s : State) (b : Block) : (s.setBlock b).cur = s.cur := rfl
@[simp] theorem State.setBlock_agenda (s : State) (b : Block) : (s.setBlock b).agenda = s.agenda := rfl
@[simp] theorem State.setBlock_turnNo (s : State) (b : Block) : (s.setBlock b).turnNo = s.turnNo := rfl
@[simp] theorem State.setBlock_powered (s : State) (b : Block) : (s.setBlock b).powered = s.powered := rfl
@[simp] theorem State.setBlock_heldStep (s : State) (b : Block) : (s.setBlock b).heldStep = s.heldStep := rfl
@[simp] theorem State.setBlock_cycle (s : State) (b : Block) : (s.setBlock b).cycle = s.cycle := rfl
@[simp] theorem State.setBlock_gtime (s : State) (b : Block) : (s.setBlock b).gtime = s.gtime := rfl
@[simp] theorem State.setBlock_issued (s : State) (b : Block) : (s.setBlock b).issued = s.issued := rfl
@[simp] theorem State.setBlock_mapFree (s : State) (b : Block) : (s.setBlock b).mapFree = s.mapFree := rfl
@[simp] theorem State.setBlock_mem (s : State) (b : Block) : (s.setBlock b).mem = s.mem := rfl
@[simp] theorem State.setBlock_l1 (s : State) (b : Block) : (s.setBlock b).l1 = s.l1 := rfl
@[simp] theorem State.setBlock_rdc (s : State) (b : Block) : (s.setBlock b).rdc = s.rdc := rfl
@[simp] theorem State.setBlock_icache (s : State) (b : Block) : (s.setBlock b).icache = s.icache := rfl
@[simp] theorem State.setBlock_tlb (s : State) (b : Block) : (s.setBlock b).tlb = s.tlb := rfl
@[simp] theorem State.setBlock_poison (s : State) (b : Block) : (s.setBlock b).poison = s.poison := rfl
@[simp] theorem State.setBlock_errs (s : State) (b : Block) : (s.setBlock b).errs = s.errs := rfl
@[simp] theorem State.setBlock_epoch (s : State) (b : Block) : (s.setBlock b).epoch = s.epoch := rfl
@[simp] theorem State.setBlock_ids (s : State) (b : Block) : (s.setBlock b).ids = s.ids := rfl
@[simp] theorem State.setBlock_sids (s : State) (b : Block) : (s.setBlock b).sids = s.sids := rfl
@[simp] theorem State.setBlock_stamps (s : State) (b : Block) : (s.setBlock b).stamps = s.stamps := rfl
@[simp] theorem State.setBlock_seen (s : State) (b : Block) : (s.setBlock b).seen = s.seen := rfl
@[simp] theorem State.setBlock_hostCopies (s : State) (b : Block) : (s.setBlock b).hostCopies = s.hostCopies := rfl
@[simp] theorem State.setBlock_hostDirty (s : State) (b : Block) : (s.setBlock b).hostDirty = s.hostDirty := rfl
@[simp] theorem State.setBlock_hostFails (s : State) (b : Block) : (s.setBlock b).hostFails = s.hostFails := rfl
@[simp] theorem State.setBlock_ctxs (s : State) (b : Block) : (s.setBlock b).ctxs = s.ctxs := rfl
@[simp] theorem State.setBlock_launches (s : State) (b : Block) : (s.setBlock b).launches = s.launches := rfl
@[simp] theorem State.setBlock_blocks (s : State) (b : Block) : (s.setBlock b).blocks = updIf (·.bid == b.bid) (fun _ => b) s.blocks := rfl
@[simp] theorem State.setBlock_ops (s : State) (b : Block) : (s.setBlock b).ops = s.ops := rfl
@[simp] theorem State.setBlock_awaits (s : State) (b : Block) : (s.setBlock b).awaits = s.awaits := rfl
@[simp] theorem State.setBlock_leats (s : State) (b : Block) : (s.setBlock b).leats = s.leats := rfl
@[simp] theorem State.setBlock_watches (s : State) (b : Block) : (s.setBlock b).watches = s.watches := rfl
@[simp] theorem State.setBlock_arms (s : State) (b : Block) : (s.setBlock b).arms = s.arms := rfl
@[simp] theorem State.setBlock_colls (s : State) (b : Block) : (s.setBlock b).colls = s.colls := rfl
@[simp] theorem State.setBlock_turns (s : State) (b : Block) : (s.setBlock b).turns = s.turns := rfl
@[simp] theorem State.setBlock_nextId (s : State) (b : Block) : (s.setBlock b).nextId = s.nextId := rfl
@[simp] theorem State.setBlock_ctxcmd (s : State) (b : Block) : (s.setBlock b).ctxcmd = s.ctxcmd := rfl
@[simp] theorem State.setBlock_slt0 (s : State) (b : Block) : (s.setBlock b).slt0 = s.slt0 := rfl
@[simp] theorem State.setBlock_slper (s : State) (b : Block) : (s.setBlock b).slper = s.slper := rfl
@[simp] theorem State.setBlock_slNext (s : State) (b : Block) : (s.setBlock b).slNext = s.slNext := rfl
@[simp] theorem State.setBlock_slBegun (s : State) (b : Block) : (s.setBlock b).slBegun = s.slBegun := rfl
@[simp] theorem State.setBlock_stcov (s : State) (b : Block) : (s.setBlock b).stcov = s.stcov := rfl
@[simp] theorem State.setBlock_rasth (s : State) (b : Block) : (s.setBlock b).rasth = s.rasth := rfl
@[simp] theorem State.setBlock_rasce (s : State) (b : Block) : (s.setBlock b).rasce = s.rasce := rfl
@[simp] theorem State.setBlock_rasst (s : State) (b : Block) : (s.setBlock b).rasst = s.rasst := rfl
@[simp] theorem State.setBlock_window (s : State) (b : Block) : (s.setBlock b).window = s.window := rfl
@[simp] theorem State.setBlock_lost (s : State) (b : Block) : (s.setBlock b).lost = s.lost := rfl
@[simp] theorem State.setBlock_fullAt (s : State) (b : Block) : (s.setBlock b).fullAt = s.fullAt := rfl
@[simp] theorem State.setBlock_endpoints (s : State) (b : Block) : (s.setBlock b).endpoints = s.endpoints := rfl
@[simp] theorem State.setBlock_ports (s : State) (b : Block) : (s.setBlock b).ports = s.ports := rfl
@[simp] theorem State.setBlock_spurOut (s : State) (b : Block) : (s.setBlock b).spurOut = s.spurOut := rfl
@[simp] theorem State.setBlock_felmirOut (s : State) (b : Block) : (s.setBlock b).felmirOut = s.felmirOut := rfl
@[simp] theorem State.setBlock_slow (s : State) (b : Block) : (s.setBlock b).slow = s.slow := rfl
@[simp] theorem State.setBlock_coolSlow (s : State) (b : Block) : (s.setBlock b).coolSlow = s.coolSlow := rfl
@[simp] theorem State.setBlock_stopped (s : State) (b : Block) : (s.setBlock b).stopped = s.stopped := rfl
@[simp] theorem State.setBlock_meas (s : State) (b : Block) : (s.setBlock b).meas = s.meas := rfl
@[simp] theorem State.setBlock_fuse (s : State) (b : Block) : (s.setBlock b).fuse = s.fuse := rfl
@[simp] theorem State.setBlock_firmware (s : State) (b : Block) : (s.setBlock b).firmware = s.firmware := rfl
@[simp] theorem State.setBlock_waiting (s : State) (b : Block) : (s.setBlock b).waiting = s.waiting := rfl

/-! ### `State.onBlock` -/

@[simp] theorem State.onBlock_cur (s : State) (bid : Nat) (f : Block → Block) : (s.onBlock bid f).cur = s.cur := rfl
@[simp] theorem State.onBlock_agenda (s : State) (bid : Nat) (f : Block → Block) : (s.onBlock bid f).agenda = s.agenda := rfl
@[simp] theorem State.onBlock_turnNo (s : State) (bid : Nat) (f : Block → Block) : (s.onBlock bid f).turnNo = s.turnNo := rfl
@[simp] theorem State.onBlock_powered (s : State) (bid : Nat) (f : Block → Block) : (s.onBlock bid f).powered = s.powered := rfl
@[simp] theorem State.onBlock_heldStep (s : State) (bid : Nat) (f : Block → Block) : (s.onBlock bid f).heldStep = s.heldStep := rfl
@[simp] theorem State.onBlock_cycle (s : State) (bid : Nat) (f : Block → Block) : (s.onBlock bid f).cycle = s.cycle := rfl
@[simp] theorem State.onBlock_gtime (s : State) (bid : Nat) (f : Block → Block) : (s.onBlock bid f).gtime = s.gtime := rfl
@[simp] theorem State.onBlock_issued (s : State) (bid : Nat) (f : Block → Block) : (s.onBlock bid f).issued = s.issued := rfl
@[simp] theorem State.onBlock_mapFree (s : State) (bid : Nat) (f : Block → Block) : (s.onBlock bid f).mapFree = s.mapFree := rfl
@[simp] theorem State.onBlock_mem (s : State) (bid : Nat) (f : Block → Block) : (s.onBlock bid f).mem = s.mem := rfl
@[simp] theorem State.onBlock_l1 (s : State) (bid : Nat) (f : Block → Block) : (s.onBlock bid f).l1 = s.l1 := rfl
@[simp] theorem State.onBlock_rdc (s : State) (bid : Nat) (f : Block → Block) : (s.onBlock bid f).rdc = s.rdc := rfl
@[simp] theorem State.onBlock_icache (s : State) (bid : Nat) (f : Block → Block) : (s.onBlock bid f).icache = s.icache := rfl
@[simp] theorem State.onBlock_tlb (s : State) (bid : Nat) (f : Block → Block) : (s.onBlock bid f).tlb = s.tlb := rfl
@[simp] theorem State.onBlock_poison (s : State) (bid : Nat) (f : Block → Block) : (s.onBlock bid f).poison = s.poison := rfl
@[simp] theorem State.onBlock_errs (s : State) (bid : Nat) (f : Block → Block) : (s.onBlock bid f).errs = s.errs := rfl
@[simp] theorem State.onBlock_epoch (s : State) (bid : Nat) (f : Block → Block) : (s.onBlock bid f).epoch = s.epoch := rfl
@[simp] theorem State.onBlock_ids (s : State) (bid : Nat) (f : Block → Block) : (s.onBlock bid f).ids = s.ids := rfl
@[simp] theorem State.onBlock_sids (s : State) (bid : Nat) (f : Block → Block) : (s.onBlock bid f).sids = s.sids := rfl
@[simp] theorem State.onBlock_stamps (s : State) (bid : Nat) (f : Block → Block) : (s.onBlock bid f).stamps = s.stamps := rfl
@[simp] theorem State.onBlock_seen (s : State) (bid : Nat) (f : Block → Block) : (s.onBlock bid f).seen = s.seen := rfl
@[simp] theorem State.onBlock_hostCopies (s : State) (bid : Nat) (f : Block → Block) : (s.onBlock bid f).hostCopies = s.hostCopies := rfl
@[simp] theorem State.onBlock_hostDirty (s : State) (bid : Nat) (f : Block → Block) : (s.onBlock bid f).hostDirty = s.hostDirty := rfl
@[simp] theorem State.onBlock_hostFails (s : State) (bid : Nat) (f : Block → Block) : (s.onBlock bid f).hostFails = s.hostFails := rfl
@[simp] theorem State.onBlock_ctxs (s : State) (bid : Nat) (f : Block → Block) : (s.onBlock bid f).ctxs = s.ctxs := rfl
@[simp] theorem State.onBlock_launches (s : State) (bid : Nat) (f : Block → Block) : (s.onBlock bid f).launches = s.launches := rfl
@[simp] theorem State.onBlock_blocks (s : State) (bid : Nat) (f : Block → Block) : (s.onBlock bid f).blocks = updIf (·.bid == bid) f s.blocks := rfl
@[simp] theorem State.onBlock_ops (s : State) (bid : Nat) (f : Block → Block) : (s.onBlock bid f).ops = s.ops := rfl
@[simp] theorem State.onBlock_awaits (s : State) (bid : Nat) (f : Block → Block) : (s.onBlock bid f).awaits = s.awaits := rfl
@[simp] theorem State.onBlock_leats (s : State) (bid : Nat) (f : Block → Block) : (s.onBlock bid f).leats = s.leats := rfl
@[simp] theorem State.onBlock_watches (s : State) (bid : Nat) (f : Block → Block) : (s.onBlock bid f).watches = s.watches := rfl
@[simp] theorem State.onBlock_arms (s : State) (bid : Nat) (f : Block → Block) : (s.onBlock bid f).arms = s.arms := rfl
@[simp] theorem State.onBlock_colls (s : State) (bid : Nat) (f : Block → Block) : (s.onBlock bid f).colls = s.colls := rfl
@[simp] theorem State.onBlock_turns (s : State) (bid : Nat) (f : Block → Block) : (s.onBlock bid f).turns = s.turns := rfl
@[simp] theorem State.onBlock_nextId (s : State) (bid : Nat) (f : Block → Block) : (s.onBlock bid f).nextId = s.nextId := rfl
@[simp] theorem State.onBlock_ctxcmd (s : State) (bid : Nat) (f : Block → Block) : (s.onBlock bid f).ctxcmd = s.ctxcmd := rfl
@[simp] theorem State.onBlock_slt0 (s : State) (bid : Nat) (f : Block → Block) : (s.onBlock bid f).slt0 = s.slt0 := rfl
@[simp] theorem State.onBlock_slper (s : State) (bid : Nat) (f : Block → Block) : (s.onBlock bid f).slper = s.slper := rfl
@[simp] theorem State.onBlock_slNext (s : State) (bid : Nat) (f : Block → Block) : (s.onBlock bid f).slNext = s.slNext := rfl
@[simp] theorem State.onBlock_slBegun (s : State) (bid : Nat) (f : Block → Block) : (s.onBlock bid f).slBegun = s.slBegun := rfl
@[simp] theorem State.onBlock_stcov (s : State) (bid : Nat) (f : Block → Block) : (s.onBlock bid f).stcov = s.stcov := rfl
@[simp] theorem State.onBlock_rasth (s : State) (bid : Nat) (f : Block → Block) : (s.onBlock bid f).rasth = s.rasth := rfl
@[simp] theorem State.onBlock_rasce (s : State) (bid : Nat) (f : Block → Block) : (s.onBlock bid f).rasce = s.rasce := rfl
@[simp] theorem State.onBlock_rasst (s : State) (bid : Nat) (f : Block → Block) : (s.onBlock bid f).rasst = s.rasst := rfl
@[simp] theorem State.onBlock_window (s : State) (bid : Nat) (f : Block → Block) : (s.onBlock bid f).window = s.window := rfl
@[simp] theorem State.onBlock_lost (s : State) (bid : Nat) (f : Block → Block) : (s.onBlock bid f).lost = s.lost := rfl
@[simp] theorem State.onBlock_fullAt (s : State) (bid : Nat) (f : Block → Block) : (s.onBlock bid f).fullAt = s.fullAt := rfl
@[simp] theorem State.onBlock_endpoints (s : State) (bid : Nat) (f : Block → Block) : (s.onBlock bid f).endpoints = s.endpoints := rfl
@[simp] theorem State.onBlock_ports (s : State) (bid : Nat) (f : Block → Block) : (s.onBlock bid f).ports = s.ports := rfl
@[simp] theorem State.onBlock_spurOut (s : State) (bid : Nat) (f : Block → Block) : (s.onBlock bid f).spurOut = s.spurOut := rfl
@[simp] theorem State.onBlock_felmirOut (s : State) (bid : Nat) (f : Block → Block) : (s.onBlock bid f).felmirOut = s.felmirOut := rfl
@[simp] theorem State.onBlock_slow (s : State) (bid : Nat) (f : Block → Block) : (s.onBlock bid f).slow = s.slow := rfl
@[simp] theorem State.onBlock_coolSlow (s : State) (bid : Nat) (f : Block → Block) : (s.onBlock bid f).coolSlow = s.coolSlow := rfl
@[simp] theorem State.onBlock_stopped (s : State) (bid : Nat) (f : Block → Block) : (s.onBlock bid f).stopped = s.stopped := rfl
@[simp] theorem State.onBlock_meas (s : State) (bid : Nat) (f : Block → Block) : (s.onBlock bid f).meas = s.meas := rfl
@[simp] theorem State.onBlock_fuse (s : State) (bid : Nat) (f : Block → Block) : (s.onBlock bid f).fuse = s.fuse := rfl
@[simp] theorem State.onBlock_firmware (s : State) (bid : Nat) (f : Block → Block) : (s.onBlock bid f).firmware = s.firmware := rfl
@[simp] theorem State.onBlock_waiting (s : State) (bid : Nat) (f : Block → Block) : (s.onBlock bid f).waiting = s.waiting := rfl

/-! ### `State.onGroup` -/

@[simp] theorem State.onGroup_cur (s : State) (bid gid : Nat) (f : Group → Group) : (s.onGroup bid gid f).cur = s.cur := rfl
@[simp] theorem State.onGroup_agenda (s : State) (bid gid : Nat) (f : Group → Group) : (s.onGroup bid gid f).agenda = s.agenda := rfl
@[simp] theorem State.onGroup_turnNo (s : State) (bid gid : Nat) (f : Group → Group) : (s.onGroup bid gid f).turnNo = s.turnNo := rfl
@[simp] theorem State.onGroup_powered (s : State) (bid gid : Nat) (f : Group → Group) : (s.onGroup bid gid f).powered = s.powered := rfl
@[simp] theorem State.onGroup_heldStep (s : State) (bid gid : Nat) (f : Group → Group) : (s.onGroup bid gid f).heldStep = s.heldStep := rfl
@[simp] theorem State.onGroup_cycle (s : State) (bid gid : Nat) (f : Group → Group) : (s.onGroup bid gid f).cycle = s.cycle := rfl
@[simp] theorem State.onGroup_gtime (s : State) (bid gid : Nat) (f : Group → Group) : (s.onGroup bid gid f).gtime = s.gtime := rfl
@[simp] theorem State.onGroup_issued (s : State) (bid gid : Nat) (f : Group → Group) : (s.onGroup bid gid f).issued = s.issued := rfl
@[simp] theorem State.onGroup_mapFree (s : State) (bid gid : Nat) (f : Group → Group) : (s.onGroup bid gid f).mapFree = s.mapFree := rfl
@[simp] theorem State.onGroup_mem (s : State) (bid gid : Nat) (f : Group → Group) : (s.onGroup bid gid f).mem = s.mem := rfl
@[simp] theorem State.onGroup_l1 (s : State) (bid gid : Nat) (f : Group → Group) : (s.onGroup bid gid f).l1 = s.l1 := rfl
@[simp] theorem State.onGroup_rdc (s : State) (bid gid : Nat) (f : Group → Group) : (s.onGroup bid gid f).rdc = s.rdc := rfl
@[simp] theorem State.onGroup_icache (s : State) (bid gid : Nat) (f : Group → Group) : (s.onGroup bid gid f).icache = s.icache := rfl
@[simp] theorem State.onGroup_tlb (s : State) (bid gid : Nat) (f : Group → Group) : (s.onGroup bid gid f).tlb = s.tlb := rfl
@[simp] theorem State.onGroup_poison (s : State) (bid gid : Nat) (f : Group → Group) : (s.onGroup bid gid f).poison = s.poison := rfl
@[simp] theorem State.onGroup_errs (s : State) (bid gid : Nat) (f : Group → Group) : (s.onGroup bid gid f).errs = s.errs := rfl
@[simp] theorem State.onGroup_epoch (s : State) (bid gid : Nat) (f : Group → Group) : (s.onGroup bid gid f).epoch = s.epoch := rfl
@[simp] theorem State.onGroup_ids (s : State) (bid gid : Nat) (f : Group → Group) : (s.onGroup bid gid f).ids = s.ids := rfl
@[simp] theorem State.onGroup_sids (s : State) (bid gid : Nat) (f : Group → Group) : (s.onGroup bid gid f).sids = s.sids := rfl
@[simp] theorem State.onGroup_stamps (s : State) (bid gid : Nat) (f : Group → Group) : (s.onGroup bid gid f).stamps = s.stamps := rfl
@[simp] theorem State.onGroup_seen (s : State) (bid gid : Nat) (f : Group → Group) : (s.onGroup bid gid f).seen = s.seen := rfl
@[simp] theorem State.onGroup_hostCopies (s : State) (bid gid : Nat) (f : Group → Group) : (s.onGroup bid gid f).hostCopies = s.hostCopies := rfl
@[simp] theorem State.onGroup_hostDirty (s : State) (bid gid : Nat) (f : Group → Group) : (s.onGroup bid gid f).hostDirty = s.hostDirty := rfl
@[simp] theorem State.onGroup_hostFails (s : State) (bid gid : Nat) (f : Group → Group) : (s.onGroup bid gid f).hostFails = s.hostFails := rfl
@[simp] theorem State.onGroup_ctxs (s : State) (bid gid : Nat) (f : Group → Group) : (s.onGroup bid gid f).ctxs = s.ctxs := rfl
@[simp] theorem State.onGroup_launches (s : State) (bid gid : Nat) (f : Group → Group) : (s.onGroup bid gid f).launches = s.launches := rfl
@[simp] theorem State.onGroup_blocks (s : State) (bid gid : Nat) (f : Group → Group) : (s.onGroup bid gid f).blocks = updIf (·.bid == bid) (fun b => { b with groups := updIf (·.gid == gid) f b.groups }) s.blocks := rfl
@[simp] theorem State.onGroup_ops (s : State) (bid gid : Nat) (f : Group → Group) : (s.onGroup bid gid f).ops = s.ops := rfl
@[simp] theorem State.onGroup_awaits (s : State) (bid gid : Nat) (f : Group → Group) : (s.onGroup bid gid f).awaits = s.awaits := rfl
@[simp] theorem State.onGroup_leats (s : State) (bid gid : Nat) (f : Group → Group) : (s.onGroup bid gid f).leats = s.leats := rfl
@[simp] theorem State.onGroup_watches (s : State) (bid gid : Nat) (f : Group → Group) : (s.onGroup bid gid f).watches = s.watches := rfl
@[simp] theorem State.onGroup_arms (s : State) (bid gid : Nat) (f : Group → Group) : (s.onGroup bid gid f).arms = s.arms := rfl
@[simp] theorem State.onGroup_colls (s : State) (bid gid : Nat) (f : Group → Group) : (s.onGroup bid gid f).colls = s.colls := rfl
@[simp] theorem State.onGroup_turns (s : State) (bid gid : Nat) (f : Group → Group) : (s.onGroup bid gid f).turns = s.turns := rfl
@[simp] theorem State.onGroup_nextId (s : State) (bid gid : Nat) (f : Group → Group) : (s.onGroup bid gid f).nextId = s.nextId := rfl
@[simp] theorem State.onGroup_ctxcmd (s : State) (bid gid : Nat) (f : Group → Group) : (s.onGroup bid gid f).ctxcmd = s.ctxcmd := rfl
@[simp] theorem State.onGroup_slt0 (s : State) (bid gid : Nat) (f : Group → Group) : (s.onGroup bid gid f).slt0 = s.slt0 := rfl
@[simp] theorem State.onGroup_slper (s : State) (bid gid : Nat) (f : Group → Group) : (s.onGroup bid gid f).slper = s.slper := rfl
@[simp] theorem State.onGroup_slNext (s : State) (bid gid : Nat) (f : Group → Group) : (s.onGroup bid gid f).slNext = s.slNext := rfl
@[simp] theorem State.onGroup_slBegun (s : State) (bid gid : Nat) (f : Group → Group) : (s.onGroup bid gid f).slBegun = s.slBegun := rfl
@[simp] theorem State.onGroup_stcov (s : State) (bid gid : Nat) (f : Group → Group) : (s.onGroup bid gid f).stcov = s.stcov := rfl
@[simp] theorem State.onGroup_rasth (s : State) (bid gid : Nat) (f : Group → Group) : (s.onGroup bid gid f).rasth = s.rasth := rfl
@[simp] theorem State.onGroup_rasce (s : State) (bid gid : Nat) (f : Group → Group) : (s.onGroup bid gid f).rasce = s.rasce := rfl
@[simp] theorem State.onGroup_rasst (s : State) (bid gid : Nat) (f : Group → Group) : (s.onGroup bid gid f).rasst = s.rasst := rfl
@[simp] theorem State.onGroup_window (s : State) (bid gid : Nat) (f : Group → Group) : (s.onGroup bid gid f).window = s.window := rfl
@[simp] theorem State.onGroup_lost (s : State) (bid gid : Nat) (f : Group → Group) : (s.onGroup bid gid f).lost = s.lost := rfl
@[simp] theorem State.onGroup_fullAt (s : State) (bid gid : Nat) (f : Group → Group) : (s.onGroup bid gid f).fullAt = s.fullAt := rfl
@[simp] theorem State.onGroup_endpoints (s : State) (bid gid : Nat) (f : Group → Group) : (s.onGroup bid gid f).endpoints = s.endpoints := rfl
@[simp] theorem State.onGroup_ports (s : State) (bid gid : Nat) (f : Group → Group) : (s.onGroup bid gid f).ports = s.ports := rfl
@[simp] theorem State.onGroup_spurOut (s : State) (bid gid : Nat) (f : Group → Group) : (s.onGroup bid gid f).spurOut = s.spurOut := rfl
@[simp] theorem State.onGroup_felmirOut (s : State) (bid gid : Nat) (f : Group → Group) : (s.onGroup bid gid f).felmirOut = s.felmirOut := rfl
@[simp] theorem State.onGroup_slow (s : State) (bid gid : Nat) (f : Group → Group) : (s.onGroup bid gid f).slow = s.slow := rfl
@[simp] theorem State.onGroup_coolSlow (s : State) (bid gid : Nat) (f : Group → Group) : (s.onGroup bid gid f).coolSlow = s.coolSlow := rfl
@[simp] theorem State.onGroup_stopped (s : State) (bid gid : Nat) (f : Group → Group) : (s.onGroup bid gid f).stopped = s.stopped := rfl
@[simp] theorem State.onGroup_meas (s : State) (bid gid : Nat) (f : Group → Group) : (s.onGroup bid gid f).meas = s.meas := rfl
@[simp] theorem State.onGroup_fuse (s : State) (bid gid : Nat) (f : Group → Group) : (s.onGroup bid gid f).fuse = s.fuse := rfl
@[simp] theorem State.onGroup_firmware (s : State) (bid gid : Nat) (f : Group → Group) : (s.onGroup bid gid f).firmware = s.firmware := rfl
@[simp] theorem State.onGroup_waiting (s : State) (bid gid : Nat) (f : Group → Group) : (s.onGroup bid gid f).waiting = s.waiting := rfl

/-! ### `State.onFrag` -/

@[simp] theorem State.onFrag_cur (s : State) (r : FragRef) (f : Frag → Frag) : (s.onFrag r f).cur = s.cur := rfl
@[simp] theorem State.onFrag_agenda (s : State) (r : FragRef) (f : Frag → Frag) : (s.onFrag r f).agenda = s.agenda := rfl
@[simp] theorem State.onFrag_turnNo (s : State) (r : FragRef) (f : Frag → Frag) : (s.onFrag r f).turnNo = s.turnNo := rfl
@[simp] theorem State.onFrag_powered (s : State) (r : FragRef) (f : Frag → Frag) : (s.onFrag r f).powered = s.powered := rfl
@[simp] theorem State.onFrag_heldStep (s : State) (r : FragRef) (f : Frag → Frag) : (s.onFrag r f).heldStep = s.heldStep := rfl
@[simp] theorem State.onFrag_cycle (s : State) (r : FragRef) (f : Frag → Frag) : (s.onFrag r f).cycle = s.cycle := rfl
@[simp] theorem State.onFrag_gtime (s : State) (r : FragRef) (f : Frag → Frag) : (s.onFrag r f).gtime = s.gtime := rfl
@[simp] theorem State.onFrag_issued (s : State) (r : FragRef) (f : Frag → Frag) : (s.onFrag r f).issued = s.issued := rfl
@[simp] theorem State.onFrag_mapFree (s : State) (r : FragRef) (f : Frag → Frag) : (s.onFrag r f).mapFree = s.mapFree := rfl
@[simp] theorem State.onFrag_mem (s : State) (r : FragRef) (f : Frag → Frag) : (s.onFrag r f).mem = s.mem := rfl
@[simp] theorem State.onFrag_l1 (s : State) (r : FragRef) (f : Frag → Frag) : (s.onFrag r f).l1 = s.l1 := rfl
@[simp] theorem State.onFrag_rdc (s : State) (r : FragRef) (f : Frag → Frag) : (s.onFrag r f).rdc = s.rdc := rfl
@[simp] theorem State.onFrag_icache (s : State) (r : FragRef) (f : Frag → Frag) : (s.onFrag r f).icache = s.icache := rfl
@[simp] theorem State.onFrag_tlb (s : State) (r : FragRef) (f : Frag → Frag) : (s.onFrag r f).tlb = s.tlb := rfl
@[simp] theorem State.onFrag_poison (s : State) (r : FragRef) (f : Frag → Frag) : (s.onFrag r f).poison = s.poison := rfl
@[simp] theorem State.onFrag_errs (s : State) (r : FragRef) (f : Frag → Frag) : (s.onFrag r f).errs = s.errs := rfl
@[simp] theorem State.onFrag_epoch (s : State) (r : FragRef) (f : Frag → Frag) : (s.onFrag r f).epoch = s.epoch := rfl
@[simp] theorem State.onFrag_ids (s : State) (r : FragRef) (f : Frag → Frag) : (s.onFrag r f).ids = s.ids := rfl
@[simp] theorem State.onFrag_sids (s : State) (r : FragRef) (f : Frag → Frag) : (s.onFrag r f).sids = s.sids := rfl
@[simp] theorem State.onFrag_stamps (s : State) (r : FragRef) (f : Frag → Frag) : (s.onFrag r f).stamps = s.stamps := rfl
@[simp] theorem State.onFrag_seen (s : State) (r : FragRef) (f : Frag → Frag) : (s.onFrag r f).seen = s.seen := rfl
@[simp] theorem State.onFrag_hostCopies (s : State) (r : FragRef) (f : Frag → Frag) : (s.onFrag r f).hostCopies = s.hostCopies := rfl
@[simp] theorem State.onFrag_hostDirty (s : State) (r : FragRef) (f : Frag → Frag) : (s.onFrag r f).hostDirty = s.hostDirty := rfl
@[simp] theorem State.onFrag_hostFails (s : State) (r : FragRef) (f : Frag → Frag) : (s.onFrag r f).hostFails = s.hostFails := rfl
@[simp] theorem State.onFrag_ctxs (s : State) (r : FragRef) (f : Frag → Frag) : (s.onFrag r f).ctxs = s.ctxs := rfl
@[simp] theorem State.onFrag_launches (s : State) (r : FragRef) (f : Frag → Frag) : (s.onFrag r f).launches = s.launches := rfl
@[simp] theorem State.onFrag_blocks (s : State) (r : FragRef) (f : Frag → Frag) : (s.onFrag r f).blocks = updIf (·.bid == r.bid) (fun b => { b with groups := updIf (·.gid == r.gid) (fun g => { g with frags := updIf (·.fid == r.fid) f g.frags }) b.groups }) s.blocks := rfl
@[simp] theorem State.onFrag_ops (s : State) (r : FragRef) (f : Frag → Frag) : (s.onFrag r f).ops = s.ops := rfl
@[simp] theorem State.onFrag_awaits (s : State) (r : FragRef) (f : Frag → Frag) : (s.onFrag r f).awaits = s.awaits := rfl
@[simp] theorem State.onFrag_leats (s : State) (r : FragRef) (f : Frag → Frag) : (s.onFrag r f).leats = s.leats := rfl
@[simp] theorem State.onFrag_watches (s : State) (r : FragRef) (f : Frag → Frag) : (s.onFrag r f).watches = s.watches := rfl
@[simp] theorem State.onFrag_arms (s : State) (r : FragRef) (f : Frag → Frag) : (s.onFrag r f).arms = s.arms := rfl
@[simp] theorem State.onFrag_colls (s : State) (r : FragRef) (f : Frag → Frag) : (s.onFrag r f).colls = s.colls := rfl
@[simp] theorem State.onFrag_turns (s : State) (r : FragRef) (f : Frag → Frag) : (s.onFrag r f).turns = s.turns := rfl
@[simp] theorem State.onFrag_nextId (s : State) (r : FragRef) (f : Frag → Frag) : (s.onFrag r f).nextId = s.nextId := rfl
@[simp] theorem State.onFrag_ctxcmd (s : State) (r : FragRef) (f : Frag → Frag) : (s.onFrag r f).ctxcmd = s.ctxcmd := rfl
@[simp] theorem State.onFrag_slt0 (s : State) (r : FragRef) (f : Frag → Frag) : (s.onFrag r f).slt0 = s.slt0 := rfl
@[simp] theorem State.onFrag_slper (s : State) (r : FragRef) (f : Frag → Frag) : (s.onFrag r f).slper = s.slper := rfl
@[simp] theorem State.onFrag_slNext (s : State) (r : FragRef) (f : Frag → Frag) : (s.onFrag r f).slNext = s.slNext := rfl
@[simp] theorem State.onFrag_slBegun (s : State) (r : FragRef) (f : Frag → Frag) : (s.onFrag r f).slBegun = s.slBegun := rfl
@[simp] theorem State.onFrag_stcov (s : State) (r : FragRef) (f : Frag → Frag) : (s.onFrag r f).stcov = s.stcov := rfl
@[simp] theorem State.onFrag_rasth (s : State) (r : FragRef) (f : Frag → Frag) : (s.onFrag r f).rasth = s.rasth := rfl
@[simp] theorem State.onFrag_rasce (s : State) (r : FragRef) (f : Frag → Frag) : (s.onFrag r f).rasce = s.rasce := rfl
@[simp] theorem State.onFrag_rasst (s : State) (r : FragRef) (f : Frag → Frag) : (s.onFrag r f).rasst = s.rasst := rfl
@[simp] theorem State.onFrag_window (s : State) (r : FragRef) (f : Frag → Frag) : (s.onFrag r f).window = s.window := rfl
@[simp] theorem State.onFrag_lost (s : State) (r : FragRef) (f : Frag → Frag) : (s.onFrag r f).lost = s.lost := rfl
@[simp] theorem State.onFrag_fullAt (s : State) (r : FragRef) (f : Frag → Frag) : (s.onFrag r f).fullAt = s.fullAt := rfl
@[simp] theorem State.onFrag_endpoints (s : State) (r : FragRef) (f : Frag → Frag) : (s.onFrag r f).endpoints = s.endpoints := rfl
@[simp] theorem State.onFrag_ports (s : State) (r : FragRef) (f : Frag → Frag) : (s.onFrag r f).ports = s.ports := rfl
@[simp] theorem State.onFrag_spurOut (s : State) (r : FragRef) (f : Frag → Frag) : (s.onFrag r f).spurOut = s.spurOut := rfl
@[simp] theorem State.onFrag_felmirOut (s : State) (r : FragRef) (f : Frag → Frag) : (s.onFrag r f).felmirOut = s.felmirOut := rfl
@[simp] theorem State.onFrag_slow (s : State) (r : FragRef) (f : Frag → Frag) : (s.onFrag r f).slow = s.slow := rfl
@[simp] theorem State.onFrag_coolSlow (s : State) (r : FragRef) (f : Frag → Frag) : (s.onFrag r f).coolSlow = s.coolSlow := rfl
@[simp] theorem State.onFrag_stopped (s : State) (r : FragRef) (f : Frag → Frag) : (s.onFrag r f).stopped = s.stopped := rfl
@[simp] theorem State.onFrag_meas (s : State) (r : FragRef) (f : Frag → Frag) : (s.onFrag r f).meas = s.meas := rfl
@[simp] theorem State.onFrag_fuse (s : State) (r : FragRef) (f : Frag → Frag) : (s.onFrag r f).fuse = s.fuse := rfl
@[simp] theorem State.onFrag_firmware (s : State) (r : FragRef) (f : Frag → Frag) : (s.onFrag r f).firmware = s.firmware := rfl
@[simp] theorem State.onFrag_waiting (s : State) (r : FragRef) (f : Frag → Frag) : (s.onFrag r f).waiting = s.waiting := rfl

/-! ### `State.regWrites` -/

@[simp] theorem State.regWrites_cur (s : State) (bid gid : Nat) (ws : List RegWrite) : (s.regWrites bid gid ws).cur = s.cur := rfl
@[simp] theorem State.regWrites_agenda (s : State) (bid gid : Nat) (ws : List RegWrite) : (s.regWrites bid gid ws).agenda = s.agenda := rfl
@[simp] theorem State.regWrites_turnNo (s : State) (bid gid : Nat) (ws : List RegWrite) : (s.regWrites bid gid ws).turnNo = s.turnNo := rfl
@[simp] theorem State.regWrites_powered (s : State) (bid gid : Nat) (ws : List RegWrite) : (s.regWrites bid gid ws).powered = s.powered := rfl
@[simp] theorem State.regWrites_heldStep (s : State) (bid gid : Nat) (ws : List RegWrite) : (s.regWrites bid gid ws).heldStep = s.heldStep := rfl
@[simp] theorem State.regWrites_cycle (s : State) (bid gid : Nat) (ws : List RegWrite) : (s.regWrites bid gid ws).cycle = s.cycle := rfl
@[simp] theorem State.regWrites_gtime (s : State) (bid gid : Nat) (ws : List RegWrite) : (s.regWrites bid gid ws).gtime = s.gtime := rfl
@[simp] theorem State.regWrites_issued (s : State) (bid gid : Nat) (ws : List RegWrite) : (s.regWrites bid gid ws).issued = s.issued := rfl
@[simp] theorem State.regWrites_mapFree (s : State) (bid gid : Nat) (ws : List RegWrite) : (s.regWrites bid gid ws).mapFree = s.mapFree := rfl
@[simp] theorem State.regWrites_mem (s : State) (bid gid : Nat) (ws : List RegWrite) : (s.regWrites bid gid ws).mem = s.mem := rfl
@[simp] theorem State.regWrites_l1 (s : State) (bid gid : Nat) (ws : List RegWrite) : (s.regWrites bid gid ws).l1 = s.l1 := rfl
@[simp] theorem State.regWrites_rdc (s : State) (bid gid : Nat) (ws : List RegWrite) : (s.regWrites bid gid ws).rdc = s.rdc := rfl
@[simp] theorem State.regWrites_icache (s : State) (bid gid : Nat) (ws : List RegWrite) : (s.regWrites bid gid ws).icache = s.icache := rfl
@[simp] theorem State.regWrites_tlb (s : State) (bid gid : Nat) (ws : List RegWrite) : (s.regWrites bid gid ws).tlb = s.tlb := rfl
@[simp] theorem State.regWrites_poison (s : State) (bid gid : Nat) (ws : List RegWrite) : (s.regWrites bid gid ws).poison = s.poison := rfl
@[simp] theorem State.regWrites_errs (s : State) (bid gid : Nat) (ws : List RegWrite) : (s.regWrites bid gid ws).errs = s.errs.filter fun x => !healed bid gid ws x := rfl
@[simp] theorem State.regWrites_epoch (s : State) (bid gid : Nat) (ws : List RegWrite) : (s.regWrites bid gid ws).epoch = s.epoch := rfl
@[simp] theorem State.regWrites_ids (s : State) (bid gid : Nat) (ws : List RegWrite) : (s.regWrites bid gid ws).ids = s.ids := rfl
@[simp] theorem State.regWrites_sids (s : State) (bid gid : Nat) (ws : List RegWrite) : (s.regWrites bid gid ws).sids = s.sids := rfl
@[simp] theorem State.regWrites_stamps (s : State) (bid gid : Nat) (ws : List RegWrite) : (s.regWrites bid gid ws).stamps = s.stamps := rfl
@[simp] theorem State.regWrites_seen (s : State) (bid gid : Nat) (ws : List RegWrite) : (s.regWrites bid gid ws).seen = s.seen := rfl
@[simp] theorem State.regWrites_hostCopies (s : State) (bid gid : Nat) (ws : List RegWrite) : (s.regWrites bid gid ws).hostCopies = s.hostCopies := rfl
@[simp] theorem State.regWrites_hostDirty (s : State) (bid gid : Nat) (ws : List RegWrite) : (s.regWrites bid gid ws).hostDirty = s.hostDirty := rfl
@[simp] theorem State.regWrites_hostFails (s : State) (bid gid : Nat) (ws : List RegWrite) : (s.regWrites bid gid ws).hostFails = s.hostFails := rfl
@[simp] theorem State.regWrites_ctxs (s : State) (bid gid : Nat) (ws : List RegWrite) : (s.regWrites bid gid ws).ctxs = s.ctxs := rfl
@[simp] theorem State.regWrites_launches (s : State) (bid gid : Nat) (ws : List RegWrite) : (s.regWrites bid gid ws).launches = s.launches := rfl
@[simp] theorem State.regWrites_blocks (s : State) (bid gid : Nat) (ws : List RegWrite) : (s.regWrites bid gid ws).blocks = updIf (·.bid == bid) (fun b => b.regWrites gid ws) s.blocks := rfl
@[simp] theorem State.regWrites_ops (s : State) (bid gid : Nat) (ws : List RegWrite) : (s.regWrites bid gid ws).ops = s.ops := rfl
@[simp] theorem State.regWrites_awaits (s : State) (bid gid : Nat) (ws : List RegWrite) : (s.regWrites bid gid ws).awaits = s.awaits := rfl
@[simp] theorem State.regWrites_leats (s : State) (bid gid : Nat) (ws : List RegWrite) : (s.regWrites bid gid ws).leats = s.leats := rfl
@[simp] theorem State.regWrites_watches (s : State) (bid gid : Nat) (ws : List RegWrite) : (s.regWrites bid gid ws).watches = s.watches := rfl
@[simp] theorem State.regWrites_arms (s : State) (bid gid : Nat) (ws : List RegWrite) : (s.regWrites bid gid ws).arms = s.arms := rfl
@[simp] theorem State.regWrites_colls (s : State) (bid gid : Nat) (ws : List RegWrite) : (s.regWrites bid gid ws).colls = s.colls := rfl
@[simp] theorem State.regWrites_turns (s : State) (bid gid : Nat) (ws : List RegWrite) : (s.regWrites bid gid ws).turns = s.turns := rfl
@[simp] theorem State.regWrites_nextId (s : State) (bid gid : Nat) (ws : List RegWrite) : (s.regWrites bid gid ws).nextId = s.nextId := rfl
@[simp] theorem State.regWrites_ctxcmd (s : State) (bid gid : Nat) (ws : List RegWrite) : (s.regWrites bid gid ws).ctxcmd = s.ctxcmd := rfl
@[simp] theorem State.regWrites_slt0 (s : State) (bid gid : Nat) (ws : List RegWrite) : (s.regWrites bid gid ws).slt0 = s.slt0 := rfl
@[simp] theorem State.regWrites_slper (s : State) (bid gid : Nat) (ws : List RegWrite) : (s.regWrites bid gid ws).slper = s.slper := rfl
@[simp] theorem State.regWrites_slNext (s : State) (bid gid : Nat) (ws : List RegWrite) : (s.regWrites bid gid ws).slNext = s.slNext := rfl
@[simp] theorem State.regWrites_slBegun (s : State) (bid gid : Nat) (ws : List RegWrite) : (s.regWrites bid gid ws).slBegun = s.slBegun := rfl
@[simp] theorem State.regWrites_stcov (s : State) (bid gid : Nat) (ws : List RegWrite) : (s.regWrites bid gid ws).stcov = s.stcov := rfl
@[simp] theorem State.regWrites_rasth (s : State) (bid gid : Nat) (ws : List RegWrite) : (s.regWrites bid gid ws).rasth = s.rasth := rfl
@[simp] theorem State.regWrites_rasce (s : State) (bid gid : Nat) (ws : List RegWrite) : (s.regWrites bid gid ws).rasce = s.rasce := rfl
@[simp] theorem State.regWrites_rasst (s : State) (bid gid : Nat) (ws : List RegWrite) : (s.regWrites bid gid ws).rasst = s.rasst := rfl
@[simp] theorem State.regWrites_window (s : State) (bid gid : Nat) (ws : List RegWrite) : (s.regWrites bid gid ws).window = s.window := rfl
@[simp] theorem State.regWrites_lost (s : State) (bid gid : Nat) (ws : List RegWrite) : (s.regWrites bid gid ws).lost = s.lost := rfl
@[simp] theorem State.regWrites_fullAt (s : State) (bid gid : Nat) (ws : List RegWrite) : (s.regWrites bid gid ws).fullAt = s.fullAt := rfl
@[simp] theorem State.regWrites_endpoints (s : State) (bid gid : Nat) (ws : List RegWrite) : (s.regWrites bid gid ws).endpoints = s.endpoints := rfl
@[simp] theorem State.regWrites_ports (s : State) (bid gid : Nat) (ws : List RegWrite) : (s.regWrites bid gid ws).ports = s.ports := rfl
@[simp] theorem State.regWrites_spurOut (s : State) (bid gid : Nat) (ws : List RegWrite) : (s.regWrites bid gid ws).spurOut = s.spurOut := rfl
@[simp] theorem State.regWrites_felmirOut (s : State) (bid gid : Nat) (ws : List RegWrite) : (s.regWrites bid gid ws).felmirOut = s.felmirOut := rfl
@[simp] theorem State.regWrites_slow (s : State) (bid gid : Nat) (ws : List RegWrite) : (s.regWrites bid gid ws).slow = s.slow := rfl
@[simp] theorem State.regWrites_coolSlow (s : State) (bid gid : Nat) (ws : List RegWrite) : (s.regWrites bid gid ws).coolSlow = s.coolSlow := rfl
@[simp] theorem State.regWrites_stopped (s : State) (bid gid : Nat) (ws : List RegWrite) : (s.regWrites bid gid ws).stopped = s.stopped := rfl
@[simp] theorem State.regWrites_meas (s : State) (bid gid : Nat) (ws : List RegWrite) : (s.regWrites bid gid ws).meas = s.meas := rfl
@[simp] theorem State.regWrites_fuse (s : State) (bid gid : Nat) (ws : List RegWrite) : (s.regWrites bid gid ws).fuse = s.fuse := rfl
@[simp] theorem State.regWrites_firmware (s : State) (bid gid : Nat) (ws : List RegWrite) : (s.regWrites bid gid ws).firmware = s.firmware := rfl
@[simp] theorem State.regWrites_waiting (s : State) (bid gid : Nat) (ws : List RegWrite) : (s.regWrites bid gid ws).waiting = s.waiting := rfl

end Sys2Proof.Machine
end

