-- ==== Sys2Proof/Laws/Find.lean ====
section
/-! SUPPORT. Blocks, groups and fragments found again after an update. -/

namespace Sys2Proof.Machine

theorem find?_updIf_same {α : Type} {k : α → Nat} {f : α → α} (hf : ∀ x, k (f x) = k x) (a : Nat) (l : List α) :
    (updIf (fun x => k x == a) f l).find? (fun x => k x == a) = (l.find? fun x => k x == a).map f := by
  unfold updIf
  induction l with
  | nil => rfl
  | cons x l ih =>
    rw [List.map_cons]
    by_cases h : (k x == a) = true
    · have h2 : (k (f x) == a) = true := by rw [hf]; exact h
      rw [if_pos h, List.find?_cons_of_pos (by exact h2), List.find?_cons_of_pos (by exact h)]
      rfl
    · rw [if_neg h, List.find?_cons_of_neg (by exact h), List.find?_cons_of_neg (by exact h), ih]

theorem find?_updIf_ne {α : Type} {k : α → Nat} {f : α → α} (hf : ∀ x, k (f x) = k x) {a b : Nat} (hb : b ≠ a) (l : List α) :
    (updIf (fun x => k x == a) f l).find? (fun x => k x == b) = l.find? fun x => k x == b := by
  unfold updIf
  induction l with
  | nil => rfl
  | cons x l ih =>
    rw [List.map_cons]
    by_cases h : (k x == a) = true
    · have e : k x = a := by simpa using h
      have n1 : ¬ ((k (f x) == b) = true) := by rw [hf, e]; simpa using hb.symm
      have n2 : ¬ ((k x == b) = true) := by rw [e]; simpa using hb.symm
      rw [if_pos h, List.find?_cons_of_neg (by exact n1), List.find?_cons_of_neg (by exact n2), ih]
    · rw [if_neg h]
      by_cases c : (k x == b) = true
      · rw [List.find?_cons_of_pos (by exact c), List.find?_cons_of_pos (by exact c)]
      · rw [List.find?_cons_of_neg (by exact c), List.find?_cons_of_neg (by exact c), ih]

theorem State.group?_eq {s : State} {bid gid : Nat} {b : Block} {g : Group} (h : s.group? bid gid = some (b, g)) :
    s.block? bid = some b ∧ b.group? gid = some g := by
  unfold State.group? at h
  split at h
  · simp at h
  · split at h
    · simp at h
    · simp_all

theorem State.group?_of {s : State} {bid gid : Nat} {b : Block} {g : Group} (h1 : s.block? bid = some b) (h2 : b.group? gid = some g) :
    s.group? bid gid = some (b, g) := by
  simp [State.group?, h1, h2]

theorem State.frag?_eq {s : State} {r : FragRef} {b : Block} {g : Group} {f : Frag} (h : s.frag? r = some (b, g, f)) :
    s.block? r.bid = some b ∧ b.group? r.gid = some g ∧ g.frag? r.fid = some f := by
  unfold State.frag? at h
  split at h
  · simp at h
  · next e =>
    split at h
    · simp at h
    · obtain ⟨h1, h2⟩ := State.group?_eq e
      simp_all

theorem State.frag?_of {s : State} {r : FragRef} {b : Block} {g : Group} {f : Frag} (h1 : s.block? r.bid = some b)
    (h2 : b.group? r.gid = some g) (h3 : g.frag? r.fid = some f) : s.frag? r = some (b, g, f) := by
  simp [State.frag?, State.group?_of h1 h2, h3]

theorem Block.group?_gid {b : Block} {gid : Nat} {g : Group} (h : b.group? gid = some g) : g.gid = gid := by
  simpa using List.find?_some h

theorem State.block?_bid {s : State} {bid : Nat} {b : Block} (h : s.block? bid = some b) : b.bid = bid := by
  simpa using List.find?_some h

theorem State.block?_mem {s : State} {bid : Nat} {b : Block} (h : s.block? bid = some b) : b ∈ s.blocks := List.mem_of_find?_eq_some h

theorem Block.group?_mem {b : Block} {gid : Nat} {g : Group} (h : b.group? gid = some g) : g ∈ b.groups := List.mem_of_find?_eq_some h

/-! ### After an update -/

theorem State.block?_onBlock {s : State} {bid : Nat} {f : Block → Block} (hf : ∀ b, (f b).bid = b.bid) {b : Block}
    (h : s.block? bid = some b) : (s.onBlock bid f).block? bid = some (f b) := by
  unfold State.block? at *
  rw [State.onBlock_blocks, find?_updIf_same hf, h]
  rfl

theorem State.block?_onBlock_ne {s : State} {bid a : Nat} {f : Block → Block} (hf : ∀ b, (f b).bid = b.bid) (ha : a ≠ bid) :
    (s.onBlock bid f).block? a = s.block? a := by
  unfold State.block?
  rw [State.onBlock_blocks, find?_updIf_ne hf ha]

theorem State.block?_onGroup_ne {s : State} {bid gid a : Nat} {f : Group → Group} (ha : a ≠ bid) :
    (s.onGroup bid gid f).block? a = s.block? a := State.block?_onBlock_ne (fun _ => rfl) ha

theorem State.block?_onFrag_ne {s : State} {r : FragRef} {a : Nat} {f : Frag → Frag} (ha : a ≠ r.bid) :
    (s.onFrag r f).block? a = s.block? a := State.block?_onGroup_ne ha

theorem State.block?_onGroup {s : State} {bid gid : Nat} {f : Group → Group} {b : Block} (h : s.block? bid = some b) :
    (s.onGroup bid gid f).block? bid = some { b with groups := updIf (·.gid == gid) f b.groups } :=
  State.block?_onBlock (f := fun b => { b with groups := updIf (·.gid == gid) f b.groups }) (fun _ => rfl) h

theorem Block.group?_updIf {b : Block} {gid : Nat} {f : Group → Group} (hf : ∀ g, (f g).gid = g.gid) {g : Group}
    (h : b.group? gid = some g) : ({ b with groups := updIf (·.gid == gid) f b.groups } : Block).group? gid = some (f g) := by
  unfold Block.group? at *
  simp only []
  rw [find?_updIf_same hf, h]
  rfl

theorem Block.group?_updIf_ne {b : Block} {gid a : Nat} {f : Group → Group} (hf : ∀ g, (f g).gid = g.gid) (ha : a ≠ gid) :
    ({ b with groups := updIf (·.gid == gid) f b.groups } : Block).group? a = b.group? a := by
  unfold Block.group?
  simp only []
  rw [find?_updIf_ne hf ha]

theorem Group.frag?_updIf {g : Group} {fid : Nat} {f : Frag → Frag} (hf : ∀ x, (f x).fid = x.fid) {x : Frag}
    (h : g.frag? fid = some x) : ({ g with frags := updIf (·.fid == fid) f g.frags } : Group).frag? fid = some (f x) := by
  unfold Group.frag? at *
  simp only []
  rw [find?_updIf_same hf, h]
  rfl

theorem Group.frag?_updIf_ne {g : Group} {fid a : Nat} {f : Frag → Frag} (hf : ∀ x, (f x).fid = x.fid) (ha : a ≠ fid) :
    ({ g with frags := updIf (·.fid == fid) f g.frags } : Group).frag? a = g.frag? a := by
  unfold Group.frag?
  simp only []
  rw [find?_updIf_ne hf ha]

end Sys2Proof.Machine
end

