-- ==== Sys2Proof/Laws/Forms.lean ====
section
/-! SUPPORT. The canonical forms of Safety.lean as tests that evaluate, so that a concrete state is shown to have them by
evaluation. -/

namespace Sys2Proof.Machine

/-- A map gives a key its default, or a value it lists. -/
theorem sget_listed {α : Type} (dflt : α) (m : Sparse α) (i : Nat) : sget dflt m i = dflt ∨ ∃ p ∈ m, sget dflt m i = p.2 := by
  induction m with
  | nil => exact .inl rfl
  | cons p m ih =>
    obtain ⟨k, v⟩ := p
    unfold sget
    split
    · exact .inr ⟨(k, v), by simp, rfl⟩
    · split
      · exact .inl rfl
      · rcases ih with h | ⟨p, hp, h⟩
        · exact .inl h
        · exact .inr ⟨p, by simp [hp], h⟩

/-- `Group.wf` as a test. -/
def Group.form (g : Group) : Bool :=
  swf 0 g.v && swf 0 g.u && swf 0 g.p && swf 0 g.flags && swf 0 g.draws && swf ownerNone g.xowner && swf 0 g.ctr && swf 0 g.aside

/-- `Expansion.wf` as a test. -/
def Expansion.form (x : Expansion) : Bool :=
  swf 0 x.start && swf 0 x.len && swf (foldIdentity x.op) x.acc && x.slots.all fun y => swf 0 y.contrib

/-- `Block.wf` as a test. -/
def Block.form (b : Block) : Bool :=
  b.groups.all Group.form && (b.exts.all fun x => swf 0 x.regs) && swf 0 b.scratch && swf 0 b.tags && (b.slots.all fun m => swf 0 m.image) &&
    b.xus.all Expansion.form

/-- `State.tablesWf` as a test. -/
def State.tablesForm (s : State) : Bool :=
  swf Ctx.reset s.ctxs && (s.ctxs.all fun p => swf 0 p.2.regs) && swf 0 s.stamps && swf 0 s.arms && swf 0 s.stcov && swf 0 s.rasce && swf 0 s.turns &&
    swf 0 s.mapFree &&
    (s.l1.all fun x => swf none x.cells) && s.rdc.all fun x => swf none x.cells

/-- `State.wf` as a test. -/
def State.form (s : State) : Bool := swf 0 s.mem && s.blocks.all Block.form && s.tablesForm

theorem Group.wf_iff (g : Group) : g.wf ↔ g.form = true := by simp [Group.wf, Group.form, and_assoc]

theorem Expansion.wf_iff (x : Expansion) : x.wf ↔ x.form = true := by simp [Expansion.wf, Expansion.form, and_assoc]

theorem Block.wf_iff (b : Block) : b.wf ↔ b.form = true := by
  simp [Block.wf, Block.form, and_assoc, Group.wf_iff, Expansion.wf_iff]

theorem State.tablesWf_of_form {s : State} (h : s.tablesForm = true) : s.tablesWf := by
  simp only [State.tablesForm, Bool.and_eq_true, List.all_eq_true] at h
  obtain ⟨⟨⟨⟨⟨⟨⟨⟨⟨h1, h2⟩, h3⟩, h4⟩, h5⟩, h6⟩, h7⟩, h8⟩, h9⟩, h10⟩ := h
  refine ⟨h1, fun c => ?_, h3, h4, h5, h6, h7, h8, h9, h10⟩
  rcases sget_listed Ctx.reset s.ctxs c with e | ⟨p, hp, e⟩
  · unfold State.ctx; rw [e]; rfl
  · unfold State.ctx; rw [e]; exact h2 p hp

/-- A state whose tests pass is in canonical form. -/
theorem State.wf_of_form {s : State} (h : s.form = true) : s.wf := by
  simp only [State.form, Bool.and_eq_true, List.all_eq_true] at h
  exact ⟨h.1.1, fun b hb => (Block.wf_iff b).2 (h.1.2 b hb), State.tablesWf_of_form h.2⟩

/-! ### What an instruction needs, as tests -/

/-- `Env.holdsAll` as a test. -/
def Env.holdsTest (e : Env) (uses : List RegUse) : Bool :=
  uses.all fun u => (List.range u.2.2).all fun i => (regUp u.2.1 i).wf && heldReg e.b e.g (regUp u.2.1 i)

theorem Env.holdsAll_of {e : Env} {uses : List RegUse} (h : e.holdsTest uses = true) : e.holdsAll uses := by
  simp only [Env.holdsTest, List.all_eq_true, List.mem_range, Bool.and_eq_true] at h
  exact fun u hu i hi => h u hu i hi

/-- `Env.slotReady` as a test. -/
def Env.slotTest (e : Env) (o : Opnd) : Bool :=
  match o.src with
  | .map k n => k == 15 || (!slotBusy e.s e.b e.g.stone k && (match e.b.slot? e.g.stone k with
    | some x => x.bound && (!isMx (fwSfmt x.fmt) || (n % 2 == 0 && heldReg e.b e.g (.v (n + 1))))
    | none => false))
  | _ => true

theorem Env.slotReady_of {e : Env} {o : Opnd} (h : e.slotTest o = true) : e.slotReady o := by
  unfold Env.slotTest at h
  unfold Env.slotReady
  revert h
  cases o.src with
  | map k n =>
    intro h
    simp only [Bool.or_eq_true, beq_iff_eq, Bool.and_eq_true] at h ⊢
    rcases h with h | ⟨h1, h2⟩
    · exact .inl h
    · refine .inr ⟨by simpa using h1, ?_⟩
      cases e5 : e.b.slot? e.g.stone k with
      | none => simp [e5] at h2
      | some x =>
        simp only [e5, Bool.and_eq_true, Bool.or_eq_true] at h2
        refine ⟨x, rfl, h2.1, fun hm => ?_⟩
        rcases h2.2 with h3 | h3
        · simp [hm] at h3
        · exact ⟨by simpa using h3.1, h3.2⟩
  | _ => intro _; trivial

/-- `Env.laneReady` as a test. -/
def Env.laneTest (e : Env) (srcs : List Opnd) (dst : List RegUse) : Bool :=
  e.s.errs.isEmpty && e.holdsTest (srcs.flatMap Opnd.regs ++ dst) && srcs.all e.slotTest

theorem Env.laneReady_of {e : Env} {srcs : List Opnd} {dst : List RegUse} (h : e.laneTest srcs dst = true) : e.laneReady srcs dst := by
  simp only [Env.laneTest, Bool.and_eq_true, List.all_eq_true, List.isEmpty_iff] at h
  exact ⟨h.1.1, Env.holdsAll_of h.1.2, fun o ho => Env.slotReady_of (h.2 o ho)⟩

/-- `Env.memReady` as a test. -/
def Env.memTest (e : Env) (fl : FlagSel) : Bool :=
  e.s.errs.isEmpty && e.s.poison.isEmpty && (match e.flag fl with | some k => decide (e.g.flag k < 63) | none => true) &&
    (e.opsMine.all fun o => !o.acq || o.accs.isEmpty) && !e.b.kernel.checked && !e.s.detBlock e.b

theorem Env.memReady_of {e : Env} {fl : FlagSel} (h : e.memTest fl = true) : e.memReady fl := by
  simp only [Env.memTest, Bool.and_eq_true, List.all_eq_true, List.isEmpty_iff] at h
  obtain ⟨⟨⟨⟨⟨h1, h2⟩, h3⟩, h4⟩, h5⟩, h6⟩ := h
  refine ⟨h1, h2, fun k hk => ?_, fun o ho ha => ?_, by simpa using h5, by simpa using h6⟩
  · simpa [hk] using h3
  · simpa [ha] using h4 o ho

/-- `Env.issueReady` follows from `Env.memReady`. -/
theorem Env.issueReady_of {e : Env} {fl : FlagSel} (h : e.memTest fl = true) : e.issueReady fl :=
  have ⟨h1, _, h3, h4, _, _⟩ := Env.memReady_of h
  ⟨h1, h3, h4⟩

/-- `Env.reaches` as a test. -/
def Env.reachTest (e : Env) (use : Use) (ordered : Bool) (va pa : Nat) : Bool :=
  decide (va < 2 ^ 56) && !inHost pa && (match reach e.s e.b.mill e.b.ctx use ordered false va with
    | .ok x => x.pa == pa && !leafChecked x.leaf
    | .error _ => false)

theorem Env.reaches_of {e : Env} {use : Use} {ordered : Bool} {va pa : Nat} (h : e.reachTest use ordered va pa = true) : e.reaches use ordered va pa := by
  simp only [Env.reachTest, Bool.and_eq_true, decide_eq_true_eq] at h
  refine ⟨h.1.1, by simpa using h.1.2, ?_⟩
  cases e5 : reach e.s e.b.mill e.b.ctx use ordered false va with
  | error _ => simp [e5] at h
  | ok x =>
    simp only [e5, Bool.and_eq_true, beq_iff_eq] at h
    exact ⟨x, rfl, h.2.1, by simpa using h.2.2⟩

end Sys2Proof.Machine
end

