-- ==== Sys2Proof/Laws/Lanes.lean ====
section
/-! SUPPORT. Lane sets: membership, the lowest lane, the set of a list. -/

namespace Sys2Proof.Machine

@[simp] theorem mem_lanesOf {m : LaneMask} {l : Nat} : l ∈ lanesOf m ↔ m.getLsbD l = true := by
  simp only [lanesOf, List.mem_filter, List.mem_range, and_iff_right_iff_imp]
  exact fun h => BitVec.lt_of_getLsbD h

theorem hasLane_iff {m : LaneMask} {l : Nat} : hasLane m l = true ↔ l ∈ lanesOf m := by simp [hasLane]

theorem lanesOf_eq_nil {m : LaneMask} : lanesOf m = [] ↔ m = 0 := by
  constructor
  · intro h
    ext i hi
    have : i ∉ lanesOf m := by simp [h]
    rw [mem_lanesOf, Bool.not_eq_true] at this
    rw [← BitVec.getLsbD_eq_getElem, this]; simp
  · rintro rfl
    simp [lanesOf]

@[simp] theorem lanesOf_zero : lanesOf 0 = [] := lanesOf_eq_nil.2 rfl

theorem lanesOf_nodup (m : LaneMask) : (lanesOf m).Nodup := List.Nodup.filter _ List.nodup_range

theorem lowLane_mem {m : LaneMask} (h : m ≠ 0) : lowLane m ∈ lanesOf m := by
  unfold lowLane
  rcases e : lanesOf m with _ | ⟨a, t⟩
  · exact absurd (lanesOf_eq_nil.1 e) h
  · simp

theorem lanesOf_take_one {m : LaneMask} (h : m ≠ 0) : (lanesOf m).take 1 = [lowLane m] := by
  unfold lowLane
  rcases e : lanesOf m with _ | ⟨a, t⟩
  · exact absurd (lanesOf_eq_nil.1 e) h
  · simp

/-- A lane is in the set of a list where the list names it. -/
theorem getLsbD_maskOf (ls : List Nat) (i : Nat) : (maskOf ls).getLsbD i = (decide (i < 64) && ls.contains i) := by
  have key : ∀ (ls : List Nat) (m : LaneMask),
      (ls.foldl (fun m i => m ||| (1#64 <<< i)) m).getLsbD i = (m.getLsbD i || (decide (i < 64) && ls.contains i)) := by
    intro ls
    induction ls with
    | nil => simp
    | cons a t ih =>
      intro m
      rw [List.foldl_cons, ih]
      simp only [BitVec.getLsbD_or, BitVec.getLsbD_shiftLeft, BitVec.getLsbD_one, List.contains_cons]
      by_cases h : i < 64
      · by_cases e : i = a
        · subst e; simp [h]
        · have e' : (i == a) = false := by simpa using e
          by_cases c : i < a
          · simp [h, e', c]
          · have d : ¬ (i - a = 0) := by omega
            simp [h, e', c, d]
      · simp [h]
  unfold maskOf
  rw [key]
  simp

@[simp] theorem hasLane_maskOf (ls : List Nat) (i : Nat) : hasLane (maskOf ls) i = (decide (i < 64) && ls.contains i) :=
  getLsbD_maskOf ls i

end Sys2Proof.Machine
end

