-- ==== Sys2Proof/Laws/Sparse.lean ====
section
/-! SUPPORT. The laws of the sparse maps: a read after a write, and the canonical form kept by every write. -/

namespace Sys2Proof.Machine

section

variable {α : Type} [DecidableEq α] {dflt : α}

omit [DecidableEq α] in
@[simp] theorem sget_nil (i : Nat) : sget dflt ([] : Sparse α) i = dflt := rfl

theorem swf_cons {k : Nat} {v : α} {m : Sparse α} :
    swf dflt ((k, v) :: m) = true ↔ v ≠ dflt ∧ sabove k m ∧ swf dflt m = true := by
  induction m generalizing k v with
  | nil => simp [swf, sabove]
  | cons p m ih =>
    obtain ⟨k', v'⟩ := p
    simp only [swf, Bool.and_eq_true, decide_eq_true_eq, sabove, List.mem_cons, forall_eq_or_imp]
    constructor
    · rintro ⟨⟨h1, h2⟩, h3⟩
      exact ⟨h1, ⟨h2, fun p hp => h2.trans ((ih.1 h3).2.1 p hp)⟩, h3⟩
    · rintro ⟨h1, ⟨h2, -⟩, h3⟩
      exact ⟨⟨h1, h2⟩, h3⟩

omit [DecidableEq α] in
theorem sget_of_sabove {m : Sparse α} {lo i : Nat} (h : sabove lo m) (hi : i ≤ lo) : sget dflt m i = dflt := by
  cases m with
  | nil => rfl
  | cons p m =>
    have := h p (by simp)
    have h1 : i ≠ p.1 := by omega
    have h2 : i < p.1 := by omega
    simp [sget, h1, h2]

theorem sabove_sset {m : Sparse α} {lo i : Nat} {x : α} (h : sabove lo m) (hi : lo < i) : sabove lo (sset dflt m i x) := by
  induction m with
  | nil => unfold sset; split <;> simp_all [sabove]
  | cons p m ih =>
    obtain ⟨k, v⟩ := p
    have hk : lo < k := h (k, v) (by simp)
    have hm : sabove lo m := fun q hq => h q (by simp [hq])
    unfold sset
    split_ifs <;> intro q hq <;> (try simp only [List.mem_cons] at hq)
    · rcases hq with rfl | hq
      · exact hk
      · exact hm q hq
    · rcases hq with rfl | rfl | hq
      · exact hi
      · exact hk
      · exact hm q hq
    · exact hm q hq
    · rcases hq with rfl | hq
      · exact hk
      · exact hm q hq
    · rcases hq with rfl | hq
      · exact hk
      · exact ih hm q hq

/-- A write keeps the canonical form. -/
theorem swf_sset {m : Sparse α} (h : swf dflt m = true) (i : Nat) (x : α) : swf dflt (sset dflt m i x) = true := by
  induction m with
  | nil => unfold sset; split <;> simp_all [swf]
  | cons p m ih =>
    obtain ⟨k, v⟩ := p
    obtain ⟨h1, h2, h3⟩ := swf_cons.1 h
    unfold sset
    split_ifs with a b c d
    · exact h
    · refine swf_cons.2 ⟨b, ?_, h⟩
      intro q hq
      rcases List.mem_cons.1 hq with rfl | hq
      · exact a
      · exact a.trans (h2 q hq)
    · exact h3
    · exact swf_cons.2 ⟨d, h2, h3⟩
    · exact swf_cons.2 ⟨h1, sabove_sset h2 (by omega), ih h3⟩

/-- Writes in order keep the canonical form. -/
theorem swf_ssetAll (ws : List (Nat × α)) {m : Sparse α} (h : swf dflt m = true) : swf dflt (ssetAll dflt m ws) = true := by
  unfold ssetAll
  induction ws generalizing m with
  | nil => exact h
  | cons w ws ih => exact ih (swf_sset h _ _)

/-- Dropping keys keeps the canonical form. -/
theorem swf_filter (p : Nat × α → Bool) {m : Sparse α} (h : swf dflt m = true) : swf dflt (m.filter p) = true := by
  induction m with
  | nil => rfl
  | cons q m ih =>
    obtain ⟨k, v⟩ := q
    obtain ⟨h1, h2, h3⟩ := swf_cons.1 h
    rw [List.filter_cons]
    split
    · exact swf_cons.2 ⟨h1, fun r hr => h2 r (List.mem_filter.1 hr).1, ih h3⟩
    · exact ih h3

theorem swf_sdrop (p : Nat → Bool) {m : Sparse α} (h : swf dflt m = true) : swf dflt (sdrop p m) = true := swf_filter _ h

/-- A read after a write to the same key gives the value written. -/
theorem sget_sset_same {m : Sparse α} (h : swf dflt m = true) (i : Nat) (x : α) : sget dflt (sset dflt m i x) i = x := by
  induction m with
  | nil => unfold sset; split <;> simp_all [sget]
  | cons p m ih =>
    obtain ⟨k, v⟩ := p
    obtain ⟨h1, h2, h3⟩ := swf_cons.1 h
    unfold sset
    split_ifs with a b c d
    · have : i ≠ k := by omega
      simp [sget, this, a, b]
    · simp [sget]
    · rw [sget_of_sabove h2 (by omega), d]
    · simp [sget, c]
    · have : ¬ i < k := a
      simp [sget, c, this, ih h3]

/-- A write leaves every other key alone. -/
theorem sget_sset_ne {m : Sparse α} (h : swf dflt m = true) {i j : Nat} (x : α) (hj : j ≠ i) :
    sget dflt (sset dflt m i x) j = sget dflt m j := by
  induction m with
  | nil =>
    unfold sset
    split
    · rfl
    · simp [sget, hj]
  | cons p m ih =>
    obtain ⟨k, v⟩ := p
    obtain ⟨h1, h2, h3⟩ := swf_cons.1 h
    unfold sset
    split_ifs with a b c d
    · rfl
    · simp only [sget, hj, if_false]
      split_ifs <;> first | rfl | omega
    · subst c
      simp only [sget, hj, if_false]
      split_ifs with e
      · exact sget_of_sabove h2 (by omega)
      · rfl
    · subst c; simp [sget, hj]
    · simp only [sget]
      split_ifs <;> first | rfl | exact ih h3

/-- A read after a write. -/
theorem sget_sset {m : Sparse α} (h : swf dflt m = true) (i j : Nat) (x : α) :
    sget dflt (sset dflt m i x) j = if j = i then x else sget dflt m j := by
  split
  · next e => subst e; exact sget_sset_same h _ _
  · next e => exact sget_sset_ne h _ e

/-- Writes in order leave alone every key they do not name. -/
theorem sget_ssetAll_other (ws : List (Nat × α)) {m : Sparse α} (h : swf dflt m = true) {j : Nat} (hj : ∀ w ∈ ws, w.1 ≠ j) :
    sget dflt (ssetAll dflt m ws) j = sget dflt m j := by
  unfold ssetAll
  induction ws generalizing m with
  | nil => rfl
  | cons w ws ih =>
    rw [List.foldl_cons, ih (swf_sset h _ _) fun x hx => hj x (by simp [hx])]
    exact sget_sset_ne h _ (hj w (by simp)).symm

/-- Writes of distinct keys give each its value. -/
theorem sget_ssetAll_mem (ws : List (Nat × α)) {m : Sparse α} (h : swf dflt m = true) {j : Nat} {x : α}
    (hd : (ws.map (·.1)).Nodup) (hx : (j, x) ∈ ws) : sget dflt (ssetAll dflt m ws) j = x := by
  induction ws generalizing m with
  | nil => simp at hx
  | cons w ws ih =>
    simp only [List.map_cons, List.nodup_cons] at hd
    show sget dflt (ssetAll dflt (sset dflt m w.1 w.2) ws) j = x
    rcases List.mem_cons.1 hx with rfl | hx
    · rw [sget_ssetAll_other ws (swf_sset h _ _), sget_sset_same h]
      intro y hy he
      exact hd.1 (List.mem_map.2 ⟨y, hy, he⟩)
    · exact ih (swf_sset h _ _) hd.2 hx

/-- Two maps in canonical form that read alike are one list. -/
theorem sget_ext {m n : Sparse α} (hm : swf dflt m = true) (hn : swf dflt n = true) (h : ∀ i, sget dflt m i = sget dflt n i) :
    m = n := by
  induction m generalizing n with
  | nil =>
    cases n with
    | nil => rfl
    | cons q n =>
      have := h q.1
      simp only [sget, if_true] at this
      exact absurd this.symm (swf_cons.1 hn).1
  | cons p m ih =>
    obtain ⟨k, v⟩ := p
    obtain ⟨h1, h2, h3⟩ := swf_cons.1 hm
    cases n with
    | nil =>
      have := h k
      simp only [sget, if_true] at this
      exact absurd this h1
    | cons q n =>
      obtain ⟨k', v'⟩ := q
      obtain ⟨g1, g2, g3⟩ := swf_cons.1 hn
      have hk : k = k' := by
        rcases Nat.lt_trichotomy k k' with c | c | c
        · have := h k
          have e : k ≠ k' := by omega
          simp only [sget, if_true, e, if_false, c] at this
          exact absurd this h1
        · exact c
        · have := h k'
          have e : k' ≠ k := by omega
          simp only [sget, if_true, e, if_false, c] at this
          exact absurd this.symm g1
      subst hk
      have hv : v = v' := by
        have := h k
        simpa [sget] using this
      subst hv
      rw [ih h3 g3]
      intro i
      rcases Nat.lt_or_ge k i with c | c
      · have := h i
        have e : i ≠ k := by omega
        have e2 : ¬ i < k := by omega
        simpa [sget, e, e2] using this
      · rw [sget_of_sabove h2 c, sget_of_sabove g2 c]

end

end Sys2Proof.Machine
end

