-- ==== Sys2Proof/Laws/Memory.lean ====
section
/-! SUPPORT. The canonical form of memory: it holds at reset and every memory operation keeps it, from the write of one
byte to the serving of an access; and reading after writing. -/

namespace Sys2Proof.Machine

/-- Reset memory lists nothing. -/
theorem reset_mem_wf : Memory.wf State.reset.mem := rfl

/-- A fold keeps what each of its steps keeps. -/
theorem foldl_keeps {α β : Type} {P : β → Prop} (f : β → α → β) (hf : ∀ b a, P b → P (f b a)) (l : List α) {b : β} (h : P b) : P (l.foldl f b) := by
  induction l generalizing b with
  | nil => exact h
  | cons a l ih => exact ih (hf b a h)

/-! ### Bytes -/

theorem wr_mem_wf {s : State} (h : Memory.wf s.mem) (a : Nat) (b : Byte) : Memory.wf (s.wr a b).mem := swf_sset h a b

theorem wrAll_mem_wf {s : State} (h : Memory.wf s.mem) (ws : List (Nat × Byte)) : Memory.wf (s.wrAll ws).mem := swf_ssetAll ws h

/-- Reading a byte after a write of one. -/
theorem rd_wr {s : State} (h : Memory.wf s.mem) (a x : Nat) (b : Byte) : (s.wr a b).rd x = if x = a then b else s.rd x := sget_sset h a x b

/-- A byte no write names reads as before. -/
theorem rd_wrAll_other {s : State} (h : Memory.wf s.mem) (ws : List (Nat × Byte)) {x : Nat} (hx : ∀ w ∈ ws, w.1 ≠ x) :
    (s.wrAll ws).rd x = s.rd x := sget_ssetAll_other ws h hx

/-- Equal bytes everywhere are equal memories. -/
theorem mem_ext {s t : State} (hs : Memory.wf s.mem) (ht : Memory.wf t.mem) (h : ∀ a, s.rd a = t.rd a) : s.mem = t.mem := sget_ext hs ht h

/-- A recall brings home only bytes that the host has written (R309). -/
theorem recallLine_mem_wf {s : State} (h : Memory.wf s.mem) (line : Nat) : Memory.wf (recallLine s line).mem := by
  unfold recallLine
  split
  · exact wrAll_mem_wf h _
  · exact h

/-! ### What leaves memory as it is -/

@[simp] theorem clearPoison_mem (s : State) (as : List Nat) : (clearPoison s as).mem = s.mem := rfl
@[simp] theorem onWatch_mem (s : State) (k : Nat) (f : Watch → Watch) : (s.onWatch k f).mem = s.mem := rfl
@[simp] theorem bumpCtr_mem (s : State) (bid gid k n : Nat) : (bumpCtr s bid gid k n).mem = s.mem := rfl
@[simp] theorem countTrig_mem (s : State) (st : Storer) : (countTrig s st).mem = s.mem := by cases st <;> rfl
@[simp] theorem nameMaster_mem (s : State) (c : Nat) (q : BitVec 16) (m : Master) : (nameMaster s c q m).mem = s.mem := rfl
@[simp] theorem takeSeq_mem (s : State) (c : Nat) : (takeSeq s c).2.mem = s.mem := rfl
@[simp] theorem l1Put_mem (s : State) (x : L1Line) : (l1Put s x).mem = s.mem := rfl
@[simp] theorem rdcPut_mem (s : State) (x : RdcLine) : (rdcPut s x).mem = s.mem := rfl
@[simp] theorem rdcUpdate_mem (s : State) (die line : Nat) (bs : List (Nat × Byte)) : (rdcUpdate s die line bs).mem = s.mem := by
  unfold rdcUpdate; split <;> rfl
@[simp] theorem pruneL1_mem (s : State) : (pruneL1 s).mem = s.mem := rfl
@[simp] theorem claimLine_mem (s : State) (mill line bid : Nat) : (claimLine s mill line bid).mem = s.mem := by
  unfold claimLine; repeat' (first | rfl | split)
@[simp] theorem healL1_mem (s : State) (mill : Nat) (as : List Nat) : (healL1 s mill as).mem = s.mem := rfl
@[simp] theorem poisonBack_mem (s : State) (mill : Nat) (as : List Nat) : (poisonBack s mill as).mem = s.mem := rfl
@[simp] theorem storeL1_mem (s : State) (mill ctx : Nat) (sc : Scope) (p : Option Nat) (st : Storer) (line : Nat) (bs : List (Nat × Byte)) (ms : List Nat) :
    (storeL1 s mill ctx sc p st line bs ms).mem = s.mem := rfl
@[simp] theorem acquireAt_mem (s : State) (mill : Nat) (sc : Scope) : (acquireAt s mill sc).mem = s.mem := by unfold acquireAt; split <;> rfl
@[simp] theorem dropLine_mem (s : State) (mill : Nat) (sc : Scope) (line : Nat) : (dropLine s mill sc line).mem = s.mem := by
  unfold dropLine; split <;> rfl
@[simp] theorem dropRdc_mem (s : State) (line : Nat) : (dropRdc s line).mem = s.mem := rfl

/-- What a load leaves in the caches leaves memory as it is. -/
@[simp] theorem fillCaches_mem (s : State) (mill : Nat) (sc : Scope) (v : Nat) (p : Option Nat) (c : Nat) (as : List Nat) :
    (fillCaches s mill sc v p c as).mem = s.mem := by
  unfold fillCaches
  dsimp only
  repeat' (first | rfl | exact claimLine_mem .. | split)

@[simp] theorem prefetchLine_mem (s : State) (mill c : Nat) (sc : Scope) (pa : Nat) : (prefetchLine s mill c sc pa).mem = s.mem := by
  unfold prefetchLine
  dsimp only
  repeat' (first | rfl | exact fillCaches_mem .. | split)

@[simp] theorem countMiss_mem (s : State) (op : LongOp) (v : Nat) (m : LaneMask) : (countMiss s op v m).mem = s.mem := by
  unfold countMiss
  dsimp only
  repeat' (first | rfl | split)
@[simp] theorem healScratch_mem (s : State) (bid : Nat) (as : List Nat) : (healScratch s bid as).mem = s.mem := rfl
@[simp] theorem healSlot_mem (s : State) (bid st k : Nat) (as : List Nat) : (healSlot s bid st k as).mem = s.mem := rfl
@[simp] theorem dropAccs_mem (s : State) (o : Nat) (ks : List Nat) : (dropAccs s o ks).mem = s.mem := rfl

/-! ### The device's own writes, and the comparison of a write

`rc` is what recalls the host's copy of a line; what keeps the form with one that does keeps it with `bringBack`. -/

theorem foldl_recall_mem_wf {rc : State → Nat → State} (hrc : ∀ (t : State) (n : Nat), Memory.wf t.mem → Memory.wf (rc t n).mem)
    {s : State} (h : Memory.wf s.mem) (ls : List Nat) : Memory.wf (ls.foldl rc s).mem :=
  foldl_keeps (P := fun t : State => Memory.wf t.mem) _ (fun _ _ hb => hrc _ _ hb) _ h

theorem rawWriteBy_mem_wf {rc : State → Nat → State} (hrc : ∀ (t : State) (n : Nat), Memory.wf t.mem → Memory.wf (rc t n).mem)
    {s : State} (h : Memory.wf s.mem) (pa : Nat) (bs : List Byte) : Memory.wf (rawWriteBy rc s pa bs).mem :=
  wrAll_mem_wf (foldl_recall_mem_wf hrc h _) _

theorem ringWriteBy_mem_wf {rc : State → Nat → State} (hrc : ∀ (t : State) (n : Nat), Memory.wf t.mem → Memory.wf (rc t n).mem)
    {s : State} (h : Memory.wf s.mem) (c : Nat) (ws : List W64) : Memory.wf (ringWriteBy rc s c ws).mem := by
  unfold ringWriteBy
  dsimp only
  split
  · exact h
  · split <;> exact rawWriteBy_mem_wf hrc h _ _

theorem emitRecordBy_mem_wf {rc : State → Nat → State} (hrc : ∀ (t : State) (n : Nat), Memory.wf t.mem → Memory.wf (rc t n).mem)
    {s : State} (h : Memory.wf s.mem) (r : Rec) (m : Master) : Memory.wf (emitRecordBy rc s r m).mem :=
  ringWriteBy_mem_wf hrc (s := (takeSeq s r.ctx).2) h _ _

theorem offerRecordBy_mem_wf {rc : State → Nat → State} (hrc : ∀ (t : State) (n : Nat), Memory.wf t.mem → Memory.wf (rc t n).mem)
    {s : State} (h : Memory.wf s.mem) (w : Watch) (t : TrigRec) : Memory.wf (offerRecordBy rc s w t).mem := by
  unfold offerRecordBy
  split
  · exact emitRecordBy_mem_wf hrc (s := s.onWatch w.idx _) h _ _
  · exact h

theorem compareWatchBy_mem_wf {rc : State → Nat → State} (hrc : ∀ (t : State) (n : Nat), Memory.wf t.mem → Memory.wf (rc t n).mem)
    {s : State} (h : Memory.wf s.mem) (w : Watch) (c : Option Nat) (line : Nat) (ch : List Nat) (st : Storer) :
    Memory.wf (compareWatchBy rc w c line ch st s).mem := by
  unfold compareWatchBy
  dsimp only
  repeat' split
  all_goals first | exact h | (rw [countTrig_mem]; exact offerRecordBy_mem_wf hrc h _ _)

/-- The bytes of a line written and compared keep the form, whatever watch they start. -/
theorem compareLineBy_mem_wf {rc : State → Nat → State} (hrc : ∀ (t : State) (n : Nat), Memory.wf t.mem → Memory.wf (rc t n).mem)
    {s : State} (h : Memory.wf s.mem) (c : Option Nat) (st : Storer) (line : Nat) (bs : List (Nat × Byte)) :
    Memory.wf (compareLineBy rc s c st line bs).mem := by
  have h1 : Memory.wf (clearPoison (s.wrAll bs) (bs.map (·.1))).mem := wrAll_mem_wf h _
  unfold compareLineBy
  dsimp only
  split
  · exact h1
  · exact foldl_keeps (P := fun t : State => Memory.wf t.mem) _ (fun _ _ hb => compareWatchBy_mem_wf hrc hb _ _ _ _ _) _ h1

theorem bringBackIn_mem_wf (n : Nat) : ∀ (s : State) (line : Nat), Memory.wf s.mem → Memory.wf (bringBackIn n s line).mem := by
  induction n with
  | zero => exact fun _ line h => recallLine_mem_wf h line
  | succ n ih =>
    intro s line h
    unfold bringBackIn
    split
    · exact recallLine_mem_wf (compareLineBy_mem_wf ih h _ _ _ _) _
    · exact h

/-- What the host has written in its copy of a line comes home in the form. -/
theorem bringBack_mem_wf {s : State} (h : Memory.wf s.mem) (line : Nat) : Memory.wf (bringBack s line).mem := bringBackIn_mem_wf _ _ _ h

theorem rawWrite_mem_wf {s : State} (h : Memory.wf s.mem) (pa : Nat) (bs : List Byte) : Memory.wf (rawWrite s pa bs).mem :=
  rawWriteBy_mem_wf (fun _ n ht => bringBack_mem_wf ht n) h _ _

theorem ringWrite_mem_wf {s : State} (h : Memory.wf s.mem) (c : Nat) (ws : List W64) : Memory.wf (ringWrite s c ws).mem :=
  ringWriteBy_mem_wf (fun _ n ht => bringBack_mem_wf ht n) h _ _

theorem emitRecord_mem_wf {s : State} (h : Memory.wf s.mem) (r : Rec) (m : Master) : Memory.wf (emitRecord s r m).mem :=
  emitRecordBy_mem_wf (fun _ n ht => bringBack_mem_wf ht n) h _ _

theorem emitEntry_mem_wf {s : State} (h : Memory.wf s.mem) (r : Rec) (k : Nat) (e : List W64) (m : Master) : Memory.wf (emitEntry s r k e m).mem :=
  ringWrite_mem_wf (s := (takeSeq s r.ctx).2) h _ _

theorem devWrite_mem_wf {s : State} (h : Memory.wf s.mem) (mill : Nat) (pas : List Nat) (bs : List Byte) : Memory.wf (devWrite s mill pas bs).mem :=
  wrAll_mem_wf (foldl_recall_mem_wf (fun _ n ht => bringBack_mem_wf ht n) h _) _

theorem compareLine_mem_wf {s : State} (h : Memory.wf s.mem) (c : Option Nat) (st : Storer) (line : Nat) (bs : List (Nat × Byte)) :
    Memory.wf (compareLine s c st line bs).mem := compareLineBy_mem_wf (fun _ n ht => bringBack_mem_wf ht n) h _ _ _ _

/-- The write of a line at its home keeps the form. -/
theorem homeLine_mem_wf {s : State} (h : Memory.wf s.mem) (c : Option Nat) (st : Storer) (line : Nat) (bs : List (Nat × Byte)) :
    Memory.wf (homeLine s c st line bs).mem := by
  exact compareLine_mem_wf (bringBack_mem_wf h line) c st line bs

theorem homeWrite_mem_wf {s : State} (h : Memory.wf s.mem) (c : Option Nat) (st : Storer) (bs : List (Nat × Byte)) : Memory.wf (homeWrite s c st bs).mem :=
  foldl_keeps (P := fun t : State => Memory.wf t.mem) _ (fun _ _ hb => homeLine_mem_wf hb _ _ _ _) _ h

theorem homeAdd64_mem_wf {s : State} (h : Memory.wf s.mem) (c : Option Nat) (st : Storer) (pa : Nat) (x : W64) : Memory.wf (homeAdd64 s c st pa x).mem :=
  homeWrite_mem_wf (bringBack_mem_wf h _) _ _ _

/-! ### The caches -/

theorem storeThrough_mem_wf {s : State} (h : Memory.wf s.mem) (mill ctx : Nat) (st : Storer) (line : Nat) (bs : List (Nat × Byte)) :
    Memory.wf (storeThrough s mill ctx st line bs).mem := by
  have h1 := homeLine_mem_wf (s := healL1 s mill (bs.map (·.1))) h (some ctx) st line bs
  unfold storeThrough
  dsimp only
  split <;> simpa using h1

theorem writeBackOne_mem_wf {s : State} (h : Memory.wf s.mem) (x : L1Line) (p : Nat → Bool) : Memory.wf (writeBackOne s x p).mem := by
  unfold writeBackOne
  dsimp only
  split
  · exact h
  · rw [l1Put_mem, poisonBack_mem, rdcUpdate_mem]
    split
    · exact wrAll_mem_wf h _
    · exact foldl_keeps (P := fun t : State => Memory.wf t.mem) _ (fun _ _ hb => homeLine_mem_wf hb _ _ _ _) _ h

theorem writeBackIf_mem_wf {s : State} (h : Memory.wf s.mem) (x : L1Line) (p : Nat → Bool) : Memory.wf (writeBackIf s x p).mem := by
  unfold writeBackIf
  split
  · exact writeBackOne_mem_wf h x p
  · refine foldl_keeps (P := fun t : State => Memory.wf t.mem) _ (fun t a hb => ?_) _ h
    split
    · exact writeBackOne_mem_wf hb _ _
    · exact hb

theorem writeBack_mem_wf {s : State} (h : Memory.wf s.mem) (x : L1Line) : Memory.wf (writeBack s x).mem := writeBackIf_mem_wf h x _

theorem releaseAt_mem_wf {s : State} (h : Memory.wf s.mem) (mill : Nat) (sc : Scope) : Memory.wf (releaseAt s mill sc).mem := by
  unfold releaseAt
  split
  · exact h
  · exact foldl_keeps (P := fun t : State => Memory.wf t.mem) _ (fun _ _ hb => writeBack_mem_wf hb _) _ h

theorem cleanLine_mem_wf {s : State} (h : Memory.wf s.mem) (mill : Nat) (sc : Scope) (line : Nat) : Memory.wf (cleanLine s mill sc line).mem := by
  unfold cleanLine
  split
  · exact h
  · split
    · exact writeBack_mem_wf h _
    · exact h

theorem flushSectors_mem_wf {s : State} (h : Memory.wf s.mem) (mill line : Nat) (secs : List Nat) : Memory.wf (flushSectors s mill line secs).mem := by
  unfold flushSectors
  split
  · exact h
  · dsimp only
    split
    · exact writeBackIf_mem_wf h _ _
    · split <;> exact writeBackIf_mem_wf h _ _

theorem evictL1_mem_wf {s : State} (h : Memory.wf s.mem) (x : L1Line) : Memory.wf (evictL1 s x).mem := writeBack_mem_wf h x

theorem flushLines_mem_wf {s : State} (h : Memory.wf s.mem) (mill : Nat) (ls : List Nat) : Memory.wf (flushLines s mill ls).mem :=
  foldl_keeps (P := fun t : State => Memory.wf t.mem) _ (fun _ _ hb => evictL1_mem_wf hb _) _ h

theorem homeAtomics_mem_wf {s : State} (h : Memory.wf s.mem) (mill ctx : Nat) (st : Storer) (line : Nat) (f : AtomOp) (w : AtomWidth) (ps : List AtomPart) :
    Memory.wf (homeAtomics s mill ctx st line f w ps).2.mem :=
  homeLine_mem_wf (bringBack_mem_wf (s := dropRdc (flushSectors s mill line _) line) (flushSectors_mem_wf h _ _ _) line) _ _ _ _

end Sys2Proof.Machine
end

