-- ==== Sys2Proof/Laws/Registers.lean ====
section
/-! SUPPORT. What a list of register writes leaves in each register, predicate and draw index of a group. -/

namespace Sys2Proof.Machine

/-! ### What one write gives -/

/-- The value a write gives a register of a lane. -/
def RegWrite.reg? (w : RegWrite) (l : Nat) (r : Reg) : Option W32 :=
  match w, r with
  | .v a n x, .v m => if a = l ∧ n = m then some x else none
  | .u n x, .s m => if n = m then some x else none
  | _, _ => none

/-- The value a write gives a predicate of a lane. -/
def RegWrite.pred? (w : RegWrite) (l k : Nat) : Option Bool :=
  match w with
  | .p a n x => if a = l ∧ n = k then some x else none
  | _ => none

/-- The value a write gives a lane's draw index. -/
def RegWrite.draw? (w : RegWrite) (l : Nat) : Option W32 :=
  match w with
  | .draw a x => if a = l then some x else none
  | _ => none

/-- The last value some writes give. -/
def lastOf {α : Type} (f : RegWrite → Option α) : List RegWrite → Option α
  | [] => none
  | w :: ws => (lastOf f ws).or (f w)

@[simp] theorem lastOf_nil {α : Type} (f : RegWrite → Option α) : lastOf f [] = none := rfl

theorem lastOf_append {α : Type} (f : RegWrite → Option α) (a b : List RegWrite) :
    lastOf f (a ++ b) = (lastOf f b).or (lastOf f a) := by
  induction a with
  | nil => simp
  | cons w a ih => simp [lastOf, ih, Option.or_assoc]

theorem lastOf_none {α : Type} {f : RegWrite → Option α} {ws : List RegWrite} (h : ∀ w ∈ ws, f w = none) : lastOf f ws = none := by
  induction ws with
  | nil => rfl
  | cons w ws ih => simp [lastOf, ih fun x hx => h x (by simp [hx]), h w (by simp)]

/-- Writes of one register in each lane of a list. -/
theorem lastOf_flatMap {α : Type} {f : RegWrite → Option α} {ls : List Nat} {g : Nat → List RegWrite} {l : Nat}
    (h : ∀ a ∈ ls, a ≠ l → lastOf f (g a) = none) :
    lastOf f (ls.flatMap g) = if l ∈ ls then lastOf f (g l) else none := by
  induction ls with
  | nil => simp
  | cons a ls ih =>
    rw [List.flatMap_cons, lastOf_append, ih fun b hb => h b (by simp [hb])]
    by_cases e : a = l
    · subst e
      by_cases c : a ∈ ls <;> simp [c]
    · rw [h a (by simp) e]
      have : ¬ l = a := fun x => e x.symm
      simp [this]

/-! ### A group after writes -/

theorem Group.write_wf {g : Group} (h : g.wf) (w : RegWrite) : (g.write w).wf := by
  obtain ⟨h1, h2, h3, h4, h5, h6, h7, h8⟩ := h
  cases w <;> simp only [Group.write] <;> try split
  all_goals exact ⟨by first | exact h1 | exact swf_sset h1 _ _, by first | exact h2 | exact swf_sset h2 _ _,
    by first | exact h3 | exact swf_sset h3 _ _, h4, by first | exact h5 | exact swf_sset h5 _ _,
    by first | exact h6 | exact swf_sset h6 _ _, h7, h8⟩

theorem Group.writes_wf {g : Group} (h : g.wf) (ws : List RegWrite) : (ws.foldl Group.write g).wf := by
  induction ws generalizing g with
  | nil => exact h
  | cons w ws ih => exact ih (Group.write_wf h w)

theorem Group.writes_v {g : Group} (h : g.wf) (ws : List RegWrite) (l : Nat) {n : Nat} (hn : n < 128) :
    sget 0 (ws.foldl Group.write g).v (128 * l + n) = (lastOf (fun w => w.reg? l (.v n)) ws).getD (sget 0 g.v (128 * l + n)) := by
  induction ws generalizing g with
  | nil => rfl
  | cons w ws ih =>
    rw [List.foldl_cons, ih (Group.write_wf h w), lastOf]
    have key : sget 0 (g.write w).v (128 * l + n) = (w.reg? l (.v n)).getD (sget 0 g.v (128 * l + n)) := by
      cases w with
      | v a m x =>
        simp only [Group.write, RegWrite.reg?]
        split
        · next hm =>
          rw [sget_sset h.1]
          by_cases c : a = l ∧ m = n
          · obtain ⟨rfl, rfl⟩ := c; simp
          · have : ¬ (128 * l + n = 128 * a + m) := by omega
            simp [c, this]
        · next hm =>
          have : ¬ (a = l ∧ m = n) := by omega
          simp [this]
      | _ => rfl
    rw [key]
    cases lastOf (fun w => w.reg? l (.v n)) ws <;> simp

theorem Group.writes_u {g : Group} (h : g.wf) (ws : List RegWrite) (l n : Nat) :
    sget 0 (ws.foldl Group.write g).u n = (lastOf (fun w => w.reg? l (.s n)) ws).getD (sget 0 g.u n) := by
  induction ws generalizing g with
  | nil => rfl
  | cons w ws ih =>
    rw [List.foldl_cons, ih (Group.write_wf h w), lastOf]
    have key : sget 0 (g.write w).u n = (w.reg? l (.s n)).getD (sget 0 g.u n) := by
      cases w with
      | u m x =>
        simp only [Group.write, RegWrite.reg?]
        rw [sget_sset h.2.1]
        by_cases c : m = n
        · subst c; simp
        · have : ¬ n = m := fun e => c e.symm
          simp [c, this]
      | v a m x => simp only [Group.write, RegWrite.reg?]; split <;> rfl
      | _ => rfl
    rw [key]
    cases lastOf (fun w => w.reg? l (.s n)) ws <;> simp

theorem getLsbD_setBit (x : BitVec 12) (k j : Nat) (b : Bool) (hk : k < 12) :
    (setBit x k b).getLsbD j = if j = k then b else x.getLsbD j := by
  have e : (1#12 <<< k).getLsbD j = decide (j = k) := by
    simp only [BitVec.getLsbD_shiftLeft, BitVec.getLsbD_one]
    by_cases c : j = k
    · subst c; simp [hk]
    · by_cases d : j < k
      · simp [c, d]
      · have : ¬ (j - k = 0) := by omega
        simp [c, d, this]
  have n : (~~~(1#12 <<< k)).getLsbD j = (decide (j < 12) && !decide (j = k)) := by rw [BitVec.getLsbD_not, e]
  unfold setBit
  cases b
  · rw [if_neg (by decide), BitVec.getLsbD_and, n]
    by_cases c : j = k
    · simp [c]
    · by_cases d : j < 12
      · simp [c, d]
      · simp [c, BitVec.getLsbD_of_ge x j (by omega)]
  · rw [if_pos rfl, BitVec.getLsbD_or, e]
    by_cases c : j = k <;> simp [c]

theorem Group.writes_p {g : Group} (h : g.wf) (ws : List RegWrite) (hp : ∀ w ∈ ws, ∀ l k x, w = .p l k x → k < 12) (l k : Nat) :
    pget (ws.foldl Group.write g) l k = (lastOf (fun w => w.pred? l k) ws).getD (pget g l k) := by
  induction ws generalizing g with
  | nil => rfl
  | cons w ws ih =>
    rw [List.foldl_cons, ih (Group.write_wf h w) fun v hv => hp v (by simp [hv]), lastOf]
    have key : pget (g.write w) l k = (w.pred? l k).getD (pget g l k) := by
      cases w with
      | p a m x =>
        have hm : m < 12 := hp (.p a m x) (by simp) a m x rfl
        simp only [Group.write, RegWrite.pred?, pget]
        rw [sget_sset h.2.2.1]
        by_cases c : a = l
        · subst c
          rw [if_pos rfl, getLsbD_setBit _ _ _ _ hm]
          by_cases d : m = k
          · subst d; simp
          · have : ¬ k = m := fun e => d e.symm
            simp [d, this]
        · have : ¬ l = a := fun e => c e.symm
          simp [c, this]
      | v a m x => simp only [Group.write, RegWrite.pred?]; split <;> rfl
      | _ => rfl
    rw [key]
    cases lastOf (fun w => w.pred? l k) ws <;> simp

theorem Group.writes_draws {g : Group} (h : g.wf) (ws : List RegWrite) (l : Nat) :
    sget 0 (ws.foldl Group.write g).draws l = (lastOf (fun w => w.draw? l) ws).getD (sget 0 g.draws l) := by
  induction ws generalizing g with
  | nil => rfl
  | cons w ws ih =>
    rw [List.foldl_cons, ih (Group.write_wf h w), lastOf]
    have key : sget 0 (g.write w).draws l = (w.draw? l).getD (sget 0 g.draws l) := by
      cases w with
      | draw a x =>
        simp only [Group.write, RegWrite.draw?]
        rw [sget_sset h.2.2.2.2.1]
        by_cases c : a = l
        · subst c; simp
        · have : ¬ l = a := fun e => c e.symm
          simp [c, this]
      | v a m x => simp only [Group.write, RegWrite.draw?]; split <;> rfl
      | _ => rfl
    rw [key]
    cases lastOf (fun w => w.draw? l) ws <;> simp

/-- The write is one of a register, a predicate or a draw index. -/
def RegWrite.plain : RegWrite → Bool
  | .owner _ _ => false
  | _ => true

theorem Group.write_rest {g : Group} {w : RegWrite} (h : w.plain = true) :
    { g.write w with v := g.v, u := g.u, p := g.p, draws := g.draws } = g := by
  cases w with
  | v a n x => simp only [Group.write]; split <;> rfl
  | owner => simp [RegWrite.plain] at h
  | _ => rfl

theorem Group.writes_rest {g : Group} {ws : List RegWrite} (h : ∀ w ∈ ws, w.plain = true) :
    { ws.foldl Group.write g with v := g.v, u := g.u, p := g.p, draws := g.draws } = g := by
  induction ws generalizing g with
  | nil => rfl
  | cons w ws ih =>
    have hx := ih (g := g.write w) fun v hv => h v (by simp [hv])
    have hy := Group.write_rest (g := g) (h w (by simp))
    rw [List.foldl_cons]
    generalize ws.foldl Group.write (g.write w) = x at hx
    generalize g.write w = y at hx hy
    calc { x with v := g.v, u := g.u, p := g.p, draws := g.draws }
        = { ({ x with v := y.v, u := y.u, p := y.p, draws := y.draws } : Group) with v := g.v, u := g.u, p := g.p, draws := g.draws } := rfl
      _ = { y with v := g.v, u := g.u, p := g.p, draws := g.draws } := by rw [hx]
      _ = g := hy

/-! ### The extended set of a pair -/

theorem ExtSet.write_pair (e : ExtSet) (w : RegWrite) : (e.write w).pair = e.pair := by
  cases w with
  | v a n x => simp only [ExtSet.write]; split <;> rfl
  | _ => rfl

theorem ExtSet.writes_pair (e : ExtSet) (ws : List RegWrite) : (ws.foldl ExtSet.write e).pair = e.pair := by
  induction ws generalizing e with
  | nil => rfl
  | cons w ws ih => rw [List.foldl_cons, ih, ExtSet.write_pair]

theorem ExtSet.write_holder (e : ExtSet) (w : RegWrite) : (e.write w).holder = e.holder := by
  cases w with
  | v a n x => simp only [ExtSet.write]; split <;> rfl
  | _ => rfl

theorem ExtSet.writes_holder (e : ExtSet) (ws : List RegWrite) : (ws.foldl ExtSet.write e).holder = e.holder := by
  induction ws generalizing e with
  | nil => rfl
  | cons w ws ih => rw [List.foldl_cons, ih, ExtSet.write_holder]

theorem ExtSet.writes_regs {e : ExtSet} (h : swf 0 e.regs = true) (ws : List RegWrite)
    (hw : ∀ w ∈ ws, ∀ l n x, w = .v l n x → n < 192) (l : Nat) {n : Nat} (h1 : 128 ≤ n) (h2 : n < 192) :
    sget 0 (ws.foldl ExtSet.write e).regs (64 * l + (n - 128)) =
      (lastOf (fun w => w.reg? l (.v n)) ws).getD (sget 0 e.regs (64 * l + (n - 128))) := by
  induction ws generalizing e with
  | nil => rfl
  | cons w ws ih =>
    have kw : swf 0 (e.write w).regs = true := by
      cases w <;> simp only [ExtSet.write] <;> try exact h
      split
      · exact h
      · exact swf_sset h _ _
    rw [List.foldl_cons, ih kw fun v hv => hw v (by simp [hv]), lastOf]
    have key : sget 0 (e.write w).regs (64 * l + (n - 128)) = (w.reg? l (.v n)).getD (sget 0 e.regs (64 * l + (n - 128))) := by
      cases w with
      | v a m x =>
        have hm : m < 192 := hw (.v a m x) (by simp) a m x rfl
        simp only [ExtSet.write, RegWrite.reg?]
        split
        · have : ¬ (a = l ∧ m = n) := by omega
          simp [this]
        · rw [sget_sset h]
          by_cases c : a = l ∧ m = n
          · obtain ⟨rfl, rfl⟩ := c; simp
          · have : ¬ (64 * l + (n - 128) = 64 * a + (m - 128)) := by omega
            simp [c, this]
      | _ => rfl
    rw [key]
    cases lastOf (fun w => w.reg? l (.v n)) ws <;> simp

end Sys2Proof.Machine
end

