-- ==== Sys2Proof/Laws/Results.lean ====
section
/-! SUPPORT. What an instruction that completes with register writes leaves: the law of `retireWith`, and what the
results of rows 0x1 to 0x5 give each register. -/

namespace Sys2Proof.Machine

@[simp] theorem Frag.goOn_fid (f : Frag) (n : W64) (c : Nat) : (f.goOn n c).fid = f.fid := by
  unfold Frag.goOn; split <;> rfl

theorem State.wf_block {s : State} (h : s.wf) {bid : Nat} {b : Block} (hb : s.block? bid = some b) : b.wf := h.2.1 b (State.block?_mem hb)

theorem Block.wf_group {b : Block} (h : b.wf) {gid : Nat} {g : Group} (hg : b.group? gid = some g) : g.wf := h.1 g (Block.group?_mem hg)

theorem Issues.wf {s : State} {e : Env} (hi : Issues s e) (h : s.wf) : e.b.wf ∧ e.g.wf := by
  obtain ⟨h1, h2, -⟩ := State.frag?_eq hi.2.2
  exact ⟨State.wf_block h h1, Block.wf_group (State.wf_block h h1) h2⟩

theorem Issues.gid {s : State} {e : Env} (hi : Issues s e) : e.g.gid = e.i.f.gid := Block.group?_gid (State.frag?_eq hi.2.2).2.1

theorem Issues.bid {s : State} {e : Env} (hi : Issues s e) : e.b.bid = e.i.f.bid := State.block?_bid (State.frag?_eq hi.2.2).1

/-! ### Registers of a block after writes -/

theorem rget_regWrites {b : Block} {g : Group} (hb : b.wf) (hg : g.wf) {ws : List RegWrite}
    (hv : ∀ w ∈ ws, ∀ l n x, w = .v l n x → n < 192 ∧ (128 ≤ n → b.holdsExt g = true)) (l : Nat) {r : Reg} (hr : r.wf = true) :
    rget (b.regWrites g.gid ws) (ws.foldl Group.write g) l r = (lastOf (fun w => w.reg? l r) ws).getD (rget b g l r) := by
  have hgid : (ws.foldl Group.write g).gid = g.gid := by
    clear hv
    induction ws generalizing g with
    | nil => rfl
    | cons w ws ih =>
      rw [List.foldl_cons, ih (Group.write_wf hg w)]
      cases w <;> simp only [Group.write] <;> try rfl
      split <;> rfl
  cases r with
  | s n => exact Group.writes_u hg ws l n
  | v n =>
    have hn : n < 192 := by simpa [Reg.wf] using hr
    show vget _ _ l n = _
    unfold vget
    split
    · next h => simp only [rget, vget, h, if_true]; exact Group.writes_v hg ws l h
    · next h =>
      simp only [rget, vget, h, if_false]
      rw [hgid]
      unfold Block.extSet
      simp only [Block.regWrites]
      rw [find?_updIf_same (fun e => ExtSet.writes_pair e ws)]
      cases e : b.exts.find? (fun x => x.pair == g.gid / 2) with
      | some x =>
        simp only [Option.map_some, Option.getD_some]
        exact ExtSet.writes_regs (hb.2.1 x (List.mem_of_find?_eq_some e)) ws
          (fun w hw l n x hx => (hv w hw l n x hx).1) l (by omega) hn
      | none =>
        simp only [Option.map_none, Option.getD_none]
        rw [lastOf_none]
        · rfl
        · intro w hw
          cases w with
          | v a m x =>
            simp only [RegWrite.reg?]
            split
            · next c =>
              obtain ⟨rfl, rfl⟩ := c
              have := (hv (.v a m x) hw a m x rfl).2 (by omega)
              simp [Block.holdsExt, Block.extSet, e] at this
            · rfl
          | _ => rfl

/-! ### The law of `retireWith` -/

theorem countMapped_eq (s : State) (srcs : List Opnd) : countMapped s srcs = s ∨
    ∃ i, s.cur = some i ∧ countMapped s srcs = bumpCtr s i.f.bid i.f.gid 3 1 := by
  unfold countMapped
  split
  · exact .inl rfl
  · next i e =>
    split
    · exact .inr ⟨i, e, rfl⟩
    · exact .inl rfl

theorem retireWith_eq {s : State} {i : Iss} (h : s.cur = some i) (ws : List RegWrite) :
    retireWith s ws = ({ s.regWrites i.f.bid i.f.gid ws with cur := none } : State).onFrag i.f fun f => f.goOn i.next s.cycle := by
  simp [retireWith, h, retire]

/-- `retireWith` changes the group's registers as its writes say, and the fragment goes on; nothing else changes. -/
theorem wrote_retireWith {s : State} {e : Env} (hi : Issues s e) (hw : s.wf) (srcs : List Opnd) {ws : List RegWrite} {dr : Nat → W32}
    (hv : ∀ w ∈ ws, ∀ l n x, w = .v l n x → n < 192 ∧ (128 ≤ n → e.b.holdsExt e.g = true))
    (hp : ∀ w ∈ ws, ∀ l k x, w = .p l k x → k < 12) (hq : ∀ w ∈ ws, w.plain = true)
    (hd : ∀ l, (lastOf (fun w => w.draw? l) ws).getD (sget 0 e.g.draws l) = sget 0 e.g.draws l + dr l) :
    Wrote e (retireWith (countMapped s srcs) ws) (fun l r => lastOf (fun w => w.reg? l r) ws)
      (fun l k => lastOf (fun w => w.pred? l k) ws) dr := by
  obtain ⟨rfl, hc, hf⟩ := hi
  obtain ⟨f1, f2, f3⟩ := State.frag?_eq hf
  obtain ⟨wb, wg⟩ := Issues.wf ⟨rfl, hc, hf⟩ hw
  have hgid := Block.group?_gid f2
  -- the group and the block before the writes: mapped instructions are counted
  have key : ∃ c : Sparse W64, (∀ k, k ≠ 3 → sget 0 c k = sget 0 e.g.ctr k) ∧
      (countMapped e.s srcs).cur = some e.i ∧ (countMapped e.s srcs).cycle = e.s.cycle ∧
      { countMapped e.s srcs with blocks := e.s.blocks } = e.s ∧
      (∀ bid, bid ≠ e.i.f.bid → (countMapped e.s srcs).block? bid = e.s.block? bid) ∧
      ∃ b1, (countMapped e.s srcs).block? e.i.f.bid = some b1 ∧ { b1 with groups := e.b.groups } = e.b ∧
        b1.group? e.i.f.gid = some { e.g with ctr := c } ∧ ∀ gid, gid ≠ e.i.f.gid → b1.group? gid = e.b.group? gid := by
    rcases countMapped_eq e.s srcs with h | ⟨i, h1, h2⟩
    · exact ⟨e.g.ctr, fun _ _ => rfl, by rw [h, hc], by rw [h], by rw [h], fun _ _ => by rw [h], e.b, by rw [h, f1], rfl, f2, fun _ _ => rfl⟩
    · have hi : i = e.i := by rw [hc] at h1; exact (Option.some.inj h1).symm
      subst hi
      refine ⟨sset 0 e.g.ctr 3 (sget 0 e.g.ctr 3 + BitVec.ofNat 64 1), fun k hk => sget_sset_ne wg.2.2.2.2.2.2.1 _ hk, by rw [h2]; exact hc,
        by rw [h2]; rfl, by rw [h2]; rfl, fun bid hb => by rw [h2]; exact State.block?_onGroup_ne hb,
        { e.b with groups := updIf (·.gid == e.i.f.gid) (fun g => { g with ctr := sset 0 g.ctr 3 (sget 0 g.ctr 3 + BitVec.ofNat 64 1) }) e.b.groups },
        by rw [h2]; exact State.block?_onGroup f1, rfl, ?_, ?_⟩
      · exact Block.group?_updIf (f := fun g => { g with ctr := sset 0 g.ctr 3 (sget 0 g.ctr 3 + BitVec.ofNat 64 1) }) (fun _ => rfl) f2
      · intro gid hg
        exact Block.group?_updIf_ne (f := fun g => { g with ctr := sset 0 g.ctr 3 (sget 0 g.ctr 3 + BitVec.ofNat 64 1) }) (fun _ => rfl) hg
  obtain ⟨c, hctr, kcur, kcyc, krest, kother, b1, kb, kb', kg, kg'⟩ := key
  generalize countMapped e.s srcs = s1 at kcur kcyc krest kother kb
  rw [retireWith_eq kcur, kcyc]
  have eb : b1.exts = e.b.exts := by
    have := congrArg Block.exts kb'
    exact this
  -- the block after the writes
  have b2 : (s1.regWrites e.i.f.bid e.i.f.gid ws).block? e.i.f.bid = some (b1.regWrites e.i.f.gid ws) :=
    State.block?_onBlock (f := fun b => b.regWrites e.i.f.gid ws) (fun _ => rfl) kb
  have g2 : (b1.regWrites e.i.f.gid ws).group? e.i.f.gid = some (ws.foldl Group.write { e.g with ctr := c }) := by
    refine Block.group?_updIf (b := { b1 with exts := (b1.regWrites e.i.f.gid ws).exts }) (f := fun g => ws.foldl Group.write g) ?_ kg
    intro g
    have := congrArg Group.gid (Group.writes_rest (g := g) hq)
    simpa using this
  -- writes do not see the counter
  have nat : ws.foldl Group.write { e.g with ctr := c } = { ws.foldl Group.write e.g with ctr := c } := by
    have : ∀ (g : Group) (ws : List RegWrite), ws.foldl Group.write { g with ctr := c } = { ws.foldl Group.write g with ctr := c } := by
      intro g ws
      induction ws generalizing g with
      | nil => rfl
      | cons w ws ih =>
        rw [List.foldl_cons, List.foldl_cons, ← ih]
        congr 1
        cases w <;> simp only [Group.write]
        split <;> rfl
    exact this e.g ws
  have rest := Group.writes_rest (g := e.g) hq
  have frs : (ws.foldl Group.write e.g).frags = e.g.frags := by
    have := congrArg Group.frags rest; simpa using this
  have gid3 : (ws.foldl Group.write e.g).gid = e.g.gid := by
    have := congrArg Group.gid rest; simpa using this
  have f3' : (ws.foldl Group.write { e.g with ctr := c }).frag? e.i.f.fid = some e.f := by
    rw [nat]
    show (ws.foldl Group.write e.g).frags.find? _ = _
    rw [frs]; exact f3
  refine ⟨⟨_, _, _, State.frag?_of (State.block?_onGroup (f := fun g => { g with frags := updIf (·.fid == e.i.f.fid) (fun f => f.goOn e.i.next e.s.cycle) g.frags }) (s := { s1.regWrites e.i.f.bid e.i.f.gid ws with cur := none }) b2)
      (Block.group?_updIf (f := fun g => { g with frags := updIf (·.fid == e.i.f.fid) (fun f => f.goOn e.i.next e.s.cycle) g.frags }) (fun _ => rfl) g2)
      (Group.frag?_updIf (fun _ => by simp) f3'), rfl, ?_, ?_, ?_, ?_, ?_, ?_, ?_, ?_⟩, ?_, ?_, ?_, ?_⟩
  · intro l r hr
    rw [nat]
    have := rget_regWrites wb wg hv l hr
    rw [← this]
    cases r with
    | s n => rfl
    | v n =>
      simp only [rget, vget]
      split
      · rfl
      · simp only [Block.extSet, Block.regWrites, gid3, hgid, eb]
  · intro l k
    rw [nat]
    exact Group.writes_p wg ws hp l k
  · intro l
    rw [nat]
    have := Group.writes_draws wg ws l
    simp only [] at this ⊢
    rw [this]; exact hd l
  · intro k hk
    rw [nat]
    exact hctr k hk
  · intro fid hfid
    rw [Group.frag?_updIf_ne (fun _ => by simp) hfid, nat]
    show (ws.foldl Group.write e.g).frags.find? _ = _
    rw [frs]; rfl
  · intro gid hg
    rw [Block.group?_updIf_ne (f := fun g => { g with frags := updIf (·.fid == e.i.f.fid) (fun f => f.goOn e.i.next e.s.cycle) g.frags }) (fun _ => rfl) hg]
    rw [← kg' gid hg]
    refine Block.group?_updIf_ne (b := { b1 with exts := (b1.regWrites e.i.f.gid ws).exts }) (f := fun g => ws.foldl Group.write g) ?_ hg
    intro g
    have := congrArg Group.gid (Group.writes_rest (g := g) hq)
    simpa using this
  · rw [nat]
    have := congrArg (fun g : Group => { g with frags := e.g.frags, ctr := e.g.ctr }) rest
    exact this
  · have := congrArg (fun b : Block => { b with exts := e.b.exts }) kb'
    exact this
  · intro a
    have := congrArg State.mem krest
    show sget 0 s1.mem a = sget 0 e.s.mem a
    rw [← this]
  · intro bid hb
    rw [State.block?_onFrag_ne hb]
    show (s1.regWrites e.i.f.bid e.i.f.gid ws).block? bid = _
    rw [← kother bid hb]
    exact State.block?_onBlock_ne (f := fun b => b.regWrites e.i.f.gid ws) (fun _ => rfl) hb
  · rfl
  · have : ({ s1 with cur := e.s.cur, blocks := e.s.blocks, errs := e.s.errs } : State) = e.s := by
      have := congrArg (fun s : State => { s with cur := e.s.cur, errs := e.s.errs }) krest
      exact this
    exact this

end Sys2Proof.Machine
end

