-- ==== Sys2Proof/Laws/Rows.lean ====
section
/-! SUPPORT. The law of the skeleton of rows 0x1 to 0x5: an instruction that finds what it needs completes with
the writes its function makes; and what the results those rows make give each register. -/

namespace Sys2Proof.Machine

/-! ### The checks pass -/

theorem firstUnheld_none {b : Block} {g : Group} {r : Reg} {n : Nat} (h : ∀ i < n, heldReg b g (regUp r i) = true) :
    firstUnheld b g r n = none := by
  unfold firstUnheld
  rw [List.find?_eq_none]
  intro x hx
  obtain ⟨i, hi, rfl⟩ := List.mem_map.1 hx
  simp [h i (by simpa using hi)]

theorem heldCheck_none {e : Env} {uses : List RegUse} (h : e.holdsAll uses) (m : LaneMask) : heldCheck e.b e.g m uses = none := by
  unfold heldCheck
  rw [List.findSome?_eq_none_iff]
  intro u hu
  rw [firstUnheld_none fun i hi => (h u hu i hi).2]
  rfl

theorem mapCheck_none {e : Env} (he : e.s.errs = []) {o : Opnd} (h : e.slotReady o) (m : LaneMask) : e.mapCheck m o = none := by
  unfold Env.mapCheck
  unfold Env.slotReady at h
  cases hs : o.src with
  | map k n =>
    rw [hs] at h
    simp only at h ⊢
    rcases h with rfl | ⟨-, x, hx, hb, hm⟩
    · rfl
    · simp only [hx, hb, he]
      by_cases k15 : (k == 15) = true
      · simp [k15]
      · by_cases mx : isMx (fwSfmt x.fmt) = true
        · obtain ⟨he, hh⟩ := hm mx
          have hh' : firstUnheld e.b e.g (.v (n + 1)) 1 = none := by
            apply firstUnheld_none
            intro i hi
            obtain rfl : i = 0 := by omega
            exact hh
          simp [k15, mx, he, hh']
        · simp [k15, mx]
  | _ => rfl

theorem oddErr_none {e : Env} (he : e.s.errs = []) (o : Opnd) : e.oddErr o = none := by
  unfold Env.oddErr
  repeat' split
  all_goals first | rfl | simp [Env.regErr, he]

theorem laneCheck_none {e : Env} {srcs : List Opnd} {dst : List RegUse} (h : e.laneReady srcs dst) (x : Guard) (act : LaneMask)
    (every : Bool) (preds : List Nat) : e.laneCheck x act every srcs preds dst = none := by
  obtain ⟨he, hu, hs⟩ := h
  unfold Env.laneCheck
  simp only [heldCheck_none hu, Env.guardErr, Env.predErr, Env.regErr, he, List.isEmpty_nil, if_true, ite_self, Option.none_or]
  rw [List.findSome?_eq_none_iff.2 (by simp), List.findSome?_eq_none_iff.2 fun o ho => mapCheck_none he (hs o ho) _,
    List.findSome?_eq_none_iff.2 fun o _ => oddErr_none he o]
  rfl

theorem mapBusy_false {e : Env} {srcs : List Opnd} (h : ∀ o ∈ srcs, e.slotReady o) : e.mapBusy srcs = false := by
  unfold Env.mapBusy
  rw [List.any_eq_false]
  intro o ho
  have := h o ho
  unfold Env.slotReady at this
  unfold Opnd.slot?
  cases hs : o.src with
  | map k n =>
    rw [hs] at this
    simp only at this ⊢
    rcases this with rfl | ⟨hb, -⟩
    · simp
    · by_cases c : k = 15 <;> simp [c, hb]
  | _ => simp

/-! ### The law of the skeleton -/

/-- An instruction of rows 0x1 to 0x5 that finds what it needs completes with the writes it makes. -/
theorem laneExec_wrote {s : State} {e : Env} (hi : Issues s e) (hw : s.wf) {x : Guard} {every : Bool} {srcs : List Opnd} {preds : List Nat}
    {dst : List RegUse} {f : Env → LaneMask → (Nat → Nat → W64) → List RegWrite} (hr : e.laneReady srcs dst) {dr : Nat → W32}
    (hv : ∀ w ∈ f e (e.active x) (e.vals x every srcs), ∀ l n y, w = .v l n y → n < 192 ∧ (128 ≤ n → e.b.holdsExt e.g = true))
    (hp : ∀ w ∈ f e (e.active x) (e.vals x every srcs), ∀ l k y, w = .p l k y → k < 12)
    (hq : ∀ w ∈ f e (e.active x) (e.vals x every srcs), w.plain = true)
    (hd : ∀ l, (lastOf (fun w => w.draw? l) (f e (e.active x) (e.vals x every srcs))).getD (sget 0 e.g.draws l) = sget 0 e.g.draws l + dr l) :
    ∃ t, laneExec x every srcs preds dst f s = .next t ∧
      Wrote e t (fun l r => lastOf (fun w => w.reg? l r) (f e (e.active x) (e.vals x every srcs)))
        (fun l k => lastOf (fun w => w.pred? l k) (f e (e.active x) (e.vals x every srcs))) dr := by
  refine ⟨_, ?_, wrote_retireWith hi hw srcs hv hp hq hd⟩
  obtain ⟨rfl, hc, hf⟩ := hi
  have : laneExec x every srcs preds dst f e.s =
      (fun e' : Env =>
        if e'.mapBusy srcs then stall e.s
        else match e'.laneCheck x (e'.active x) every srcs preds dst with
          | some ev => .next (raise e.s ev)
          | none => .next (retireWith (countMapped e.s srcs) (f e' (e'.active x) (e'.vals x every srcs)))) e := by
    unfold laneExec onIss
    rw [hc]
    simp only [hf]
    rfl
  rw [this]
  simp only [mapBusy_false hr.2.2, laneCheck_none hr]
  rfl

/-! ### What results give -/

theorem holdsExt_of {e : Env} {n : Nat} (h : heldReg e.b e.g (.v n) = true) (hn : 128 ≤ n) : e.b.holdsExt e.g = true := by
  simp only [heldReg, heldV, show ¬ n < 128 by omega, if_false, Bool.and_eq_true] at h
  exact h.1.2

theorem mem_wr32 {w : RegWrite} {l : Nat} {r : Reg} {x : W32} (h : w ∈ wr32 l r x) :
    (∃ n, r = .v n ∧ w = .v l n x) ∨ ∃ n, r = .s n ∧ w = .u n x := by
  cases r <;> simp_all [wr32]

/-- The writes of an instruction are of registers that exist and are held. -/
def okWrites (e : Env) (ws : List RegWrite) : Prop :=
  (∀ w ∈ ws, ∀ l n y, w = .v l n y → n < 192 ∧ (128 ≤ n → e.b.holdsExt e.g = true)) ∧
  (∀ w ∈ ws, ∀ l k y, w = .p l k y → k < 12) ∧ ∀ w ∈ ws, w.plain = true

theorem okWrites_append {e : Env} {a b : List RegWrite} (ha : okWrites e a) (hb : okWrites e b) : okWrites e (a ++ b) := by
  refine ⟨fun w hw => ?_, fun w hw => ?_, fun w hw => ?_⟩ <;> rcases List.mem_append.1 hw with h | h
  · exact ha.1 w h
  · exact hb.1 w h
  · exact ha.2.1 w h
  · exact hb.2.1 w h
  · exact ha.2.2 w h
  · exact hb.2.2 w h

theorem okWrites_flatMap {e : Env} {ls : List Nat} {f : Nat → List RegWrite} (h : ∀ l ∈ ls, okWrites e (f l)) : okWrites e (ls.flatMap f) := by
  refine ⟨fun w hw => ?_, fun w hw => ?_, fun w hw => ?_⟩ <;> obtain ⟨l, hl, hm⟩ := List.mem_flatMap.1 hw
  · exact (h l hl).1 w hm
  · exact (h l hl).2.1 w hm
  · exact (h l hl).2.2 w hm

theorem okWrites_wr32 {e : Env} {r : Reg} (h : e.holds r) (l : Nat) (x : W32) : okWrites e (wr32 l r x) := by
  obtain ⟨hw, hh⟩ := h
  refine ⟨fun w hm a n y e1 => ?_, fun w hm a k y e1 => ?_, fun w hm => ?_⟩ <;> rcases mem_wr32 hm with ⟨m, rfl, rfl⟩ | ⟨m, rfl, rfl⟩
  · cases e1
    exact ⟨by simpa [Reg.wf] using hw, holdsExt_of hh⟩
  · cases e1
  · cases e1
  · cases e1
  · rfl
  · rfl

theorem okWrites_put32 {e : Env} {d : Reg} (h : e.holds d) (act : LaneMask) (f : Nat → W32) : okWrites e (put32 d act f) :=
  okWrites_flatMap fun l _ => okWrites_wr32 h l _

theorem okWrites_put64 {e : Env} {d : Reg} (h : e.holds d) (h' : e.holds (regUp d 1)) (act : LaneMask) (f : Nat → W64) :
    okWrites e (put64 d act f) :=
  okWrites_flatMap fun l _ => okWrites_append (okWrites_wr32 h l _) (okWrites_wr32 h' l _)

theorem okWrites_putP (e : Env) {k : Nat} (h : k < 12) (act : LaneMask) (f : Nat → Bool) : okWrites e (putP k act f) := by
  refine ⟨fun w hm a n y e1 => ?_, fun w hm a j y e1 => ?_, fun w hm => ?_⟩ <;> obtain ⟨l, -, rfl⟩ := List.mem_map.1 hm
  · cases e1
  · cases e1; exact h
  · rfl

/-- What one register's write gives it. -/
theorem lastOf_wr32 (a : Nat) (d : Reg) (x : W32) (l : Nat) (r : Reg) :
    lastOf (fun w => w.reg? l r) (wr32 a d x) = if r = d ∧ (d.isVec = true → a = l) then some x else none := by
  cases d with
  | v n =>
    cases r with
    | v m =>
      by_cases c : a = l <;> by_cases c' : n = m <;> simp [wr32, lastOf, RegWrite.reg?, Reg.isVec, c, c']
      exact fun h => absurd h.symm c'
    | s m => simp [wr32, lastOf, RegWrite.reg?]
  | s n =>
    cases r with
    | v m => simp [wr32, lastOf, RegWrite.reg?]
    | s m =>
      by_cases c' : n = m
      · simp [wr32, lastOf, RegWrite.reg?, Reg.isVec, c']
      · have : ¬ m = n := fun h => c' h.symm
        simp [wr32, lastOf, RegWrite.reg?, Reg.isVec, c', this]

theorem lastOf_put32 (d : Reg) (act : LaneMask) (f : Nat → W32) (l : Nat) (r : Reg) :
    lastOf (fun w => w.reg? l r) (put32 d act f) = lands d act f l r := by
  unfold put32 lands
  cases d with
  | v n =>
    rw [lastOf_flatMap (l := l)]
    · rw [lastOf_wr32]
      simp only [writers, Reg.isVec, forall_const, and_true, ← hasLane_iff]
      by_cases c : r = .v n <;> by_cases c' : hasLane act l = true <;> simp [c, c']
    · intro a _ ha
      rw [lastOf_wr32]
      simp [Reg.isVec, ha]
  | s n =>
    simp only [writers]
    by_cases c : act = 0
    · rw [c, lanesOf_zero]; simp
    · rw [lanesOf_take_one c, if_neg c]
      simp [lastOf_wr32, Reg.isVec]

theorem regUp_ne (d : Reg) : regUp d 1 ≠ d := by cases d <;> simp [regUp]

theorem lastOf_put64 (d : Reg) (act : LaneMask) (f : Nat → W64) (l : Nat) (r : Reg) :
    lastOf (fun w => w.reg? l r) (put64 d act f) = landsW true d act f l r := by
  have key : ∀ a, lastOf (fun w => w.reg? l r) (wr64 a d (f a)) =
      (if r = d ∧ (d.isVec = true → a = l) then some (lo32 (f a)) else none).or
        (if r = regUp d 1 ∧ ((regUp d 1).isVec = true → a = l) then some (hi32 (f a)) else none) := by
    intro a
    unfold wr64
    rw [lastOf_append, lastOf_wr32, lastOf_wr32]
    by_cases c : r = d
    · subst c
      have : ¬ r = regUp r 1 := fun h => regUp_ne r h.symm
      simp [this]
    · simp [c]
  unfold put64 landsW lands
  cases d with
  | v n =>
    rw [lastOf_flatMap (l := l)]
    · rw [key]
      simp only [writers, Reg.isVec, regUp, forall_const, and_true, ← hasLane_iff]
      by_cases c' : hasLane act l = true <;> simp [c']
    · intro a _ ha
      rw [key]
      simp [Reg.isVec, regUp, ha]
  | s n =>
    simp only [writers]
    by_cases c : act = 0
    · rw [c, lanesOf_zero]; simp [regUp]
    · rw [lanesOf_take_one c, if_neg c, if_neg c]
      simp [key, Reg.isVec, regUp]
      congr

theorem lastOf_putW (wide : Bool) (d : Reg) (act : LaneMask) (f : Nat → W64) (l : Nat) (r : Reg) :
    lastOf (fun w => w.reg? l r) (if wide then put64 d act f else put32 d act fun l => lo32 (f l)) = landsW wide d act f l r := by
  cases wide
  · simp [lastOf_put32, landsW]
  · simp [lastOf_put64]

theorem lastOf_putP (k : Nat) (act : LaneMask) (f : Nat → Bool) (l n : Nat) :
    lastOf (fun w => w.pred? l n) (putP k act f) = landsP k act f l n := by
  have : putP k act f = (lanesOf act).flatMap fun l => [RegWrite.p l k (f l)] := by
    unfold putP; rw [List.map_eq_flatMap]
  rw [this, lastOf_flatMap (l := l)]
  · unfold landsP
    simp only [lastOf, RegWrite.pred?, Option.none_or, ← hasLane_iff]
    by_cases c : k = n
    · subst c; simp
    · have : ¬ n = k := fun h => c h.symm
      simp [c, this]
  · intro a _ ha
    simp [lastOf, RegWrite.pred?, ha]

theorem lastOf_pred_put32 (d : Reg) (act : LaneMask) (f : Nat → W32) (l n : Nat) : lastOf (fun w => w.pred? l n) (put32 d act f) = none := by
  refine lastOf_none fun w hw => ?_
  obtain ⟨a, -, hm⟩ := List.mem_flatMap.1 hw
  rcases mem_wr32 hm with ⟨m, rfl, rfl⟩ | ⟨m, rfl, rfl⟩ <;> rfl

theorem lastOf_draw_put32 (d : Reg) (act : LaneMask) (f : Nat → W32) (l : Nat) : lastOf (fun w => w.draw? l) (put32 d act f) = none := by
  refine lastOf_none fun w hw => ?_
  obtain ⟨a, -, hm⟩ := List.mem_flatMap.1 hw
  rcases mem_wr32 hm with ⟨m, rfl, rfl⟩ | ⟨m, rfl, rfl⟩ <;> rfl

theorem mem_put64 {w : RegWrite} {d : Reg} {act : LaneMask} {f : Nat → W64} (h : w ∈ put64 d act f) :
    (∃ a n x, w = .v a n x) ∨ ∃ n x, w = .u n x := by
  obtain ⟨a, -, hm⟩ := List.mem_flatMap.1 h
  rcases List.mem_append.1 hm with h | h <;> rcases mem_wr32 h with ⟨m, -, rfl⟩ | ⟨m, -, rfl⟩
  · exact .inl ⟨_, _, _, rfl⟩
  · exact .inr ⟨_, _, rfl⟩
  · exact .inl ⟨_, _, _, rfl⟩
  · exact .inr ⟨_, _, rfl⟩

theorem lastOf_pred_put64 (d : Reg) (act : LaneMask) (f : Nat → W64) (l n : Nat) : lastOf (fun w => w.pred? l n) (put64 d act f) = none :=
  lastOf_none fun _ hw => by rcases mem_put64 hw with ⟨_, _, _, rfl⟩ | ⟨_, _, rfl⟩ <;> rfl

theorem lastOf_draw_put64 (d : Reg) (act : LaneMask) (f : Nat → W64) (l : Nat) : lastOf (fun w => w.draw? l) (put64 d act f) = none :=
  lastOf_none fun _ hw => by rcases mem_put64 hw with ⟨_, _, _, rfl⟩ | ⟨_, _, rfl⟩ <;> rfl

theorem lastOf_reg_putP (k : Nat) (act : LaneMask) (f : Nat → Bool) (l : Nat) (r : Reg) : lastOf (fun w => w.reg? l r) (putP k act f) = none :=
  lastOf_none fun w hw => by obtain ⟨a, -, rfl⟩ := List.mem_map.1 hw; rfl

theorem lastOf_draw_putP (k : Nat) (act : LaneMask) (f : Nat → Bool) (l : Nat) : lastOf (fun w => w.draw? l) (putP k act f) = none :=
  lastOf_none fun w hw => by obtain ⟨a, -, rfl⟩ := List.mem_map.1 hw; rfl

/-! ### The draws taken -/

theorem okWrites_drawn (e : Env) (act : LaneMask) (n : Nat) : okWrites e (e.drawn act n) := by
  unfold Env.drawn
  refine ⟨fun w hm a m y e1 => ?_, fun w hm a j y e1 => ?_, fun w hm => ?_⟩ <;> split at hm <;>
    first | (simp at hm; done) | (obtain ⟨l, -, rfl⟩ := List.mem_map.1 hm; first | rfl | cases e1)

theorem lastOf_reg_drawn (e : Env) (act : LaneMask) (n l : Nat) (r : Reg) : lastOf (fun w => w.reg? l r) (e.drawn act n) = none := by
  refine lastOf_none fun w hm => ?_
  unfold Env.drawn at hm
  split at hm
  · simp at hm
  · obtain ⟨l, -, rfl⟩ := List.mem_map.1 hm; rfl

theorem lastOf_pred_drawn (e : Env) (act : LaneMask) (n l k : Nat) : lastOf (fun w => w.pred? l k) (e.drawn act n) = none := by
  refine lastOf_none fun w hm => ?_
  unfold Env.drawn at hm
  split at hm
  · simp at hm
  · obtain ⟨l, -, rfl⟩ := List.mem_map.1 hm; rfl

theorem lastOf_drawn (e : Env) (act : LaneMask) (n l : Nat) :
    (lastOf (fun w => w.draw? l) (e.drawn act n)).getD (sget 0 e.g.draws l) = sget 0 e.g.draws l + takes act n l := by
  unfold Env.drawn takes
  by_cases hn : n = 0
  · subst hn; simp
  · have : ((lanesOf act).map fun l => RegWrite.draw l (sget 0 e.g.draws l + BitVec.ofNat 32 n)) =
        (lanesOf act).flatMap fun l => [RegWrite.draw l (sget 0 e.g.draws l + BitVec.ofNat 32 n)] := by rw [List.map_eq_flatMap]
    rw [if_neg (by simpa using hn), this, lastOf_flatMap (l := l)]
    · simp only [lastOf, RegWrite.draw?, Option.none_or, ← hasLane_iff]
      by_cases c : hasLane act l = true <;> simp [c]
    · intro a _ ha
      simp [lastOf, RegWrite.draw?, ha]

/-! ### Whole instructions -/

theorem Env.laneReady.dst {e : Env} {srcs : List Opnd} {wide : Bool} {d : Reg} (h : e.laneReady srcs (useD wide d)) :
    e.holds d ∧ (wide = true → e.holds (regUp d 1)) := by
  have k := h.2.1 (1, d, if wide then 2 else 1) (by simp [useD])
  have z : ∀ r : Reg, regUp r 0 = r := by intro r; cases r <;> rfl
  refine ⟨?_, fun hw => ?_⟩
  · have := k 0 (by cases wide <;> simp)
    rwa [z] at this
  · subst hw
    exact k 1 (by simp)

/-- An instruction of the skeleton whose writes are one result. -/
theorem computes_of {i : Instr} {x : Guard} {every : Bool} {srcs : List Opnd} {wide : Bool} {d : Reg}
    {f : Env → (Nat → Nat → W64) → Nat → W64} {n : Nat} (preds : List Nat) (ws : Env → LaneMask → (Nat → Nat → W64) → List RegWrite)
    (hx : ∀ s, exec i s = laneExec x every srcs preds (useD wide d) ws s)
    (hf : ∀ e act v, act = e.active x → ws e act v = (if wide then put64 d act (f e v) else put32 d act fun l => lo32 (f e v l)) ++ e.drawn act n) :
    Computes i x every srcs wide d f n := by
  intro _ s e hi hw hr
  have hd := hr.dst
  have ok : okWrites e (ws e (e.active x) (e.vals x every srcs)) := by
    rw [hf _ _ _ rfl]
    refine okWrites_append ?_ (okWrites_drawn _ _ _)
    cases wide
    · exact okWrites_put32 hd.1 _ _
    · exact okWrites_put64 hd.1 (hd.2 rfl) _ _
  obtain ⟨t, ht, hW⟩ := laneExec_wrote (preds := preds) (f := ws) (dr := takes (e.active x) n) hi hw hr ok.1 ok.2.1 ok.2.2 (by
    intro l
    rw [hf _ _ _ rfl, lastOf_append]
    have : ∀ (b : Bool), lastOf (fun w => w.draw? l) (if b then put64 d (e.active x) (f e (e.vals x every srcs))
        else put32 d (e.active x) fun l => lo32 (f e (e.vals x every srcs) l)) = none := by
      intro b; cases b
      · exact lastOf_draw_put32 _ _ _ _
      · exact lastOf_draw_put64 _ _ _ _
    rw [this wide, Option.or_none]
    exact lastOf_drawn e _ n l)
  refine ⟨t, by rw [hx]; exact ht, ?_⟩
  have e1 : (fun l r => lastOf (fun w => w.reg? l r) (ws e (e.active x) (e.vals x every srcs))) =
      landsW wide d (e.active x) (f e (e.vals x every srcs)) := by
    funext l r
    rw [hf _ _ _ rfl, lastOf_append, lastOf_reg_drawn, Option.none_or, lastOf_putW]
  have e2 : (fun l k => lastOf (fun w => w.pred? l k) (ws e (e.active x) (e.vals x every srcs))) = noWrite := by
    funext l k
    rw [hf _ _ _ rfl, lastOf_append, lastOf_pred_drawn, Option.none_or]
    cases wide
    · exact lastOf_pred_put32 _ _ _ _ _
    · exact lastOf_pred_put64 _ _ _ _ _
  rw [← e1, ← e2]
  exact hW

/-- An instruction of the skeleton whose writes are one predicate. -/
theorem decides_of {i : Instr} {x : Guard} {every : Bool} {srcs : List Opnd} {pd : Nat}
    {f : Env → (Nat → Nat → W64) → Nat → Bool} (preds : List Nat) (hp : i.wf = true → pd < 12)
    (hx : ∀ s, exec i s = laneExec x every srcs preds [] (fun e act v => putP pd act (f e v)) s) :
    Decides i x every srcs pd f := by
  intro hi' s e hi hw hr
  have ok := okWrites_putP e (hp hi') (e.active x) (f e (e.vals x every srcs))
  obtain ⟨t, ht, hW⟩ := laneExec_wrote (preds := preds) (f := fun e act v => putP pd act (f e v)) (dr := fun _ => 0) hi hw hr
    ok.1 ok.2.1 ok.2.2 (by intro l; rw [lastOf_draw_putP]; simp)
  refine ⟨t, by rw [hx]; exact ht, ?_⟩
  have e1 : (fun l r => lastOf (fun w => w.reg? l r) (putP pd (e.active x) (f e (e.vals x every srcs)))) = noWrite := by
    funext l r; exact lastOf_reg_putP _ _ _ _ _
  have e2 : (fun l k => lastOf (fun w => w.pred? l k) (putP pd (e.active x) (f e (e.vals x every srcs)))) =
      landsP pd (e.active x) (f e (e.vals x every srcs)) := by
    funext l k; exact lastOf_putP _ _ _ _ _
  rw [← e1, ← e2]
  exact hW

end Sys2Proof.Machine
end

