-- ==== Sys2Proof/Tests/Slice0.lean ====
section
/-! SUPPORT. Tests: the operand rules of WellFormed; every instruction's decoding, by words written out from the manual's
encoding (R174 to R183) or taken from its worked encodings; single steps; and for each statement of the certificate a state and
operands that meet its hypotheses. Nothing here is a statement for the provers. -/

namespace Sys2Proof.Tests

-- one theorem after another, so that few threads hold memory at a time
set_option Elab.async false

open Sys2Proof Sys2Proof.Machine

/-! ### WellFormed: an ill-formed term for each check (R175, R176, R180, R184) -/

theorem test_wf_guard : (Instr.exit { idx := 12, neg := false }).wf = false ∧ (Instr.exit { idx := 15, neg := true }).wf = false := by decide
theorem test_wf_register : (Instr.pmovPack Guard.always (.v 192)).wf = false ∧ (Instr.unwatch (.s 64)).wf = false := by decide
theorem test_wf_pair : (Instr.ret Guard.always (.v 5)).wf = false ∧ (Instr.sleepAbs 3).wf = false ∧ (Instr.maskRd Guard.always (.s 1)).wf = false := by decide
theorem test_wf_quad : (Instr.lds Guard.always .A .b128 (.v 6) (.v 0) 0).wf = false := by decide
theorem test_wf_predicate : (Instr.phwait (.v 0) 12).wf = false ∧ (Instr.plop Guard.always 0 0 0 0 12).wf = false := by decide
theorem test_wf_map :
    (Instr.fadd Guard.always false .rn (.v 0) (.map 16 1) (.reg (.v 1))).wf = false ∧
    (Instr.iadd Guard.always false .i64 (.v 0) (.map 1 2) (.reg (.v 2))).wf = false ∧
    (Instr.mov Guard.always .n32 (.v 0) (.map 1 2)).wf = false := by decide
theorem test_wf_all : (Instr.fexp2 Guard.always true (.v 0) (.reg (.v 1))).wf = false := by decide
theorem test_wf_form :
    (Instr.bfe Guard.always .i32 (.v 0) (.v 1) (.imm 3)).wf = false ∧
    (Instr.hadd2 Guard.always false .bf16 .rn (.v 0) (.reg (.v 1)) (.imm 1)).wf = false ∧
    (Instr.iadd Guard.always false .i32 (.v 0) (.imm 1) (.reg (.v 1))).wf = false := by decide
theorem test_wf_type : (Instr.iabs Guard.always false .n32 (.v 0) (.reg (.v 1))).wf = false ∧ (Instr.movi Guard.always .i8 (.v 0) 1).wf = false := by decide
theorem test_wf_shift : (Instr.lea Guard.always false 8 (.v 0) (.v 2) (.reg (.v 1))).wf = false := by decide
theorem test_wf_rev : (Instr.lanex Guard.always .rev false (.v 0) (.v 1) (.reg (.v 2))).wf = false := by decide
theorem test_wf_element : (Instr.cvt Guard.always false .rn .f16 .f32 (.v 0) 2 (.reg (.v 1)) 0).wf = false := by decide
theorem test_wf_rand : (Instr.rand Guard.always .n32 (.s 0)).wf = false := by decide
theorem test_wf_slot : (Instr.mfree 0).wf = false ∧ (Instr.mbind Guard.always .A 15 (.v 0) (.v 1)).wf = false := by decide
theorem test_wf_store : (Instr.sts Guard.always .A .w64 (.v 0) 0 (.map 1 2)).wf = false := by decide
theorem test_wf_mx : (Instr.mxld Guard.always .A .e4m3 .die (.v 2) (.v 4) (.s 0) 0).wf = false := by decide
theorem test_wf_atomic :
    (Instr.red Guard.always .A .fadd .b64 .plain .die (.v 0) (.v 2) (.v 0)).wf = false ∧
    (Instr.red Guard.always .A .add .b32 .plain .die (.v 0) (.v 2) (.v 1)).wf = false := by decide
theorem test_wf_far :
    (Instr.ldf Guard.always .A false .n8 .device (.v 0) (.v 2) 0).wf = false ∧
    (Instr.redf Guard.always .A .xchg .b32 .plain .domain (.v 0) (.v 2)).wf = false := by decide
theorem test_wf_numbers :
    (Instr.tdefUndef 64).wf = false ∧ (Instr.xbegin .add (.v 0) (.v 1) 16 1).wf = false ∧ (Instr.xbegin .add (.v 0) (.v 1) 0 5).wf = false ∧
    (Instr.cpy Guard.always .A 4).wf = false ∧ (Instr.launch 8 0).wf = false ∧ (Instr.launch 0 8).wf = false := by decide
theorem test_wf_special : (Instr.srd Guard.always (.v 0) 0x10).wf = false ∧ (Instr.srd Guard.always (.v 1) 6).wf = false ∧
    (Instr.swr Guard.always 256 (.v 0)).wf = false := by decide
theorem test_wf_hint : (Instr.reservedHint 0x10).wf = false := by decide

theorem test_decode_row0 :
    decodeSlot 0 0x0000000000000000 none = .nop ∧
    decodeSlot 0 0x00FFFFFFFFE01301 none = .bra { idx := 3, neg := true } 0x7FFFFFFFF ∧
    decodeSlot 0 0x0000000000C00F02 none = .brx Guard.always (.v 6) ∧
    decodeSlot 0 0x01FFFFFFFFF84F03 none = .call Guard.always (.s 2) (-1) ∧
    decodeSlot 0 0x000000001FC00F04 none = .ret Guard.always (.s 62) ∧
    decodeSlot 0 0x0000000000001305 none = .exit { idx := 3, neg := true } ∧
    decodeSlot 0 0x0000000000A00F06 none = .tok 5 ∧
    decodeSlot 0 0x0000000000000F07 none = .join ∧
    decodeSlot 0 0x0000000000000F08 none = .yield ∧
    decodeSlot 0 0x000000001FE00F09 none = .sleepRel 63 ∧
    decodeSlot 0 0x020000001FC00F09 none = .sleepAbs 62 ∧
    decodeSlot 0 0x001FE00000000F0A none = .trap Guard.always 0xFF ∧
    decodeSlot 0 0x0000000000000F0B none = .bkpt Guard.always ∧
    decodeSlot 0 0x00000000001234EF none = .reservedHint 0x1234EF ∧
    decodeSlot 0 0x0000000000000F1B none = .reservedEmulable 0xF1B ∧
    decodeSlot 0 0x0000000000000F0F none = .reservedInvalid 0xF0F := by
  decide +kernel

theorem test_decode_row1 :
    decodeSlot 14 0x65000001C0F7F310 none = .iadd { idx := 3, neg := true } true .i32 (.v 191) (.map 14 7) (.imm 0x800) ∧
    decodeSlot 0 0x0E01018C00804F11 none = .iadd3 Guard.always false .n64 (.v 2) (.reg (.v 4)) (.reg (.s 6)) (.reg (.v 8)) ∧
    decodeSlot 0 0x00000004003FEF12 none = .isub Guard.always false .i8 (.s 63) (.reg (.v 1)) (.reg (.v 2)) ∧
    decodeSlot 0 0x8800000000206F13 (some 9) = .imul Guard.always false .n8 (.v 3) (.reg (.v 1)) (.lit 9) ∧
    decodeSlot 0 0x0200000400206F14 none = .imulh Guard.always false .i16 (.v 3) (.reg (.v 1)) (.reg (.v 2)) ∧
    decodeSlot 0 0x2BE0800400206F15 none = .imad Guard.always true .n16 (.v 3) (.reg (.v 1)) (.reg (.v 2)) (.map 15 4) ∧
    decodeSlot 0 0x4600200000408F16 none = .imin Guard.always false .i64 (.v 4) (.reg (.v 2)) (.imm 1) ∧
    decodeSlot 0 0x0C0000040020AF17 none = .imax Guard.always false .n32 (.v 5) (.reg (.v 1)) (.reg (.v 2)) ∧
    decodeSlot 0 0x040000000020AF18 none = .iabs Guard.always false .i32 (.v 5) (.reg (.v 1)) ∧
    decodeSlot 0 0x4DFFE0000000AF19 none = .ineg Guard.always false .n32 (.v 5) (.imm 0xFFF) ∧
    decodeSlot 0 0x1E0000120080CF1A none = .lea Guard.always true 7 (.v 6) (.v 4) (.reg (.v 9)) := by
  decide +kernel

theorem test_decode_row2 :
    decodeSlot 0 0x1A0000100080CF20 none = .lop Guard.always .xnor true (.v 6) (.v 4) (.reg (.v 8)) ∧
    decodeSlot 0 0x05A060040020EF21 none = .bits3 Guard.always 0x2D (.v 7) (.v 1) (.v 2) (.v 3) ∧
    decodeSlot 0 0x4C00400000004F22 none = .shl Guard.always .n32 (.v 2) (.v 0) (.imm 2) ∧
    decodeSlot 0 0x0000018600204F23 none = .shr Guard.always .i8 (.v 2) (.v 1) (.reg (.s 3)) ∧
    decodeSlot 0 0x0600000600804F24 none = .sar Guard.always .i64 (.v 2) (.v 4) (.reg (.v 3)) ∧
    decodeSlot 0 0x4200600A00804F25 none = .fsh Guard.always true false (.v 2) (.v 4) (.v 5) (.imm 3) ∧
    decodeSlot 0 0x0400000A00804F26 none = .bfe Guard.always .i32 (.v 2) (.v 4) (.reg (.v 5)) ∧
    decodeSlot 0 0x0C00C00A00804F27 none = .bfi Guard.always .n32 (.v 2) (.v 4) (.v 5) (.reg (.v 6)) ∧
    decodeSlot 0 0x0000C00A00804F28 none = .bysel Guard.always (.v 2) (.v 4) (.v 5) (.reg (.v 6)) ∧
    decodeSlot 0 0x0E00000000806F29 none = .popc Guard.always .n64 (.v 3) (.reg (.v 4)) ∧
    decodeSlot 0 0x0C00000000A06F2A none = .clz Guard.always .n32 (.v 3) (.reg (.v 5)) ∧
    decodeSlot 0 0x0600000000804F2B none = .brev Guard.always .i64 (.v 2) (.reg (.v 4)) := by
  decide +kernel

theorem test_decode_row3 :
    decodeSlot 0 0x4401400000644F30 none = .icmp Guard.always false .lt .i32 2 (.reg (.v 3)) (.imm 10) ∧
    decodeSlot 0 0x0C01600A00804F31 none = .sel Guard.always false .n32 (.v 2) (.reg (.v 4)) (.reg (.v 5)) 11 ∧
    decodeSlot 0 0x8C0000000000CF32 (some 0x3f800000) = .mov Guard.always .n32 (.v 6) (.lit 0x3F800000) ∧
    decodeSlot 0 0x0C02468ACF012F33 none = .movi Guard.always .n32 (.v 9) 0x12345678 ∧
    decodeSlot 0 0x05A0800600402F34 none = .plop Guard.always 0x2D 1 2 3 4 ∧
    decodeSlot 0 0x0000000000006F35 none = .pmovPack Guard.always (.v 3) ∧
    decodeSlot 0 0x4200800000600F35 none = .pmovUnpack Guard.always (.v 3) (.imm 4) ∧
    decodeSlot 0 0x0400000000C0AF35 none = .pmovCopy Guard.always 5 6 ∧
    decodeSlot 0 0x0000000000E02F36 none = .poll Guard.always (.every 1) 7 ∧
    decodeSlot 0 0x0200000000E02F36 none = .poll Guard.always (.some 1) 7 ∧
    decodeSlot 0 0x0400000000E02F36 none = .poll Guard.always (.same 1) 7 ∧
    decodeSlot 0 0x0600000000E04F36 none = .poll Guard.always (.bits (.v 2)) 7 ∧
    decodeSlot 0 0x0800000000E06F36 none = .poll Guard.always (.count (.v 3)) 7 ∧
    decodeSlot 0 0x0A00000000F86F36 none = .poll Guard.always (.first (.s 3)) 7 ∧
    decodeSlot 0 0x0000000000008F37 none = .maskRd Guard.always (.v 4) ∧
    decodeSlot 0 0x0200000000008F37 none = .maskRdHeld Guard.always (.v 4) ∧
    decodeSlot 0 0x0600000000800F38 none = .maskWr Guard.always .andn (.reg (.v 4)) ∧
    decodeSlot 0 0x0000000600402F39 none = .lanex Guard.always .idx false (.v 1) (.v 2) (.reg (.v 3)) ∧
    decodeSlot 0 0x0200000600402F39 none = .lanex Guard.always .off false (.v 1) (.v 2) (.reg (.v 3)) ∧
    decodeSlot 0 0x0400000600402F39 none = .lanex Guard.always .rot false (.v 1) (.v 2) (.reg (.v 3)) ∧
    decodeSlot 0 0x0600000600402F39 none = .lanex Guard.always .flip false (.v 1) (.v 2) (.reg (.v 3)) ∧
    decodeSlot 0 0x1800000000804F39 none = .lanex Guard.always .rev true (.v 2) (.v 4) (.reg (.v 0)) := by
  decide +kernel

theorem test_decode_row4 :
    decodeSlot 0 0x0400000400206F40 none = .fadd Guard.always false .ru (.v 3) (.reg (.v 1)) (.reg (.v 2)) ∧
    decodeSlot 0 0x4A00400000206F41 none = .fmul Guard.always false .sr (.v 3) (.reg (.v 1)) (.imm 2) ∧
    decodeSlot 2 0x0000841000A08F42 none = .ffma Guard.always false .rn (.v 4) (.reg (.v 5)) (.map 2 8) (.reg (.v 4)) ∧
    decodeSlot 0 0x0200000400206F43 none = .fmin Guard.always false .nan (.v 3) (.reg (.v 1)) (.reg (.v 2)) ∧
    decodeSlot 0 0x0000000400206F44 none = .fmax Guard.always false .num (.v 3) (.reg (.v 1)) (.reg (.v 2)) ∧
    decodeSlot 0 0x00000004002F6F45 none = .fcmp Guard.always false .ordered 11 (.reg (.v 1)) (.reg (.v 2)) ∧
    decodeSlot 0 0x0000000000206F46 none = .fclass Guard.always false (.v 3) (.reg (.v 1)) ∧
    decodeSlot 0 0x4200600000208F46 none = .fclassTest Guard.always false 4 (.reg (.v 1)) (.imm 3) ∧
    decodeSlot 0 0x0200000400206F47 none = .hadd2 Guard.always false .f16 .rz (.v 3) (.reg (.v 1)) (.reg (.v 2)) ∧
    decodeSlot 0 0x1000000400206F48 none = .hmul2 Guard.always false .bf16 .rn (.v 3) (.reg (.v 1)) (.reg (.v 2)) ∧
    decodeSlot 0 0x1200C01200E0CF49 none = .hfma2 Guard.always false .bf16 .rz (.v 6) (.reg (.v 7)) (.reg (.v 9)) (.reg (.v 6)) := by
  decide +kernel

theorem test_decode_row5 :
    decodeSlot 0 0x0800000000206F50 none = .frcp Guard.always false .ra (.v 3) (.reg (.v 1)) ∧
    decodeSlot 0 0x0800000000206F51 none = .frsq Guard.always false .ra (.v 3) (.reg (.v 1)) ∧
    decodeSlot 0 0x0800000000206F52 none = .fsqrt Guard.always false .ra (.v 3) (.reg (.v 1)) ∧
    decodeSlot 0 0x0000000000206F53 none = .fexp2 Guard.always false (.v 3) (.reg (.v 1)) ∧
    decodeSlot 0 0x0000000000206F54 none = .flog2 Guard.always false (.v 3) (.reg (.v 1)) ∧
    decodeSlot 0 0x0000000000206F55 none = .fsin Guard.always false (.v 3) (.reg (.v 1)) ∧
    decodeSlot 0 0x0000000000206F56 none = .fcos Guard.always false (.v 3) (.reg (.v 1)) ∧
    decodeSlot 0 0x0000000000206F57 none = .ftanh Guard.always false (.v 3) (.reg (.v 1)) ∧
    decodeSlot 0 0x0008600000406F58 none = .cvt Guard.always false .rn .e4m3 .f32 (.v 3) 2 (.reg (.v 2)) 0 ∧
    decodeSlot 0 0x0000000A01828F59 none = .qnt Guard.always .rn .e4m3 (.v 20) (.v 12) ∧
    decodeSlot 0 0x0A00001201828F59 none = .qnt Guard.always .sr .e2m1 (.v 20) (.v 12) ∧
    decodeSlot 0 0x0000001400806F5A none = .dqnt Guard.always .i8 (.v 3) (.v 4) ∧
    decodeSlot 0 0x0200000000008F5B none = .rand Guard.always .n64 (.v 4) := by
  decide +kernel

theorem test_decode_row6 :
    decodeSlot 3 0x0000001418806F60 none = .mbind Guard.always .A 3 (.s 4) (.v 10) ∧
    decodeSlot 1 0x0000600400202F61 none = .mput Guard.always .A 1 (.v 1) (.v 2) (.v 3) ∧
    decodeSlot 2 0x800000040060EF62 none = .mget Guard.always .B (.v 7) 2 (.v 3) ∧
    decodeSlot 2 0x820000040000EF62 none = .mgetFmt Guard.always .B (.v 7) 2 ∧
    decodeSlot 14 0x000000000001CF63 none = .mfree 14 := by
  decide +kernel

theorem test_decode_row7 :
    decodeSlot 0 0x4808000000410F70 none = .ld Guard.always .A .w32 .device (.v 8) (.v 2) 0x40 ∧
    decodeSlot 0 0xE1FFE00000410F71 none = .ldAcq Guard.always .B .n8 .system (.v 8) (.v 2) 0xFFF ∧
    decodeSlot 1 0x0800221200400F72 none = .st Guard.always .A .w32 .group (.v 2) 1 (.map 1 9) ∧
    decodeSlot 0 0x6A01000C18800F73 none = .stRel Guard.always .A .w64 .system (.s 4) 8 (.reg (.v 6)) ∧
    decodeSlot 0 0x2804018C18408F74 none = .mxld Guard.always .A .e2m1 .mill (.v 4) (.s 2) (.s 6) 0x20 ∧
    decodeSlot 0 0x3A18C00818400F75 none = .mxst Guard.always .A .i8 .die (.s 2) (.v 4) (.s 6) ∧
    decodeSlot 0 0x10FFE00000400F76 none = .pref Guard.always .block (.v 2) 0x7FF ∧
    decodeSlot 0 0x10FFE00000400F77 none = .cwb Guard.always .block (.v 2) 0x7FF ∧
    decodeSlot 0 0x10FFE00000400F78 none = .cinv Guard.always .block (.v 2) 0x7FF ∧
    decodeSlot 0 0x5000000000000F79 none = .fence .domain ∧
    decodeSlot 0 0x0000000000000F7A none = .ifence := by
  decide +kernel

theorem test_decode_row8 :
    decodeSlot 0 0x0C00000000408F80 none = .lds Guard.always .A .b128 (.v 4) (.v 2) 0 ∧
    decodeSlot 0 0x0800000200400F81 none = .sts Guard.always .A .w32 (.v 2) 0 (.reg (.v 1)) ∧
    decodeSlot 0 0x0600400000608F82 none = .ldl Guard.always .A .i16 (.v 4) (.v 3) 2 ∧
    decodeSlot 0 0x0400400A00600F83 none = .stl Guard.always .A .n16 (.v 3) 2 (.reg (.v 5)) ∧
    decodeSlot 0 0x6F41C01800414F84 none = .atom Guard.always .A .cas .b64 .ar .system (.v 10) (.v 2) (.v 12) (.v 14) ∧
    decodeSlot 0 0x34A0000600400F85 none = .red Guard.always .A .umax .b32 .rel .die (.v 2) (.v 3) (.v 0) ∧
    decodeSlot 0 0x0120000600402F86 none = .atoms Guard.always .A .xchg .b32 (.v 1) (.v 2) (.v 3) (.v 0) := by
  decide +kernel

theorem test_decode_row9 :
    decodeSlot 0 0x0018600400200F90 none = .phinit (.v 1) (.v 2) (.s 3) ∧
    decodeSlot 0 0x0000000000200F91 none = .phregSig (.v 1) ∧
    decodeSlot 0 0x0200000000200F91 none = .phregUnsig (.v 1) ∧
    decodeSlot 0 0x0400000000200F91 none = .phregWait (.v 1) ∧
    decodeSlot 0 0x0600000000200F91 none = .phregUnwait (.v 1) ∧
    decodeSlot 0 0x0000000018C02F92 none = .pharv 1 (.s 6) ∧
    decodeSlot 0 0x0000000400200F93 none = .phwait (.v 1) 2 ∧
    decodeSlot 0 0x0000000400206F94 none = .phtest 3 (.v 1) 2 ∧
    decodeSlot 0 0x0000600400200F95 none = .qinit (.v 1) (.v 2) (.v 3) ∧
    decodeSlot 0 0x0000000400200F96 none = .qpush (.v 1) (.v 2) ∧
    decodeSlot 0 0x0200001218804F96 none = .qpushNb 2 (.s 4) (.v 9) ∧
    decodeSlot 0 0x0000000000206F97 none = .qpop (.v 3) (.v 1) ∧
    decodeSlot 0 0x0200800000206F97 none = .qpopNb (.v 3) 4 (.v 1) ∧
    decodeSlot 0 0x000000040027EF98 none = .tdef 63 (.v 1) (.v 2) ∧
    decodeSlot 0 0x020060040020AF98 none = .tdefAtt 5 (.v 1) (.v 2) (.v 3) ∧
    decodeSlot 0 0x040000000000AF98 none = .tdefUndef 5 ∧
    decodeSlot 0 0x0000000000000F99 none = .regxAcq ∧
    decodeSlot 0 0x0200000000000F99 none = .regxRel ∧
    decodeSlot 0 0x0000000000000F9A none = .dbarDev ∧
    decodeSlot 0 0x0200000000000F9A none = .dbarDom := by
  decide +kernel

theorem test_decode_rowA :
    decodeSlot 0 0x8000000019000FA0 none = .cpy Guard.always .B 8 ∧
    decodeSlot 0 0x000000001F0013A1 none = .cpyw { idx := 3, neg := true } .A 56 ∧
    decodeSlot 0 0x0000000400200FA2 none = .lwait (.v 1) (.v 2) ∧
    decodeSlot 0 0x0200000400206FA2 none = .lwaitNb 3 (.v 1) (.v 2) ∧
    decodeSlot 0 0x0202200600400FA8 none = .xbegin .fadd (.v 2) (.v 3) 1 2 ∧
    decodeSlot 0 0x0000000200A08FA9 none = .xnext (.v 4) (.v 5) 1 ∧
    decodeSlot 0 0x0000000000C00FAA none = .xred Guard.always (.v 6) ∧
    decodeSlot 0 0x8000000000010FAB none = .xend .B (.v 8) := by
  decide +kernel

theorem test_decode_rowB :
    decodeSlot 0 0x0000000019014FB0 none = .watch (.v 10) 8 ∧
    decodeSlot 0 0x0000000000600FB1 none = .unwatch (.v 3) ∧
    decodeSlot 0 0x0200000000018FB2 none = .trigi Guard.always .addr (.v 12) ∧
    decodeSlot 0 0x5802000A00400FB8 none = .stf Guard.always .A false .w32 .domain (.v 2) 16 (.v 5) ∧
    decodeSlot 0 0x6000000200402FB9 none = .ldf Guard.always .A true .n8 .system (.v 1) (.v 2) 0 ∧
    decodeSlot 0 0x5000000800400FBA none = .redf Guard.always .A .add .b32 .plain .domain (.v 2) (.v 4) ∧
    decodeSlot 0 0x000000001A000FBB none = .coll Guard.always .A 16 := by
  decide +kernel

theorem test_decode_rowC :
    decodeSlot 0 0x0000000008028FC0 none = .srd Guard.always (.v 20) 0x40 ∧
    decodeSlot 0 0x0000000003C0CFC1 none = .swr Guard.always 6 (.v 30) ∧
    decodeSlot 0 0x060000001C000FC2 none = .launch 3 32 ∧
    decodeSlot 0 0x0000018818400FC3 none = .signal (.s 2) (.s 4) := by
  decide +kernel


/-! ### A small machine for tests

Context 0 translates with one page of 512 MiB for each purpose: page 0 is a communication page of HBM at physical 0, page 1 a
window page (of rank 1 too), page 2 a host page, page 3 a plain page at physical 2^29. One block of one group of eight lanes stands on
mill 0, its one fragment in a clause of seven slots that names flag 0 as set-flag A. -/

/-- The bytes of the page table, of entry 0 of the kernel table, of a kernel header and of a handler's. -/
def tMem : List Host.Cell :=
  [(0x1000, 1), (0x1001, 0x20), (0x1040, 1), (0x1041, 0x20), (0x2000, 1), (0x2001, 0x30), (0x3000, 0x13), (0x3008, 0x43), (0x3010, 0x23), (0x3016, 0x80),
   (0x3018, 0x03), (0x301B, 0x20),
   (0x5001, 0x60), (0x5007, 0x80), (0x6000, 3), (0x6001, 8), (0x6002, 1), (0x6018, 0x80), (0x601C, 1), (0x601D, 0x80),
   (0x6080, 3), (0x6081, 8), (0x6082, 1), (0x6098, 0x80), (0x609C, 1), (0x609D, 8)]

/-- Context 0. -/
def tCtx : Ctx := { Ctx.reset with present := true, regs := [(oRCTL 3, 7), (oTTROOT, 0x1001), (oPVBASE, 0x10000), (oPVSIZE, 0x10000),
  (oDOMCFG, 0x100), (oKTBASE, 0x5000), (oKTSIZE, 1), (oTRAPH, 0x6081), (oWQUOTA, 4), (oSAVEB, 0x20000), (oSAVES, 0x10)] }

/-- The device without work. -/
def tState : State := { State.reset with mem := tMem, ctxs := [(0, tCtx)], nextId := 1 }

/-- A clause of seven slots. -/
def tLine : Line := { va := 0, words := [0x7F0000, 0, 0, 0, 0, 0, 0, 0] }

/-- The kernel of the block. -/
def tKernel : Kernel := { placedKernel with image := 0x60000000, scratch := 4096, priv := 64, ext := 32 }

/-- The fragment. -/
def tFrag : Frag := { Frag.start 0 0 (allLanes 8) 0 with line := some tLine }

/-- The group. -/
def tGroup : Group := { startGroup tKernel { gid := 0, role := 0, spec := { entry := 128, groups := 1, base := 128 } } 0 0 (allLanes 8) with frags := [tFrag] }

/-- The block, its slot 1 bound. -/
def tBlock : Block := { placedBlock 0 tLine with
  kernel := tKernel
  priv := 0x8000
  slots := [{ stone := 0, k := 1, image := [], fmt := 0, bound := true }]
  exts := [{ pair := 0, holder := none, regs := [] }]
  groups := [tGroup] }

/-- The issue of the fragment's first slot. -/
def tIss : Iss := { f := { bid := 0, gid := 0, fid := 0 }, pc := 0, next := 8, word := 0, lit := none }

/-- An answer that is right, without an equality test on errors. -/
theorem ok_of {α ε : Type} {x : Except ε α} {a : α} (h : x.toOption = some a) : x = .ok a := by
  cases x with
  | error => simp [Except.toOption] at h
  | ok b => simp only [Except.toOption, Option.some.injEq] at h; rw [h]

/-- The machine with its fragment issuing, the device, the block, the group and the fragment changed. -/
def tEnv (fs : State → State) (fb : Block → Block) (fg : Group → Group) (f : Frag) : Env :=
  let g : Group := { fg tGroup with frags := [f] }
  let b : Block := { fb tBlock with groups := [g] }
  { s := { fs { tState with blocks := [b] } with cur := some tIss }, i := tIss, b := b, g := g, f := f }

/-- The machine as it is. -/
def t0 : Env := tEnv id id id tFrag

/-- The uniform registers from `s0` on. -/
def withU (xs : List W32) (g : Group) : Group := { g with u := ssetAll 0 [] (numbered xs) }

/-- Scratchpad words at an offset. -/
def withSb (o n x : Nat) (b : Block) : Block := b.setSbNat o n x


/-! ### Witnesses: every statement's hypotheses are met, clause by clause -/

theorem witness_t0 : Issues t0.s t0 ∧ t0.s.wf ∧ t0.g.named ∧ t0.s.errs = [] ∧ t0.memReady .A ∧ t0.issueReady .A :=
  ⟨⟨rfl, rfl, rfl⟩, State.wf_of_form (by decide +kernel), by unfold Group.named; decide +kernel, rfl, Env.memReady_of (by decide +kernel),
    Env.issueReady_of (by decide +kernel)⟩

/-- Instructions of rows 0x1 to 0x5, with the sources and the destinations their statements give them. -/
def laneCases : List (Instr × List Opnd × List RegUse) :=
  let g := Guard.always
  let a : Src := .reg (.v 2)
  let m : Src := .map 1 4
  let w : Src := .reg (.v 6)
  [(.iadd g true .i32 (.v 0) a m, [opA .int false a, opB .int false m], useD false (.v 0)),
   (.iadd3 g false .n64 (.v 0) a w (.imm 1), [opA .int true a, opB .int true w, opC .int true (.imm 1)], useD true (.v 0)),
   (.isub g false .i8 (.s 63) a (.lit 9), [opA .int false a, opB .int false (.lit 9)], useD false (.s 63)),
   (.imul g false .i16 (.v 0) a w, [opA .int false a, opB .int false w], useD false (.v 0)),
   (.imulh g false .n8 (.v 0) a w, [opA .int false a, opB .int false w], useD false (.v 0)),
   (.imad g false .n16 (.v 0) a w a, [opA .int false a, opB .int false w, opC .int false a], useD false (.v 0)),
   (.imin g false .i64 (.v 0) a w, [opA .int true a, opB .int true w], useD true (.v 0)),
   (.imax g false .n32 (.v 0) a w, [opA .int false a, opB .int false w], useD false (.v 0)),
   (.iabs g false .i32 (.v 0) a, [opA .int false a], useD false (.v 0)),
   (.ineg g false .i32 (.v 0) (.map 15 4), [opA .int false (.map 15 4)], useD false (.v 0)),
   (.lea g true 7 (.v 0) (.v 2) w, [opA .int true a, opB .int false w], useD true (.v 0)),
   (.lop g .andn true (.v 0) (.v 2) w, [opA .int true a, opB .int true w], useD true (.v 0)),
   (.bits3 g 0xE8 (.v 0) (.v 2) (.v 6) (.v 3), [opA .int false a, opB .int false w, opC .int false (.reg (.v 3))], useD false (.v 0)),
   (.shl g .i32 (.v 0) (.v 2) (.imm 32), [opA .int false a, opB .int false (.imm 32)], useD false (.v 0)),
   (.shr g .i32 (.v 0) (.v 2) (.imm 31), [opA .int false a, opB .int false (.imm 31)], useD false (.v 0)),
   (.sar g .i32 (.v 0) (.v 2) (.imm 32), [opA .int false a, opB .int false (.imm 32)], useD false (.v 0)),
   (.fsh g true true (.v 0) (.v 2) (.v 6) (.imm 32), [opA .int false a, opB .int false w, opC .int false (.imm 32)], useD false (.v 0)),
   (.bfe g .i32 (.v 0) (.v 2) w, [opA .int false a, opB .int false w], useD false (.v 0)),
   (.bfi g .n32 (.v 0) (.v 2) (.v 6) w, [opA .int false a, opB .int false w, opC .int false w], useD false (.v 0)),
   (.bysel g (.v 0) (.v 2) (.v 6) w, [opA .int false a, opB .int false w, opC .int false w], useD false (.v 0)),
   (.popc g .n32 (.v 0) a, [opA .int false a], useD false (.v 0)),
   (.clz g .n64 (.v 0) a, [opA .int true a], useD false (.v 0)),
   (.brev g .i64 (.v 0) a, [opA .int true a], useD true (.v 0)),
   (.icmp g false .ge .n32 11 a w, [opA .int false a, opB .int false w], []),
   (.sel g false .n32 (.v 0) a w 3, [opA .int false a, opB .int false w], useD false (.v 0)),
   (.mov g .n64 (.v 0) a, [opA .int true a], useD true (.v 0)),
   (.movi g .i32 (.v 0) 1, [], useD false (.v 0)),
   (.plop g 0x80 0 1 2 3, [], []),
   (.pmovPack g (.v 0), [], useD false (.v 0)),
   (.pmovUnpack g (.v 2) w, [opA .int false a, opB .int false w], []),
   (.pmovCopy g 0 1, [], []),
   (.poll g (.every 0) 1, [], []), (.poll g (.some 0) 1, [], []), (.poll g (.same 0) 1, [], []),
   (.poll g (.bits (.v 0)) 1, [], useD true (.v 0)), (.poll g (.count (.v 0)) 1, [], useD false (.v 0)),
   (.poll g (.first (.v 0)) 1, [], useD false (.v 0)),
   (.maskRd g (.v 0), [], useD true (.v 0)), (.maskRdHeld g (.v 0), [], useD true (.v 0)),
   (.maskWr g .and a, [opA .int true a], []),
   (.lanex g .off false (.v 0) (.v 2) w, [opA .int false a, opB .int false w], useD false (.v 0)),
   (.lanex g .rev true (.v 0) (.v 2) (.reg (.v 0)), [opA .int true a], useD true (.v 0)),
   (.fadd g false .sr (.v 0) a w, [opA .f32 false a, opB .f32 false w], useD false (.v 0)),
   (.fmul g false .rn (.v 0) a m, [opA .f32 false a, opB .f32 false m], useD false (.v 0)),
   (.ffma g false .rz (.v 0) a w m, [opA .f32 false a, opB .f32 false w, opC .f32 false m], useD false (.v 0)),
   (.fmin g false .num (.v 0) a w, [opA .f32 false a, opB .f32 false w], useD false (.v 0)),
   (.fmax g false .nan (.v 0) a w, [opA .f32 false a, opB .f32 false w], useD false (.v 0)),
   (.fcmp g false .un 0 a w, [opA .f32 false a, opB .f32 false w], []),
   (.fclass g false (.v 0) a, [opA .f32 false a], useD false (.v 0)),
   (.fclassTest g false 0 a w, [opA .f32 false a, opB .int false w], []),
   (.hadd2 g false .bf16 .sr (.v 0) a w, [opA (.half .bf16) false a, opB (.half .bf16) false w], useD false (.v 0)),
   (.hmul2 g false .f16 .ru (.v 0) a w, [opA (.half .f16) false a, opB (.half .f16) false w], useD false (.v 0)),
   (.hfma2 g false .f16 .rd (.v 0) a w a, [opA (.half .f16) false a, opB (.half .f16) false w, opC (.half .f16) false a], useD false (.v 0)),
   (.frcp g false .ra (.v 0) a, [opA .f32 false a], useD false (.v 0)), (.frsq g false .rn (.v 0) a, [opA .f32 false a], useD false (.v 0)),
   (.fsqrt g false .rn (.v 0) a, [opA .f32 false a], useD false (.v 0)), (.fexp2 g false (.v 0) a, [opA .f32 false a], useD false (.v 0)),
   (.flog2 g false (.v 0) a, [opA .f32 false a], useD false (.v 0)), (.fsin g false (.v 0) a, [opA .f32 false a], useD false (.v 0)),
   (.fcos g false (.v 0) a, [opA .f32 false a], useD false (.v 0)), (.ftanh g false (.v 0) a, [opA .f32 false a], useD false (.v 0)),
   (.cvt g false .sr .wt6 .f32 (.v 0) 4 m 0, [opA .f32 false m], useD false (.v 0)),
   (.cvt g false .rn .i64 .e5m2 (.v 0) 0 a 3, [opA .f32 false a], useD true (.v 0)),
   (.qnt g .sr .e2m1 (.v 0) (.v 8), [], [(2, .v 8, 8), (1, .v 0, 2)]),
   (.dqnt g .e2m3 (.v 0) (.v 8), [], [(2, .v 8, 2), (1, .v 0, 4)]),
   (.rand g .n32 (.v 0), [], useD false (.v 0)), (.rand g .n64 (.v 0), [], useD true (.v 0)), (.rand g .f32 (.v 0), [], useD false (.v 0)),
   (.srd g (.v 0) 0x0F, [], useD false (.v 0)), (.srd g (.v 0) 0x09, [], useD true (.v 0)), (.srd g (.v 0) 0x47, [], useD true (.v 0)),
   (.trigi g .arg (.v 0), [], useD true (.v 0)), (.swr g 6 (.v 2), [opA .int true a], [])]

/-- They are well formed, and the machine has what they need, every lane being active. -/
theorem witness_rows_1_to_5 : t0.active Guard.always = 0xFF ∧ ∀ p ∈ laneCases, p.1.wf = true ∧ t0.laneReady p.2.1 p.2.2 := by
  have h : laneCases.all (fun p => p.1.wf && t0.laneTest p.2.1 p.2.2) = true := by decide +kernel
  refine ⟨by decide +kernel, fun p hp => ?_⟩
  have := List.all_eq_true.1 h p hp
  rw [Bool.and_eq_true] at this
  exact ⟨this.1, Env.laneReady_of this.2⟩

theorem witness_ExactValues : 0xFF < 2 ^ e4m3.bits ∧ e4m3.isNan 0x7E = false ∧ 0x7E < 2 ^ e4m3.bits ∧ 0x80000000 < 2 ^ f32.bits ∧
    f32.isNan 0x80000000 = false := by decide +kernel

theorem witness_TransfersOfControl :
    (Instr.bra { idx := 3, neg := true } (-1)).wf = true ∧ noSlot (t0.i.pc + (6#36).signExtend 64 * 8) = false ∧
    (Instr.brx Guard.always (.v 2)).wf = true ∧ (Instr.ret Guard.always (.s 2)).wf = true ∧ t0.holdsAll [(2, .v 2, 2)] ∧ t0.holdsAll [(2, .s 2, 2)] ∧
    (∀ l ∈ lanesOf (t0.active Guard.always), noSlot (rget64 t0.b t0.g l (.v 2)) = false) ∧
    (Instr.call Guard.always (.v 2) 6).wf = true ∧ t0.holdsAll (useD true (.v 2)) :=
  ⟨by decide, by decide +kernel, by decide, by decide, Env.holdsAll_of (by decide +kernel), Env.holdsAll_of (by decide +kernel), by decide +kernel,
    by decide, Env.holdsAll_of (by decide +kernel)⟩

/-- `EXIT` with no lane whose guard passes, and with all. -/
theorem witness_ExitLanes :
    (Instr.exit { idx := 0, neg := false }).wf = true ∧ t0.active { idx := 0, neg := false } = 0 ∧ t0.active Guard.always ≠ 0 ∧
    (∀ b ∈ t0.s.blocks, ∀ g ∈ b.groups, ∀ f ∈ g.frags, inDbarF f = false) ∧ (∀ f ∈ t0.g.frags, f.fid ≠ t0.f.fid → f.held &&& t0.active Guard.always = 0) ∧
    (t0.g.toks.all fun t => t.part &&& t0.active Guard.always == 0) = true ∧ ∀ o ∈ t0.opsMine, o.accs = [] := by decide +kernel

/-- A token whose join point is the fragment's next slot. -/
def tTok : Tok := { id := 0, join := 0, part := allLanes 8 }

/-- The machine with the token open, alone and with a pending side on it. -/
def t1 : Env := tEnv id id (fun g => { g with toks := [tTok], nextTok := 1 }) tFrag
def t2 : Env := tEnv id id (fun g => { g with toks := [tTok], nextTok := 1 }) { tFrag with exm := 0x0F, pends := [{ pc := 16, mask := 0xF0, tok := some 0 }] }

theorem witness_Tokens :
    noSlot (t0.i.pc + (2#36).signExtend 64 * 8) = false ∧ t0.g.toks.length < 16 ∧ innerTok t0.g t0.f = none ∧
    (Issues t1.s t1 ∧ t1.s.wf ∧ t1.g.named ∧ innerTok t1.g t1.f = some tTok ∧ tTok.join = t1.i.pc ∧ (∀ o ∈ t1.opsMine, o.accs = []) ∧
      (t1.f.pends.find? fun p => p.tok == some tTok.id) = none) ∧
    Issues t2.s t2 ∧ t2.s.wf ∧ t2.g.named ∧ innerTok t2.g t2.f = some tTok ∧ (t2.f.pends.find? fun p => p.tok == some tTok.id) ≠ none :=
  ⟨by decide +kernel, by decide +kernel, by decide +kernel,
    ⟨⟨rfl, rfl, rfl⟩, State.wf_of_form (by decide +kernel), by unfold Group.named; decide +kernel, by decide +kernel, by decide +kernel, by decide +kernel,
      by decide +kernel⟩,
    ⟨rfl, rfl, rfl⟩, State.wf_of_form (by decide +kernel), by unfold Group.named; decide +kernel, by decide +kernel, by decide +kernel⟩

/-- A fragment that sleeps until now. -/
def t3 : Env := tEnv id id id { tFrag with st := .sleeping 0 8 }

theorem witness_NothingYieldAndSleep :
    (Instr.reservedHint 0x0C).wf = true ∧ (Instr.sleepAbs 62).wf = true ∧ t3.s.frag? t3.i.f = some (t3.b, t3.g, t3.f) ∧ t3.f.st = .sleeping 0 8 ∧
    (0#64).toNat ≤ t3.s.gtime.toNat ∧ t3.g.frozen = none := by
  refine ⟨by decide, by decide, rfl, rfl, ?_⟩
  decide +kernel

theorem witness_TrapsAndReservedEncodings : Guard.always.wf = true ∧ t0.g.stop = none ∧ t0.active { idx := 0, neg := false } = 0 ∧
    bitOf (t0.s.creg t0.b.ctx oTRAPH) 1 = false ∧
    bitOf ((tEnv (fun s => s.onCtx 0 fun c => c.setReg oTRAPH 2) id id tFrag).s.creg 0 oTRAPH) 1 = true := by decide +kernel

theorem witness_LoadsIssue :
    (Instr.ld Guard.always .A .b128 .system (.v 4) (.v 2) 16).wf = true ∧ (Instr.ldAcq Guard.always .A .n8 .device (.s 4) (.v 2) 16).wf = true ∧
    t0.holdsAll [(2, .v 2, 2), (1, .v 4, 4)] ∧ (∀ l ∈ lanesOf (oneLane (.v 4) (t0.active Guard.always)), t0.lane64 (.v 2) 16 l % dtBytes .b128 = 0 ∧
      t0.reaches .load false (t0.lane64 (.v 2) 16 l) 16) ∧ t0.reaches .load true 16 16 ∧
    (Instr.lds Guard.always .A .w64 (.v 4) (.v 2) 0x7F8).wf = true ∧ (Instr.ldl Guard.always .A .w64 (.v 4) (.v 2) 56).wf = true ∧
    t0.holdsAll [(2, .v 2, 1), (1, .v 4, 2)] ∧
    (∀ l ∈ lanesOf (t0.active Guard.always), t0.lane32 (.v 2) 0x7F8 l % 8 = 0 ∧ t0.lane32 (.v 2) 0x7F8 l + 8 ≤ t0.b.kernel.scratch) ∧
    ∀ l ∈ lanesOf (t0.active Guard.always), t0.lane32 (.v 2) 56 l % 8 = 0 ∧ t0.lane32 (.v 2) 56 l + 8 ≤ t0.b.kernel.priv ∧
      ∀ i < 2, t0.reaches .load false (privAddr t0.b t0.g l (t0.lane32 (.v 2) 56 l + 4 * i)) (privAddr t0.b t0.g l (56 + 4 * i)) := by
  have hr : (lanesOf (t0.active Guard.always)).all (fun l => (List.range 2).all fun i =>
      t0.reachTest .load false (privAddr t0.b t0.g l (t0.lane32 (.v 2) 56 l + 4 * i)) (privAddr t0.b t0.g l (56 + 4 * i))) = true := by decide +kernel
  have hl : (lanesOf (oneLane (.v 4) (t0.active Guard.always))).all (fun l => decide (t0.lane64 (.v 2) 16 l % dtBytes .b128 = 0) &&
      t0.reachTest .load false (t0.lane64 (.v 2) 16 l) 16) = true := by decide +kernel
  simp only [List.all_eq_true, Bool.and_eq_true, decide_eq_true_eq, List.mem_range] at hr hl
  exact ⟨by decide, by decide, Env.holdsAll_of (by decide +kernel), fun l h => ⟨(hl l h).1, Env.reaches_of (hl l h).2⟩, Env.reaches_of (by decide +kernel),
    by decide, by decide, Env.holdsAll_of (by decide +kernel), by decide +kernel,
    fun l h => ⟨by revert l; decide +kernel, by revert l; decide +kernel, fun i hi => Env.reaches_of (hr l h i hi)⟩⟩

theorem witness_StoresIssue :
    (Instr.st Guard.always .A .w32 .group (.v 2) 16 (.map 1 4)).wf = true ∧ t0.slotReady (opB .int false (.map 1 4)) ∧
    (Instr.stRel Guard.always .A .b128 .system (.v 2) 16 (.reg (.v 4))).wf = true ∧ t0.slotReady (opB .int false (.reg (.v 4))) ∧
    t0.holdsAll ((2, .v 2, 2) :: storeReads .b128 (.reg (.v 4))) ∧ t0.holdsAll ((2, .v 2, 2) :: storeReads .w32 (.map 1 4)) ∧
    t0.reaches .store false 16 16 ∧ t0.reaches .store true 16 16 ∧
    (∀ l ∈ lanesOf (t0.active Guard.always), t0.lane64 (.v 2) 16 l % 16 = 0 ∧ t0.lane64 (.v 2) 16 l = 16) ∧
    (Instr.sts Guard.always .A .w32 (.v 2) 0x7FC (.reg (.v 4))).wf = true ∧ (Instr.stl Guard.always .A .n16 (.v 2) 62 (.reg (.v 4))).wf = true ∧
    (∀ l ∈ lanesOf (t0.active Guard.always), t0.lane32 (.v 2) 62 l % 2 = 0 ∧ t0.lane32 (.v 2) 62 l + 2 ≤ t0.b.kernel.priv ∧
      t0.lane32 (.v 2) 0x7FC l % 4 = 0 ∧ t0.lane32 (.v 2) 0x7FC l + 4 ≤ t0.b.kernel.scratch) ∧
    (∀ l ∈ lanesOf (t0.active Guard.always), t0.reaches .store false (privAddr t0.b t0.g l 62) (privAddr t0.b t0.g l 62) ∧
      ∀ i < 2, t0.reaches .store false (privAddr t0.b t0.g l (56 + 4 * i)) (privAddr t0.b t0.g l (56 + 4 * i))) ∧
    (Instr.stl Guard.always .A .w64 (.v 2) 56 (.reg (.v 4))).wf = true ∧
    ∀ l ∈ lanesOf (t0.active Guard.always), ∀ m ∈ lanesOf (t0.active Guard.always), ∀ i < 2, ∀ j < 2,
      privAddr t0.b t0.g l (56 + 4 * i) = privAddr t0.b t0.g m (56 + 4 * j) → l = m ∧ i = j := by
  have hr : (lanesOf (t0.active Guard.always)).all (fun l => t0.reachTest .store false (privAddr t0.b t0.g l 62) (privAddr t0.b t0.g l 62) &&
      (List.range 2).all fun i => t0.reachTest .store false (privAddr t0.b t0.g l (56 + 4 * i)) (privAddr t0.b t0.g l (56 + 4 * i))) = true := by
    decide +kernel
  simp only [List.all_eq_true, Bool.and_eq_true, List.mem_range] at hr
  exact ⟨by decide, Env.slotReady_of (by decide +kernel), by decide, Env.slotReady_of (by decide +kernel), Env.holdsAll_of (by decide +kernel),
    Env.holdsAll_of (by decide +kernel), Env.reaches_of (by decide +kernel), Env.reaches_of (by decide +kernel), by decide +kernel, by decide, by decide,
    by decide +kernel, fun l h => ⟨Env.reaches_of (hr l h).1, fun i hi => Env.reaches_of ((hr l h).2 i hi)⟩, by decide, by decide +kernel⟩

theorem witness_MxTransfersIssue :
    (Instr.mxld Guard.always .A .e4m3 .die (.v 4) (.s 2) (.s 4) 0x20).wf = true ∧ (Instr.mxst Guard.always .A .e2m1 .die (.s 2) (.v 4) (.s 4)).wf = true ∧
    t0.holdsAll [(2, .s 2, 2), (3, .s 4, 2), (1, .v 4, 2)] ∧ t0.holdsAll [(2, .s 2, 2), (3, .v 4, 2), (4, .s 4, 2)] ∧
    t0.lane64 (.s 2) 0x20 0 % 32 = 0 ∧ (rget64 t0.b t0.g 0 (.s 4)).toNat % powerUp (ceilDiv (t0.b.width * perWord (Machine.mxCode .e2m1)) 32) = 0 ∧
    (∀ l ∈ lanesOf (t0.active Guard.always), l < t0.b.width ∧ t0.reaches .mxload false (t0.lane64 (.s 2) 0x20 0 + 4 * l) (0x20 + 4 * l)) ∧
    t0.reaches .mxload false (rget64 t0.b t0.g 0 (.s 4)).toNat 0 ∧
    (∀ l ∈ lanesOf (t0.active Guard.always), t0.reaches .mxstore false (t0.lane64 (.s 2) 0 0 + 4 * l) (4 * l)) ∧
    t0.reaches .mxstore false (rget64 t0.b t0.g 0 (.s 4)).toNat 0 := by
  have hr : (lanesOf (t0.active Guard.always)).all (fun l => decide (l < t0.b.width) && t0.reachTest .mxload false (t0.lane64 (.s 2) 0x20 0 + 4 * l) (0x20 + 4 * l) &&
      t0.reachTest .mxstore false (t0.lane64 (.s 2) 0 0 + 4 * l) (4 * l)) = true := by decide +kernel
  simp only [List.all_eq_true, Bool.and_eq_true, decide_eq_true_eq] at hr
  exact ⟨by decide, by decide, Env.holdsAll_of (by decide +kernel), Env.holdsAll_of (by decide +kernel), by decide +kernel, by decide +kernel,
    fun l h => ⟨(hr l h).1.1, Env.reaches_of (hr l h).1.2⟩, Env.reaches_of (by decide +kernel), fun l h => Env.reaches_of (hr l h).2,
    Env.reaches_of (by decide +kernel)⟩

theorem witness_AtomicsIssue :
    (Instr.atom Guard.always .A .cas .b64 .ar .system (.v 4) (.v 2) (.v 6) (.v 8)).wf = true ∧
    (Instr.red Guard.always .A .fadd .b32 .plain .group (.v 2) (.v 6) (.v 0)).wf = true ∧
    (Instr.atoms Guard.always .A .xchg .b64 (.v 4) (.v 2) (.v 6) (.v 0)).wf = true ∧
    t0.holdsAll ([(2, .v 2, 2), (3, .v 6, 2)] ++ [(4, .v 8, 2)]) ∧ t0.holdsAll [(1, .v 4, 2)] ∧ t0.holdsAll [(2, .v 2, 2), (3, .v 6, 1)] ∧
    t0.holdsAll ([(2, .v 2, 1), (3, .v 6, 2)] ++ [] ++ [(1, .v 4, 2)]) ∧
    (∀ l ∈ lanesOf (t0.active Guard.always), t0.lane64 (.v 2) 0 l % 8 = 0 ∧ t0.lane64 (.v 2) 0 l = 0 ∧ t0.lane32 (.v 2) 0 l % 8 = 0 ∧
      t0.lane32 (.v 2) 0 l + 8 ≤ t0.b.kernel.scratch) ∧ t0.reaches .atomic true 0 0 ∧ t0.reaches .atomic false 0 0 :=
  ⟨by decide, by decide, by decide, Env.holdsAll_of (by decide +kernel), Env.holdsAll_of (by decide +kernel), Env.holdsAll_of (by decide +kernel),
    Env.holdsAll_of (by decide +kernel), by decide +kernel, Env.reaches_of (by decide +kernel), Env.reaches_of (by decide +kernel)⟩

theorem witness_AtomicValues : atomCut .b32 0xFFFFFFFF = 0xFFFFFFFF ∧ atomCut .b64 (-1) = -1 := by decide

/-- The machine with a line of its L1 dirty, tagged for the block. -/
def t4 : Env := tEnv (fun s => { s with l1 := [{ mill := 0, line := 1, cells := [(0, some 7)], dirty := [(0, .host)], tag := .block, priv := none, ctx := 0, mates := [] }] })
  id (withU [64]) tFrag

theorem witness_CacheControlAndFences :
    Issues t4.s t4 ∧ t4.s.wf ∧ t4.s.errs = [] ∧ t4.s.poison = [] ∧ t4.s.watches = [] ∧ L1Kept t4.s ∧ (∀ o ∈ t4.opsMine, o.accs = []) ∧
    t4.s.detBlock t4.b = false ∧ (Instr.pref Guard.always .mill (.s 0) 0).wf = true ∧ (Instr.cwb Guard.always .die (.s 0) 0).wf = true ∧
    (Instr.cinv Guard.always .device (.s 0) 0).wf = true ∧ t4.holdsAll [(2, .s 0, 2)] ∧ t4.lane64 (.s 0) 0 0 = 64 ∧
    t4.reaches .cacheOp false 64 64 ∧ (l1Find t4.s t4.b.mill (lineOf 64)).isSome = true ∧ wideScope .die = true ∧ scopeNum .block < scopeNum .die ∧
    t4.s.l1.length + 64 ≤ l1Lines ∧ t4.s.rdc.length + 64 ≤ rdcLines ∧ t4.reaches .prefetch false 64 64 ∧ inRegs 64 = false :=
  ⟨⟨rfl, rfl, rfl⟩, State.wf_of_form (by decide +kernel), rfl, rfl, rfl, by unfold L1Kept; decide +kernel, by decide +kernel, by decide +kernel, by decide,
    by decide, by decide, Env.holdsAll_of (by decide +kernel), by decide +kernel, Env.reaches_of (by decide +kernel), by decide +kernel, by decide, by decide,
    by decide +kernel, by decide +kernel, Env.reaches_of (by decide +kernel), by decide +kernel⟩


/-! Rows 0x6 to 0x9: served accesses, map slots and waits. -/

/-- An instruction in flight. -/
def tOp (accs : List Acc) (fin : Finish) : LongOp :=
  { id := 0, bid := 0, gid := 0, fid := 0, flag := some 0, hold := 0, scope := .device, acq := false, rel := false, ext := false, accs := accs, coll := [],
    marks := [], fail := none, missed := 0, fin := fin, aside := false, pc := 0, word := 0 }

/-- The machine, no fragment issuing, with an instruction in flight. -/
def tFlies (o : LongOp) (fb : Block → Block) : State :=
  { (tEnv (fun s => { s with ops := [o] }) fb (fun g => { g with flags := [(0, 1)] }) tFrag).s with cur := none }

def tFly (accs : List Acc) (fin : Finish) (fb : Block → Block) : State := tFlies (tOp accs fin) fb

/-- A load of eight bytes by lane 0. -/
def tLoad : Acc := { space := .global, lanes := 1, body := .load 0 (.v 4) .w64 ((List.range 8).map (64 + ·)) }

/-- A store of two bytes, and an atomic of two lanes at one address. -/
def tStore : Acc := { space := .global, lanes := 1, body := .store [(64, 1), (65, 2)] }
def tAtom : Acc := { space := .global, lanes := 3, body := .atom 64 .add .b32 (some (.v 2)) [(0, 1, 0), (1, 2, 0)] }

/-- Each kind of access that a memory serves with a value. -/
def tReads : List Acc :=
  [tLoad, { tLoad with space := .priv }, { tLoad with space := .scratch }, { tLoad with space := .regs, body := .load 7 (.s 4) .w64 (span regBase 8) },
   { tLoad with body := .mxload (.v 4) [(0, 64), (7, 92)] [(0, 128), (1, 129)] }, { tLoad with space := .scratch, body := .bind 0 1 4095 4092 },
   { tLoad with space := .scratch, body := .put 0 1 [(0, 7), (4095, 8), (0, 9)] }, { tLoad with space := .scratch, body := .regs [(0, 4, 7), (63, 5, 8)] }]

theorem witness_LoadsServed :
    (∀ a ∈ tReads, ∀ sc ∈ [Scope.mill, .die, .device],
      let o := { tOp [a] .plain with scope := sc }
      let s := tFlies o id
      s.form = true ∧ s.op? 0 = some o ∧ o.accs[0]? = some a ∧ mayPerform s o a = true ∧ accRoom s o a = true ∧ o.acq = false ∧ o.rel = false ∧
      (s.group? 0 0).any (fun p => p.1.staged.isEmpty && heldReg p.1 p.2 (.v 4) && heldReg p.1 p.2 (.v 5) && heldReg p.1 p.2 (.s 4) && heldReg p.1 p.2 (.s 5) &&
        (p.1.slot? 0 1).isSome) = true) ∧
    (Reg.v 4).wf = true ∧ (Reg.v 5).wf = true ∧ (Reg.s 4).wf = true ∧ (Reg.s 5).wf = true ∧ (span regBase 8).length = dtBytes .w64 ∧
    ∀ x ∈ (List.range 8).map (64 + ·), lineOf x = 1 := by decide +kernel

theorem witness_HomesPerform :
    let s := tFly [tStore] .plain id
    let t := tFly [tAtom] .plain id
    s.wf ∧ s.watches = [] ∧ s.op? 0 = some (tOp [tStore] .plain) ∧ (s.block? 0).isSome = true ∧ homeAccs s (tOp [tStore] .plain) 1 = [(0, tStore)] ∧
    t.wf ∧ t.watches = [] ∧ s.hostDirty = [] ∧ t.hostDirty = [] ∧ t.op? 0 = some (tOp [tAtom] .plain) ∧ homeAccs t (tOp [tAtom] .plain) 1 = [(0, tAtom)] ∧ l1Find t 0 1 = none :=
  ⟨State.wf_of_form (by decide +kernel), rfl, by decide +kernel, by decide +kernel, by decide +kernel, State.wf_of_form (by decide +kernel), rfl,
    rfl, rfl, by decide +kernel, by decide +kernel, by decide +kernel⟩

theorem witness_HomesPerform_mill :
    (∀ a ∈ [tStore, { tStore with space := .priv }, { tStore with space := .scratch }, { tAtom with space := .scratch }],
      let o := { tOp [a] .plain with scope := .mill }
      let s := tFlies o id
      s.form = true ∧ s.op? 0 = some o ∧ o.accs[0]? = some a ∧ mayPerform s o a = true ∧ accRoom s o a = true ∧
      (s.group? 0 0).any (fun p => heldReg p.1 p.2 (.v 2)) = true) ∧
    (Reg.v 2).wf = true ∧ scopeNum .mill ≤ 2 ∧ ([64, 65] : List Nat).Nodup ∧ ([0, 1] : List Nat).Nodup := by decide +kernel

/-- An expansion of one group that has ended its part. -/
def tXu : Expansion :=
  { stone := 0, deal := 0, n := 1, op := .add, total := 1, start := [], len := [(2, 3)], acc := [(2, 9)],
    slots := [{ gid := 0, ended := true, rounds := 1, resolved := true, heldRound := 1, unapplied := 0, contrib := [] }], bad := false }

theorem witness_Completion :
    (∀ fin ∈ [Finish.plain, .bind 0 1 0xBB, .scales (.v 4) 0xFF, .xend 0 (.v 4) 0xFF],
      (tFly [] fin fun b => { b with xus := [tXu] }).form = true ∧ (tFly [] fin fun b => { b with xus := [tXu] }).op? 0 = some (tOp [] fin) ∧
      finReady (tFly [] fin fun b => { b with xus := [tXu] }) (tOp [] fin) = true ∧
      ((tFly [] fin fun b => { b with xus := [tXu] }).group? 0 0).any (fun p => p.1.resident && heldReg p.1 p.2 (.v 4) && heldReg p.1 p.2 (.v 5) &&
        (p.1.slot? 0 1).isSome && p.1.xuEnding 0 0 == some tXu) = true) ∧ (slotOf tXu.slots 0 0).isSome = true := by decide +kernel

theorem witness_MapSlots :
    slotBusy t0.s t0.b t0.g.stone 1 = false ∧ fwValid 0xBB = true ∧ (Instr.mbind Guard.always .A 1 (.s 0) (.s 1)).wf = true ∧
    (Instr.mput Guard.always .A 1 (.v 2) (.v 3) (.s 1)).wf = true ∧ (Instr.mget Guard.always .A (.v 4) 1 (.v 2)).wf = true ∧
    (Instr.mgetFmt Guard.always .A (.v 4) 1).wf = true ∧
    (let e := tEnv id id (withU [0x100, 0xBB]) tFrag
     Issues e.s e ∧ e.s.wf ∧ e.memReady .A ∧ e.holdsAll [(2, .s 0, 1), (3, .s 1, 1)] ∧ e.holdsAll [(2, .v 2, 1), (3, .v 3, 1), (4, .s 1, 1)] ∧
       (∀ l ∈ lanesOf (e.active Guard.always), rget e.b e.g l (.s 1) = 0xBB ∧ (rget e.b e.g l (.v 2)).toNat < 4096) ∧
       e.inScratch 0x100 (4 * imageWords e.b.width 0xBB) 16) ∧
    t0.holdsAll [(2, .v 2, 1), (1, .v 4, 1)] ∧ (t0.b.slot? t0.g.stone 1).any (·.bound) = true :=
  ⟨by decide +kernel, by decide +kernel, by decide, by decide, by decide, by decide,
    ⟨⟨rfl, rfl, rfl⟩, State.wf_of_form (by decide +kernel), Env.memReady_of (by decide +kernel), Env.holdsAll_of (by decide +kernel),
      Env.holdsAll_of (by decide +kernel), by decide +kernel, by unfold Env.inScratch; decide +kernel⟩,
    Env.holdsAll_of (by decide +kernel), by decide +kernel⟩

/-- The machine with a phaser at offset 0x40 that group 0 awaits: 0 or one more group to arrive. -/
def tPh (sig pending : Nat) : Env := tEnv id (withSb 0x40 16 ({ sig := sig, wait := 1, pending := pending, phase := false } : Phaser).word) (withU [0x40, 1, 1]) tFrag

theorem witness_Phasers :
    (Instr.phinit (.s 0) (.s 1) (.s 2)).wf = true ∧ (Instr.pharv 1 (.s 0)).wf = true ∧ (Instr.phtest 1 (.s 0) 2).wf = true ∧
    ∀ p ∈ [(1, 1), (1, 2), (0, 0)], (tPh p.1 p.2).s.form = true ∧ (tPh p.1 p.2).s.frag? (tPh p.1 p.2).i.f = some ((tPh p.1 p.2).b, (tPh p.1 p.2).g, (tPh p.1 p.2).f) ∧
      (tPh p.1 p.2).s.errs = [] ∧ (tPh p.1 p.2).filtered = false ∧ (tPh p.1 p.2).g.gid < 32 ∧ lockPartner (tPh p.1 p.2).b (tPh p.1 p.2).g = none ∧ (∀ o ∈ (tPh p.1 p.2).opsMine, o.accs = []) ∧
      ((tPh p.1 p.2).r32 (.s 0)).toNat = 0x40 ∧ onPhaser 0x40 (tPh p.1 p.2).f = false ∧
      (tPh p.1 p.2).holdsTest [(2, .s 0, 1), (3, .s 1, 1), (4, .s 2, 1)] = true ∧ waitersOf (tPh p.1 p.2).b (fun w => match w with | .phaser o _ => o == 0x40 | _ => false) = [] ∧
      0x40 % 16 = 0 ∧ 0x40 + 16 ≤ (tPh p.1 p.2).b.kernel.scratch ∧ phaserBad ((tPh p.1 p.2).b.sbNat 0x40 16) = false ∧
      phaserOf ((tPh p.1 p.2).b.sbNat 0x40 16) = { sig := p.1, wait := 1, pending := p.2, phase := false } ∧
      ((tPh p.1 p.2).r32 (.s 1)).toNat < 2 ^ (tPh p.1 p.2).b.groups.length ∧ ((tPh p.1 p.2).r32 (.s 2)).toNat < 2 ^ (tPh p.1 p.2).b.groups.length := by decide +kernel

/-- The machine with a word queue of two entries at offset 0x40, its ring at 0x80, and an allowance. -/
def tQ (allow : Nat) : Env :=
  tEnv id (withSb 0x40 16 ({ ring := 0x80, cap := 2, kind := false, head := 0, tail := 1, allow := allow } : QHead).word) (withU [0x40, 0x80, 2]) tFrag

theorem witness_Queues :
    (Instr.qinit (.s 0) (.s 1) (.s 2)).wf = true ∧ (Instr.qpushNb 1 (.s 0) (.s 1)).wf = true ∧ (Instr.qpopNb (.v 2) 1 (.s 0)).wf = true ∧
    ∀ k ∈ [0, 1, 2], (tQ k).s.form = true ∧ (tQ k).s.frag? (tQ k).i.f = some ((tQ k).b, (tQ k).g, (tQ k).f) ∧ (tQ k).s.errs = [] ∧ (tQ k).filtered = false ∧
      (tQ k).f.st = .running ∧
      lockPartner (tQ k).b (tQ k).g = none ∧ (∀ o ∈ (tQ k).opsMine, o.accs = []) ∧ ((tQ k).r32 (.s 0)).toNat = 0x40 ∧
      (tQ k).holdsTest [(2, .s 0, 1), (3, .s 1, 1), (4, .s 2, 1), (1, .v 2, 1)] = true ∧ waitersOf (tQ k).b (fun w => pushWait 0x40 w || popWait 0x40 w) = [] ∧
      waitersOf (tQ k).b (pushWait 0x40) = [] ∧ waitersOf (tQ k).b (popWait 0x40) = [] ∧
      0x80 + 16 ≤ (tQ k).b.kernel.scratch ∧ qheadBad ((tQ k).b.sbNat 0x40 16) = false ∧
      qheadOf ((tQ k).b.sbNat 0x40 16) = { ring := 0x80, cap := 2, kind := false, head := 0, tail := 1, allow := k } ∧
      ((tQ k).r32 (.s 1)).toNat = 0x80 ∧ (tQ k).r32 (.s 2) = 2 := by decide +kernel

/-- The machine with a queue of tile handles, its value to push `v`, and tile 5 defined. -/
def tQt (v : W32) : Env :=
  tEnv id (fun b => (withSb 0x40 16 ({ ring := 0x80, cap := 2, kind := true, head := 0, tail := 1, allow := 1 } : QHead).word b).setSbNat (tileOff b 5) 16
    ({ base := 0, size := 16, phaser := 0, defined := true, attached := false } : Tile).word) (withU [0x40, v]) tFrag

theorem witness_Queues_tiles (v : W32) (h : v = 5 ∨ v = 64) :
    (tQt v).s.form = true ∧ (tQt v).s.frag? (tQt v).i.f = some ((tQt v).b, (tQt v).g, (tQt v).f) ∧ (tQt v).s.errs = [] ∧
      (tQt v).filtered = false ∧ (tQt v).f.st = .running ∧ lockPartner (tQt v).b (tQt v).g = none ∧ (∀ o ∈ (tQt v).opsMine, o.accs = []) ∧
      (tQt v).g.stop = none ∧ waitersOf (tQt v).b (pushWait 0x40) = [] := by
  rcases h with rfl | rfl <;>
    exact ⟨by decide +kernel, by decide +kernel, rfl, by decide +kernel, rfl, by decide +kernel, by decide +kernel, rfl, by decide +kernel⟩

theorem witness_Queues_tiles_head (v : W32) (h : v = 5 ∨ v = 64) :
    ((tQt v).r32 (.s 0)).toNat = 0x40 ∧ (tQt v).r32 (.s 1) = v ∧ (tQt v).holdsTest [(2, .s 0, 1), (3, .s 1, 1)] = true ∧
      0x40 + 16 ≤ (tQt v).b.kernel.scratch ∧ qheadBad ((tQt v).b.sbNat 0x40 16) = false ∧ 0x80 + 8 ≤ (tQt v).b.kernel.scratch ∧
      qheadOf ((tQt v).b.sbNat 0x40 16) = { ring := 0x80, cap := 2, kind := true, head := 0, tail := 1, allow := 1 } ∧
      ((tQt v).b.tile? 5).any (·.defined) = true := by
  rcases h with rfl | rfl <;>
    exact ⟨by decide +kernel, by decide +kernel, by decide +kernel, by decide +kernel, by decide +kernel, by decide +kernel, by decide +kernel, by decide +kernel⟩

/-- The machine with group 0 holding its pair's extended set, or nobody. -/
def tLock (h : Option Nat) : Env := tEnv id (fun b => { b with exts := [{ pair := 0, holder := h, regs := [] }] }) (withU [0x100, 0x40, 0x200]) tFrag

theorem witness_TilesLocksAndWaits :
    (Instr.tdef 63 (.s 0) (.s 1)).wf = true ∧ (Instr.tdefAtt 0 (.s 0) (.s 1) (.s 2)).wf = true ∧ (Instr.lwaitNb 1 (.s 0) (.s 1)).wf = true ∧
    ∀ h ∈ [none, some 0], (tLock h).s.form = true ∧ (tLock h).s.frag? (tLock h).i.f = some ((tLock h).b, (tLock h).g, (tLock h).f) ∧ (tLock h).s.errs = [] ∧
      (tLock h).filtered = false ∧ (tLock h).acqPending = false ∧ (tLock h).s.awaits = [] ∧
      1024 ≤ (tLock h).b.kernel.scratch ∧ (tLock h).holdsTest [(2, .s 0, 1), (3, .s 1, 1), (4, .s 2, 1)] = true ∧ ((tLock h).r32 (.s 0)).toNat = 0x100 ∧
      ((tLock h).r32 (.s 1)).toNat = 0x40 ∧ 0x100 + 0x40 ≤ (tLock h).b.kernel.scratch - 1024 ∧ ((tLock h).r32 (.s 2)).toNat = 0x200 ∧
      (tLock h).b.kernel.ext ≠ 0 ∧ (tLock h).g.handler = none ∧ ((tLock h).b.exts.any fun x => x.pair == (tLock h).g.gid / 2) = true ∧
      ((tLock h).b.extSet (tLock h).g.gid).holder = h ∧ (h = some 0 → (tLock h).b.holdsExt (tLock h).g = true) ∧
      (∀ o ∈ (tLock h).s.opsOf 0 0, o.ext = false) ∧ ∀ x ∈ (tLock h).b.groups, x.gid ≠ (tLock h).g.gid → x.frags.any inRegx = false := by decide +kernel

/-- The pair's two groups: the set is held by one of them, and the other, where it waits, is blocked in `REGX.acq`. -/
def tPair (h : Nat) (waits : Bool) : Env :=
  let e := tLock (some h)
  let b : Block := { e.b with groups := e.b.groups ++ [{ tGroup with gid := 1, frags := [{ tFrag with st := if waits then .blocked .regx 0 else .running }] }] }
  { e with b := b, s := { e.s with blocks := [b] } }

theorem witness_TilesLocksAndWaits_pair : ∀ p ∈ [(1, false), (0, true)],
    (tPair p.1 p.2).s.form = true ∧ (tPair p.1 p.2).s.frag? (tPair p.1 p.2).i.f = some ((tPair p.1 p.2).b, (tPair p.1 p.2).g, (tPair p.1 p.2).f) ∧
    (tPair p.1 p.2).s.errs = [] ∧ (tPair p.1 p.2).filtered = false ∧ (tPair p.1 p.2).acqPending = false ∧ (tPair p.1 p.2).b.kernel.ext ≠ 0 ∧
    (tPair p.1 p.2).g.handler = none ∧ ((tPair p.1 p.2).b.exts.any fun x => x.pair == (tPair p.1 p.2).g.gid / 2) = true ∧
    ((tPair p.1 p.2).b.extSet (tPair p.1 p.2).g.gid).holder = some p.1 ∧ (p.1 = 0 → (tPair p.1 p.2).b.holdsExt (tPair p.1 p.2).g = true) ∧
    (∀ o ∈ (tPair p.1 p.2).s.opsOf 0 0, o.ext = false) ∧ (tPair p.1 p.2).s.awaits = [] ∧
    ((tPair p.1 p.2).b.group? 1).any (fun x => x.frags.any inRegx == p.2 && (p.2 || x.frags.all fun f => !lockWait f.st)) = true := by decide +kernel

/-- A gang launch of one block, or of two, the second not placed; with domain members. -/
def tGang (nrank : Nat) : Launch :=
  { id := 5, ctx := 0, queue := 3, count := 0, packet := [0x201, 0, 0, 0, 0, 0, 0, 0], replica := false, phase := .dispatched, kernel := some tKernel,
    next := 1, head := 0, dropped := false, added := false, rank := 0, nrank := nrank, barGen := 2, domSent := true, domSince := 0, domArr := [],
    arrTime := 0, sent := false, relStop := none, adopted := false, killed := false, acks := [], domAcks := [] }

def tDbar (nrank : Nat) (more : List Block) : Env :=
  let e := tEnv (fun s => { s with launches := [tGang nrank], nextId := 6 }) (fun b => { b with launch := some 5 }) id tFrag
  { e with s := { e.s with blocks := e.s.blocks ++ more } }

theorem witness_GangBarrier :
    (Issues (tDbar 0 []).s (tDbar 0 []) ∧ (tDbar 0 []).s.wf ∧ (tDbar 0 []).s.launchOf (tDbar 0 []).b = some (tGang 0) ∧ (tGang 0).gang = true ∧
      (∀ o ∈ (tDbar 0 []).opsMine, o.accs = []) ∧ lockPartner (tDbar 0 []).b (tDbar 0 []).g = none ∧ cleanL1 (tDbar 0 []).s 0 ∧ (tDbar 0 []).g.waits = true ∧
      (∀ f ∈ (tDbar 0 []).g.frags, f.fid = (tDbar 0 []).f.fid) ∧
      ∀ b ∈ (tDbar 0 []).s.blocks, b.resident = true ∧ b.staged = [] ∧ b = (tDbar 0 []).b ∧ ∀ g ∈ b.groups, g = (tDbar 0 []).g) ∧
    (let e := tDbar 0 [{ tBlock with bid := 1, launch := some 5 }]
     Issues e.s e ∧ e.s.wf ∧ e.s.launchOf e.b = some (tGang 0) ∧ cleanL1 e.s e.b.mill ∧
       ∃ o ∈ e.s.blocks, o.launch = some 5 ∧ ∃ h ∈ o.groups, (o.bid ≠ e.b.bid ∨ h.gid ≠ e.g.gid) ∧ groupArrived h = false) ∧
    let s := { (tEnv (fun s => { s with launches := [tGang 1], nextId := 6 }) (fun b => { b with launch := some 5 }) id { tFrag with st := .inDbar true 8 }).s with cur := none }
    s.launch? 5 = some (tGang 1) ∧ 1 ∈ (tGang 1).others ∧ 1 ∉ (tGang 1).domArr ∧ barrierFull s 5 = true ∧ barrierDom s 5 = true ∧ (tGang 1).domSent = true :=
  ⟨⟨⟨rfl, rfl, rfl⟩, State.wf_of_form (by decide +kernel), by decide +kernel, by decide, by decide +kernel, by decide +kernel, by unfold cleanL1; decide +kernel,
      by decide +kernel, by decide +kernel, by decide +kernel⟩,
    ⟨⟨rfl, rfl, rfl⟩, State.wf_of_form (by decide +kernel), by decide +kernel, by unfold cleanL1; decide +kernel, by decide +kernel⟩, by decide +kernel⟩

/-! Row 0xA to 0xC: expansions, copies, watches, special registers, launches, far memory, collectives. -/

/-- An expansion whose one owner has 12 iterations from 100 on. -/
def tExp : Expansion :=
  { stone := 0, deal := 0, n := 1, op := .add, total := 12, start := [(0, 100)], len := [(0, 12)], acc := [],
    slots := [{ gid := 0, ended := false, rounds := 0, resolved := false, heldRound := 0, unapplied := 0, contrib := [] }], bad := false }

theorem witness_IterationNumbering : swf 0 tExp.len = true ∧ 11 < tExp.sumLen ∧ tExp.sumLen ≤ 12 := by decide

/-- The machine with expansions in its block, and with a second group on the stone. -/
def tX (xs : List Expansion) : Env := tEnv id (fun b => { b with xus := xs }) id tFrag
def tX2 (xs : List Expansion) : Env :=
  let e := tX xs
  let b : Block := { e.b with groups := e.b.groups ++ [{ tGroup with gid := 4 }] }
  { e with b := b, s := { e.s with blocks := [b] } }

theorem witness_ExpandUnit :
    (Instr.xbegin .add (.v 2) (.v 4) 0 1).wf = true ∧ (Instr.xbegin .add (.v 2) (.v 4) 0 3).wf = true ∧ (Instr.xnext (.v 2) (.v 4) 1).wf = true ∧
    (Instr.xred Guard.always (.v 2)).wf = true ∧ (Instr.xend .A (.v 2)).wf = true ∧
    (∀ xs ∈ [[], [tExp], [{ tExp with slots := tExp.slots.map fun y => { y with rounds := 1 } }]], (tX xs).s.form = true ∧
      (tX xs).s.frag? (tX xs).i.f = some ((tX xs).b, (tX xs).g, (tX xs).f) ∧ (tX xs).s.errs = [] ∧ (tX xs).g.handler = none ∧ (tX xs).xuMine true = none ∧
      (tX xs).holdsTest [(2, .v 2, 1), (3, .v 4, 1)] = true ∧ (∀ k, (tX xs).flag .A = some k → (tX xs).g.flag k < 63)) ∧
    (tX []).b.openXu? (tX []).g.stone = none ∧ 1 ≤ stoneGroups (tX []).b (tX []).g.stone ∧ (tX []).xuForeign = false ∧
    ((lanesOf (tX []).f.exm).map fun l => (rget (tX []).b (tX []).g l (.v 4)).toNat).sum < 2 ^ 32 ∧
    (let x := { tExp with n := 3, slots := [{ gid := 4, ended := false, rounds := 0, resolved := false, heldRound := 0, unapplied := 0, contrib := [] }] }
     let e := { tX2 [x] with b := { (tX2 [x]).b with groups := (tX2 [x]).b.groups ++ [{ tGroup with gid := 8 }] } }
     let e : Env := { e with s := { e.s with blocks := [e.b] } }
     e.s.form = true ∧ e.s.frag? e.i.f = some (e.b, e.g, e.f) ∧ e.xuMine true = none ∧ e.b.openXu? e.g.stone = some x ∧ (∀ y ∈ x.slots, y.gid ≠ e.g.gid) ∧
       x.complete = false ∧ 3 ≤ stoneGroups e.b e.g.stone ∧ x.slots.length + 1 ≤ 3) ∧
    ((tX [tExp]).xuSlot (tX [tExp]).whole).toOption = some (tExp, 0, { gid := 0, ended := false, rounds := 0, resolved := false, heldRound := 0, unapplied := 0, contrib := [] }) ∧ tExp.complete = true ∧
    (let e := tX [{ tExp with slots := tExp.slots.map fun y => { y with rounds := 1 } }]
     ((e.xuSlot (e.recLanes (e.active Guard.always))).toOption.any fun p => p.2.1 == 0 && p.2.2.rounds == 1 && !p.2.2.resolved && p.2.2.unapplied == 0 &&
       p.1.n == 1 && p.1.slots == [p.2.2] && p.1.stone == e.g.stone && e.b.xus.filter (fun z => z.stone == p.1.stone && z.bad == p.1.bad) == [p.1]) = true) ∧
    (∀ l ∈ lanesOf (tX [tExp]).f.exm, l < (tX [tExp]).b.width) := by decide +kernel

/-- An expansion that one group more completes, its one owner with a length; and one of two groups in their first round, whose
second group's values wait. -/
def tJoin (len : W32) : Expansion := { tExp with n := 2, len := [(0, len)], slots := tExp.slots.map fun y => { y with gid := 4 } }

def tFold : Expansion :=
  { tExp with n := 2, total := 24, len := [(0, 12), (8, 12)], slots :=
      [{ gid := 0, ended := false, rounds := 1, resolved := false, heldRound := 0, unapplied := 0, contrib := [] },
       { gid := 4, ended := false, rounds := 1, resolved := true, heldRound := 0, unapplied := 0x30, contrib := [(4, 2), (5, 3)] }] }

theorem witness_ExpandUnit_groups :
    (∀ p ∈ [(12, false), (0xFFFFFFFF, true)],
      let x := tJoin p.1
      let e := tEnv id (fun b => b) (fun g => { g with v := if p.2 then [(4, 1)] else [] }) tFrag
      let b : Block := { e.b with xus := [x], groups := e.b.groups ++ [{ tGroup with gid := 4 }] }
      let e : Env := { e with b := b, s := { e.s with blocks := [b] } }
      e.s.form = true ∧ e.s.frag? e.i.f = some (e.b, e.g, e.f) ∧ e.s.errs = [] ∧ e.g.handler = none ∧ e.xuMine true = none ∧ e.b.openXu? e.g.stone = some x ∧
        (∀ y ∈ x.slots, y.gid ≠ e.g.gid) ∧ x.complete = false ∧ 2 ≤ stoneGroups e.b e.g.stone ∧ x.slots.length + 1 = 2 ∧ e.holdsTest [(2, .v 2, 1), (3, .v 4, 1)] = true ∧
        decide (2 ^ 32 ≤ x.sumLen + ((lanesOf e.f.exm).map fun l => (rget e.b e.g l (.v 4)).toNat).sum) = p.2) ∧
    (let e := tX2 [tFold]
     e.s.form = true ∧ e.s.frag? e.i.f = some (e.b, e.g, e.f) ∧ e.s.errs = [] ∧ e.g.handler = none ∧ e.xuMine true = none ∧ e.holdsTest [(2, .v 2, 1)] = true ∧
       ((e.xuSlot (e.recLanes (e.active Guard.always))).toOption.any fun p => p.1 == tFold && p.2.1 == 0 && p.2.2.rounds == 1 && !p.2.2.resolved && p.2.2.unapplied == 0) = true ∧
       tFold.complete = true ∧ (tFold.slots.map (·.gid)).Nodup ∧ (∀ z ∈ tFold.slots, ∀ l ∈ lanesOf z.unapplied, l < e.b.width) ∧
       (e.b.xus.filter fun z => z.stone == tFold.stone && z.bad == tFold.bad) = [tFold] ∧ tFold.stone = e.g.stone ∧ ∀ l ∈ lanesOf (e.active Guard.always), l < e.b.width) := by
  decide +kernel

/-- A copy descriptor: 4 words from 2^29 to offset 0x100, its pointer word at 0x200. -/
def tCopy : List W32 := [0x60000000, 0x40000000, 0x100, 0x00010004, 0x00200001, 0, 0, 0]

theorem witness_Copies :
    (let e := tEnv id id (withU tCopy) tFrag
     let ws := (List.range 8).map fun k => (uget e.g (0 + k)).toNat
     (Instr.cpy Guard.always .A 0).wf = true ∧ Issues e.s e ∧ e.s.wf ∧ e.issueReady .A ∧ e.f.st = .running ∧ e.b.kernel.checked = false ∧ e.active Guard.always ≠ 0 ∧ descBad false ws = none ∧
       descCode e.b (copyDesc ws) = none ∧ e.s.leats = []) ∧
    (let e := tEnv id id (withU [0x60000000, 0x43000000, 0x100, 0x00030003, 0x00200001, 16, 0, 0x11110202]) tFrag
     let ws := (List.range 8).map fun k => (uget e.g (0 + k)).toNat
     (Instr.cpyw Guard.always .A 0).wf = true ∧ descBad true ws = none ∧ descCode e.b (copyDesc ws) = none) ∧
    (Instr.cpy { idx := 0, neg := false } .A 0).wf = true ∧ t0.active { idx := 0, neg := false } = 0 :=
  ⟨⟨by decide, ⟨rfl, rfl, rfl⟩, State.wf_of_form (by decide +kernel), Env.issueReady_of (by decide +kernel), rfl, by decide +kernel, by decide +kernel, by decide +kernel,
    by decide +kernel, rfl⟩, by decide +kernel, by decide, by decide +kernel⟩

/-- A copy of each kind. -/
def tDesc (kind n0 n1 : Nat) (shape : W32) : CopyDesc :=
  { g := 0x60000000, e := 4, dir := false, kind := kind, d := 0x100, n0 := n0, n1 := n1, n2 := 1, wptr := 0x200, st1 := 64, st2 := 0, shape := shape }

theorem witness_CopyOrder : ∀ d ∈ [tDesc 0 4 1 0, tDesc 1 4 4 0x0202, tDesc 2 8 8 0x02020202, tDesc 3 4 4 0x11110202],
    d.shapeBad = false ∧ d.countsBad = false ∧ d.n0 ≠ 0 ∧ d.n1 ≠ 0 ∧ d.e ≠ 0 ∧ 0 < d.n2 ∧ (d.kind = 3 → 0 < d.outH ∧ 0 < d.outW) := by decide

/-- A leat of mill 0 at its start, and the device with it. -/
def tLeat (d : CopyDesc) : Leat :=
  { mill := 0, idx := 3, bid := 0, gid := 0, fid := 0, ctx := 0, pc := 0, word := 0, desc := d, done := 0, frozen := none, seq := 0 }

def tLeats (d : CopyDesc) : State := { tState with blocks := [tBlock], leats := [tLeat d] }

theorem witness_CopyElements :
    (∀ d ∈ [tDesc 0 4 1 0, { tDesc 0 4 1 0 with dir := true }, tDesc 3 4 4 0x11110202],
      (tLeats d).form = true ∧ (tLeats d).leat? 0 3 = some (tLeat d) ∧ (tLeats d).block? 0 = some tBlock ∧ tBlock.mill = 0 ∧ (tLeats d).errs = [] ∧
      (tLeats d).poison = [] ∧ (tLeats d).awaits = [] ∧ (tLeats d).watches = [] ∧ (tLeats d).hostDirty = [] ∧ (tLeats d).detBlock tBlock = false ∧ tBlock.kernel.checked = false ∧
      tBlock.staged = [] ∧ d.e ≠ 0 ∧ d.d + d.e ≤ d.wptr ∧
      (d.kind = 3 → d.addr 0 = none) ∧ (d.kind = 0 → d.addr 0 = some 0x60000000 ∧
        ((reach (tLeats d) 0 0 (if d.dir then .leatStore else .leatLoad) false false 0x60000000).toOption.any fun x =>
          x.pa == 2 ^ 29 && !leafChecked x.leaf && !inHost x.pa) = true)) ∧
    ∀ a, l1Find (tLeats (tDesc 0 4 1 0)) 0 a = none :=
  ⟨by decide +kernel, fun _ => rfl⟩

/-- An arm descriptor for one line of page 3, and a watch-table entry for it. -/
def tArm : List W32 := [0x60000040, 0x26000000, 0, 1, 7, 0, 0, 0]

def tWatch (armed : Bool) : Watch :=
  { idx := 9, ctx := 0, base := 0x60000040, lg := 6, depth := 1, kernel := 0, budget := 1, arg := 7, wid := 9, pages := [(0x20000, 0x60000000)],
    armed := armed, live := [], gone := [], susp := false, held := none, window := 0, entered := 0, sent := 0 }

/-- The device with a watch and the fragment in a state. -/
def tWaits (w : Watch) (st : FState) : State :=
  { (tEnv (fun s => { s with watches := [w] }) id id { tFrag with st := st }).s with cur := none }

theorem witness_Watches :
    (let e := tEnv id id (withU tArm) tFrag
     let ws := (List.range 8).map fun k => (uget e.g (0 + k)).toNat
     (Instr.watch (.v 2) 0).wf = true ∧ Issues e.s e ∧ e.s.wf ∧ e.s.errs = [] ∧ (∀ o ∈ e.opsMine, o.acq = true → o.accs = []) ∧ e.holdsAll [(1, .v 2, 1)] ∧
       watchBad ws = none ∧ kernelEntry e.s e.b.ctx (watchDesc ws).kernel = .ok 0x6000 ∧
       watchPages e.s e.b.mill e.b.ctx (e.s.detBlock e.b) (watchDesc ws).base (List.range (2 ^ ((watchDesc ws).lg - 12))) = .ok [(0x20000, 0x60000000)] ∧
       (e.s.watches.filter fun w => w.ctx == e.b.ctx).length < fld (e.s.creg e.b.ctx oWQUOTA) 0 11 ∧ ∀ w ∈ e.s.watches, w.idx ≠ 0) ∧
    (let s := tWaits (tWatch false) (.blocked (.arming 9 (.v 2)) 0)
     s.wf ∧ s.l1 = [] ∧ s.errs = [] ∧ s.watch? 9 = some (tWatch false) ∧ ((s.frag? { bid := 0, gid := 0, fid := 0 }).any fun p =>
       p.2.1.frozen.isNone && p.2.1.handler.isNone && p.2.2.st == .blocked (.arming 9 (.v 2)) 0 && p.1.staged.isEmpty && heldReg p.1 p.2.1 (.v 2)) = true ∧ s.ops = []) ∧
    (let e := tEnv (fun s => { s with watches := [tWatch true] }) id (withU [9]) tFrag
     Issues e.s e ∧ e.s.wf ∧ e.s.errs = [] ∧ e.holdsAll [(2, .s 0, 1)] ∧ e.r32 (.s 0) = 9 ∧
       (e.s.watches.find? fun w => w.ctx == e.b.ctx && w.armed && w.wid == e.r32 (.s 0)) = some (tWatch true) ∧ t0.s.watches = []) ∧
    (let s := tWaits (tWatch true) (.blocked (.disarming 9) 0)
     s.watch? 9 = some (tWatch true) ∧ ((s.frag? { bid := 0, gid := 0, fid := 0 }).any fun p =>
       p.2.1.frozen.isNone && p.2.1.handler.isNone && p.2.2.st == .blocked (.disarming 9) 0) = true) :=
  ⟨⟨by decide, ⟨rfl, rfl, rfl⟩, State.wf_of_form (by decide +kernel), rfl, by decide +kernel, Env.holdsAll_of (by decide +kernel), by decide +kernel,
      ok_of (by decide +kernel), ok_of (by decide +kernel), by decide +kernel, by decide +kernel⟩,
    ⟨State.wf_of_form (by decide +kernel), rfl, rfl, by decide +kernel, by decide +kernel, rfl⟩,
    ⟨⟨rfl, rfl, rfl⟩, State.wf_of_form (by decide +kernel), rfl, Env.holdsAll_of (by decide +kernel), by decide +kernel, by decide +kernel, rfl⟩,
    by decide +kernel⟩

/-- A trigger record of two sectors. -/
def tRec : TrigRec :=
  { widx := 9, wid := 9, ctx := 0, region := 0x60000000, page := 0x20000, sectors := [4, 5], storer := .host, tag := none, depth := 2, die := 0, kernel := 0, arg := 7 }

theorem witness_SpecialRegisters :
    (Instr.swr Guard.always 6 (.v 2)).wf = true ∧ t0.holdsAll [(2, .v 2, 2)] ∧ t0.g.stop = none ∧ (Instr.trigi Guard.always .arg (.v 2)).wf = true ∧
    t0.laneReady [] (useD (TrigField.wide .arg) (.v 2)) ∧ t0.b.trig = none ∧
    let e := tEnv id (fun b => { b with trig := some tRec }) id tFrag
    Issues e.s e ∧ e.s.wf ∧ e.b.trig = some tRec ∧ e.laneReady [] (useD (TrigField.wide .arg) (.v 2)) :=
  ⟨by decide, Env.holdsAll_of (by decide +kernel), rfl, by decide, Env.laneReady_of (by decide +kernel), rfl, ⟨rfl, rfl, rfl⟩,
    State.wf_of_form (by decide +kernel), rfl, Env.laneReady_of (by decide +kernel)⟩

theorem witness_ChildLaunchesAndSignals :
    (Instr.launch 3 0).wf = true ∧ t0.s.poison = [] ∧ t0.s.watches = [] ∧ (∀ o ∈ t0.opsMine, o.accs = []) ∧ t0.s.detBlock t0.b = false ∧ t0.s.hostDirty = [] ∧
    t0.filtered = false ∧ cleanL1 t0.s t0.b.mill ∧
    (t0.s.writeIdx 0 3 + 1) % t0.s.ringSize 0 3 ≠ t0.s.readIdx 0 3 ∧ t0.reaches .mxstore false (t0.s.ringSlot 0 3 (t0.s.writeIdx 0 3)) 0 ∧
    (Instr.signal (.v 2) (.v 4)).wf = true ∧ t0.b.kernel.checked = false ∧ t0.holdsAll [(2, .v 2, 2), (3, .v 4, 2)] ∧ (t0.r64 (.v 2)).toNat = 0 ∧
    t0.reaches .atomic false 0 0 :=
  ⟨by decide, rfl, rfl, by decide +kernel, by decide +kernel, rfl, by decide +kernel, by unfold cleanL1; decide +kernel, by decide +kernel,
    Env.reaches_of (by decide +kernel), by decide,
    by decide +kernel, Env.holdsAll_of (by decide +kernel), by decide +kernel, Env.reaches_of (by decide +kernel)⟩

/-- The machine in a domain of two members, a window address of rank 1 in `s2`, an answer kept or none. -/
def tFar (r : Option Reply) : Env :=
  tEnv (fun s => s.onCtx 0 fun c => c.setReg oDOMCFG 0x100) id (withU [0, 0, 0x20000000, 0x40000]) { tFrag with reply := r }

theorem witness_FarAccesses :
    (Instr.ldf Guard.always .A true .w32 .domain (.v 4) (.s 2) 0).wf = true ∧ (Instr.stf Guard.always .A true .w32 .domain (.s 2) 0 (.v 4)).wf = true ∧
    (Instr.redf Guard.always .A .add .b32 .plain .domain (.s 2) (.v 4)).wf = true ∧
    (∀ r ∈ [none, some (Reply.far (.ok ((lanesOf 0xFF).map fun _ => 5)))], (tFar r).s.form = true ∧
      (tFar r).s.frag? (tFar r).i.f = some ((tFar r).b, (tFar r).g, (tFar r).f) ∧ (tFar r).memTest .A = true ∧
      (tFar r).holdsTest [(2, .s 2, 2), (1, .v 4, 1)] = true ∧ (tFar r).f.reply = r ∧ (tFar r).active Guard.always = 0xFF ∧ (tFar r).filtered = false ∧ (tFar r).b.staged = [] ∧
      ∀ l ∈ lanesOf ((tFar r).active Guard.always), (tFar r).lane64 (.s 2) 0 l = 2 ^ 50 + 2 ^ 29) ∧
    farRank (2 ^ 50 + 2 ^ 29) = 1 ∧ 1 ≤ (tFar none).s.domSize 0 ∧ (tFar none).s.lost = [] ∧ (tFar none).s.l1 = [] ∧ (tFar none).s.detBlock (tFar none).b = false ∧
    (∀ x ∈ [Use.far, .farWrite], (reach (tFar none).s 0 0 x false false (2 ^ 50 + 2 ^ 29)).toOption.isSome = true) ∧ (∀ o ∈ (tFar none).opsMine, o.accs = []) ∧ (2 ^ 50 + 2 ^ 29) % 4 = 0 := by decide +kernel

/-! The events. -/

/-- A request of rank 1. -/
def tReq (kind : FarKind) : FarReq :=
  { id := 4, rank := 1, ctx := 0, kind := kind, ordered := false, det := false, accs := [{ lane := 0, addr := 0x60000000, size := 4, val := 5 }], srank := 1, sblk := 0, depth := 0,
    key := 0 }

/-- The fragment waits for a far answer, or the host's, 1 ms late. -/
def tAwait (rank : Option Nat) (q : Option FarReq) : Await := { id := 4, f := { bid := 0, gid := 0, fid := 0 }, rank := rank, since := 0, req := q, got := none, ev := none, ext := false }

def tAwaits (a : Await) : State :=
  { (tEnv (fun s => { s with awaits := [a], gtime := 1000000 }) id id { tFrag with st := .awaiting 4 }).s with cur := none }

theorem witness_FarService :
    (∀ k ∈ [FarKind.load, .store, .red .add], tState.form = true ∧ ownRequest tState (tReq k) = false ∧ tState.watches = [] ∧ tState.hostDirty = [] ∧ (0, 1) ∉ tState.endpoints ∧
      (tState.ctx 0).present = true ∧ 1 ≤ tState.domSize 0 ∧ (tReq k).accs = [{ lane := 0, addr := 0x60000000, size := 4, val := 5 }] ∧
      (farTarget tState (tReq k) { lane := 0, addr := 0x60000000, size := 4, val := 5 }).toOption = some (2 ^ 29)) ∧
    (State.reset.ctx 0).present = false ∧ ownRequest State.reset (tReq .load) = false ∧
    let y := tAwait (some 1) (some { tReq .load with rank := 0 })
    (tAwaits y).awaits = [y] ∧ y.rank ≠ some 0 ∧ ((tAwaits y).frag? y.f).any (fun p => p.2.1.stop.isNone) = true ∧ [0] = lanesOf 1 ∧
    answerFits { tReq .load with rank := 0 } (.ok [7]) = true ∧ y.since.toNat + 1000000 ≤ (tAwaits y).gtime.toNat := by decide +kernel

/-- A descriptor of an all-reduce of four integers, and the collective. -/
def tCollD : List W32 := [0x60000000, 0x30000000, 0x60000040, 0, 4, 77, 0, 0]

def tColl (exchanged : Bool) : Coll :=
  { lid := 5, tag := 77, op := 0, type := 3, count := 4, root := 0, src := 0x60000000, dst := 0x60000040, bid := 0, gid := 0, fid := 0, opId := 0,
    exchanged := exchanged, done := false, mill := 0, fail := none }

/-- The device with it, its launch one of a domain of two. -/
def tColls (exchanged : Bool) : State :=
  { tState with blocks := [{ tBlock with launch := some 5 }], launches := [tGang 1], nextId := 6, colls := [tColl exchanged] }

theorem witness_Collectives :
    (let e := tEnv id id (withU tCollD) tFrag
     let ws := (List.range 8).map fun k => (uget e.g (0 + k)).toNat
     (Instr.coll Guard.always .A 0).wf = true ∧ Issues e.s e ∧ e.s.wf ∧ e.issueReady .A ∧ e.active Guard.always ≠ 0 ∧ e.collCheck ws = none ∧ e.s.colls = [] ∧
       cleanL1 e.s e.b.mill) ∧
    ((tColls false).coll? 5 77 = some (tColl false) ∧ (tColls false).block? 0 = some { tBlock with launch := some 5 } ∧
      (tColl false).fail = none ∧ (ownSource (tColls false) { tBlock with launch := some 5 } (tColl false)).toOption.isSome = true ∧
      collWaits (tColls false) { tBlock with launch := some 5 } (tColl false) = false ∧
      collTouches (tColls false) { tBlock with launch := some 5 } (tColl false) false 0 = [] ∧
      (tColls false).replicaRank { tBlock with launch := some 5 } < (tColls false).replicas { tBlock with launch := some 5 } ∧
      [1] = (List.range ((tColls false).replicas { tBlock with launch := some 5 })).filter (· != (tColls false).replicaRank { tBlock with launch := some 5 })) ∧
    ((tColls true).wf ∧ (tColls true).watches = [] ∧ (tColls true).hostDirty = [] ∧ (tColls true).coll? 5 77 = some (tColl true) ∧ cleanL1 (tColls true) 0 ∧
      1 + 1 = (tColls true).replicas { tBlock with launch := some 5 } ∧ (tColls true).replicaRank { tBlock with launch := some 5 } = 0 ∧
      ownSource (tColls true) { tBlock with launch := some 5 } (tColl true) = .ok [0, 0, 0, 0] ∧
      collWaits (tColls true) { tBlock with launch := some 5 } (tColl true) = false ∧
      (∀ w ∈ [false, true], collTouches (tColls true) { tBlock with launch := some 5 } (tColl true) w 4 = []) ∧
      devMap (tColls true) 0 true 0x60000040 16 = .ok (span 0x20000040 16) ∧ (span 0x20000040 16).Nodup) ∧
    2 ∉ tState.lost ∧ tState.colls = [] :=
  ⟨⟨by decide, ⟨rfl, rfl, rfl⟩, State.wf_of_form (by decide +kernel), Env.issueReady_of (by decide +kernel), by decide +kernel, by decide +kernel, rfl,
      by unfold cleanL1; decide +kernel⟩,
    by decide +kernel,
    ⟨State.wf_of_form (by decide +kernel), rfl, rfl, by decide +kernel, by unfold cleanL1; decide +kernel, by decide +kernel, by decide +kernel,
      ok_of (by decide +kernel), by decide +kernel, by decide +kernel, ok_of (by decide +kernel), by decide +kernel⟩, by decide +kernel⟩

theorem witness_RegisterWrites : tState.wf ∧ (tState.ctx 0).present = true ∧ 7 < tState.ringSize 0 3 ∧ tState.readIdx 0 3 = tState.writeIdx 0 3 ∧
    tState.launches = [] ∧ State.reset.wf ∧ (∀ p ∈ State.reset.ctxs, p.2.present = false) ∧ (∃ p ∈ tState.ctxs, p.2.present = true) :=
  ⟨State.wf_of_form (by decide +kernel), by decide +kernel, by decide +kernel, by decide +kernel, rfl, State.wf_of_form (by decide +kernel), by decide +kernel,
    (0, tCtx), .head _, rfl⟩

theorem witness_ContextsAndTables :
    bitOf State.reset.ctxcmd.toNat 63 = false ∧ bitOf ({ tState with ctxcmd := 1#64 <<< 63 } : State).ctxcmd.toNat 63 = true ∧ (tState.ctx 0).present = true ∧
    (let s : State := { tState with ctxs := [(0, { tCtx with leaving := true })] }
     (s.ctx 0).leaving = true ∧ s.blocks = [] ∧ s.launches = [] ∧ s.leats = [] ∧ s.l1 = []) ∧
    bitOf (tState.creg 0 oTLBINV) 0 = false ∧ bitOf ((tState.onCtx 0 fun c => c.setReg oTLBINV 1).creg 0 oTLBINV) 0 = true ∧ tState.ops = [] ∧ tState.awaits = [] ∧ tState.blocks = [] ∧
    (devReach tState 0 true (tState.creg 0 oKTBASE % 2 ^ 56 / 8 * 8 + 8 * (tState.creg 0 oKRIDX % 2 ^ 16))).toOption = some 0x5000 := by decide +kernel

/-- A launch at the head of queue 3, of a packet's first word, in a phase, with its kernel. -/
def tLaunch (w : W64) (phase : Phase) (k : Option Kernel) (next nrank : Nat) : Launch :=
  { tGang nrank with packet := [w, 0, 0, 0, 0x60000100, 1, 0, 3], phase := phase, kernel := k, next := next, domSent := false }

/-- The kernel the table's entry 0 names. -/
def tBound : Kernel :=
  { image := 0x6000, index := 0, width := 8, roles := [{ entry := 128, groups := 1, base := 128 }], ext := 0, maps := 0, scratch := 0, priv := 0, checked := false,
    det := false, scout := false }

/-- The device with the launch at the head of its queue. -/
def tHead (l : Launch) : State :=
  { tState with ctxs := [(0, { tCtx with queues := tCtx.queues.set 3 { Queue.reset with head := some 5, arrivals := [{ rank := 1, gen := 3, time := 9 }] } })]
                launches := [l], nextId := 6, gtime := 1000000 }

/-- A ring of queue 3 with one packet of a first byte. -/
def tRing (op : Byte) : State :=
  { tState with ctxs := [(0, tCtx.setReg (oDB 3) 1)], mem := (if op = 0 then [] else [(0, op)]) ++ tMem }

theorem witness_PacketHeads :
    (∀ op ∈ [(0 : Byte), 1, 2], (tRing op).form = true ∧ ((tRing op).ctx 0).present = true ∧ ((tRing op).ctx 0).leaving = false ∧ 3 < ((tRing op).ctx 0).queues.length ∧
      (tRing op).fullAt = [] ∧ (((tRing op).ctx 0).queue 3).frozen = none ∧ (((tRing op).ctx 0).queue 3).head = none ∧ (((tRing op).ctx 0).queue 3).replicas = [] ∧
      (tRing op).readIdx 0 3 ≠ (tRing op).writeIdx 0 3 ∧ (devGet (tRing op) 0 false ((tRing op).ringSlot 0 3 ((tRing op).readIdx 0 3)) 64).toOption = some 0 ∧
      packetBad (packetNat ((List.range 8).map fun i => BitVec.ofNat 64 ((tRing op).rdNat (8 * i) 8))) = if op = 2 then some 0 else none) ∧
    (let l := tLaunch 1 .waiting none 0 0
     (tHead l).form = true ∧ headLaunch (tHead l) 0 3 = some l ∧ (bindKernel (tHead l) 0 l.kindex).toOption = some tBound ∧ (l.packet.getD 2 0).toNat % 2 ^ 56 = 0) ∧
    bitOf (([0x401, 0, 0, 0, 0, 0, 0, 0] : List W64).getD 0 0).toNat 10 = true ∧ replicaCount tState 0 < 16 := by decide +kernel

/-- Where the tests place a block, and how the device stands after a gang of one block has been placed. -/
def tPlace : Placement := { mill := 0, pos := [0], priv := 0, save := 0x20000, stage := 0 }

theorem witness_Dispatch :
    (∀ p ∈ [(tLaunch 0x100000001 .met (some tBound) 0 0, 0), (tLaunch 0x100000001 .dispatching (some tBound) 1 0, 1)],
      (tHead p.1).form = true ∧ headLaunch (tHead p.1) 0 3 = some p.1 ∧ p.1.gang = false ∧ launchReady (tHead p.1) p.1 = true ∧ p.1.next = p.2 ∧
      (bindKernel (tHead p.1) 0 p.1.kindex).toOption = some tBound ∧ queueTurn (tHead p.1) 0 3 = true ∧ firstDie (tHead p.1) tBound tPlace = true ∧
      placeable (tHead p.1) 0 tBound (planGroups tBound none) (launchDet p.1 tBound) tPlace = true ∧
      ∀ m ∈ (tHead p.1).launches, m.id = 5 ∧ partRestored (tHead p.1) m = false) ∧
    (let l := tLaunch 0x201 .met (some tBound) 0 0
     headLaunch (tHead l) 0 3 = some l ∧ l.gang = true ∧ launchReady (tHead l) l = true ∧ l.next = 0 ∧ (bindKernel (tHead l) 0 l.kindex).toOption = some tBound ∧
       [tPlace].length = l.blocks ∧ queueTurn (tHead l) 0 3 = true ∧ (∀ m ∈ (tHead l).launches, m.id = 5 ∧ partRestored (tHead l) m = false) ∧
       (placeGang tBound [tPlace] 5 ((tHead l).onLaunch 5 fun l => { l with kernel := some tBound })).isSome = true) ∧
    (let s : State := { tState with ctxs := [(0, { tCtx with trig := [tRec] })] }
     s.form = true ∧ headRecord s 0 = some tRec ∧ (bindKernel s 0 tRec.kernel).toOption = some tBound ∧ tBound.width = 8 ∧ tBound.roles ≠ [] ∧
       dieOf tPlace.mill = tRec.die ∧ placeable s 0 tBound (planGroups tBound (some tRec.sectors.length)) false tPlace = true ∧ s.launches = []) := by
  decide +kernel

/-- The device with a block changed. -/
def tBlocks (fb : Block → Block) : State := { tState with blocks := [fb tBlock] }

theorem witness_EndsOfWork :
    (let f := fun b : Block => { b with groups := [{ tGroup with frags := [], ended := true }] }
     (tBlocks f).form = true ∧ (tBlocks f).block? 0 = some (f tBlock) ∧ blockOver (tBlocks f) (f tBlock) = true ∧ (f tBlock).resident = true ∧
       (tBlocks f).detBlock (f tBlock) = false ∧ (tBlocks f).l1 = []) ∧
    (let l := tLaunch 1 .dispatched (some tBound) 1 0
     (tHead l).form = true ∧ (tHead l).watches = [] ∧ (tHead l).launch? 5 = some l ∧ (tHead l).blocks = [] ∧ l.dropped = false ∧
       l.adopted = false ∧ l.killed = false ∧ (tHead l).hostDirty = [] ∧ l.phase = .dispatched ∧
       (l.packet.getD 4 0).toNat % 2 ^ 56 = 0x60000100 ∧ (devGet (tHead l) 0 true 0x60000100 8).toOption = some 0x20000100) ∧
    (let y : ImageUse := { image := 0x7000, counter := 0x60000200 }
     let s : State := { tState with ctxs := [(0, { tCtx with images := [y] })] }
     s.form = true ∧ s.watches = [] ∧ s.hostDirty = [] ∧ (s.ctx 0).images.find? (·.image == 0x7000) = some y ∧ imageIdle s 0 0x7000 = true ∧
       (devGet s 0 true y.counter.toNat 8).toOption = some 0x20000200) := by decide +kernel

theorem witness_StartBarriers :
    (∀ p ∈ [Phase.met, .starting 20000, .arrived], domainHead (tHead (tLaunch 0x401 p none 0 1)) 0 3 = some (tLaunch 0x401 p none 0 1) ∧
      (tHead (tLaunch 0x401 p none 0 1)).form = true) ∧
    (tLaunch 0x401 .met none 0 1).gang = false ∧ (((tHead (tLaunch 0x401 .met none 0 1)).ctx 0).queue 3).frozen = none ∧ (20000 : W64).toNat ≤ (tHead (tLaunch 0x401 .met none 0 1)).gtime.toNat ∧
    3 < ((tHead (tLaunch 0x401 .arrived none 0 1)).ctx 0).queues.length ∧ (tLaunch 0x401 .arrived none 0 1).others = [1] ∧
    (((tHead (tLaunch 0x401 .arrived none 0 1)).ctx 0).queue 3).arrivals.find? (·.rank == 1) = some { rank := 1, gen := 3, time := 9 } ∧
    (tLaunch 0x401 .arrived none 0 1).arrTime.toNat + 1000000 ≤ (tHead (tLaunch 0x401 .arrived none 0 1)).gtime.toNat ∧
    (tLaunch 0x401 .arrived none 0 1).acks = [] ∧ (tLaunch 0x401 .arrived none 0 1).ctx = 0 ∧ (tLaunch 0x401 .arrived none 0 1).queue = 3 ∧
    domainHead tState 0 3 = none ∧ 1 ≠ tState.rankOf 0 ∧ 1 ≤ tState.domSize 0 ∧
    (let l := { tGang 1 with domSent := true }
     let s : State := { tState with launches := [l], gtime := 1000000, blocks := [{ tBlock with launch := some 5, groups := [{ tGroup with frags := [{ tFrag with st := .inDbar true 8 }] }] }] }
     s.launch? 5 = some l ∧ l.others = [1] ∧ l.domAcks = [] ∧ l.domSince.toNat + 1000000 ≤ s.gtime.toNat ∧ ((s.group? 0 0).bind fun p => dbarFrag p.2).isSome = true) := by decide +kernel

/-- No error stands: the image can be read back. -/
theorem imageBroken_clean (s : State) (b : Block) (he : s.errs = []) (hp : s.poison = []) : imageBroken s b = false := by
  simp [imageBroken, poisoned, he, hp]

/-- A block that is saved, and the device with its image in the save area. -/
def tAway : Block :=
  let k : Kernel := { tKernel with scratch := 0, ext := 0, maps := 0, roles := [{ entry := 128, groups := 1, base := 8 }] }
  { tBlock with kernel := k, resident := false, save := 0x20000, slots := [], exts := [], groups := [{ tGroup with base := 8, xowner := (List.range 8).map fun l => (l, 0) }] }

def tKept : State := { tState with
  mem := [(131076, 3), (131091, 96), (131113, 128), (131200, 3), (131201, 8), (131202, 1), (131212, 64), (131224, 128), (131228, 1), (131229, 8),
    (131888, 49), (131904, 255), (131912, 255)]
  blocks := [tAway] }

theorem witness_Preemption :
    (let s : State := { tState with slper := 0x100001, blocks := [tBlock] }
     slicing s = true ∧ slicesBegun s.gtime s.slt0 s.slper = 0 + 1 ∧ s.slBegun ≤ 0 ∧ s.slNext = none) ∧
    (let f := fun b : Block => { b with saving := true }
     (tBlocks f).form = true ∧ (tBlocks f).watches = [] ∧ (tBlocks f).block? 0 = some (f tBlock) ∧ (f tBlock).resident = true ∧ (f tBlock).ended = false ∧
       (∀ g ∈ (f tBlock).groups, groupSavable (tBlocks f) (f tBlock) g = true) ∧ (tBlocks f).leats = [] ∧ (tBlocks f).l1 = []) ∧
    (tKept.form = true ∧ tKept.block? 0 = some tAway ∧ tAway.saved = true ∧ tAway.stuck = false ∧ ctxOpen tKept 0 = true ∧ ownsSlice tKept 0 = true ∧
       restoreCode tKept tAway = none ∧ imageKept tKept tAway = true ∧ restorable tKept tAway tPlace = true ∧ gangFits (restoreBlock tKept tAway tPlace) tAway = true ∧
       tKept.launches = []) := by
  refine ⟨by decide +kernel, by decide +kernel, by decide +kernel, by decide +kernel, by decide, rfl, by decide +kernel, by decide +kernel, ?_, by decide +kernel,
    by decide +kernel, rfl, rfl⟩
  unfold restoreCode
  rw [imageBroken_clean _ _ rfl rfl]
  decide +kernel

/-- A staged store of two bytes. -/
def tStaged : StagedOp := { seq := 0, leat := false, gid := 0, fid := 0, pc := 0, word := 0, lanes := 1, off := 0, size := 2, body := .access [{ space := .global, lanes := 1, body := .store [(64, 1), (65, 2)] }] [] }

theorem witness_StagedRelease :
    let b : Block := { tBlock with launch := some 5, staged := [tStaged] }
    let s : State := { tState with launches := [tLaunch 0x801 .dispatched (some tBound) 1 0], blocks := [b] }
    s.form = true ∧ s.watches = [] ∧ s.errs = [] ∧ s.hostDirty = [] ∧ s.hostFails = none ∧ tStaged.leat = false ∧
    s.launch? 5 = some (tLaunch 0x801 .dispatched (some tBound) 1 0) ∧ (tLaunch 0x801 .dispatched (some tBound) 1 0).relStop = none ∧
    releaser s (tLaunch 0x801 .dispatched (some tBound) 1 0) = some b ∧ s.block? 0 = some b ∧ stagedOrder b = [tStaged] := by decide +kernel

/-- What a group stops for. -/
def tStop (cause : Nat) : Stop :=
  { fid := 0, pc := 0, next := 8, word := 0, ev := { cause := cause, code := 0, detail := 0, operand := 0, slot := 0, lanes := 1, addr := 0, pages := [] }, time := 0, cycle := 0 }

/-- A handler run that is over. -/
def tHandler (cause : Nat) : HandlerRun :=
  { stop := tStop cause, rcd := List.replicate 16 0, seq := 0, image := 0x10000, kimg := 0x6080, base := 8, frags := [tFrag], toks := [], filter := [] }

/-- The group with 8 registers. -/
def tSmall : Group := { tGroup with base := 8 }

/-- The block with that group changed. -/
def tGroups (fg : Group → Group) : State := tBlocks fun b => { b with groups := [fg tSmall] }

theorem witness_TrapsTakenAndLeft :
    tSmall.form = true ∧ tBlock.kernel.width ≤ 64 ∧ (tHandler 1).base = tSmall.base ∧ (List.replicate 16 (0 : W64)).length = 16 ∧
    (let s := tGroups fun g => { g with stop := some (tStop 0x01) }
     let g := { tSmall with stop := some (tStop 0x01) }
     let b := { tBlock with groups := [g] }
     s.form = true ∧ s.group? 0 0 = some (b, g) ∧ classOf 0x01 = 0 ∧ groupDrained s 0 g = true ∧ stopFresh s 0 0 (tStop 0x01) = false ∧
       b.saving = false ∧ s.hostDirty = [] ∧ trapCase s b g (some 0x10000) = none ∧
       arenaFits s 0 0x10000 (imgSize b.width g.base) = true ∧ (devMap s 0 true 0x10000 (imgSize b.width g.base)).toOption = some (span 0x10000 (imgSize 8 8))) ∧
    (let g := { tSmall with frags := [], handler := some (tHandler 0x05) }
     let b := { tBlock with groups := [g] }
     let s := tBlocks fun _ => b
     s.form = true ∧ s.group? 0 0 = some (b, g) ∧ handlerOver s 0 g = true ∧ s.l1 = [] ∧ s.launchOf b = none ∧ b.saving = false ∧ b.staged = [] ∧
       (tHandler 0x05).frags ≠ [] ∧ s.ops = [] ∧
       ((devMapGet s 0 0x10000 (imgSize b.width 8)).toOption.any fun pas => leNat (((pas.map s.rd).drop 0x80).take 8) == 0) = true) := by decide +kernel

theorem witness_TrapsTakenAndLeft_span : (span 0x10000 (imgSize 8 8)).Nodup := by
  unfold span
  exact List.Pairwise.map _ (fun a b h => by omega) List.nodup_range

/-- The device with a group frozen by a fault at its next slot, which a master names. -/
def tFrozen : Group := { tGroup with frozen := some { stop := tStop 0x21, seq := 3, rcd := [], image := none } }

def tIce : State := { tState with blocks := [{ tBlock with groups := [tFrozen] }], ctxs := [(0, { tCtx with masters := [(3, .group 0 0)] })] }

theorem witness_FaultsAndCommands :
    (let g := { tGroup with stop := some (tStop 0x21) }
     let b := { tBlock with groups := [g], launch := some 5 }
     let s : State := { tState with blocks := [b], launches := [tLaunch 1 .dispatched (some tBound) 1 0], nextId := 6 }
     s.form = true ∧ s.group? 0 0 = some (b, g) ∧ classOf 0x21 = 1 ∧ groupDrained s 0 g = true ∧ stopFresh s 0 0 (tStop 0x21) = false ∧ recordWaits s b g (tStop 0x21) = false ∧ imageChoice s b g (some 0x10000) = true ∧ b.trig = none ∧
       s.launchOf b = some (tLaunch 1 .dispatched (some tBound) 1 0) ∧ 3 < (s.ctx 0).queues.length) ∧
    tIce.form = true ∧ tIce.ops = [] ∧ (tIce.ctx 0).present = true ∧ tIce.launches = [] ∧ fcmdTarget tIce 0 4 = none ∧ fcmdTarget tIce 0 3 = some (.group 0 0) ∧
    tIce.group? 0 0 = some ({ tBlock with groups := [tFrozen] }, tFrozen) ∧ tFrozen.handler = none ∧ tFrozen.frag? 0 = some tFrag ∧ tFrag.pc = (tStop 0x21).pc := by
  decide +kernel

theorem witness_HostTransactions :
    tState.form = true ∧ tState.ports = [] ∧ tState.watches = [] ∧ tState.poison = [] ∧ tState.hostDirty = [] ∧ inHbm (64 * 5) = true ∧
    poisoned { tState with poison := [poisonUnit 320 8] } (64 * 5 + 7) = true ∧ ([(0, 1), (63, 2)] : List (Nat × Byte)).map (·.1) = [0, 63] ∧
    (0x140 : W64).toNat % atomBytes .b64 = 0 ∧ inRegs (BitVec.ofNat 64 (regBase + 0x100) : W64).toNat = true ∧
    (let n := hbmTop / 64
     64 * n < 2 ^ 56 ∧ inHbm (64 * n) = false ∧ inRegs (64 * n) = false ∧ inHost (64 * n) = false) ∧
    (let y := tAwait none none
     (tAwaits y).awaits = [y] ∧ ((tAwaits y).frag? y.f).any (fun p => p.2.1.stop.isNone) = true ∧ y.since.toNat + 1000000 ≤ (tAwaits y).gtime.toNat) ∧
    (let y := { tAwait none none with ev := some (tStop 0x28).ev }
     let s : State := { tAwaits y with blocks := [{ tBlock with groups := [{ tGroup with stop := some (tStop 0x01), frags := [{ tFrag with st := .awaiting 4 }] }] }] }
     s.awaits = [y] ∧ (s.frag? y.f).any (fun p => p.2.1.stop == some (tStop 0x01)) = true ∧ classOf 0x01 = 0 ∧ classOf (tStop 0x28).ev.cause ≠ 0) := by decide +kernel

theorem witness_ResetsAndLimits :
    State.reset.waiting = none ∧ (0 ∈ ({ State.reset with stopped := [0] } : State).stopped) ∧ Coolant.flow ∈ ({ State.reset with coolSlow := [.flow] } : State).coolSlow ∧
    2 < State.reset.meas.length ∧ ({ State.reset with window := 1 } : State).window ≠ State.reset.gtime.toNat / (fld State.reset.rasth.toNat 32 16 * 1000000) :=
  ⟨rfl, by decide, by decide, by simp only [State.reset, bringUpMeas, List.length_cons, List.length_nil]; omega, by decide +kernel⟩

/-- A fragment between clauses, its mill's instruction cache holding its line or not; a flag may count. -/
def tEntry (cached : List ILine) (flag : Nat) : State :=
  { (tEnv (fun s => { s with icache := cached }) (fun b => { b with kernel := { b.kernel with scout := true } })
      (fun g => { g with flags := if flag = 0 then [] else [(0, flag)] }) { tFrag with line := none, pc := 0x60000000 }).s with cur := none }

theorem witness_ClausesAndCaches :
    (let r : FragRef := { bid := 0, gid := 0, fid := 0 }
     let words := 0x700001 :: List.replicate 7 (0 : W64)
     let s := tEntry [{ mill := 0, stone := none, line := 2 ^ 23, words := words }] 0
     (entering s r).isSome = true ∧ noSlot 0x60000000 = false ∧
       (reach s 0 0 .fetch false false ((lineAddr 0x60000000).toNat % 2 ^ 56)).toOption.map (·.pa) = some (2 ^ 29) ∧
       (iFind s 0 0 (lineOf (2 ^ 29))).map (·.words) = some words ∧ headerRefuses 0x700001 0x60000000 = false ∧ bitOf (0x700001 : W64).toNat 0 = true ∧
       (s.group? 0 0).all (fun p => p.2.flag 0 == 0) = true ∧
       (entering (tEntry [] 0) r).isSome = true ∧ (tEntry [] 0).poison = [] ∧ codeRoom (tEntry [] 0) 0 none (lineOf (2 ^ 29)) = true ∧ lineTorn (tEntry [] 0) (lineOf (2 ^ 29)) = false ∧ (tEntry [] 0).ops = [] ∧ headerRefuses ((List.range 8).map fun i => BitVec.ofNat 64 ((tEntry [] 0).rdNat (64 * lineOf (2 ^ 29) + 8 * i) 8)).head! 0x60000000 = true) ∧
    (let s : State := { t0.s with cur := none, cycle := 256 }
     (s.frag? { bid := 0, gid := 0, fid := 0 }).any (fun p => groupRuns s p.1 p.2.1 && p.2.2.st == .running && p.2.2.line.isSome && decide (p.2.2.last + 256 ≤ s.cycle) &&
       !p.2.2.starved) = true) ∧
    (let words := 0x700001 :: (encode (.ld Guard.always .A .w32 .group (.v 4) (.v 2) 0)).headD 0 :: List.replicate 6 (0 : W64)
     let s : State := { tEntry [{ mill := 0, stone := none, line := 2 ^ 23, words := words }] 1 with ops := [tOp [tLoad] .plain] }
     (entering s { bid := 0, gid := 0, fid := 0 }).any (fun p => p.1.kernel.scout && p.2.1.handler.isNone && scoutWaits s p.1 p.2.1 p.2.2 &&
       scoutReaches 3 { bid := 0, gid := 0, fid := 0 } scoutReach (scoutStart s { bid := 0, gid := 0, fid := 0 }) p.2.2.pc) = true) ∧
    (tState.ctx 0).present = true ∧ (tState.ctx 0).leaving = false ∧ (walk tState 0 0x60000000).toOption.isSome = true ∧ tState.tlb.length < 16384 ∧
    (l1Find t4.s 0 1).any (fun x => x.mates.isEmpty) = true ∧ t4.s.hostDirty = [] ∧
    (rdcFind { tState with rdc := [{ die := 0, line := 1, cells := [] }] } 0 1).isSome = true ∧
    (let s : State := { tState with stamps := [(5, 0x0100000000000008)] }
     s.form = true ∧ sget 0 s.stamps 5 ≠ 0 ∧ (sget 0 s.stamps 5).extractLsb' 56 8 ≠ s.epoch) := by decide +kernel

theorem witness_RacesDetected :
    (∀ k ∈ [Touch.read, .write, .atomic], (stampCheck (stampOf 0 0) 1 0xF k).toOption.isSome = true) ∧ (stampOf 0 0).wb < 2 ^ 20 ∧ (stampOf 0 0).rb < 2 ^ 20 ∧
    (∀ w ∈ [true, false], (tagStep 0 31 w).isSome = true) := by decide +kernel

theorem witness_EncodingsAgree : (Instr.ld Guard.always .B .b128 .system (.v 124) (.s 62) (-2048)).wf = true ∧
    (Instr.ld Guard.always .B .b128 .system (.v 124) (.s 62) (-2048)).isEvent = false ∧ (Instr.mov Guard.always .n32 (.v 0) (.lit 0x3F800000)).wf = true := by decide

/-- `NOP` placed, in its clause. -/
def tNop : State := State.reset.withFetchWord 64 0xF00

theorem witness_StepKeepsMemory : Memory.wf tNop.mem ∧ (match step tNop with | .next _ => true | _ => false) = true := by decide +kernel

theorem witness_StepKeepsForm : tNop.kept :=
  ⟨State.wf_of_form (by decide +kernel), by unfold L1Kept; decide +kernel, by decide +kernel, by unfold Group.kept Group.named; decide +kernel, by decide +kernel, by decide +kernel⟩

/-- A `FENCE` in its clause while a load of its group is in flight. -/
def tFence : State :=
  { (tEnv (fun s => { s with ops := [tOp [tLoad] .plain] }) id id { tFrag with line := some { va := 0, words := [0x100000, (encode (.fence .device)).headD 0, 0, 0, 0, 0, 0, 0] } }).s with
    cur := none, agenda := [.issue { bid := 0, gid := 0, fid := 0 }] }

/-- The premises of the statement on a step, with what the instruction comes to: it issues, or it waits. -/
def issuesNext (s : State) (i : Instr) (waits : Bool) : Bool :=
  match s.agenda with
  | [.issue r] => (s.frag? r).any fun p => p.2.2.line.any fun l =>
      let s1 : State := { s with agenda := [] }
      s.errs.isEmpty && s.heldStep.isNone && !mapTaken s1 p.1 p.2.1 (instrOf p.1 p.2.1 (issOf r p.2.2 l)) && groupRuns s1 p.1 p.2.1 && retries p.2.2.st && !s.stopped.contains (dieOf p.1.mill) && mayIssue s1 p.1 p.2.1 r p.2.2 (issueMark p.1 p.2.1 p.2.2 (issOf r p.2.2 l)) &&
        decodeSlot (slotsOf p.1 p.2.1) (issOf r p.2.2 l).word (issOf r p.2.2 l).lit == i &&
        (match exec i { s1 with cur := some (issOf r p.2.2 l) } with | .next t => t.cur.isSome == waits && !stillBlocked p.2.2 t r | _ => false)
  | _ => false

theorem witness_StepRunsDecoded : tNop.powered = true ∧ issuesNext tNop .nop false = true ∧ tFence.powered = true ∧ issuesNext tFence (.fence .device) true = true ∧
    decodeTableWord 64 0xF00 = some .nop := by decide +kernel

/-! ### Single steps and values, expected from the manual's worked examples -/

/-- The vector register of an instruction's group after it, lane by lane. -/
def outV (i : Instr) (e : Env) (n : Nat) : List W32 :=
  match exec i e.s with
  | .next t => match t.frag? e.i.f with
    | some (b, g, _) => (List.range 8).map fun l => rget b g l (.v n)
    | none => []
  | _ => []

/-- A vector register written in the lanes. -/
def withV (n : Nat) (xs : List W32) (g : Group) : Group :=
  { g with v := ssetAll 0 g.v ((List.range xs.length).map fun l => (128 * l + n, xs.getD l 0)) }

/-- `LANEX.flip v2, v1, #4` with lane 7 inactive (the example of `LANEX`). -/
theorem test_lanex_flip : outV (.lanex Guard.always .flip false (.v 2) (.v 1) (.imm 4)) (tEnv id id (withV 1 [10, 11, 12, 13, 14, 15, 16, 17]) { tFrag with exm := 0x7F }) 2 =
    [14, 15, 16, 13, 10, 11, 12, 0] := by decide +kernel

/-- `LANEX.rot v3, v1, #1` (the same example). -/
theorem test_lanex_rot : outV (.lanex Guard.always .rot false (.v 3) (.v 1) (.imm 1)) (tEnv id id (withV 1 [10, 11, 12, 13, 14, 15, 16, 17]) { tFrag with exm := 0x7F }) 3 =
    [11, 12, 13, 14, 15, 16, 16, 0] := by decide +kernel

/-- `FADD.rn v4, v0, msum(v8)` over 2^24, 1, −2^24, 2^−50, 3 ("One chunk, exact where sequential sums are not"). -/
theorem test_msum : outV (.fadd Guard.always false .rn (.v 4) (.reg (.v 0)) (.map 15 8))
    (tEnv id id (withV 8 [0x4B800000, 0x3F800000, 0xCB800000, 0x26800000, 0x40400000, 0, 0, 0]) tFrag) 4 = List.replicate 8 0x40800000 := by decide +kernel

/-- The same with lane 1 inactive. -/
theorem test_msum_inactive : outV (.fadd Guard.always false .rn (.v 4) (.reg (.v 0)) (.map 15 8))
    (tEnv id id (withV 8 [0x4B800000, 0x3F800000, 0xCB800000, 0x26800000, 0x40400000, 0, 0, 0]) { tFrag with exm := 0xFD }) 4 =
    [0x40400000, 0, 0x40400000, 0x40400000, 0x40400000, 0x40400000, 0x40400000, 0x40400000] := by decide +kernel

/-- `FEXP2` of 0.75 (R246's example). -/
theorem test_fexp2 : outV (.fexp2 Guard.always false (.v 2) (.reg (.v 1))) (tEnv id id (withV 1 [0x3F400000]) { tFrag with exm := 1 }) 2 =
    [0x3FD744FD, 0, 0, 0, 0, 0, 0, 0] := by decide +kernel

/-- "One combined add": what lanes 0, 2, 5 and 7 receive at X, and X. -/
theorem test_atomic_add : atomServe .add .b32 100 [(3, 0), (5, 0), (7, 0), (1, 0)] = ([100, 103, 108, 115], 116) := by decide +kernel

/-- Its variation: `.fadd` of 2^24, 1, 1, 1 to +0. -/
theorem test_atomic_fadd : atomServe .fadd .b32 0 [(0x4B800000, 0), (0x3F800000, 0), (0x3F800000, 0), (0x3F800000, 0)] =
    ([0, 0x4B800000, 0x4B800000, 0x4B800000], 0x4B800001) := by decide +kernel

/-- The elements of the quantisation example in E4M3: 320, 20 and −0.625, from 5.0, 0.3 and −0.01 times 2^6. -/
theorem test_qnt_elements : ([0x43A00000, 0x4199999A, 0xBF23D70A].map fun x => e4m3.round .rn 0 (f32.decode x)) = [0x7A, 0x5A, 0xB2] := by decide +kernel

/-- A branch taken by lanes 0 to 4 of 8: the larger set stays, the other is fragment 1 at the next slot (R31). -/
theorem test_branch_splits : (match exec (.bra { idx := 0, neg := false } 3)
      (tEnv id id (fun g => { g with p := ssetAll 0 [] ((List.range 5).map fun l => (l, 1)) }) tFrag).s with
    | .next t => (t.group? 0 0).map fun p => p.2.frags.map fun f => (f.fid, f.pc, f.held, f.exm)
    | _ => none) = some [(0, 24, 0x1F, 0x1F), (1, 8, 0xE0, 0xE0)] := by decide +kernel

/-- "Two width-8 groups, two rounds": owners and values of the iterations 4, 12, 16 and 21, and none at 22. -/
theorem test_expand : (let x : Expansion := { tExp with n := 2, len := [(0, 3), (2, 5), (3, 1), (6, 2), (7, 1), (64, 10)], start := [(2, 40), (64, 7)] }
    [4, 12, 16, 21, 22].map fun t => (x.ownerOf t, x.valueOf t)) = [(some 2, 41), (some 64, 7), (some 64, 11), (some 64, 16), (none, 0)] := by decide +kernel

/-- R171's example: +∞, then −∞, then a NaN. -/
theorem test_gsum_nan : ([0xFF800000, 0x7FC12345].foldl (fun a x => f32.add .rn 0 a x) 0x7F800000) = 0x7FC00000 := by decide +kernel

end Sys2Proof.Tests
end

/-! ### Bits of numbers and of words -/

section

namespace Sys2Proof.Machine

@[simp] theorem tyBits_eq_width (t : IntTy) : tyBits t = t.width := by cases t <;> rfl

@[simp] theorem tySigned_eq_signed (t : IntTy) : tySigned t = t.signed := by cases t <;> rfl

theorem tyWidth_pos (t : IntTy) : 0 < t.width := by cases t <;> decide

theorem tyWidth_le (t : IntTy) : t.width ≤ 64 := by cases t <;> decide

theorem bitOf_eq_testBit (x i : Nat) : bitOf x i = x.testBit i := by
  rw [bitOf, Nat.testBit_eq_decide_div_mod_eq]; rfl

theorem bitOf_toNat (x : W64) (i : Nat) : bitOf x.toNat i = x.getLsbD i := by
  rw [bitOf_eq_testBit, BitVec.testBit_toNat]

theorem testBit_fld (x lo n j : Nat) : (fld x lo n).testBit j = (decide (j < n) && x.testBit (lo + j)) := by
  rw [fld, Nat.testBit_mod_two_pow, Nat.testBit_div_two_pow, Nat.add_comm]

@[simp] theorem toNat_lo32 (x : W64) : (lo32 x).toNat = x.toNat % 2 ^ 32 := by simp [lo32]

@[simp] theorem getLsbD_lo32 (x : W64) (j : Nat) : (lo32 x).getLsbD j = (decide (j < 32) && x.getLsbD j) := by simp [lo32]

@[simp] theorem lo32_setWidth (x : W32) : lo32 (x.setWidth 64) = x := by
  apply BitVec.eq_of_toNat_eq; simp; omega

@[simp] theorem lo32_ofNat (n : Nat) : lo32 (BitVec.ofNat 64 n) = BitVec.ofNat 32 n := by
  apply BitVec.eq_of_toNat_eq; simp

theorem toNat_pair64 (lo hi : W32) : (pair64 lo hi).toNat = hi.toNat * 2 ^ 32 + lo.toNat := by
  rw [pair64, BitVec.toNat_append, Nat.shiftLeft_eq, Nat.mul_comm, ← Nat.two_pow_add_eq_or_of_lt lo.isLt]

/-! ### Numbers from their digits -/

/-- A number given by digits of `w` bits each: bit `j` is that of digit `j / w`. -/
theorem testBit_sum_digits {w : Nat} (hw : 0 < w) {d : Nat → Nat} (hd : ∀ i, d i < 2 ^ w) (n j : Nat) :
    ((List.range n).foldl (fun x i => x + d i * 2 ^ (w * i)) 0).testBit j = (decide (j < w * n) && (d (j / w)).testBit (j % w)) := by
  have key : ∀ n, (List.range n).foldl (fun x i => x + d i * 2 ^ (w * i)) 0 < 2 ^ (w * n) ∧
      ((List.range n).foldl (fun x i => x + d i * 2 ^ (w * i)) 0).testBit j = (decide (j < w * n) && (d (j / w)).testBit (j % w)) := by
    intro n
    induction n with
    | zero => simp
    | succ n ih =>
      obtain ⟨lt, bits⟩ := ih
      rw [List.range_succ, List.foldl_append, List.foldl_cons, List.foldl_nil]
      generalize (List.range n).foldl (fun x i => x + d i * 2 ^ (w * i)) 0 = a at lt bits
      constructor
      · rw [Nat.mul_succ, Nat.pow_add]
        nlinarith [hd n]
      · rw [Nat.add_comm, Nat.mul_comm, Nat.testBit_two_pow_mul_add _ lt, bits, Nat.mul_succ]
        by_cases low : j < w * n
        · simp [low, show j < w * n + w by omega]
        · by_cases here : j < w * n + w
          · have hj : j = w * n + (j - w * n) := by omega
            have q : j / w = n := Nat.div_eq_of_lt_le (by nlinarith) (by nlinarith)
            have r : j % w = j - w * n := by rw [hj, Nat.mul_add_mod, Nat.mod_eq_of_lt (by omega)]; omega
            simp [low, here, q, r]
          · have big : d n < 2 ^ (j - w * n) := (hd n).trans_le (Nat.pow_le_pow_right (by omega) (by omega))
            simp [low, here, Nat.testBit_lt_two_pow big]
  exact (key n).2

/-- A number given bit by bit. -/
theorem testBit_sum_bits (f : Nat → Bool) (n j : Nat) :
    ((List.range n).foldl (fun x i => x + if f i then 2 ^ i else 0) 0).testBit j = (decide (j < n) && f j) := by
  have := testBit_sum_digits (w := 1) (d := fun i => (f i).toNat) (by omega) (fun i => by cases f i <;> decide) n j
  cases h : f j <;> simpa [Bool.toNat, Bool.cond_eq_ite, ite_mul, Nat.mod_one, h] using this

theorem getLsbD_bitsWord (f : Nat → Bool) (j : Nat) : (bitsWord f).getLsbD j = (decide (j < 32) && f j) := by
  rw [bitsWord, BitVec.getLsbD_ofNat, testBit_sum_bits]; simp

theorem testBit_fieldInto (n a c pos len j : Nat) : (fieldInto n a c pos len).testBit j =
    (decide (j < n) && if pos ≤ j ∧ j < pos + len then a.testBit (j - pos) else c.testBit j) := by
  rw [fieldInto, testBit_sum_bits]; simp [bitOf_eq_testBit]

theorem testBit_revBits (n x j : Nat) : (revBits n x).testBit j = (decide (j < n) && x.testBit (n - 1 - j)) := by
  rw [revBits, testBit_sum_bits]; simp [bitOf_eq_testBit]

/-! ### The bits of an integer -/

/-- Bit `i` of an integer in two's complement of any width. -/
def intBit (z : Int) (i : Nat) : Bool := decide (z / ((2 ^ i : Nat) : Int) % 2 = 1)

theorem intBit_natCast (n i : Nat) : intBit (n : Int) i = n.testBit i := by
  rw [intBit, Nat.testBit_eq_decide_div_mod_eq]; congr 1; push_cast; norm_cast

/-- Integers that agree modulo 2^n agree in their low n bits. -/
theorem intBit_congr {n : Nat} {x y : Int} (h : ((2 ^ n : Nat) : Int) ∣ x - y) {i : Nat} (hi : i < n) : intBit x i = intBit y i := by
  obtain ⟨k, hk⟩ := h
  have split : ((2 ^ n : Nat) : Int) = ((2 ^ i : Nat) : Int) * (2 * ((2 ^ (n - i - 1) : Nat) : Int)) := by
    have : n = i + (1 + (n - i - 1)) := by omega
    conv_lhs => rw [this, Nat.pow_add, Nat.pow_add]
    push_cast; ring
  have pos : ((2 ^ i : Nat) : Int) ≠ 0 := by positivity
  have : x = y + ((2 ^ i : Nat) : Int) * (2 * (((2 ^ (n - i - 1) : Nat) : Int) * k)) := by rw [split] at hk; linarith
  unfold intBit
  rw [this, Int.add_mul_ediv_left _ _ pos, Int.add_mul_emod_self_left]

/-- A shift right moves bits down. -/
theorem intBit_div (z : Int) (k i : Nat) : intBit (z / ((2 ^ k : Nat) : Int)) i = intBit z (k + i) := by
  unfold intBit
  rw [Int.ediv_ediv_of_nonneg (by positivity)]; congr 4; rw [Nat.pow_add]; push_cast; rfl

theorem intBit_mod (z : Int) {m i : Nat} (h : i < m) : intBit (z % ((2 ^ m : Nat) : Int)) i = intBit z i :=
  (intBit_congr Int.dvd_self_sub_emod h).symm

theorem getLsbD_w64 (z : Int) {i : Nat} (h : i < 64) : (w64 z).getLsbD i = intBit z i := by
  have : (((w64 z).toNat : Nat) : Int) = z % ((2 ^ 64 : Nat) : Int) := by rw [w64, BitVec.toNat_ofInt, Int.toNat_of_nonneg (Int.emod_nonneg _ (by norm_num))]
  rw [← BitVec.testBit_toNat, ← intBit_natCast, this, intBit_mod _ h]

theorem dvd_sub_signed (n x : Nat) : ((2 ^ n : Nat) : Int) ∣ (x : Int) - signed n x := by
  have h : ((2 ^ n : Nat) : Int) ∣ (x : Int) - ((x % 2 ^ n : Nat) : Int) := by
    rw [Int.natCast_mod]; exact Int.dvd_self_sub_emod
  unfold signed
  split
  · exact h
  · have := Int.dvd_add h (Int.dvd_refl _)
    convert this using 1; ring

theorem signed_bounds {n : Nat} (hn : 0 < n) (x : Nat) :
    -((2 ^ (n - 1) : Nat) : Int) ≤ signed n x ∧ signed n x < ((2 ^ (n - 1) : Nat) : Int) := by
  have two : 2 ^ n = 2 * 2 ^ (n - 1) := by rw [← Nat.pow_succ']; congr 1; omega
  have lt : x % 2 ^ n < 2 ^ n := Nat.mod_lt _ (by positivity)
  unfold signed
  split <;> omega

theorem signed_neg_iff {n : Nat} (hn : 0 < n) (x : Nat) : signed n x < 0 ↔ x.testBit (n - 1) = true := by
  have two : 2 ^ n = 2 ^ (n - 1) * 2 := by rw [← Nat.pow_succ]; congr 1; omega
  have lt : x % 2 ^ n < 2 ^ n := Nat.mod_lt _ (by positivity)
  have bit : x.testBit (n - 1) = decide (2 ^ (n - 1) ≤ x % 2 ^ n) := by
    rw [Nat.testBit_eq_decide_div_mod_eq, ← Nat.mod_mul_right_div_self, ← two, decide_eq_decide]
    rw [two] at lt ⊢
    rw [Nat.div_eq_iff (by positivity)]
    omega
  rw [bit, decide_eq_true_iff]
  unfold signed
  split <;> omega

/-- Shifted right by its width or more, less one, a two's complement reading is copies of its top bit. -/
theorem signed_div_of_le {n k : Nat} (hn : 0 < n) (h : n - 1 ≤ k) (x : Nat) :
    signed n x / ((2 ^ k : Nat) : Int) = if x.testBit (n - 1) then -1 else 0 := by
  obtain ⟨lo, hi⟩ := signed_bounds hn x
  have le : ((2 ^ (n - 1) : Nat) : Int) ≤ ((2 ^ k : Nat) : Int) := by exact_mod_cast Nat.pow_le_pow_right (by omega) h
  split
  · next top =>
    have neg := (signed_neg_iff hn x).2 top
    rw [Int.ediv_eq_iff_of_pos (by positivity)]
    constructor <;> linarith
  · next top =>
    have neg := mt (signed_neg_iff hn x).1 top
    exact Int.ediv_eq_zero_of_lt (by omega) (by omega)

/-- The bits of a two's complement reading: its own below the width, copies of the top one above. -/
theorem intBit_signed {n : Nat} (hn : 0 < n) (x i : Nat) : intBit (signed n x) i = if i < n then x.testBit i else x.testBit (n - 1) := by
  split
  · next h => rw [← intBit_natCast]; exact (intBit_congr (dvd_sub_signed n x) h).symm
  · next h =>
    rw [intBit, signed_div_of_le hn (by omega)]
    cases x.testBit (n - 1) <;> rfl

end Sys2Proof.Machine

end

/-! ### Typed integers (R187) -/

section

namespace Sys2Proof.Machine

/-- R187: `In` keeps the low n bits. -/
theorem dvd_sub_intIn (t : IntTy) (x : W64) : ((2 ^ t.width : Nat) : Int) ∣ (x.toNat : Int) - intIn t x := by
  rw [intIn, tyBits_eq_width]
  split
  · exact dvd_sub_signed _ _
  · rw [Int.natCast_mod]; exact Int.dvd_self_sub_emod

/-- R187: `In` is in the range of its type. -/
theorem intIn_bounds (t : IntTy) (x : W64) :
    if t.signed then -((2 ^ (t.width - 1) : Nat) : Int) ≤ intIn t x ∧ intIn t x < ((2 ^ (t.width - 1) : Nat) : Int)
    else 0 ≤ intIn t x ∧ intIn t x < ((2 ^ t.width : Nat) : Int) := by
  rw [intIn, tyBits_eq_width, tySigned_eq_signed]
  split
  · exact signed_bounds (tyWidth_pos t) _
  · exact ⟨by positivity, by exact_mod_cast Nat.mod_lt _ (by positivity)⟩

theorem dvd_sub_toNat_w64 (r : Int) : ((2 ^ 64 : Nat) : Int) ∣ r - ((w64 r).toNat : Int) := by
  rw [w64, BitVec.toNat_ofInt, Int.toNat_of_nonneg (Int.emod_nonneg _ (by norm_num))]
  exact Int.dvd_self_sub_emod

/-- A number is congruent to its word's `In`, whatever the width. -/
theorem dvd_sub_intIn_w64 (t : IntTy) (r : Int) : ((2 ^ t.width : Nat) : Int) ∣ r - intIn t (w64 r) := by
  have low : ((2 ^ t.width : Nat) : Int) ∣ ((2 ^ 64 : Nat) : Int) := by exact_mod_cast Nat.pow_dvd_pow 2 (tyWidth_le t)
  have := Int.dvd_add (low.trans (dvd_sub_toNat_w64 r)) (dvd_sub_intIn t (w64 r))
  simpa using this

/-- Two words congruent modulo 2^n have one `In`. -/
theorem intIn_congr {t : IntTy} {x y : W64} (h : ((2 ^ t.width : Nat) : Int) ∣ (x.toNat : Int) - y.toNat) : intIn t x = intIn t y := by
  have e : x.toNat % 2 ^ t.width = y.toNat % 2 ^ t.width := by
    exact (Nat.modEq_iff_dvd.2 h).symm
  simp only [intIn, tyBits_eq_width, signed, e]

/-- R187: what `Put` writes reads back as the low n bits of the number. -/
theorem intIn_intOut (t : IntTy) (r : Int) : intIn t (intOut t r) = intIn t (w64 r) := by
  refine intIn_congr ?_
  have low : ((2 ^ t.width : Nat) : Int) ∣ ((2 ^ 64 : Nat) : Int) := by exact_mod_cast Nat.pow_dvd_pow 2 (tyWidth_le t)
  have put := low.trans (dvd_sub_toNat_w64 (intIn t (w64 r)))
  have := Int.dvd_add (dvd_sub_intIn t (w64 r)) put
  rw [← Int.dvd_neg]
  simpa [intOut] using this

theorem dvd_sub_intIn_intOut (t : IntTy) (r : Int) : ((2 ^ t.width : Nat) : Int) ∣ r - intIn t (intOut t r) := by
  rw [intIn_intOut]; exact dvd_sub_intIn_w64 t r

/-- R187: a result is sign-extended for the `.i` types and zero-extended for the `.n` types. -/
theorem intOut_extended (t : IntTy) (r : Int) :
    if t.signed then (intOut t r).toInt = intIn t (intOut t r) else ((intOut t r).toNat : Int) = intIn t (intOut t r) := by
  have bounds := intIn_bounds t (w64 r)
  rw [intIn_intOut, intOut]
  generalize intIn t (w64 r) = z at bounds
  split at bounds
  · next h =>
    obtain ⟨lo, hi⟩ := bounds
    have le : ((2 ^ (t.width - 1) : Nat) : Int) ≤ 2 ^ 63 := by
      exact_mod_cast Nat.pow_le_pow_right (by omega) (Nat.sub_le_sub_right (tyWidth_le t) 1)
    rw [if_pos h]
    exact BitVec.toInt_ofInt_eq_self (by omega) (by omega) (by omega)
  · next h =>
    obtain ⟨lo, hi⟩ := bounds
    have le : ((2 ^ t.width : Nat) : Int) ≤ 2 ^ 64 := by exact_mod_cast Nat.pow_le_pow_right (by omega) (tyWidth_le t)
    rw [if_neg h, w64, BitVec.toNat_ofInt, Int.toNat_of_nonneg (Int.emod_nonneg _ (by norm_num))]
    exact Int.emod_eq_of_lt lo (by push_cast; omega)

/-- The low n bits of `Put` are those of the exact result. -/
theorem getLsbD_intOut (t : IntTy) (r : Int) {j : Nat} (h : j < t.width) : (intOut t r).getLsbD j = intBit r j := by
  rw [intOut, getLsbD_w64 _ (h.trans_le (tyWidth_le t))]
  exact (intBit_congr (dvd_sub_intIn_w64 t r) h).symm

/-- The bits of `In`: the source's own below the width, then copies of the top one or zeros. -/
theorem intBit_intIn (t : IntTy) (x : W64) (i : Nat) :
    intBit (intIn t x) i = if i < t.width then x.getLsbD i else t.signed && x.getLsbD (t.width - 1) := by
  rw [intIn, tyBits_eq_width, tySigned_eq_signed]
  cases t.signed
  · rw [if_neg (by decide), intBit_natCast, Nat.testBit_mod_two_pow, BitVec.testBit_toNat]
    by_cases h : i < t.width <;> simp [h]
  · rw [if_pos rfl, intBit_signed (tyWidth_pos t)]; simp only [BitVec.testBit_toNat, Bool.true_and]

/-- Below its width a value read and put again is itself. -/
theorem getLsbD_intOut_intIn (t : IntTy) (x : W64) {j : Nat} (h : j < t.width) : (intOut t (intIn t x)).getLsbD j = x.getLsbD j := by
  rw [getLsbD_intOut t _ h, intBit_intIn, if_pos h]

/-- For the types of 32 and 64 bits, what is put is any word whose bits below the width are the result's. -/
theorem putInt_of_bits {t : IntTy} (h : t.big = true) (d : Reg) (act : LaneMask) {z : Nat → Int} {f : Nat → W64}
    (hf : ∀ l, ∀ j < t.width, (intOut t (z l)).getLsbD j = (f l).getLsbD j) :
    putInt t d act z = if t.wide then put64 d act f else put32 d act fun l => lo32 (f l) := by
  have big : 32 ≤ t.width := by simpa [IntTy.big] using h
  unfold putInt
  split
  · next wide =>
    have w : t.width = 64 := by simpa [IntTy.wide] using wide
    congr 1; funext l
    exact BitVec.eq_of_getLsbD_eq fun j hj => hf l j (by omega)
  · congr 1; funext l
    exact BitVec.eq_of_getLsbD_eq fun j hj => by rw [getLsbD_lo32, getLsbD_lo32, hf l j (by omega)]

/-- R187: a value of 32 or 64 bits read and put again is itself in each register it has. -/
theorem putInt_intIn {t : IntTy} (h : t.big = true) (d : Reg) (act : LaneMask) (f : Nat → W64) :
    putInt t d act (fun l => intIn t (f l)) = if t.wide then put64 d act f else put32 d act fun l => lo32 (f l) :=
  putInt_of_bits h d act fun l _ hj => getLsbD_intOut_intIn t (f l) hj

/-- R203: an immediate of `n` bits put as an integer is its sign extension in each register it has. -/
theorem putInt_toInt {t : IntTy} (h : t.big = true) (d : Reg) (act : LaneMask) {n : Nat} (x : BitVec n) :
    putInt t d act (fun _ => x.toInt) =
      if t.wide then put64 d act fun _ => x.signExtend 64 else put32 d act fun _ => lo32 (x.signExtend 64) :=
  putInt_of_bits h d act fun _ _ hj =>
    (getLsbD_intOut t _ hj).trans (getLsbD_w64 x.toInt (hj.trans_le (tyWidth_le t))).symm

end Sys2Proof.Machine

end

/-! ### Row 0x1: typed integer arithmetic (R187, R190) -/

section

namespace Sys2Proof.Machine

/-- An instruction of the skeleton that draws nothing and whose writes are one result of one or two registers. -/
theorem computes_of_result {i : Instr} {x : Guard} {every : Bool} {srcs : List Opnd} {wide : Bool} {d : Reg}
    {f : Env → (Nat → Nat → W64) → Nat → W64} (preds : List Nat) {ws : Env → LaneMask → (Nat → Nat → W64) → List RegWrite}
    (hx : ∀ s, exec i s = laneExec x every srcs preds (useD wide d) ws s)
    (hf : ∀ e act v, ws e act v = if wide then put64 d act (f e v) else put32 d act fun l => lo32 (f e v l)) :
    Computes i x every srcs wide d f 0 :=
  computes_of preds ws hx fun e act v _ => by rw [hf, Env.drawn]; exact (List.append_nil _).symm

/-- An instruction of the skeleton that puts an exact integer: what it puts may be given by any equal integer. -/
theorem computes_putInt {i : Instr} {x : Guard} {every : Bool} {srcs : List Opnd} {t : IntTy} {d : Reg}
    {z y : (Nat → Nat → W64) → Nat → Int}
    (hx : ∀ s, exec i s = laneExec x every srcs [] (useD t.wide d) (fun _ act v => putInt t d act (z v)) s)
    (hz : ∀ v l, z v l = y v l) :
    Computes i x every srcs t.wide d (fun _ v l => intOut t (y v l)) 0 :=
  computes_of_result [] hx fun _ _ v => by rw [show z v = y v from funext (hz v)]; rfl

/-- R190: an instruction whose meaning is `op` on its sources' exact values is `Integer` for any equal operation. -/
theorem integer_of {i : Instr} {g : Guard} {all : Bool} {t : IntTy} {d : Reg} {srcs : List Opnd} {op r : (Nat → Int) → Int}
    (hx : ∀ s, exec i s = laneExec g all srcs [] (useD t.wide d)
      (fun _ act v => putInt t d act fun l => op fun k => intIn t (v k l)) s)
    (hr : ∀ v, op v = r v) : Integer i g all t d srcs r :=
  computes_putInt hx fun _ _ => hr _

/-- Settles O1: reading and writing a type by its width's arithmetic; each row of R190's table by the law of the skeleton
and the equality of its operation with the one the table gives. -/
theorem integerArithmetic : Obligations.IntegerArithmetic := by
  refine ⟨fun t => ⟨fun x => ⟨dvd_sub_intIn t x, intIn_bounds t x⟩, fun r => ⟨dvd_sub_intIn_intOut t r, intOut_extended t r⟩⟩,
    fun g all t d a b c => ⟨?iadd, ?iadd3, ?isub, ?imul, ?imulh, ?imad, ?imin, ?imax, ?iabs, ?ineg⟩⟩
  case iadd => exact integer_of (op := fun v => v 0 + v 1) (fun _ => rfl) fun _ => rfl
  case iadd3 => exact integer_of (op := fun v => v 0 + v 1 + v 2) (fun _ => rfl) fun _ => rfl
  case isub => exact integer_of (op := fun v => v 0 - v 1) (fun _ => rfl) fun _ => rfl
  case imul => exact integer_of (op := fun v => v 0 * v 1) (fun _ => rfl) fun _ => rfl
  case imulh =>
    refine integer_of (op := fun v => Int.fdiv (v 0 * v 1) ((2 ^ tyBits t : Nat) : Int)) (fun _ => rfl) fun v => ?_
    rw [tyBits_eq_width, Int.fdiv_eq_ediv_of_nonneg _ (by positivity)]
  case imad => exact integer_of (op := fun v => v 0 * v 1 + v 2) (fun _ => rfl) fun _ => rfl
  case imin => exact integer_of (op := fun v => min (v 0) (v 1)) (fun _ => rfl) fun v => by rw [Int.min_def]; split <;> split <;> omega
  case imax => exact integer_of (op := fun v => max (v 0) (v 1)) (fun _ => rfl) fun v => by rw [Int.max_def]; split <;> split <;> omega
  case iabs => exact integer_of (op := fun v => (((v 0).natAbs : Nat) : Int)) (fun _ => rfl) fun v => by split <;> omega
  case ineg => exact integer_of (op := fun v => -v 0) (fun _ => rfl) fun _ => rfl

end Sys2Proof.Machine

end

/-! ### Addresses, logic and shifts (R191, R192, R194, R195) -/

section

namespace Sys2Proof.Machine

/-- A word scaled by a power of two is the word shifted. -/
theorem w64_mul_two_pow (z : Int) (k : Nat) : w64 (z * ((2 ^ k : Nat) : Int)) = w64 z <<< k := by
  rw [w64, BitVec.ofInt_mul, BitVec.ofInt_natCast, BitVec.shiftLeft_eq_mul_twoPow]
  congr 1; apply BitVec.eq_of_toNat_eq; simp [BitVec.toNat_twoPow]

theorem w64_intIn_i32 (x : W64) : w64 (intIn .i32 x) = (lo32 x).signExtend 64 := by
  refine BitVec.eq_of_getLsbD_eq fun j hj => ?_
  rw [getLsbD_w64 _ hj, intBit_intIn, BitVec.getLsbD_signExtend, BitVec.msb_eq_getLsbD_last, getLsbD_lo32, getLsbD_lo32]
  by_cases h : j < 32 <;> simp [hj, h, IntTy.width, IntTy.signed]

theorem w64_intIn_n32 (x : W64) : w64 (intIn .n32 x) = (lo32 x).setWidth 64 := by
  refine BitVec.eq_of_getLsbD_eq fun j hj => ?_
  rw [getLsbD_w64 _ hj, intBit_intIn, BitVec.getLsbD_setWidth, getLsbD_lo32]
  simp [hj, IntTy.width, IntTy.signed]


/-- R191: `LEA`'s second source, read as 32 bits and scaled. -/
theorem lea_scaled (sgn : Bool) (sh : Nat) (x : W64) :
    w64 ((if sgn then intIn .i32 x else intIn .n32 x) * ((2 ^ sh : Nat) : Int)) =
      (if sgn then (lo32 x).signExtend 64 else (lo32 x).setWidth 64) <<< sh := by
  rw [w64_mul_two_pow]
  cases sgn
  · rw [if_neg (by decide), if_neg (by decide), w64_intIn_n32]
  · rw [if_pos rfl, if_pos rfl, w64_intIn_i32]

/-- R194: `SAR` by a count of n or more gives n copies of the top bit; a smaller count divides. -/
theorem sar_value (n a k : Nat) (hn : 0 < n) :
    Int.fdiv (signed n a) ((2 ^ min k n : Nat) : Int) =
      if n ≤ k then (if bitOf a (n - 1) then -1 else 0) else signed n a / ((2 ^ k : Nat) : Int) := by
  rw [Int.fdiv_eq_ediv_of_nonneg _ (by positivity)]
  split
  · next h => rw [min_eq_right h, signed_div_of_le hn (by omega), bitOf_eq_testBit]
  · next h => rw [min_eq_left (by omega)]

/-- R195: the funnel shift is a shift of the pair B:A. -/
theorem funnel_eq_shift (left clamp : Bool) (a b : W32) (c : Nat) :
    funnel left clamp a b c = lo32 (
      let x := pair64 a b
      let k := if clamp then min c 32 else c % 32
      if left then x <<< k >>> 32 else x >>> k) := by
  refine BitVec.eq_of_getLsbD_eq fun j hj => ?_
  simp only [funnel, ← toNat_pair64]
  have hk : (if clamp then min c 32 else c % 32) ≤ 32 := by split <;> omega
  generalize (if clamp then min c 32 else c % 32) = k at hk
  rw [getLsbD_lo32, BitVec.getLsbD_ofNat]
  cases left
  · rw [if_neg (by decide), if_neg (by decide), Nat.testBit_div_two_pow, BitVec.testBit_toNat, BitVec.getLsbD_ushiftRight, Nat.add_comm]
  · rw [if_pos rfl, if_pos rfl, Nat.testBit_div_two_pow, Nat.testBit_mul_two_pow, BitVec.testBit_toNat, BitVec.getLsbD_ushiftRight,
      BitVec.getLsbD_shiftLeft, Nat.add_comm j]
    simp [show 32 + j < 64 by omega, show ¬ 32 + j < k by omega, show k ≤ 32 + j by omega]

/-- Settles O2: each instruction's meaning is the law of the skeleton on a result that equals the one stated. -/
theorem addressesLogicAndShifts : Obligations.AddressesLogicAndShifts := by
  intro g t sgn sh op b64 left clamp d a a' b c
  refine ⟨?lea, ?lop, ?shl, ?shr, ?sar, ?fsh⟩
  case lea =>
    refine computes_of_result [] (exec_lea · _ _ _ _ _ _) fun e act v => ?_
    simp only [lea_scaled]; rfl
  case lop => exact computes_of_result [] (exec_lop · _ _ _ _ _ _) fun e act v => rfl
  case shl => exact computes_putInt (exec_shl · _ _ _ _ _) fun v l => by rw [tyBits_eq_width]; rfl
  case shr => exact computes_putInt (exec_shr · _ _ _ _ _) fun v l => by rw [tyBits_eq_width]; rfl
  case sar => exact computes_putInt (exec_sar · _ _ _ _ _) fun v l => by rw [tyBits_eq_width]; exact sar_value _ _ _ (tyWidth_pos t)
  case fsh =>
    refine computes_of_result [] (exec_fsh · _ _ _ _ _ _ _) fun e act v => ?_
    simp only [funnel_eq_shift]; rfl

end Sys2Proof.Machine

end

/-! ### Bits, fields, bytes and counts (R193, R196 to R199) -/

section

namespace Sys2Proof.Machine

/-- R193, R204: a truth table's entry is the one its three bits number. -/
theorem tableBit_eq (f : BitVec 8) (a b c : Bool) : tableBit f a b c = f.getLsbD (a.toNat + 2 * b.toNat + 4 * c.toNat) := by
  cases a <;> cases b <;> cases c <;> rfl

/-- R196: the field's bits are the source's from `pos` on; above the field stand zeros, or copies of its top bit. -/
theorem intBit_bitField (t : IntTy) (x : W64) (pos len j : Nat) :
    intBit (bitField (tyBits t) (tySigned t) x.toNat pos len) j =
      if j < min len t.width then intBit (intIn t x) (pos + j)
      else decide (0 < min len t.width) && (t.signed && intBit (intIn t x) (pos + (min len t.width - 1))) := by
  simp only [bitField, tyBits_eq_width, tySigned_eq_signed, beq_iff_eq]
  generalize min len t.width = m
  have ext : (if t.signed then signed t.width x.toNat else ((x.toNat % 2 ^ t.width : Nat) : Int)) = intIn t x := by
    rw [intIn, tyBits_eq_width, tySigned_eq_signed]
  rw [ext, Int.fdiv_eq_ediv_of_nonneg _ (by positivity)]
  have field : ∀ i, (intIn t x / ((2 ^ pos : Nat) : Int) % ((2 ^ m : Nat) : Int)).toNat.testBit i =
      (decide (i < m) && intBit (intIn t x) (pos + i)) := by
    intro i
    have nonneg := Int.emod_nonneg (intIn t x / ((2 ^ pos : Nat) : Int)) (show ((2 ^ m : Nat) : Int) ≠ 0 by positivity)
    have lt := Int.emod_lt_of_pos (intIn t x / ((2 ^ pos : Nat) : Int)) (show 0 < ((2 ^ m : Nat) : Int) by positivity)
    by_cases h : i < m
    · rw [← intBit_natCast, Int.toNat_of_nonneg nonneg, intBit_mod _ h, intBit_div]; simp [h]
    · rw [Nat.testBit_lt_two_pow (lt_of_lt_of_le (by omega) (Nat.pow_le_pow_right (by omega) (Nat.le_of_not_lt h)))]; simp [h]
  generalize (intIn t x / ((2 ^ pos : Nat) : Int) % ((2 ^ m : Nat) : Int)).toNat = f at field
  by_cases m0 : m = 0
  · subst m0; rw [if_pos rfl]; simp [intBit]
  · rw [if_neg m0]
    have pos : 0 < m := Nat.pos_of_ne_zero m0
    cases t.signed
    · rw [if_neg (by decide), intBit_natCast, field]
      by_cases h : j < m <;> simp [h]
    · rw [if_pos rfl, intBit_signed pos, field, field]
      by_cases h : j < m <;> simp [h, pos]

/-- R198: bit `i` of the byte a code's low bits choose: the source's byte, zeros, ones, or copies of its top bit. -/
def chosenBit (y : Nat → Bool) (code i : Nat) : Bool :=
  match code with
  | 0 => y i
  | 1 => false
  | 2 => true
  | _ => y 7

/-- R198: the bits of one result byte; code bit 5 reverses them. -/
theorem testBit_byteSel (x k i : Nat) : (byteSel x k).testBit i =
    (decide (i < 8) && chosenBit (fun i => x.testBit (8 * (k % 8) + i)) (k / 8 % 4) (if bitOf k 5 then 7 - i else i)) := by
  have turn : ∀ (z : Nat) (p : Nat → Bool), (∀ i, z.testBit i = (decide (i < 8) && p i)) →
      (if bitOf k 5 then revBits 8 z else z).testBit i = (decide (i < 8) && p (if bitOf k 5 then 7 - i else i)) := by
    intro z p h
    split
    · rw [testBit_revBits, h]; simp [show 8 - 1 - i < 8 by omega]
    · exact h i
  refine turn _ _ fun i => ?_
  have low : fld k 0 3 = k % 8 := congrArg (· % 8) (Nat.div_one k)
  have byte : ∀ i, (fld x (8 * fld k 0 3) 8).testBit i = (decide (i < 8) && x.testBit (8 * (k % 8) + i)) :=
    fun i => by rw [testBit_fld, low]
  have full : ∀ i, Nat.testBit 255 i = decide (i < 8) := Nat.testBit_two_pow_sub_one 8
  have code : fld k 3 2 = k / 8 % 4 := rfl
  rw [code]
  rcases k / 8 % 4 with _ | _ | _ | n
  · exact byte i
  · simp [chosenBit]
  · simp [full, chosenBit]
  · simp only [bitOf_eq_testBit, byte, chosenBit]
    cases x.testBit (8 * (k % 8) + 7) <;> simp [full]

theorem byteSel_lt (x k : Nat) : byteSel x k < 2 ^ 8 :=
  Nat.lt_pow_two_of_testBit _ fun i hi => by rw [testBit_byteSel]; simp [show ¬ i < 8 by omega]

/-- R198: bit `j` of the result is bit `j % 8` of the byte that code `j / 8` chooses, or bit `7 - j % 8` where the code reverses. -/
theorem testBit_bysel (x c : Nat) {j : Nat} (hj : j < 32) :
    ((List.range 4).foldl (fun r i => r + byteSel x (fld c (6 * i) 6) * 2 ^ (8 * i)) 0).testBit j =
      let k := c / 2 ^ (6 * (j / 8)) % 2 ^ 6
      let z := chosenBit (fun i => x.testBit (8 * (k % 8) + i)) (k / 8 % 4)
      if 32 ≤ k then z (7 - j % 8) else z (j % 8) := by
  rw [testBit_sum_digits (by omega) (fun i => byteSel_lt x _), testBit_byteSel, fld]
  have lt : c / 2 ^ (6 * (j / 8)) % 2 ^ 6 < 2 ^ 6 := Nat.mod_lt _ (by omega)
  generalize c / 2 ^ (6 * (j / 8)) % 2 ^ 6 = k at lt
  have five : bitOf k 5 = true ↔ 32 ≤ k := by rw [bitOf, beq_iff_eq]; omega
  simp only [five, show j < 8 * 4 by omega, Nat.mod_lt j (show 0 < 8 by omega), decide_true, Bool.true_and]
  split <;> rfl

/-- R199: `POPC` counts the 1 bits below the width. -/
theorem ones_eq_countP (n : Nat) (x : W64) : ones n x.toNat = (List.range n).countP fun j => x.getLsbD j := by
  simp only [ones, bitOf_toNat, List.countP_eq_length_filter]

theorem leadZeros_eq_findIdx (n : Nat) (x : W64) :
    leadZeros n x.toNat = (List.range n).findIdx fun i => x.getLsbD (n - 1 - i) := by
  simp only [leadZeros, List.takeWhile_eq_take_findIdx_not, bitOf_toNat, Bool.not_not, List.length_take]
  exact min_eq_left List.findIdx_le_length

theorem leadZeros_le (n : Nat) (x : W64) : leadZeros n x.toNat ≤ n := by
  rw [leadZeros_eq_findIdx]; simpa using List.findIdx_le_length (xs := List.range n)

/-- R199: the leading bits are zeros. -/
theorem getLsbD_of_leadZeros {n : Nat} {x : W64} {j : Nat} (lo : n - leadZeros n x.toNat ≤ j) (hj : j < n) : x.getLsbD j = false := by
  rw [leadZeros_eq_findIdx] at lo
  have := List.not_of_lt_findIdx (p := fun i => x.getLsbD (n - 1 - i)) (xs := List.range n) (i := n - 1 - j) (by omega)
  simpa [show n - 1 - (n - 1 - j) = j by omega] using this

/-- R199: after the leading zeros stands a 1, where any bit is left. -/
theorem getLsbD_leadZeros {n : Nat} {x : W64} (h : leadZeros n x.toNat < n) : x.getLsbD (n - 1 - leadZeros n x.toNat) = true := by
  rw [leadZeros_eq_findIdx] at h ⊢
  have := List.findIdx_getElem (p := fun i => x.getLsbD (n - 1 - i)) (xs := List.range n) (w := by simpa using h)
  rwa [List.getElem_range] at this

/-- Settles O3: each result is the law of the skeleton on a word whose bits the lemmas above give. -/
theorem bitsAndFields : Obligations.BitsAndFields := by
  intro g t f d a b c y z
  refine ⟨?bits3, ?bfe, ?bfi, ?bysel, ?popc, ?clz, ?brev⟩
  case bits3 =>
    refine ⟨fun _ v l => (bitsWord fun i => tableBit f ((v 0 l).getLsbD i) ((v 1 l).getLsbD i) ((v 2 l).getLsbD i)).setWidth 64,
      computes_of_result [] (exec_bits3 · _ _ _ _ _ _) fun e act v => by simp only [lo32_setWidth]; rfl, fun e v l j hj => ?_⟩
    rw [BitVec.getLsbD_setWidth, getLsbD_bitsWord, tableBit_eq]
    simp [hj, show j < 64 by omega]
  case bfe =>
    refine ⟨fun _ v l => intOut t (bitField (tyBits t) (tySigned t) (v 0 l).toNat (fld (v 1 l).toNat 0 8) (fld (v 1 l).toNat 8 8)),
      computes_putInt (exec_bfe · _ _ _ _ _) fun v l => rfl, fun e v l j hj => ?_⟩
    simp only [getLsbD_intOut t _ hj, intBit_bitField, intBit_intIn, fld, pow_zero, Nat.div_one]
  case bfi =>
    refine ⟨fun _ v l => BitVec.ofNat 64 (fieldInto (tyBits t) (v 0 l).toNat (v 2 l).toNat (fld (v 1 l).toNat 0 8) (fld (v 1 l).toNat 8 8)),
      computes_of_result [] (exec_bfi · _ _ _ _ _ _) fun _ _ _ => rfl, fun e v l j hj => ?_⟩
    rw [BitVec.getLsbD_ofNat, testBit_fieldInto]
    simp [hj, hj.trans_le (tyWidth_le t), fld, BitVec.testBit_toNat]
  case bysel =>
    refine ⟨fun _ v l => BitVec.ofNat 64 ((List.range 4).foldl (fun r i => r +
        byteSel ((v 1 l).toNat % 2 ^ 32 * 2 ^ 32 + (v 0 l).toNat % 2 ^ 32) (fld (v 2 l).toNat (6 * i) 6) * 2 ^ (8 * i)) 0),
      computes_of_result [] (exec_bysel · _ _ _ _ _) fun e act v => by simp only [lo32_ofNat]; rfl, fun e v l j hj => ?_⟩
    rw [BitVec.getLsbD_ofNat, testBit_bysel _ _ hj, ← toNat_lo32, ← toNat_lo32, ← toNat_pair64]
    simp only [BitVec.testBit_toNat, show j < 64 by omega, decide_true, Bool.true_and]
    rfl
  case popc =>
    refine computes_of_result [] (exec_popc · _ _ _ _) fun e act v => ?_
    simp only [ones_eq_countP, tyBits_eq_width, lo32_ofNat]; rfl
  case clz =>
    refine ⟨fun _ v l => BitVec.ofNat 64 (leadZeros t.width (v 0 l).toNat),
      computes_of_result [] (exec_clz · _ _ _ _) fun e act v => by simp only [tyBits_eq_width, lo32_ofNat]; rfl, fun e v l => ?_⟩
    have le := leadZeros_le t.width (v 0 l)
    have value : (BitVec.ofNat 64 (leadZeros t.width (v 0 l).toNat)).toNat = leadZeros t.width (v 0 l).toNat :=
      Nat.mod_eq_of_lt (by have := tyWidth_le t; omega)
    simp only [value]
    exact ⟨le, fun j => getLsbD_of_leadZeros, getLsbD_leadZeros⟩
  case brev =>
    refine ⟨fun _ v l => BitVec.ofNat 64 (revBits (tyBits t) (v 0 l).toNat),
      computes_of_result [] (exec_brev · _ _ _ _) fun _ _ _ => rfl, fun e v l j hj => ?_⟩
    rw [BitVec.getLsbD_ofNat, testBit_revBits]
    simp [hj, hj.trans_le (tyWidth_le t), BitVec.testBit_toNat]

end Sys2Proof.Machine

end

/-! ### Compares, selects, moves and predicates (R200 to R205) -/

section

namespace Sys2Proof.Machine

/-- What an instruction computes may be shown with its operand rules at hand. -/
theorem computes_of_wf {i : Instr} {x : Guard} {every : Bool} {srcs : List Opnd} {wide : Bool} {d : Reg}
    {f : Env → (Nat → Nat → W64) → Nat → W64} {n : Nat} (h : i.wf = true → Computes i x every srcs wide d f n) :
    Computes i x every srcs wide d f n := fun wf => h wf wf

/-! ### `PMOV.unpack` -/

/-- R205: the predicates `PMOV.unpack` writes in a lane: bit `k` of `x` where bit `k` of `m` is 1. -/
def unpackLane (x m : W64) (l : Nat) : List RegWrite :=
  ((List.range 12).filter fun k => m.getLsbD k).map fun k => RegWrite.p l k (x.getLsbD k)

/-- The predicates it writes in the active lanes. -/
def unpackWrites (act : LaneMask) (v : Nat → Nat → W64) : List RegWrite := (lanesOf act).flatMap fun l => unpackLane (v 0 l) (v 1 l) l

theorem exec_pmovUnpack_laneExec (g : Guard) (r : Reg) (b : Src) (s : State) : exec (.pmovUnpack g r b) s =
    laneExec g false [opA .int false (.reg r), opB .int false b] [] [] (fun _ act v => unpackWrites act v) s := rfl

theorem mem_unpackLane {x m : W64} {l : Nat} {w : RegWrite} (h : w ∈ unpackLane x m l) : ∃ k < 12, w = .p l k (x.getLsbD k) := by
  obtain ⟨k, hk, rfl⟩ := List.mem_map.1 h
  exact ⟨k, List.mem_range.1 (List.mem_filter.1 hk).1, rfl⟩

theorem mem_unpackWrites {act : LaneMask} {v : Nat → Nat → W64} {w : RegWrite} (h : w ∈ unpackWrites act v) :
    ∃ l, ∃ k < 12, ∃ y, w = .p l k y := by
  obtain ⟨l, -, hm⟩ := List.mem_flatMap.1 h
  obtain ⟨k, hk, rfl⟩ := mem_unpackLane hm
  exact ⟨l, k, hk, _, rfl⟩

theorem okWrites_unpackWrites (e : Env) (act : LaneMask) (v : Nat → Nat → W64) : okWrites e (unpackWrites act v) := by
  refine ⟨fun w hw a n y h => ?_, fun w hw a k y h => ?_, fun w hw => ?_⟩ <;> obtain ⟨l, j, hj, z, rfl⟩ := mem_unpackWrites hw
  · cases h
  · cases h; exact hj
  · rfl

theorem lastOf_reg_unpackWrites (act : LaneMask) (v : Nat → Nat → W64) (l : Nat) (r : Reg) :
    lastOf (fun w => w.reg? l r) (unpackWrites act v) = none :=
  lastOf_none fun _ hw => by obtain ⟨_, _, -, _, rfl⟩ := mem_unpackWrites hw; rfl

theorem lastOf_draw_unpackWrites (act : LaneMask) (v : Nat → Nat → W64) (l : Nat) :
    lastOf (fun w => w.draw? l) (unpackWrites act v) = none :=
  lastOf_none fun _ hw => by obtain ⟨_, _, -, _, rfl⟩ := mem_unpackWrites hw; rfl

theorem lastOf_unpackLane (x m : W64) (l k : Nat) :
    lastOf (fun w => w.pred? l k) (unpackLane x m l) = if k < 12 ∧ m.getLsbD k = true then some (x.getLsbD k) else none := by
  rw [unpackLane, List.map_eq_flatMap, lastOf_flatMap (l := k)]
  · simp [lastOf, RegWrite.pred?]
  · intro j _ hj; simp [lastOf, RegWrite.pred?, hj]

/-- R205: an active lane's predicate becomes the source's bit where the mask names it. -/
theorem lastOf_pred_unpackWrites (act : LaneMask) (v : Nat → Nat → W64) (l k : Nat) :
    lastOf (fun w => w.pred? l k) (unpackWrites act v) =
      if hasLane act l = true ∧ k < 12 ∧ (v 1 l).getLsbD k = true then some ((v 0 l).getLsbD k) else none := by
  rw [unpackWrites, lastOf_flatMap (l := l), lastOf_unpackLane]
  · simp only [← hasLane_iff]
    by_cases h : hasLane act l = true <;> simp [h]
  · intro a _ ha
    refine lastOf_none fun w hw => ?_
    obtain ⟨j, -, rfl⟩ := mem_unpackLane hw
    simp [RegWrite.pred?, ha]

/-- R205: `PMOV.unpack` completes and writes, in every active lane, the predicates its mask names. -/
theorem pmovUnpack_wrote {s : State} {e : Env} (hi : Issues s e) (hw : s.wf) {g : Guard} {r : Reg} {b : Src}
    (hr : e.laneReady [opA .int false (.reg r), opB .int false b] []) :
    ∃ u, exec (.pmovUnpack g r b) s = .next u ∧ Wrote e u noWrite (fun l k =>
      let v := e.vals g false [opA .int false (.reg r), opB .int false b]
      if hasLane (e.active g) l = true ∧ k < 12 ∧ (v 1 l).getLsbD k = true then some ((v 0 l).getLsbD k) else none) fun _ => 0 := by
  obtain ⟨plainV, plainP, plain⟩ := okWrites_unpackWrites e (e.active g) (e.vals g false [opA .int false (.reg r), opB .int false b])
  obtain ⟨u, hu, hW⟩ := laneExec_wrote (f := fun _ act v => unpackWrites act v) (dr := fun _ => 0) (preds := []) hi hw hr
    plainV plainP plain (fun l => by rw [lastOf_draw_unpackWrites]; simp)
  simp only [lastOf_reg_unpackWrites, lastOf_pred_unpackWrites] at hW
  exact ⟨u, (exec_pmovUnpack_laneExec g r b s).trans hu, hW⟩

/-- Settles O4: each instruction's meaning is the law of the skeleton; a value of 32 or 64 bits passes through `In` and `Put`
as it is. -/
theorem comparesAndMoves : Obligations.ComparesAndMoves := by
  intro g all cc t pd pa pb pc d a b x f r
  refine ⟨?icmp, ?sel, ?mov, ?movi, ?plop, ?pack, ?copy, ?unpack⟩
  case icmp =>
    refine decides_of [] (fun wf => ?_) fun s => (exec_icmp s _ _ _ _ _ _ _).trans ?_
    · simp [Instr.wf, predWf] at wf; omega
    · rfl
  case sel =>
    refine computes_of_wf fun wf => ?_
    have big : t.big = true := by simp [Instr.wf] at wf; tauto
    exact computes_of_result [4] (exec_sel · _ _ _ _ _ _ _) (fun e act v => putInt_intIn big _ _ _)
  case mov =>
    refine computes_of_wf fun wf => ?_
    have big : t.big = true := by simp [Instr.wf] at wf; tauto
    exact computes_of_result [] (exec_mov · _ _ _ _) (fun e act v => putInt_intIn big _ _ _)
  case movi =>
    refine computes_of_wf fun wf => ?_
    have big : t.big = true := by simp [Instr.wf] at wf; tauto
    exact computes_of_result [] (exec_movi · _ _ _ _) (fun e act v => putInt_toInt big _ _ _)
  case plop =>
    refine decides_of [2, 3, 4] (fun wf => ?_) fun s => (exec_plop s _ _ _ _ _ _).trans ?_
    · simp [Instr.wf, predWf] at wf; omega
    · simp only [execPlop, tableBit_eq]
  case pack =>
    refine ⟨fun e _ l => ((sget 0 e.g.p l).setWidth 32).setWidth 64, computes_of_result [0] (exec_pmovPack · _ _) fun e act v => by
      simp only [lo32_setWidth]; rfl, fun e v l j hj => ?_⟩
    rw [BitVec.getLsbD_setWidth, BitVec.getLsbD_setWidth, pget]
    by_cases h : j < 12
    · simp [h, hj, show j < 64 by omega]
    · simp [h, BitVec.getLsbD_of_ge _ j (Nat.le_of_not_lt h)]
  case copy =>
    refine decides_of [2] (fun wf => ?_) fun s => (exec_pmovCopy s _ _ _).trans ?_
    · simp [Instr.wf, predWf] at wf; omega
    · rfl
  case unpack => exact fun _ s e hi hw hr => pmovUnpack_wrote hi hw hr

end Sys2Proof.Machine

end

/-! ### An instruction that changes its fragments only -/

section

namespace Sys2Proof.Machine

/-- An instruction that completes by changing its own group changes nothing else. -/
theorem groupOnly_onGroup {s : State} {e : Env} (hi : Issues s e) {F : Group → Group} (hF : ∀ g, (F g).gid = g.gid) {f : Frag}
    (hf : (F e.g).frag? e.i.f.fid = some f) {P : Group → Frag → Prop} (hP : P (F e.g) f) :
    GroupOnly e (({ s with cur := none } : State).onGroup e.i.f.bid e.i.f.gid F) P := by
  obtain ⟨rfl, -, he⟩ := hi
  obtain ⟨hb, hg, -⟩ := State.frag?_eq he
  refine ⟨⟨rfl, fun _ => rfl, rfl, fun bid h => State.block?_onGroup_ne h⟩, _, _, f,
    State.frag?_of (State.block?_onGroup hb) (Block.group?_updIf hF hg) hf, rfl, fun gid h => Block.group?_updIf_ne hF h, hP⟩

/-- An instruction that completes by changing its fragment changes nothing else. -/
theorem moved_onFrag {s : State} {e : Env} (hi : Issues s e) {F : Frag → Frag} (hF : ∀ f, (F f).fid = f.fid) :
    Moved e (F e.f) (({ s with cur := none } : State).onFrag e.i.f F) :=
  groupOnly_onGroup hi (F := fun g => { g with frags := updIf (·.fid == e.i.f.fid) F g.frags }) (fun _ => rfl)
    (Group.frag?_updIf hF (State.frag?_eq hi.2.2).2.2) ⟨rfl, rfl, fun _ h => Group.frag?_updIf_ne hF h⟩

/-- R82: an instruction that completes goes on at the next slot. -/
theorem moved_retire {s : State} {e : Env} (hi : Issues s e) : Moved e (e.f.goOn e.i.next s.cycle) (retire s) := by
  rw [retire, hi.2.1]
  exact moved_onFrag hi fun _ => Frag.goOn_fid _ _ _

/-- R81: a fragment that jumps enters its target anew. -/
theorem moved_jump {s : State} {e : Env} (hi : Issues s e) (pc : W64) : Moved e (e.f.branchTo pc s.cycle) (jump s pc) := by
  rw [jump, hi.2.1]
  exact moved_onFrag hi fun _ => rfl

/-- An encoded instruction acts for the fragment that issues. -/
theorem onIss_of_issues {s : State} {e : Env} (hi : Issues s e) (k : Env → Out) : onIss s k = k e := by
  obtain ⟨rfl, hc, hf⟩ := hi
  simp only [onIss, hc, hf]

theorem Issues.frag_fid {s : State} {e : Env} (hi : Issues s e) : e.f.fid = e.i.f.fid := by
  simpa using List.find?_some (State.frag?_eq hi.2.2).2.2

end Sys2Proof.Machine

end

/-! ### Divergence (R31, R32, R211, R213) -/

section

namespace Sys2Proof.Machine

theorem updIf_const {α : Type} (p : α → Bool) (a : α) (l : List α) : updIf p (fun _ => a) l = updIf p (fun x => if p x then a else x) l :=
  List.map_congr_left fun x _ => by cases h : p x <;> simp [h]

theorem Group.frag?_setFrag {g : Group} {f x : Frag} (h : g.frag? f.fid = some x) : (g.setFrag f).frag? f.fid = some f := by
  rw [Group.setFrag, updIf_const, Group.frag?_updIf (fun y => ?_) h]
  · simp [show x.fid = f.fid by simpa using List.find?_some h]
  · split <;> simp_all

theorem Group.frag?_setFrag_ne {g : Group} {f : Frag} {j : Nat} (h : j ≠ f.fid) : (g.setFrag f).frag? j = g.frag? j := by
  rw [Group.setFrag, updIf_const, Group.frag?_updIf_ne (fun y => ?_) h]
  split <;> simp_all

/-- A free fragment id is no fragment's. -/
theorem frag?_of_freeFid {g : Group} {k : Nat} (h : freeFid g = some k) : g.frag? k = none := by
  have := List.find?_some h
  simpa [Group.frag?] using this

/-- R31, R213: whether the taken lanes are the set that stays. -/
def takenStays (g : Group) (taken rest : LaneMask) (peel : Bool) : Bool :=
  decide (popCount rest < popCount taken) || (peel && (freeFid g).isNone)

/-- R31: a divergence with a fragment id free sets the fragment to one side and starts the other as a fragment of its own. -/
theorem divergeFrag_of_free {g : Group} {k : Nat} (hk : freeFid g = some k) (cycle : Nat) (f : Frag) (taken rest : LaneMask) (tpc npc : W64)
    (keep peel : Bool) :
    let t := takenStays g taken rest peel
    ∃ stays other : Frag, divergeFrag cycle g f taken rest tpc npc keep peel =
        { g.setFrag stays with frags := (g.setFrag stays).frags ++ [other] } ∧
      (stays.fid = f.fid ∧ stays.pc = (if t then tpc else npc) ∧ stays.exm = (if t then taken else rest) ∧
        stays.held = f.held &&& ~~~(if t then rest else taken)) ∧
      other.fid = k ∧ other.pc = (if t then npc else tpc) ∧ other.held = (if t then rest else taken) ∧
        other.exm = (if t then rest else taken) ∧ other.st = .running := by
  simp only [takenStays, divergeFrag, hk]
  generalize (decide (popCount rest < popCount taken) || (peel && (some k).isNone)) = t
  refine ⟨_, _, rfl, ?_, ?_⟩
  · cases t
    · cases keep <;> exact ⟨rfl, rfl, rfl, rfl⟩
    · exact ⟨rfl, rfl, rfl, rfl⟩
  · cases t
    · exact ⟨rfl, rfl, rfl, rfl, rfl⟩
    · cases keep <;> exact ⟨rfl, rfl, rfl, rfl, rfl⟩

/-- R32: a divergence with eight fragments live keeps the other side as a pending one. -/
theorem divergeFrag_of_full {g : Group} (hk : freeFid g = none) (cycle : Nat) (f : Frag) (taken rest : LaneMask) (tpc npc : W64)
    (keep peel : Bool) :
    let t := takenStays g taken rest peel
    ∃ stays : Frag, divergeFrag cycle g f taken rest tpc npc keep peel = g.setFrag stays ∧
      stays.fid = f.fid ∧ stays.pc = (if t then tpc else npc) ∧ stays.exm = (if t then taken else rest) ∧ stays.held = f.held ∧
      stays.pends = f.pends ++ [{ pc := if t then npc else tpc, mask := if t then rest else taken, tok := (innerTok g f).map (·.id) }] := by
  simp only [takenStays, divergeFrag, hk]
  generalize (decide (popCount rest < popCount taken) || (peel && (none : Option Nat).isNone)) = t
  refine ⟨_, rfl, ?_⟩
  cases t
  · cases keep <;> exact ⟨rfl, rfl, rfl, rfl, rfl⟩
  · exact ⟨rfl, rfl, rfl, rfl, rfl⟩

theorem takenStays_iff {g : Group} {taken rest : LaneMask} {peel : Bool} :
    takenStays g taken rest peel = true ↔ popCount rest < popCount taken ∨ peel = true ∧ freeFid g = none := by
  simp [takenStays, Option.isNone_iff_eq_none]

/-- A divergence changes nothing of its group but fragments. -/
theorem divergeFrag_rest (cycle : Nat) (g : Group) (f : Frag) (taken rest : LaneMask) (tpc npc : W64) (keep peel : Bool) :
    { divergeFrag cycle g f taken rest tpc npc keep peel with frags := g.frags } = g := by
  cases h : freeFid g with
  | some k => obtain ⟨stays, other, eq, -⟩ := divergeFrag_of_free h cycle f taken rest tpc npc keep peel; rw [eq]; rfl
  | none => obtain ⟨stays, eq, -⟩ := divergeFrag_of_full h cycle f taken rest tpc npc keep peel; rw [eq]; rfl

theorem divergeFrag_gid (cycle : Nat) (g : Group) (f : Frag) (taken rest : LaneMask) (tpc npc : W64) (keep peel : Bool) :
    (divergeFrag cycle g f taken rest tpc npc keep peel).gid = g.gid := by
  simpa using congrArg Group.gid (divergeFrag_rest cycle g f taken rest tpc npc keep peel)

/-- A fragment added under a free id is found by that id, and no other is lost. -/
theorem frag?_append {g : Group} {o : Frag} (h : g.frag? o.fid = none) :
    ({ g with frags := g.frags ++ [o] } : Group).frag? o.fid = some o ∧
      ∀ j, j ≠ o.fid → ({ g with frags := g.frags ++ [o] } : Group).frag? j = g.frag? j := by
  unfold Group.frag? at *
  simp only [List.find?_append, h]
  exact ⟨by simp, fun j hj => by simp [hj.symm]⟩

/-- R31, R32, R213: the state after a divergent branch. -/
theorem diverged_diverge {s : State} {e : Env} (hi : Issues s e) (t n : LaneMask) (tpc npc : W64) :
    Diverged e t n tpc npc (diverge e (npc == e.i.pc) t n tpc npc s) := by
  have here : e.g.frag? e.f.fid = some e.f := by rw [hi.frag_fid]; exact (State.frag?_eq hi.2.2).2.2
  rw [diverge, hi.bid, hi.gid]
  have stay := takenStays_iff (g := e.g) (taken := t) (rest := n) (peel := npc == e.i.pc)
  rw [beq_iff_eq] at stay
  simp only [Diverged, show ((List.range 8).find? fun k => !(e.g.frags.any (·.fid == k))) = freeFid e.g from rfl]
  cases hk : freeFid e.g with
  | some k =>
    obtain ⟨f, o, eq, ⟨fid, pc, exm, held⟩, rfl, opc, oheld, oexm, ost⟩ := divergeFrag_of_free hk s.cycle e.f t n tpc npc
      (lineAddr npc == lineAddr e.i.pc) (npc == e.i.pc)
    simp only [stay, hk] at pc exm held opc oheld oexm
    have free := frag?_of_freeFid hk
    have ne : o.fid ≠ f.fid := by rw [fid]; intro h; rw [h, here] at free; cases free
    obtain ⟨new, old⟩ := frag?_append ((Group.frag?_setFrag_ne (g := e.g) ne).trans free)
    refine groupOnly_onGroup hi (fun g => divergeFrag_gid _ g _ _ _ _ _ _ _) (f := f) ?_
      ⟨divergeFrag_rest _ _ _ _ _ _ _ _ _, pc, exm, held, ⟨o, by rw [eq]; exact new, opc, oheld, oexm, ost⟩, fun j hf ho => ?_⟩
    · rw [← hi.frag_fid, ← fid, eq, old _ ne.symm]
      exact Group.frag?_setFrag (fid ▸ here)
    · rw [eq, old j ho]
      exact Group.frag?_setFrag_ne (by rwa [fid, hi.frag_fid])
  | none =>
    obtain ⟨f, eq, fid, pc, exm, held, pends⟩ := divergeFrag_of_full hk s.cycle e.f t n tpc npc
      (lineAddr npc == lineAddr e.i.pc) (npc == e.i.pc)
    simp only [stay, hk] at pc exm pends
    refine groupOnly_onGroup hi (fun g => divergeFrag_gid _ g _ _ _ _ _ _ _) (f := f) ?_
      ⟨divergeFrag_rest _ _ _ _ _ _ _ _ _, by simpa using pc, by simpa using exm, held, by simpa using pends, fun j hf => ?_⟩
    · rw [← hi.frag_fid, ← fid, eq]
      exact Group.frag?_setFrag (fid ▸ here)
    · rw [eq]
      exact Group.frag?_setFrag_ne (by rwa [fid, hi.frag_fid])

/-- R211: what a transfer leaves. -/
theorem transfers_transfer {s : State} {e : Env} (hi : Issues s e) (always : Bool) (t : LaneMask) (target npc : W64) :
    Transfers e always t target npc (transfer e always t target npc s) := by
  have cycle : e.s.cycle = s.cycle := by rw [hi.1]
  simp only [Transfers, transfer, beq_iff_eq, cycle]
  split
  · cases always
    · exact moved_retire hi
    · exact moved_jump hi target
  · split
    · exact moved_retire hi
    · split
      · exact moved_jump hi target
      · exact diverged_diverge hi t _ target npc

/-! ### Transfers (R211 to R214) -/

theorem guardErr_none {e : Env} (h : e.s.errs = []) (g : Guard) : e.guardErr g = none := by
  simp [Env.guardErr, Env.predErr, h]

theorem regErr_none {e : Env} (h : e.s.errs = []) (lanes : LaneMask) (uses : List RegUse) : e.regErr lanes uses = none := by
  simp [Env.regErr, h]

theorem slotCheck_none {target : W64} (h : noSlot target = false) (lanes : LaneMask) : slotCheck target lanes = none := by
  simp [slotCheck, h]

/-- R211, R212: `BRA`. -/
theorem bra_transfers {s : State} {e : Env} (hi : Issues s e) (he : s.errs = []) (g : Guard) {d : BitVec 36}
    (hd : noSlot (e.i.pc + d.signExtend 64 * 8) = false) :
    ∃ u, exec (.bra g d) s = .next u ∧
      Transfers e (decide (12 ≤ g.idx)) (e.active g) (e.i.pc + d.signExtend 64 * 8) e.i.next u := by
  refine ⟨_, ?_, transfers_transfer hi _ _ _ _⟩
  rw [exec_bra, execBra, onIss_of_issues hi]
  simp only [dispTarget, guardErr_none (hi.1 ▸ he), slotCheck_none hd, Option.none_or, orRaise]
  rfl

/-- Lanes that all name a slot leave no bad target. -/
theorem badTargets_zero {e : Env} {a : Reg} {lanes : LaneMask} (h : ∀ l ∈ lanesOf lanes, noSlot (rget64 e.b e.g l a) = false) :
    badTargets e a lanes = 0 := by
  rw [badTargets, List.filter_eq_nil_iff.2 fun l hl => by simp [h l hl]]; rfl

/-- R211, R213: `BRX` and `RET`. -/
theorem brx_transfers {s : State} {e : Env} (hi : Issues s e) (he : s.errs = []) {g : Guard} {a : Reg} (ha : e.holdsAll [(2, a, 2)]) :
    let t := e.active g
    let reads := if e.f.exm = 0 ∧ 12 ≤ g.idx then maskOf [lowLane e.f.held] else t
    let target := rget64 e.b e.g (lowLane reads) a
    let x := maskOf ((lanesOf t).filter fun l => rget64 e.b e.g l a = target)
    (∀ l ∈ lanesOf reads, noSlot (rget64 e.b e.g l a) = false) →
    ∃ u, brxExec g a s = .next u ∧ Transfers e (decide (12 ≤ g.idx)) x target (if x = t then e.i.next else e.i.pc) u := by
  intro t reads target x hl
  have lanes : brxLanes e g t = reads := by simp [brxLanes, guardAlways, reads]
  have errs : e.s.errs = [] := hi.1 ▸ he
  refine ⟨_, ?_, transfers_transfer hi _ _ _ _⟩
  rw [brxExec, onIss_of_issues hi]
  simp only [show e.active g = t from rfl, lanes, heldCheck_none ha, guardErr_none errs, regErr_none errs, badTargets_zero hl, Option.none_or,
    bne_self_eq_false, Bool.false_eq_true, if_false]
  have same : maskOf ((lanesOf t).filter fun l => rget64 e.b e.g l a == rget64 e.b e.g (lowLane reads) a) = x := by
    simp only [x, target, beq_eq_decide]
  rw [same]
  by_cases h : x = t <;> simp [h, guardAlways, target]

/-! ### `CALL` (R214) -/

/-- A transfer reads of its environment the instruction, the fragment, and which block and group it is of. -/
theorem transfer_congr {e e1 : Env} (hi : e1.i = e.i) (hf : e1.f = e.f) (hb : e1.b.bid = e.b.bid) (hg : e1.g.gid = e.g.gid)
    (always : Bool) (t : LaneMask) (target npc : W64) (s : State) : transfer e1 always t target npc s = transfer e always t target npc s := by
  simp only [transfer, diverge, hi, hf, hb, hg]

/-- The issuing fragment's environment after register writes to its group. -/
def Env.written (e : Env) (ws : List RegWrite) : Env :=
  { e with
    s := e.s.regWrites e.b.bid e.g.gid ws
    b := e.b.regWrites e.g.gid ws
    g := ws.foldl Group.write e.g }

/-- Writes of registers, predicates and draw indices leave a group's number. -/
theorem Group.writes_gid {ws : List RegWrite} (hw : ∀ w ∈ ws, w.plain = true) (g : Group) : (ws.foldl Group.write g).gid = g.gid := by
  simpa using congrArg Group.gid (Group.writes_rest (g := g) hw)

/-- Such writes leave the fragment issuing. -/
theorem Issues.written {s : State} {e : Env} (hi : Issues s e) {ws : List RegWrite} (hw : ∀ w ∈ ws, w.plain = true) :
    Issues (s.regWrites e.b.bid e.g.gid ws) (e.written ws) := by
  obtain ⟨hb, hg, hf⟩ := State.frag?_eq hi.2.2
  have bid := hi.bid
  have gid := hi.gid
  obtain ⟨rfl, hc, -⟩ := hi
  rw [Env.written, bid, gid]
  have frags : (ws.foldl Group.write e.g).frags = e.g.frags := by simpa using congrArg Group.frags (Group.writes_rest (g := e.g) hw)
  refine ⟨rfl, hc, State.frag?_of (b := e.b.regWrites e.i.f.gid ws) ?_ ?_ ?_⟩
  · exact State.block?_onBlock (f := fun b => b.regWrites e.i.f.gid ws) (fun _ => rfl) hb
  · exact Block.group?_updIf (b := { e.b with exts := (e.b.regWrites e.i.f.gid ws).exts }) (Group.writes_gid hw) hg
  · rwa [Group.frag?, frags]

/-- Where no soft error stands, register writes change the blocks alone. -/
theorem State.regWrites_rest {s : State} (h : s.errs = []) (bid gid : Nat) (ws : List RegWrite) :
    { s.regWrites bid gid ws with blocks := s.blocks } = s := by
  have : (s.regWrites bid gid ws).errs = s.errs := by rw [State.regWrites, h]; rfl
  calc { s.regWrites bid gid ws with blocks := s.blocks }
      = { s with errs := (s.regWrites bid gid ws).errs } := rfl
    _ = s := by rw [this]

/-- A list of writes of vector and uniform registers changes nothing else of a group. -/
theorem Group.writes_registers_rest {g : Group} {ws : List RegWrite} (h : ∀ w ∈ ws, (∃ l n x, w = .v l n x) ∨ ∃ n x, w = .u n x) :
    { ws.foldl Group.write g with v := g.v, u := g.u } = g := by
  have plain : ∀ w ∈ ws, w.plain = true := fun w hw => by rcases h w hw with ⟨_, _, _, rfl⟩ | ⟨_, _, rfl⟩ <;> rfl
  have files : (ws.foldl Group.write g).p = g.p ∧ (ws.foldl Group.write g).draws = g.draws := by
    induction ws generalizing g with
    | nil => exact ⟨rfl, rfl⟩
    | cons w ws ih =>
      obtain ⟨hp, hd⟩ := ih (g := g.write w) (fun v hv => h v (by simp [hv])) (fun v hv => plain v (by simp [hv]))
      rw [List.foldl_cons, hp, hd]
      rcases h w (by simp) with ⟨l, n, x, rfl⟩ | ⟨n, x, rfl⟩
      · simp only [Group.write]; split <;> exact ⟨rfl, rfl⟩
      · exact ⟨rfl, rfl⟩
  have rest := Group.writes_rest (g := g) plain
  rwa [← files.1, ← files.2] at rest

/-- R211, R214: `CALL` writes its link in the lanes that move, and then transfers as `BRA` does. -/
theorem call_transfers {s : State} {e : Env} (hi : Issues s e) (hs : s.wf) (he : s.errs = []) (g : Guard) {r : Reg} (hr : e.holdsAll (useD true r))
    {d : BitVec 36} (hd : noSlot (e.i.pc + d.signExtend 64 * 8) = false) :
    ∃ u e1, exec (.call g r d) s = .next u ∧
      Transfers e1 (decide (12 ≤ g.idx)) (e.active g) (e.i.pc + d.signExtend 64 * 8) e.i.next u ∧
      e1.i = e.i ∧ e1.f = e.f ∧ { e1.s with blocks := s.blocks } = s ∧
      { e1.g with v := e.g.v, u := e.g.u } = e.g ∧ { e1.b with groups := e.b.groups, exts := e.b.exts } = e.b ∧
      ∀ l q, q.wf = true → rget e1.b e1.g l q =
        (landsW true r (if e.f.exm = 0 ∧ 12 ≤ g.idx then e.f.held else e.active g) (fun _ => e.i.next) l q).getD (rget e.b e.g l q) := by
  have errs : e.s.errs = [] := hi.1 ▸ he
  obtain ⟨wb, wg⟩ := hi.wf hs
  have lanes : callLanes e g (e.active g) = if e.f.exm = 0 ∧ 12 ≤ g.idx then e.f.held else e.active g := by simp [callLanes, guardAlways]
  rw [← lanes]
  have ready : e.laneReady [] (useD true r) := ⟨errs, hr, by simp⟩
  obtain ⟨held, held'⟩ := ready.dst
  obtain ⟨regs, -, plain⟩ := okWrites_put64 held (held' rfl) (callLanes e g (e.active g)) fun _ => e.i.next
  have lasts := lastOf_put64 r (callLanes e g (e.active g)) fun _ => e.i.next
  have kinds : ∀ w ∈ put64 r (callLanes e g (e.active g)) fun _ => e.i.next, (∃ l n x, w = .v l n x) ∨ ∃ n x, w = .u n x :=
    fun w hw => mem_put64 hw
  have run : exec (.call g r d) s = .next (transfer e (guardAlways g) (e.active g) (e.i.pc + d.signExtend 64 * 8) e.i.next
      (s.regWrites e.b.bid e.g.gid (put64 r (callLanes e g (e.active g)) fun _ => e.i.next))) := by
    rw [exec_call, execCall, onIss_of_issues hi]
    simp only [dispTarget, heldCheck_none hr, guardErr_none errs, slotCheck_none hd, Option.none_or, orRaise]
  generalize (put64 r (callLanes e g (e.active g)) fun _ => e.i.next) = ws at regs plain lasts kinds run
  refine ⟨_, e.written ws, run, ?_, rfl, rfl, ?_, Group.writes_registers_rest kinds, rfl, fun l q hq => ?_⟩
  · rw [← transfer_congr (e := e) (e1 := e.written ws) rfl rfl rfl (Group.writes_gid plain _)]
    exact transfers_transfer (hi.written plain) _ _ _ _
  · rw [Env.written, hi.1]
    exact State.regWrites_rest he _ _ _
  · rw [← lasts]
    exact rget_regWrites wb wg regs l hq

/-- Settles O11: each instruction passes its checks and transfers; what a transfer leaves is `transfers_transfer`. -/
theorem transfersOfControl : Obligations.TransfersOfControl := by
  refine ⟨fun g d _ s e hi _ _ he hd => bra_transfers hi he g hd, fun g a i hm _ s e hi _ _ he ha => ?_,
    fun g r d _ s e hi hs _ he hr hd => call_transfers hi hs he g hr hd⟩
  have run : exec i s = brxExec g a s := by
    rcases List.mem_cons.1 hm with rfl | hm
    · exact exec_brx s g a
    · rw [List.mem_singleton.1 hm]; exact exec_ret s g a
  intro t reads target x hl
  rw [run]
  exact brx_transfers hi he ha hl

end Sys2Proof.Machine

end

/-! ### A `SLEEP` that names a register outside its file (R64, R219, R220, R334) -/

section

namespace Sys2Proof.Machine

/-- The issue of the first slot of the placed block's clause. -/
def placedIss : Iss := { f := { bid := 0, gid := 0, fid := 0 }, pc := 8, next := 16, word := 0, lit := none }

/-- The clause of the placed block, its slots `NOP`. -/
def nopLine : Line := placedLine 64 0

/-- The reset device with a placed block on it, whose fragment issues. -/
def placedState : State := { State.reset with blocks := [placedBlock 0 nopLine], cur := some placedIss }

/-- Its issuing fragment. -/
def placedEnv : Env where
  s := placedState
  i := placedIss
  b := placedBlock 0 nopLine
  g := placedGroup nopLine
  f := { Frag.start 0 0 (allLanes 8) 0 with line := some nopLine }

theorem placedEnv_issues : Issues placedState placedEnv := ⟨rfl, rfl, rfl⟩

/-- The state of a fragment after an instruction that completes or stops its group. -/
def Out.fragState (o : Out) (r : FragRef) : Option FState :=
  match o with
  | .next u => (u.frag? r).map fun p => p.2.2.st
  | _ => none

theorem fragState_of_moved {e : Env} {f : Frag} {u : State} (h : Moved e f u) : Out.fragState (.next u) e.i.f = some f.st := by
  obtain ⟨-, b, g, f', hf, -, -, -, rfl, -⟩ := h
  simp [Out.fragState, hf]

/-- `SLEEP.rel s64` meets a register that no group holds: its group stops for the event, and its fragment does not sleep. -/
theorem sleepRel_unheld_runs : Out.fragState (exec (.sleepRel 64) placedState) placedIss.f = some .running := by decide +kernel

/-- Refutes O14: the clause on `SLEEP.rel` holds of every number `a` of a uniform register, those above 63 too, which have no
encoding (R64): it has no premise `(Instr.sleepRel a).wf`. In a reset device with one placed block `SLEEP.rel s64` fails the
register check (R334) instead of sleeping. -/
theorem not_nothingYieldAndSleep : ¬ Obligations.NothingYieldAndSleep := by
  rintro ⟨-, -, -, sleepRel, -, -⟩
  obtain ⟨u, run, moved⟩ := sleepRel 64 placedState placedEnv placedEnv_issues rfl
  have asleep := fragState_of_moved moved
  have awake := sleepRel_unheld_runs
  rw [run] at awake
  cases awake.symm.trans asleep

end Sys2Proof.Machine

end

/-! ### Row 0x4: binary32 and packed 16-bit arithmetic (R236 to R240) -/

section

namespace Sys2Proof.Machine

/-! ### The NaN rule (R158, R159, R237) -/

/-- R158: the first NaN quieted, or else the value: the model's option and the statement's search are one rule. -/
theorem getD_firstNan (f : FFmt) (xs : List Nat) (y : Nat) : (f.firstNan xs).getD y = nanOr f xs y := by
  unfold FFmt.firstNan nanOr
  cases xs.find? f.isNan <;> rfl

theorem FFmt.add_eq_nanOr (f : FFmt) (m : Mode) (r a b : Nat) :
    f.add m r a b = nanOr f [a, b] (f.round m r (valAdd m (f.decode a) (f.decode b))) := getD_firstNan _ _ _

theorem FFmt.mul_eq_nanOr (f : FFmt) (m : Mode) (r a b : Nat) :
    f.mul m r a b = nanOr f [a, b] (f.round m r (valMul (f.decode a) (f.decode b))) := getD_firstNan _ _ _

theorem FFmt.fma_eq_nanOr (f : FFmt) (m : Mode) (r a b c : Nat) :
    f.fma m r a b c = nanOr f [a, b, c] (f.round m r (valAdd m (valMul (f.decode a) (f.decode b)) (f.decode c))) := getD_firstNan _ _ _

/-- R158: of two sources, the first one's NaN goes before the second's. -/
theorem nanOr_pair (f : FFmt) (a b y : Nat) :
    nanOr f [a, b] y = if f.isNan a then f.quiet a else if f.isNan b then f.quiet b else y := by
  cases ha : f.isNan a <;> cases hb : f.isNan b <;> simp [nanOr, ha, hb]

/-- R237: with `.num` a NaN beside a number gives way to it; in every other case the NaN rule decides. -/
theorem FFmt.pick_eq_nanOr (f : FFmt) (k : NanKind) (op : Nat → Nat → Nat) (a b : Nat) :
    f.pick k op a b =
      if k = .num ∧ f.isNan a ≠ f.isNan b then (if f.isNan a then b else a) else nanOr f [a, b] (op a b) := by
  rw [nanOr_pair, FFmt.pick]
  cases f.isNan a <;> cases f.isNan b <;> cases k <;> rfl

/-! ### The skeletons of row 0x4 (R154, R240) -/

/-- R154: an instruction of the binary32 skeleton is `Rounded` for any function equal to its own. -/
theorem rounded_of {i : Instr} {g : Guard} {all : Bool} {m : Mode} {d : Reg} {srcs : List Opnd} {op f : Nat → (Nat → Nat) → Nat}
    (hx : ∀ s, exec i s = fltExec g all m d srcs op s) (hf : ∀ r v, op r v = f r v) : Rounded i g all m d srcs f := by
  refine computes_of [] _ hx fun e act v _ => ?_
  simp only [lo32_ofNat, hf]
  rfl

/-- R240: a word of two halves, formed in 64 bits as in 32. -/
theorem lo32_halves (x y : Nat) : lo32 (BitVec.ofNat 64 x + BitVec.ofNat 64 (2 ^ 16 * y)) = BitVec.ofNat 32 (x + 2 ^ 16 * y) := by
  rw [← BitVec.ofNat_add, lo32_ofNat]

/-- R240: an instruction of the packed skeleton is `RoundedHalves` for any function equal to its own. -/
theorem roundedHalves_of {i : Instr} {g : Guard} {all : Bool} {m : Mode} {d : Reg} {srcs : List Opnd} {op f : Nat → (Nat → Nat) → Nat}
    (hx : ∀ s, exec i s = halfExec g all m d srcs op s) (hf : ∀ r v, op r v = f r v) : RoundedHalves i g all m d srcs f := by
  refine computes_of [] _ hx fun e act v _ => ?_
  simp only [lo32_halves, hf, fld, pow_zero, Nat.div_one]
  rfl

/-- Settles O6: each instruction's meaning is the law of its skeleton; its value is the stated one by the NaN rule, and a
compare or a class test is the model's own test of the same two values. -/
theorem floatArithmetic : Obligations.FloatArithmetic := by
  intro g all m k h cc pd d a b c
  refine ⟨?fadd, ?fmul, ?ffma, ?fmin, ?fmax, ?fcmp, ?fclass, ?fclassTest, ?hadd2, ?hmul2, ?hfma2⟩
  case fadd => exact rounded_of (exec_fadd · _ _ _ _ _ _) fun r v => FFmt.add_eq_nanOr _ _ _ _ _
  case fmul => exact rounded_of (exec_fmul · _ _ _ _ _ _) fun r v => FFmt.mul_eq_nanOr _ _ _ _ _
  case ffma => exact rounded_of (exec_ffma · _ _ _ _ _ _ _) fun r v => FFmt.fma_eq_nanOr _ _ _ _ _ _
  case fmin => exact rounded_of (exec_fmin · _ _ _ _ _ _) fun r v => FFmt.pick_eq_nanOr _ _ _ _ _
  case fmax => exact rounded_of (exec_fmax · _ _ _ _ _ _) fun r v => FFmt.pick_eq_nanOr _ _ _ _ _
  case fcmp =>
    refine decides_of [] (fun wf => ?_) fun s => (exec_fcmp s _ _ _ _ _ _).trans ?_
    · simp [Instr.wf, predWf] at wf; omega
    · rfl
  case fclass => exact rounded_of (exec_fclass · _ _ _ _) fun r v => rfl
  case fclassTest =>
    refine decides_of [] (fun wf => ?_) fun s => (exec_fclassTest s _ _ _ _ _).trans ?_
    · simp [Instr.wf, predWf] at wf; omega
    · rfl
  case hadd2 => exact roundedHalves_of (exec_hadd2 · _ _ _ _ _ _ _) fun r v => FFmt.add_eq_nanOr _ _ _ _ _
  case hmul2 => exact roundedHalves_of (exec_hmul2 · _ _ _ _ _ _ _) fun r v => FFmt.mul_eq_nanOr _ _ _ _ _
  case hfma2 => exact roundedHalves_of (exec_hfma2 · _ _ _ _ _ _ _ _) fun r v => FFmt.fma_eq_nanOr _ _ _ _ _ _

end Sys2Proof.Machine

end
